-- ==== Sys2Proof/Word.lean ====
section
/-! DEFINITION. The octet, the unit of everything the loop carries (00_scope.md section 5). -/

namespace Sys2Proof

/-- An octet is eight bits. -/
abbrev Byte := BitVec 8

end Sys2Proof
end

