-- ==== Sys2Proof/Config.lean ====
section
/-! DEFINITION. What the spec fixes as a number for the whole part, and the free values: constants with
no body, so that nothing can be proved of the value itself. -/

namespace Sys2Proof.Config

/-- The part code IDENT reports (R192). -/
def partCode : Nat := 0x0432

/-- Places of the pass-through buffer (R159). -/
def bufferPlaces : Nat := 4

/-- Places of the insert queue (R159). -/
def queuePlaces : Nat := 8

/-- The free places a RECORD frame needs in the insert queue (R135). -/
def recordRoom : Nat := 3

/-- The largest forward streak (R159, R169). -/
def streakLimit : Nat := 4

/-- The largest amount of money, in units (R113). -/
def maxAmount : Nat := 999999999999

/-- The largest rate, in units (R113). -/
def maxRate : Nat := 99999999

/-- FREE VALUE. The revision octet in the reply to IDENT: R174 and R192 name it and give no value.
UNVERIFIED; safe: nothing can be proved of it. Log 5. -/
opaque revision : Byte

/-- FREE VALUE. The order in which two or more clocks take their boundaries at one minute, for a MARK
the framer completes octet by octet (R111, R154: either order). Read at the model's counter `freeIndex`.
Safe: whatever list it gives, every order of the due clocks is possible. Log 4. -/
opaque clockOrder : Nat → List (Fin 4)

/-- FREE VALUE. The period number in the OK reply to REMOVE POINT: the point it names has no context left
(R15) and the reply's layout still carries the field (R192). Read at `freeIndex`. Safe. Log 6. -/
opaque removedPeriod : Nat → BitVec 16

end Sys2Proof.Config
end

