-- ==== Sys2Proof/Syntax.lean ====
section
/-! DEFINITION. The commands of the block, one constructor for each row of spec/opcode_table.json, with
what each carries. A command is an event the world presents to the part: a frame whose last octet has
arrived, a change on a pin, the end of a transmission, the expiry of the minute timer, or the readout
unit's own next step. -/

namespace Sys2Proof

/-- A whole frame of the loop without its sync octet, length octet and CRC, which its other fields
determine (R160, R161, R190; log 1). -/
structure Frame where
  kind    : Byte
  address : Byte
  payload : List Byte
  deriving DecidableEq, Repr

/-- A REQUEST frame whose payload holds a tag, a known request kind (named by the command) and the
argument octets after them (R172, R192). -/
structure Request where
  address : Byte
  tag     : Byte
  args    : List Byte
  deriving DecidableEq, Repr

/-- Why the framer discards a frame that reached its end or its length octet (R162). -/
inductive DiscardFault where
  /-- The CRC octets did not match. -/
  | crcError
  /-- A length octet of 251..255, or a length that fails for a known kind. -/
  | malformed
  deriving DecidableEq, Repr

/-- What a start had made whole when VDD fell during it (R183). -/
structure StartBreak where
  /-- Bit i: the point context i has been cut and restarted, if it is configured (R11). -/
  points  : BitVec 32
  /-- Bit k: clock k has loaded its hold counter (R76). -/
  clocks  : BitVec 4
  /-- A readout in flight has been ended (R141). -/
  readout : Bool
  /-- How many steps of the completion of a close in flight have been made (R110). -/
  closes  : Nat
  deriving DecidableEq, Repr

/-- The commands. `order` in `mark` and `selfAdvance` is the order in which clocks that have a boundary at
the same minute take it: the clocks listed first, the others after them in ascending number (log 4). `broken`
in `restartWarmStart`, `powerUp` and `resetn` says that VDD falls during the start the command makes, and how
far that start had come (R183; log 18); a start with nothing said of it comes to its end. -/
inductive Instr where
  | mark (order : List (Fin 4)) (address : Byte) (payload : List Byte)
  | selfAdvance (order : List (Fin 4))
  | reading (address : Byte) (payload : List Byte)
  | passThroughFrame (frame : Frame)
  | frameDiscard (fault : DiscardFault)
  | truncatedFrame (octets : List Byte)
  | frameSent
  | unknownRequest (address : Byte) (payload : List Byte)
  | ident (request : Request)
  | assignStation (request : Request)
  | ackStart (request : Request)
  | setPoint (request : Request)
  | removePoint (request : Request)
  | holdPoint (request : Request)
  | releasePoint (request : Request)
  | setClock (request : Request)
  | loadTable (request : Request)
  | readTable (request : Request)
  | activateNow (request : Request)
  | activateAtClose (request : Request)
  | activateCancel (request : Request)
  | closePeriod (request : Request)
  | readout (request : Request)
  | readoutSearch
  | readoutEmit
  | readoutEnd
  | abortReadout (request : Request)
  | queryPoint (request : Request)
  | queryDevice (request : Request)
  | clearAttention (request : Request)
  | lockClearable (request : Request)
  | lockCommission (request : Request)
  | unlock (request : Request)
  | restart (request : Request)
  | restartWarmStart (broken : Option StartBreak := none)
  | supwarn (high : Bool)
  | powerUp (broken : Option StartBreak := none)
  | resetn (broken : Option StartBreak := none)
  | resetnRelease
  | strayOctet (octet : Byte)
  | supplyLoss
  | vbakFailure
  deriving DecidableEq, Repr

end Sys2Proof
end

