-- ==== Sys2Proof/Decode.lean ====
section
/-! DEFINITION. From frames to commands and back: the codes of frame kinds and request kinds, the length
each calls for, the command a good frame is, and the frame a command carries (R161, R163, R190 to R192).
The table of commands gives no row any bits, so no word spells a command. -/

namespace Sys2Proof

/-! ## Frame kinds -/

/-- The sync octet (R160, R190). -/
def syncOctet : Byte := 0xC5

def kindMark : Byte := 0x10
def kindReading : Byte := 0x20
def kindRequest : Byte := 0x30
def kindReply : Byte := 0x31
def kindRecord : Byte := 0x32

/-- The address of an ASSIGN STATION for an unassigned part, and of every frame an unassigned part
inserts (R164). -/
def unassignedAddress : Byte := 0xFF

/-- The payload lengths R161 checks, with the numbers of R190. -/
def Frame.lengthOk (f : Frame) : Bool :=
  decide (f.payload.length ≤ 250) &&
    (if f.kind = kindMark then decide (f.payload.length = 9)
     else if f.kind = kindReading then decide (f.payload.length = 20)
     else if f.kind = kindReply then decide (5 ≤ f.payload.length)
     else if f.kind = kindRecord then decide (f.payload.length = 228)
     else true)

/-! ## Request kinds -/

/-- The request kinds of the table of section 11.3. READOUT END is a kind replies alone carry. -/
inductive RequestKind where
  | ident | assignStation | ackStart | setPoint | removePoint | holdPoint | releasePoint | setClock
  | loadTable | readTable | activate | closePeriod | readout | abortReadout | queryPoint | queryDevice
  | clearAttention | lock | unlock | restart
  deriving DecidableEq, Repr

/-- The code of each request kind (R192). -/
def RequestKind.code : RequestKind → Byte
  | .ident => 0x01
  | .assignStation => 0x02
  | .ackStart => 0x03
  | .setPoint => 0x10
  | .removePoint => 0x11
  | .holdPoint => 0x12
  | .releasePoint => 0x13
  | .setClock => 0x18
  | .loadTable => 0x20
  | .readTable => 0x21
  | .activate => 0x22
  | .closePeriod => 0x28
  | .readout => 0x30
  | .abortReadout => 0x31
  | .queryPoint => 0x38
  | .queryDevice => 0x39
  | .clearAttention => 0x3A
  | .lock => 0x40
  | .unlock => 0x41
  | .restart => 0x48

/-- The code of READOUT END, which a REQUEST may not name (R172, R192). -/
def codeReadoutEnd : Byte := 0x32

/-- Every request kind. -/
def RequestKind.all : List RequestKind :=
  [.ident, .assignStation, .ackStart, .setPoint, .removePoint, .holdPoint, .releasePoint, .setClock,
   .loadTable, .readTable, .activate, .closePeriod, .readout, .abortReadout, .queryPoint, .queryDevice,
   .clearAttention, .lock, .unlock, .restart]

/-- The request kind an octet names, if any (R172 check 2). -/
def RequestKind.ofCode (o : Byte) : Option RequestKind :=
  RequestKind.all.find? (fun k => k.code = o)

/-- How many argument octets follow tag and request kind: the payload length of R192 less 2. LOAD TABLE
checks its own length (R146). -/
def RequestKind.argLength : RequestKind → Option Nat
  | .ident => some 0
  | .assignStation => some 1
  | .ackStart => some 0
  | .setPoint => some 16
  | .removePoint => some 1
  | .holdPoint => some 1
  | .releasePoint => some 1
  | .setClock => some 5
  | .loadTable => none
  | .readTable => some 3
  | .activate => some 1
  | .closePeriod => some 0
  | .readout => some 8
  | .abortReadout => some 0
  | .queryPoint => some 2
  | .queryDevice => some 1
  | .clearAttention => some 7
  | .lock => some 1
  | .unlock => some 0
  | .restart => some 0

/-- The REQUEST frame that carries a request of a kind. -/
def Request.frame (k : RequestKind) (r : Request) : Frame :=
  { kind := kindRequest, address := r.address, payload := r.tag :: k.code :: r.args }

/-! ## Frames and commands -/

/-- The command a REQUEST of a known kind is. ACTIVATE and LOCK have a row for each argument; a REQUEST
whose argument names no row is spelled by ACTIVATE_NOW or LOCK_CLEARABLE (log 16). -/
def requestCommand (k : RequestKind) (r : Request) : Instr :=
  match k with
  | .ident => .ident r
  | .assignStation => .assignStation r
  | .ackStart => .ackStart r
  | .setPoint => .setPoint r
  | .removePoint => .removePoint r
  | .holdPoint => .holdPoint r
  | .releasePoint => .releasePoint r
  | .setClock => .setClock r
  | .loadTable => .loadTable r
  | .readTable => .readTable r
  | .activate =>
    if r.args = [1] then .activateAtClose r else if r.args = [2] then .activateCancel r else .activateNow r
  | .closePeriod => .closePeriod r
  | .readout => .readout r
  | .abortReadout => .abortReadout r
  | .queryPoint => .queryPoint r
  | .queryDevice => .queryDevice r
  | .clearAttention => .clearAttention r
  | .lock => if r.args = [1] then .lockCommission r else .lockClearable r
  | .unlock => .unlock r
  | .restart => .restart r

/-- The command a good frame is, by its kind and payload (R163, R172). What the part does with it also
depends on its address and the part's station, which the command's meaning looks at. `order` is the
clocks' order at the minute a MARK brings. -/
def commandOf (order : List (Fin 4)) (f : Frame) : Instr :=
  if f.kind = kindMark then .mark order f.address f.payload
  else if f.kind = kindReading then .reading f.address f.payload
  else if f.kind = kindRequest then
    match f.payload with
    | tag :: code :: args =>
      match RequestKind.ofCode code with
      | some k => requestCommand k { address := f.address, tag := tag, args := args }
      | none => .unknownRequest f.address f.payload
    | _ => .unknownRequest f.address f.payload
  else .passThroughFrame f

/-- The frame a command carries, for the commands that are a good frame's arrival. -/
def Instr.frame? : Instr → Option Frame
  | .mark _ a p => some { kind := kindMark, address := a, payload := p }
  | .selfAdvance _ => none
  | .reading a p => some { kind := kindReading, address := a, payload := p }
  | .passThroughFrame f => some f
  | .frameDiscard _ => none
  | .truncatedFrame _ => none
  | .frameSent => none
  | .unknownRequest a p => some { kind := kindRequest, address := a, payload := p }
  | .ident r => some (r.frame .ident)
  | .assignStation r => some (r.frame .assignStation)
  | .ackStart r => some (r.frame .ackStart)
  | .setPoint r => some (r.frame .setPoint)
  | .removePoint r => some (r.frame .removePoint)
  | .holdPoint r => some (r.frame .holdPoint)
  | .releasePoint r => some (r.frame .releasePoint)
  | .setClock r => some (r.frame .setClock)
  | .loadTable r => some (r.frame .loadTable)
  | .readTable r => some (r.frame .readTable)
  | .activateNow r => some (r.frame .activate)
  | .activateAtClose r => some (r.frame .activate)
  | .activateCancel r => some (r.frame .activate)
  | .closePeriod r => some (r.frame .closePeriod)
  | .readout r => some (r.frame .readout)
  | .readoutSearch => none
  | .readoutEmit => none
  | .readoutEnd => none
  | .abortReadout r => some (r.frame .abortReadout)
  | .queryPoint r => some (r.frame .queryPoint)
  | .queryDevice r => some (r.frame .queryDevice)
  | .clearAttention r => some (r.frame .clearAttention)
  | .lockClearable r => some (r.frame .lock)
  | .lockCommission r => some (r.frame .lock)
  | .unlock r => some (r.frame .unlock)
  | .restart r => some (r.frame .restart)
  | .restartWarmStart _ => none
  | .supwarn _ => none
  | .powerUp _ => none
  | .resetn _ => none
  | .resetnRelease => none
  | .strayOctet _ => none
  | .supplyLoss => none
  | .vbakFailure => none

/-- The clocks' order a command carries (empty where it carries none). -/
def Instr.order : Instr → List (Fin 4)
  | .mark order _ _ => order
  | .selfAdvance order => order
  | _ => []

/-- The command a word spells by the table's bits. spec/opcode_table.json gives no row any bits
(98_reader.md: "n_rows_with_fields": 0), so a word spells none. Log 20. -/
def decodeTableWord (_nbits _w : Nat) : Option Instr := none

end Sys2Proof
end

