-- ==== Sys2Proof/Machine/Context.lean ====
section
/-! DEFINITION. The pieces the state is made of: the point context, the clocks, the time base, the tariff
sets, the billing record and the blocks' own items, each with the values it takes at a cold start. Ranges
the types do not carry are kept by the operations. -/

namespace Sys2Proof.Machine

/-! ## Time -/

/-- A calendar time to the minute (R37). -/
structure CalTime where
  year   : Nat
  month  : Nat
  day    : Nat
  hour   : Nat
  minute : Nat
  deriving DecidableEq, Repr

/-- The time state (R37). -/
inductive TimeState where
  | unset | locked | holdover | uncertain
  deriving DecidableEq, Repr

/-- The minute timer: stopped, or running with the seconds it was loaded with (R37, R44; log 17). -/
inductive MinuteTimer where
  | stopped | running60 | running65
  deriving DecidableEq, Repr

/-- A year and month (R37, the last scheduled close month). -/
structure YearMonth where
  year  : Nat
  month : Nat
  deriving DecidableEq, Repr

/-- The time base (R37). `calendar = none` is ABSENT, `lastClose = none` is NONE. -/
structure TimeBase where
  calendar   : Option CalTime
  state      : TimeState
  timer      : MinuteTimer
  holdover   : Nat
  lastClose  : Option YearMonth
  duplicates : Nat
  invalid    : Nat
  steps      : Nat
  deriving DecidableEq, Repr

/-- The time base after a cold start (R37). -/
def TimeBase.cold : TimeBase :=
  { calendar := none, state := .unset, timer := .stopped, holdover := 0, lastClose := none,
    duplicates := 0, invalid := 0, steps := 0 }

/-! ## Demand clocks -/

/-- A demand clock (R55): L is `length`, W is `window`, H is `holdLength`. -/
structure Clock where
  enabled    : Bool
  length     : Nat
  window     : Nat
  holdLength : Nat
  hold       : Nat
  peak       : Nat
  peakStamp  : Option CalTime
  deriving DecidableEq, Repr

/-- A clock after a cold start (R55). -/
def Clock.cold : Clock :=
  { enabled := false, length := 15, window := 1, holdLength := 0, hold := 0, peak := 0, peakStamp := none }

/-! ## The point context -/

/-- Four cumulative registers of a front-end, 32 bits each and wrapping (R7, R27). -/
structure Registers where
  ai : BitVec 32
  ae : BitVec 32
  rl : BitVec 32
  rc : BitVec 32
  deriving DecidableEq, Repr

/-- Four energies, in Wh or varh (R7). -/
structure Energies where
  ai : Nat
  ae : Nat
  rl : Nat
  rc : Nat
  deriving DecidableEq, Repr

def Energies.zero : Energies := { ai := 0, ae := 0, rl := 0, rc := 0 }

/-- The configuration record (R1). -/
structure PointConfig where
  clock         : Option (Fin 4)
  schedule      : Fin 8
  option        : Option (Fin 4)
  contract      : Nat
  warnPercent   : Nat
  lossLimit     : Nat
  plausibility  : Nat
  attentionMask : BitVec 6
  forward       : Bool
  deriving DecidableEq, Repr

/-- An open sub-interval (R7, R66). `accepted` is its "any frame accepted" marker. -/
structure SubInterval where
  energy     : Energies
  ratePeriod : Fin 4
  quality    : BitVec 5
  accepted   : Bool
  deriving DecidableEq, Repr

/-- An entry of the window ring (R65). -/
structure RingEntry where
  ai         : Nat
  quality    : BitVec 5
  ratePeriod : Fin 4
  deriving DecidableEq, Repr

/-- The present demand (R7, R69). -/
structure PresentDemand where
  demand   : Nat
  eligible : Bool
  stamp    : CalTime
  deriving DecidableEq, Repr

/-- A maximum with its stamp (R7, R71). -/
structure Maximum where
  value : Nat
  stamp : Option CalTime
  deriving DecidableEq, Repr

def Maximum.zero : Maximum := { value := 0, stamp := none }

/-- The period counters (R8). -/
structure PeriodCounters where
  missing     : Nat
  gap         : Nat
  ineligible  : Nat
  exceedances : Nat
  outages     : Nat
  deriving DecidableEq, Repr

def PeriodCounters.zero : PeriodCounters :=
  { missing := 0, gap := 0, ineligible := 0, exceedances := 0, outages := 0 }

/-- The life counters (R9). -/
structure LifeCounters where
  duplicates      : Nat
  stale           : Nat
  lost            : Nat
  discontinuities : Nat
  restarts        : Nat
  deriving DecidableEq, Repr

def LifeCounters.zero : LifeCounters :=
  { duplicates := 0, stale := 0, lost := 0, discontinuities := 0, restarts := 0 }

/-- The three carried residues, in units (R123). -/
structure Residues where
  tou      : Int
  facility : Int
  reactive : Int
  deriving DecidableEq, Repr

def Residues.zero : Residues := { tou := 0, facility := 0, reactive := 0 }

/-- A configured point: its configuration record and running context (R1, R7). -/
structure Point where
  config       : PointConfig
  baselines    : Option Registers
  lastSeq      : Option Byte
  sub          : Option SubInterval
  /-- The window ring, newest first. -/
  ring         : List RingEntry
  present      : Option PresentDemand
  maxD         : Vector Maximum 4
  maxAll       : Maximum
  contribution : Nat
  totals       : Energies
  attributed   : Nat
  unattributed : Energies
  excessSum    : Nat
  missingCount : Nat
  period       : BitVec 16
  counters     : PeriodCounters
  life         : LifeCounters
  periodFlags  : BitVec 4
  status       : BitVec 6
  attention    : Bool
  operator     : Bool
  conflict     : Bool
  /-- The ratchet stack, entry 1 first (R102). -/
  ratchet      : List Nat
  residues     : Residues
  deriving DecidableEq, Repr

/-- The derived point state (R2). -/
inductive PointState where
  | unused | held | loss | active
  deriving DecidableEq, Repr

/-- The running context of a point configured from UNUSED (R13), before it takes up its clock. -/
def Point.fresh (config : PointConfig) (period : BitVec 16) : Point :=
  { config := config, baselines := none, lastSeq := none, sub := none, ring := [], present := none,
    maxD := Vector.replicate 4 Maximum.zero, maxAll := Maximum.zero, contribution := 0,
    totals := Energies.zero, attributed := 0, unattributed := Energies.zero, excessSum := 0,
    missingCount := 0, period := period, counters := PeriodCounters.zero, life := LifeCounters.zero,
    periodFlags := 0, status := 0, attention := false, operator := false, conflict := false,
    ratchet := List.replicate 12 0, residues := Residues.zero }

/-! ## The tariff store -/

/-- A season start (R144). -/
structure MonthDay where
  month : Nat
  day   : Nat
  deriving DecidableEq, Repr

/-- A holiday entry; `year = none` is ABSENT (R50, R144). -/
structure Holiday where
  month : Nat
  day   : Nat
  year  : Option Nat
  deriving DecidableEq, Repr

/-- A switch point of a profile (R51, R144). -/
structure SwitchPoint where
  minute     : Nat
  ratePeriod : Fin 4
  deriving DecidableEq, Repr

/-- A scheduled close instant (R53, R144). -/
structure CloseInstant where
  day    : Nat
  minute : Nat
  deriving DecidableEq, Repr

/-- A rate schedule (R114, R144): Rm is `ratchetMonths`, pct `ratchetPercent`, minPct `minPercent`. -/
structure Schedule where
  rateTOU        : Vector Nat 4
  rateFAC        : Nat
  rateVAR        : Nat
  ratchetMonths  : Nat
  ratchetPercent : Nat
  minPercent     : Nat
  deriving DecidableEq, Repr

/-- A schedule never loaded (R145). -/
def Schedule.zero : Schedule :=
  { rateTOU := Vector.replicate 4 0, rateFAC := 0, rateVAR := 0, ratchetMonths := 0, ratchetPercent := 0,
    minPercent := 0 }

/-- A penalty option slot (R79): `leading` is ADD, `subinterval` the SUBINTERVAL basis. -/
structure PenaltyOption where
  threshold   : Nat
  leading     : Bool
  subinterval : Bool
  deriving DecidableEq, Repr

/-- A slot never loaded: thr 0, IGNORE, PERIOD (R79, R145). -/
def PenaltyOption.zero : PenaltyOption := { threshold := 0, leading := false, subinterval := false }

/-- A tariff set: calendar, eight schedules, four options (R143, R144). -/
structure TariffSet where
  seasons      : List MonthDay
  weekdays     : Vector (Fin 3) 7
  holidays     : List Holiday
  /-- The profile of season s and day type y stands at 4s+y (R192). -/
  profileMap   : Vector (Fin 8) 16
  profiles     : Vector (List SwitchPoint) 8
  closeInstant : Option CloseInstant
  schedules    : Vector Schedule 8
  options      : Vector PenaltyOption 4
  deriving DecidableEq, Repr

/-- The never-loaded set (R145). -/
def TariffSet.neverLoaded : TariffSet :=
  { seasons := [], weekdays := Vector.replicate 7 0, holidays := [], profileMap := Vector.replicate 16 0,
    profiles := Vector.replicate 8 [], closeInstant := none, schedules := Vector.replicate 8 Schedule.zero,
    options := Vector.replicate 4 PenaltyOption.zero }

/-- The tariff store (R143). `atClose` is the activation mark, true for AT_CLOSE. -/
structure TariffStore where
  active  : TariffSet
  pending : TariffSet
  atClose : Bool
  deriving DecidableEq, Repr

def TariffStore.cold : TariffStore :=
  { active := TariffSet.neverLoaded, pending := TariffSet.neverLoaded, atClose := false }

/-- One table of a tariff set, with its index where a set holds several (R144). -/
inductive Table where
  | seasons (entries : List MonthDay)
  | weekdays (types : Vector (Fin 3) 7)
  | holidays (entries : List Holiday)
  | profileMap (profiles : Vector (Fin 8) 16)
  | profile (index : Fin 8) (points : List SwitchPoint)
  | closeInstant (instant : Option CloseInstant)
  | schedule (index : Fin 8) (schedule : Schedule)
  | option (index : Fin 4) (option : PenaltyOption)
  deriving DecidableEq, Repr

/-! ## The billing record and the history store -/

/-- The four values of one charge kind (R100, R121): U, c, B and c′. -/
structure ChargeLine where
  unrounded : Nat
  carriedIn : Int
  billed    : Nat
  carriedOut : Int
  deriving DecidableEq, Repr

/-- A billing record (R100, R128). -/
structure BillingRecord where
  point         : Fin 32
  period        : BitVec 16
  sequence      : BitVec 32
  stamp         : Option CalTime
  flags         : BitVec 7
  schedule      : Fin 8
  option        : Option (Fin 4)
  totals        : Energies
  attributed    : Nat
  unattributed  : Energies
  maxD          : Vector Maximum 4
  maxAll        : Maximum
  contribution  : Nat
  clockPeak     : Nat
  peakStamp     : Option CalTime
  ratchetDemand : Nat
  minimumDemand : Nat
  facilityDemand : Nat
  excess        : Nat
  ratio         : Nat
  tou           : ChargeLine
  facility      : ChargeLine
  reactive      : ChargeLine
  total         : Nat
  counters      : PeriodCounters
  ratchetEntry  : Nat
  deriving DecidableEq, Repr

/-- The history store (R124). -/
structure History where
  slots      : Vector (Option BillingRecord) 384
  writeIndex : Fin 384
  valid      : Nat
  sequence   : BitVec 32
  deriving DecidableEq, Repr

def History.cold : History :=
  { slots := Vector.replicate 384 none, writeIndex := 0, valid := 0, sequence := 0 }

/-! ## The close unit -/

/-- The close unit (R91): `inFlight = some P` is IN_FLIGHT with closing period P, `none` is IDLE. Bit k of
`pendingSet` is clock k. -/
structure CloseUnit where
  inFlight     : Option (BitVec 16)
  pendingSet   : BitVec 4
  devicePeriod : BitVec 16
  deriving DecidableEq, Repr

def CloseUnit.cold : CloseUnit := { inFlight := none, pendingSet := 0, devicePeriod := 0 }

/-! ## The readout unit -/

/-- The end reasons of a readout (R138). -/
inductive EndReason where
  | done | notFound | overtaken | aborted | supply | restart
  deriving DecidableEq, Repr

/-- A readout's request, its place among the periods and its counts (R130). -/
structure ReadoutJob where
  tag                 : Byte
  mask                : BitVec 32
  first               : BitVec 16
  count               : Nat
  stopOnMissing       : Bool
  continueOnOvertake  : Bool
  current             : BitVec 16
  begun               : Nat
  sent                : Nat
  missingPeriods      : Nat
  missingPoints       : Nat
  overtaken           : Nat
  deriving DecidableEq, Repr

/-- The run being emitted (R130, R133). `waiting`: the step at this offset was not taken for want of room
and waits for a departure (R135). -/
structure Run where
  firstSlot : Fin 384
  firstSeq  : BitVec 32
  length    : Nat
  offset    : Nat
  found     : BitVec 32
  waiting   : Bool
  deriving DecidableEq, Repr

/-- The readout's phase with the items that have a value in it (R130). -/
inductive Phase where
  | idle
  | search (job : ReadoutJob)
  | emit (job : ReadoutJob) (run : Run)
  | report (job : ReadoutJob) (reason : EndReason)
  deriving DecidableEq, Repr

/-- The readout unit (R130); `lastEnd = none` is NONE. -/
structure ReadoutUnit where
  phase   : Phase
  lastEnd : Option EndReason
  deriving DecidableEq, Repr

def ReadoutUnit.cold : ReadoutUnit := { phase := .idle, lastEnd := none }

/-! ## Loop port, request decoder, attention, supply -/

/-- The framer (R159, R160), with the octets it holds. -/
inductive Framer where
  | hunt
  | header (held : List Byte)
  | body (kind address : Byte) (length : Nat) (held : List Byte)
  | check (kind address : Byte) (payload : List Byte) (first : Option Byte)
  deriving DecidableEq, Repr

/-- A frame of the part's own on its way out. `restartReply` marks the reply a pending restart waits for
(R171, R176). -/
structure QueuedFrame where
  frame        : Frame
  restartReply : Bool
  deriving DecidableEq, Repr

/-- The transmitter (R159). A forwarded frame is sent with `restartReply = false`. -/
inductive Transmitter where
  | free
  | sending (frame : QueuedFrame)
  deriving DecidableEq, Repr

/-- The six link counters (R159). -/
structure LinkCounters where
  crc             : Nat
  truncated       : Nat
  malformed       : Nat
  stray           : Nat
  forwardOverruns : Nat
  requestOverruns : Nat
  deriving DecidableEq, Repr

def LinkCounters.zero : LinkCounters :=
  { crc := 0, truncated := 0, malformed := 0, stray := 0, forwardOverruns := 0, requestOverruns := 0 }

/-- The loop port (R159). Oldest frame first in `buffer` and `queue`. -/
structure Port where
  framer      : Framer
  buffer      : List Frame
  queue       : List QueuedFrame
  transmitter : Transmitter
  streak      : Nat
  counters    : LinkCounters
  deriving DecidableEq, Repr

def Port.cold : Port :=
  { framer := .hunt, buffer := [], queue := [], transmitter := .free, streak := 0,
    counters := LinkCounters.zero }

/-- The start kind (R171). -/
inductive StartKind where
  | cold | warm
  deriving DecidableEq, Repr

/-- The request decoder (R155, R171); `station = none` is unassigned. The reply a pending restart waits for
is marked in the insert queue or the transmitter. -/
structure Decoder where
  station        : Option (Fin 8)
  clearable      : Bool
  commissioning  : Bool
  startKind      : StartKind
  startAck       : Bool
  restartPending : Bool
  deriving DecidableEq, Repr

def Decoder.cold : Decoder :=
  { station := none, clearable := false, commissioning := false, startKind := .cold, startAck := false,
    restartPending := false }

/-- The attention unit without the points' own bits (R179). -/
structure Attention where
  flags : BitVec 11
  mask  : BitVec 11
  bit   : Bool
  deriving DecidableEq, Repr

def Attention.cold : Attention := { flags := 0, mask := 0, bit := false }

/-- Supply and input pins: VDD in its operating range, the retention mark (R182, R183), RESETN low (R185),
SUPWARN high (R184). -/
structure Supply where
  vdd       : Bool
  retention : Bool
  resetnLow : Bool
  supwarn   : Bool
  deriving DecidableEq, Repr

end Sys2Proof.Machine
end

