-- ==== Sys2Proof/Machine/Octets.lean ====
section
/-! DEFINITION. Octets and multi-octet fields, high octet first (R190), and the frame CRC (R161). -/

namespace Sys2Proof.Machine

/-- A value in `n` octets, high octet first (R190). -/
def beBytes : Nat → Nat → List Byte
  | 0, _ => []
  | n + 1, v => BitVec.ofNat 8 (v / 256 ^ n) :: beBytes n v

/-- The value of octets sent high octet first (R190). -/
def beNat (os : List Byte) : Nat := os.foldl (fun a o => a * 256 + o.toNat) 0

/-- One octet holding a number. -/
def oct (v : Nat) : Byte := BitVec.ofNat 8 v

/-- One octet holding a yes or no. -/
def octBool (b : Bool) : Byte := if b then 1 else 0

/-- One step of the CRC: generator 0x1021, no reflection (R161). -/
def crcBit (c : BitVec 16) : BitVec 16 := if c.msb then (c <<< 1) ^^^ 0x1021 else c <<< 1

/-- The CRC carried over one octet. -/
def crcOctet (c : BitVec 16) (o : Byte) : BitVec 16 :=
  crcBit (crcBit (crcBit (crcBit (crcBit (crcBit (crcBit (crcBit (c ^^^ (o.setWidth 16 <<< 8)))))))))

/-- The CRC over octets in the order received, initial value 0xFFFF, no final inversion (R161). -/
def crc16 (os : List Byte) : BitVec 16 := os.foldl crcOctet 0xFFFF

/-- The octets the CRC covers: kind, address, length and payload (R161). -/
def frameContents (f : Frame) : List Byte := f.kind :: f.address :: oct f.payload.length :: f.payload

/-- A frame's CRC (R161). -/
def frameCrc (f : Frame) : BitVec 16 := crc16 (frameContents f)

/-- A frame as it stands on the loop (R190): sync, contents, CRC high octet first. -/
def frameOctets (f : Frame) : List Byte := syncOctet :: (frameContents f ++ beBytes 2 (frameCrc f).toNat)

end Sys2Proof.Machine
end

