-- ==== Sys2Proof/Machine/Flags.lean ====
section
/-! DEFINITION. The flag sets and their bits (R190), saturating counters, and raising a status flag with its
attention bit (R10). -/

namespace Sys2Proof.Machine

/-! ## Sets -/

/-- Member i is in the set. -/
def hasFlag {n : Nat} (s : BitVec n) (i : Nat) : Bool := s.getLsbD i

/-- The set with member i added. -/
def addFlag {n : Nat} (s : BitVec n) (i : Nat) : BitVec n := s ||| BitVec.twoPow n i

/-- The set with member i taken out. -/
def dropFlag {n : Nat} (s : BitVec n) (i : Nat) : BitVec n := s &&& ~~~(BitVec.twoPow n i)

/-! ## Places of the flags (R190) -/

/-- Status flags and attention mask, bits from 0. -/
inductive StatusFlag where
  | loss | exceed | warn | discont | feRestart | closed
  deriving DecidableEq, Repr

def StatusFlag.place : StatusFlag → Nat
  | .loss => 0
  | .exceed => 1
  | .warn => 2
  | .discont => 3
  | .feRestart => 4
  | .closed => 5

/-- Period flags, bits from 0. -/
inductive PeriodFlag where
  | timeHoldover | timeStep | cutSeen | heldSeen
  deriving DecidableEq, Repr

def PeriodFlag.place : PeriodFlag → Nat
  | .timeHoldover => 0
  | .timeStep => 1
  | .cutSeen => 2
  | .heldSeen => 3

/-- Quality flags, bits from 0 (R67, R190). -/
inductive QualityFlag where
  | gap | noData | short | cut | held
  deriving DecidableEq, Repr

def QualityFlag.place : QualityFlag → Nat
  | .gap => 0
  | .noData => 1
  | .short => 2
  | .cut => 3
  | .held => 4

/-- Device flags and device mask, bits from 0 (R179, R190). -/
inductive DeviceFlag where
  | timeStep | holdover | uncertain | link | fwdOverrun | reqOverrun | busyRefused | lockRefused
  | closeDone | readoutEnd | supplyWarn
  deriving DecidableEq, Repr

def DeviceFlag.place : DeviceFlag → Nat
  | .timeStep => 0
  | .holdover => 1
  | .uncertain => 2
  | .link => 3
  | .fwdOverrun => 4
  | .reqOverrun => 5
  | .busyRefused => 6
  | .lockRefused => 7
  | .closeDone => 8
  | .readoutEnd => 9
  | .supplyWarn => 10

/-- The flags of a billing record, bits from 0 (R101, R190): the four period flags keep their order. -/
def recordFlags (inexact overflow : Bool) (period : BitVec 4) (cutClose : Bool) : BitVec 7 :=
  BitVec.ofBool cutClose ++ period ++ BitVec.ofBool overflow ++ BitVec.ofBool inexact

/-! ## Saturating counters -/

/-- A sum that is held at its largest value (00_scope.md section 5, R32). -/
def satAdd (limit a b : Nat) : Nat := min limit (a + b)

def max8 : Nat := 255
def max16 : Nat := 65535
def max32 : Nat := 4294967295
def max64 : Nat := 18446744073709551615

/-- A counter of 0..65,535 counts once (R8, R9, R159). -/
def bump (n : Nat) : Nat := satAdd max16 n 1

/-- Energies added register by register, each held at the limit (R32). -/
def Energies.satAdd (limit : Nat) (a b : Energies) : Energies :=
  { ai := Machine.satAdd limit a.ai b.ai, ae := Machine.satAdd limit a.ae b.ae,
    rl := Machine.satAdd limit a.rl b.rl, rc := Machine.satAdd limit a.rc b.rc }

/-! ## Flags of a point -/

/-- Raises a status flag: sticky, and its rise from 0 sets the attention bit while the flag is in the
attention mask (R10). -/
def Point.raiseStatus (p : Point) (f : StatusFlag) : Point :=
  { p with
    status := addFlag p.status f.place
    attention := p.attention || (!hasFlag p.status f.place && hasFlag p.config.attentionMask f.place) }

/-- Raises a period flag (R10). -/
def Point.raisePeriod (p : Point) (f : PeriodFlag) : Point :=
  { p with periodFlags := addFlag p.periodFlags f.place }

/-- The point is HELD: its hold-cause set is not empty (R2, R3). -/
def Point.held (p : Point) : Bool := p.operator || p.conflict

/-- The point's missing count is at or above its loss limit (R2, R4, R28). -/
def Point.inLoss (p : Point) : Bool := decide (p.config.lossLimit ≤ p.missingCount)

/-- The derived state of a configured point (R2). -/
def Point.state (p : Point) : PointState :=
  if p.held then .held else if p.inLoss then .loss else .active

/-- The derived state of a point context (R2). -/
def pointState : Option Point → PointState
  | none => .unused
  | some p => p.state

/-- The point's clock field names clock k. -/
def Point.onClock (p : Point) (k : Fin 4) : Bool := decide (p.config.clock = some k)

end Sys2Proof.Machine
end

