-- ==== Sys2Proof/Machine/Calendar.lean ====
section
/-! DEFINITION. Calendar arithmetic (R38 to R40), the rate period in force (R49 to R51) and the scheduled
close instant (R53). -/

namespace Sys2Proof.Machine

/-! ## Dates -/

/-- A leap year of 2000..2099 is a year divisible by 4 (R39). -/
def leapYear (y : Nat) : Bool := y % 4 == 0

/-- The length of a month, February being of `feb` days (R39). -/
def monthLengthWith (feb m : Nat) : Nat :=
  if m = 2 then feb else if m = 4 ∨ m = 6 ∨ m = 9 ∨ m = 11 then 30 else 31

/-- The length of a month in a year (R39). -/
def monthLength (y m : Nat) : Nat := monthLengthWith (if leapYear y then 29 else 28) m

/-- A valid time: all five fields in range (R38). -/
def CalTime.valid (t : CalTime) : Bool :=
  decide (2000 ≤ t.year ∧ t.year ≤ 2099) && decide (1 ≤ t.month ∧ t.month ≤ 12) &&
    decide (1 ≤ t.day ∧ t.day ≤ monthLength t.year t.month) && decide (t.hour ≤ 23) && decide (t.minute ≤ 59)

/-- The time following, C+1, wrapping from 2099 to 2000 (R39). -/
def CalTime.next (t : CalTime) : CalTime :=
  if t.minute + 1 < 60 then { t with minute := t.minute + 1 }
  else if t.hour + 1 < 24 then { t with minute := 0, hour := t.hour + 1 }
  else if t.day + 1 ≤ monthLength t.year t.month then { t with minute := 0, hour := 0, day := t.day + 1 }
  else if t.month + 1 ≤ 12 then { t with minute := 0, hour := 0, day := 1, month := t.month + 1 }
  else { year := if t.year + 1 < 2100 then t.year + 1 else 2000, month := 1, day := 1, hour := 0, minute := 0 }

/-- The minute-of-day, 0..1439. -/
def CalTime.minuteOfDay (t : CalTime) : Nat := t.hour * 60 + t.minute

/-- The days before a month in its year. -/
def daysBeforeMonth (y m : Nat) : Nat := ((List.range (m - 1)).map (fun k => monthLength y (k + 1))).sum

/-- The days from 2000-01-01 to a date (R40). -/
def daysFrom2000 (y m d : Nat) : Nat :=
  (y - 2000) * 365 + (y - 2000 + 3) / 4 + daysBeforeMonth y m + (d - 1)

/-- The weekday: 0 is Monday; 2000-01-01 is 5 (R40). -/
def weekday (y m d : Nat) : Fin 7 := Fin.ofNat 7 (5 + daysFrom2000 y m d)

/-- Minutes since 2000-01-01 00:00, the encoding of a stamp (R190). -/
def CalTime.minutes (t : CalTime) : Nat := daysFrom2000 t.year t.month t.day * 1440 + t.minuteOfDay

/-! ## The rate period -/

/-- A season start at or before a date, by month and day alone (R49). -/
def MonthDay.atOrBefore (e : MonthDay) (m d : Nat) : Bool :=
  decide (e.month < m) || (decide (e.month = m) && decide (e.day ≤ d))

/-- The season of a date: the position of the latest start at or before it, else of the last entry, else 0
(R49). The list is in ascending order, so the starts reached are its first ones. -/
def season (l : List MonthDay) (m d : Nat) : Nat :=
  let reached := (l.filter (fun e => e.atOrBefore m d)).length
  if reached = 0 then l.length - 1 else reached - 1

/-- A holiday entry matches a date (R50). -/
def Holiday.isOn (h : Holiday) (t : CalTime) : Bool :=
  decide (h.month = t.month) && decide (h.day = t.day) &&
    (match h.year with
     | none => true
     | some y => decide (y = t.year))

/-- The day type: 3 on a holiday, else the weekday map's value (R50). -/
def dayType (set : TariffSet) (t : CalTime) : Nat :=
  if set.holidays.any (fun h => h.isOn t) then 3
  else (set.weekdays[weekday t.year t.month t.day]).val

/-- The rate period a profile gives at a minute-of-day: that of the latest switch point at or before it,
else of the last in the list, else 0 (R51). -/
def profileRate (l : List SwitchPoint) (minute : Nat) : Fin 4 :=
  match (l.filter (fun p => decide (p.minute ≤ minute))).getLast? with
  | some p => p.ratePeriod
  | none =>
    match l.getLast? with
    | some p => p.ratePeriod
    | none => 0

/-- The rate period in force at a time (R51). -/
def ratePeriodAt (set : TariffSet) (t : CalTime) : Fin 4 :=
  let place := 4 * season set.seasons t.month t.day + dayType set t
  profileRate (set.profiles[set.profileMap[Fin.ofNat 16 place]]) t.minuteOfDay

/-- A time is at or after this month's instant (R53). -/
def CloseInstant.reached (c : CloseInstant) (t : CalTime) : Bool :=
  decide (c.day < t.day) || (decide (t.day = c.day) && decide (c.minute ≤ t.minuteOfDay))

/-! ## Boundary minutes -/

/-- A minute-of-hour is a boundary minute of a clock (R62). -/
def Clock.boundaryMinute (c : Clock) (t : CalTime) : Bool := decide (t.minute % c.length = 0)

/-- The demand factor 60/D (R55). -/
def Clock.factor (c : Clock) : Nat := 60 / (c.length * c.window)

/-- A sub-interval length of the list of R55. -/
def validLength (l : Nat) : Bool := decide (l ∈ [1, 2, 3, 4, 5, 6, 10, 12, 15, 20, 30, 60])

/-- A combination of L and W is valid (R56). -/
def validTiming (l w : Nat) : Bool :=
  validLength l && decide (1 ≤ w ∧ w ≤ 15) && decide (60 % (l * w) = 0)

end Sys2Proof.Machine
end

