-- ==== Sys2Proof/Machine/Charges.lean ====
section
/-! DEFINITION. Reactive energy (R79 to R90) and the charge arithmetic of a point's close (R113 to R122),
in exact integers. -/

namespace Sys2Proof.Machine

/-! ## Reactive energy -/

/-- The chargeable reactive energy of a lump (R81). -/
def PenaltyOption.chargeable (o : PenaltyOption) (e : Energies) : Nat :=
  if o.leading then e.rl + e.rc else e.rl

/-- The allowance of a lump: floor(Ai × thr / 1000) (R82). -/
def PenaltyOption.allowance (o : PenaltyOption) (e : Energies) : Nat := e.ai * o.threshold / 1000

/-- The excess reactive energy of a lump: what is chargeable above the allowance, else 0 (R82). -/
def PenaltyOption.excess (o : PenaltyOption) (e : Energies) : Nat := o.chargeable e - o.allowance e

/-- What a closing sub-interval adds to the excess sum under the option that governs its point (R83). -/
def subIntervalExcess (o : Option PenaltyOption) (e : Energies) : Nat :=
  match o with
  | none => 0
  | some o => if o.subinterval then o.excess e else 0

/-- The period excess of a point under the option that governs it (R85, R86; 0 without one, R80). -/
def periodExcess (o : Option PenaltyOption) (totals unattributed : Energies) (excessSum : Nat) : Nat :=
  match o with
  | none => 0
  | some o =>
    if o.subinterval then satAdd max64 excessSum (o.excess unattributed)
    else min max64 (o.excess totals)

/-- The reactive ratio from the period totals (R87); a point without an option uses IGNORE. -/
def reactiveRatio (o : Option PenaltyOption) (totals : Energies) : Nat :=
  let rq :=
    match o with
    | none => totals.rl
    | some o => o.chargeable totals
  if totals.ai = 0 then (if rq = 0 then 0 else 9999) else min 9999 (1000 * rq / totals.ai)

/-! ## The three charges -/

/-- The exact sum S1 of maxima times rates (R115). -/
def touSum (maxD : Vector Maximum 4) (rates : Vector Nat 4) : Nat :=
  maxD[0].value * rates[0] + maxD[1].value * rates[1] + maxD[2].value * rates[2] + maxD[3].value * rates[3]

/-- The ratchet demand from the stack before the push (R116). -/
def ratchetDemand (s : Schedule) (stack : List Nat) : Nat :=
  if s.ratchetMonths = 0 then 0
  else (stack.take s.ratchetMonths).foldl max 0 * s.ratchetPercent / 100

/-- The minimum billing demand (R116). -/
def minimumDemand (s : Schedule) (contract : Nat) : Nat := contract * s.minPercent / 100

/-- The facility demand (R117). -/
def facilityDemand (maxAll ratchet minimum : Nat) : Nat := max maxAll (max ratchet minimum)

/-- An unrounded amount from its dividend: floor(dividend / 1000), held at the largest amount (R115, R117,
R118, R120). -/
def unroundedAmount (dividend : Nat) : Nat := min Config.maxAmount (dividend / 1000)

/-- The division by 1000 leaves a remainder (R119). -/
def inexactDivision (dividend : Nat) : Bool := decide (dividend % 1000 ≠ 0)

/-- The unrounded amount is held (R120). -/
def amountHeld (dividend : Nat) : Bool := decide (Config.maxAmount < dividend / 1000)

/-- The billed amount before it is held (R121 steps 2 and 3). -/
def centsOf (t : Int) : Nat := if t < 0 then 0 else ((t + 50) / 100 * 100).toNat

/-- The billed amount of T = U + c (R121). -/
def billedAmount (t : Int) : Nat := min Config.maxAmount (centsOf t)

/-- The billed amount is held at rounding (R121 step 4). -/
def billedHeld (t : Int) : Bool := decide (Config.maxAmount < centsOf t)

/-- The four values of one charge kind from its dividend and the residue carried in (R120, R121). -/
def chargeLine (dividend : Nat) (c : Int) : ChargeLine :=
  let u := unroundedAmount dividend
  let t : Int := u + c
  let b := billedAmount t
  { unrounded := u, carriedIn := c, billed := b, carriedOut := t - b }

/-- The OVERFLOW of one charge kind (R120, R121). -/
def chargeOverflow (dividend : Nat) (c : Int) : Bool :=
  amountHeld dividend || billedHeld ((unroundedAmount dividend : Int) + c)

/-- What step 3 of R98 yields. -/
structure Charges where
  ratchetDemand  : Nat
  minimumDemand  : Nat
  facilityDemand : Nat
  tou            : ChargeLine
  facility       : ChargeLine
  reactive       : ChargeLine
  total          : Nat
  inexact        : Bool
  overflow       : Bool
  deriving DecidableEq, Repr

/-- The charge arithmetic of one point's close (R114 to R122). -/
def charges (s : Schedule) (p : Point) (excess : Nat) : Charges :=
  let rd := Machine.ratchetDemand s p.ratchet
  let m := Machine.minimumDemand s p.config.contract
  let f := Machine.facilityDemand p.maxAll.value rd m
  let d1 := touSum p.maxD s.rateTOU
  let d2 := f * s.rateFAC
  let d3 := excess * s.rateVAR
  let l1 := chargeLine d1 p.residues.tou
  let l2 := chargeLine d2 p.residues.facility
  let l3 := chargeLine d3 p.residues.reactive
  let sum := l1.billed + l2.billed + l3.billed
  { ratchetDemand := rd, minimumDemand := m, facilityDemand := f, tou := l1, facility := l2, reactive := l3,
    total := min Config.maxAmount sum,
    inexact := inexactDivision d1 || inexactDivision d2 || inexactDivision d3,
    overflow := chargeOverflow d1 p.residues.tou || chargeOverflow d2 p.residues.facility ||
      chargeOverflow d3 p.residues.reactive || decide (Config.maxAmount < sum) }

end Sys2Proof.Machine
end

