-- ==== Sys2Proof/Machine/Points.lean ====
section
/-! DEFINITION. What events do to one point context: opening and closing a sub-interval, the window at a
boundary, a READING, a hold, a warm start, and the period reset. -/

namespace Sys2Proof.Machine

/-! ## Sub-intervals and the window ring -/

/-- The window ring with an entry pushed, at most W entries kept (R65). -/
def pushRing (window : Nat) (e : RingEntry) (ring : List RingEntry) : List RingEntry :=
  (e :: ring).take window

/-- What every close of a sub-interval does with the flags it has by then: the gap-frame count, the excess
under the governing option, the attributed Ai and the push (R64, R68, R83). The sub-interval is gone
afterwards. -/
def Point.bookSub (p : Point) (option : Option PenaltyOption) (window : Nat) (sub : SubInterval) : Point :=
  { p with
    sub := none
    counters := if hasFlag sub.quality QualityFlag.gap.place
      then { p.counters with gap := bump p.counters.gap } else p.counters
    excessSum := satAdd max64 p.excessSum (subIntervalExcess option sub.energy)
    attributed := satAdd max64 p.attributed sub.energy.ai
    ring := pushRing window { ai := sub.energy.ai, quality := sub.quality, ratePeriod := sub.ratePeriod } p.ring }

/-- A cut close (R68); a point with no open sub-interval has nothing to cut (R186). -/
def Point.cutSub (p : Point) (option : Option PenaltyOption) (window : Nat) : Point :=
  match p.sub with
  | none => p
  | some sub =>
    (p.bookSub option window { sub with quality := addFlag sub.quality QualityFlag.cut.place }).raisePeriod
      .cutSeen

/-- One more missing sub-interval: the count and the counter, and LOSS when the count comes equal to the
loss limit (R5, R64). -/
def Point.countMissing (p : Point) : Point :=
  let n := satAdd max8 p.missingCount 1
  let q := { p with
    missingCount := n
    counters := { p.counters with missing := bump p.counters.missing } }
  if n = p.config.lossLimit then q.raiseStatus .loss else q

/-- The close of the open sub-interval at a boundary (R64, R65). -/
def Point.closeSub (p : Point) (option : Option PenaltyOption) (window : Nat) : Point :=
  match p.sub with
  | none => p
  | some sub =>
    if sub.accepted then p.bookSub option window sub
    else (p.countMissing).bookSub option window
      { sub with quality := addFlag sub.quality QualityFlag.noData.place }

/-- Opens a sub-interval at a minute (R52, R66). -/
def Point.openSub (p : Point) (set : TariffSet) (c : Clock) (now : CalTime) : Point :=
  { p with
    sub := some {
      energy := Energies.zero
      ratePeriod := ratePeriodAt set now
      quality :=
        (if c.boundaryMinute now then 0 else BitVec.twoPow 5 QualityFlag.short.place) |||
          (if p.held then BitVec.twoPow 5 QualityFlag.held.place else 0)
      accepted := false } }

/-! ## Windows -/

/-- The ring holds W entries (R69). -/
def Point.windowFull (p : Point) (c : Clock) : Bool := decide (p.ring.length = c.window)

/-- The window demand: the ring's Ai times the demand factor (R69). -/
def Point.windowDemand (p : Point) (c : Clock) : Nat := (p.ring.map (·.ai)).sum * c.factor

/-- An entry carries a flag that makes its window not eligible (R67, R70). -/
def RingEntry.barred (e : RingEntry) : Bool :=
  hasFlag e.quality QualityFlag.noData.place || hasFlag e.quality QualityFlag.short.place ||
    hasFlag e.quality QualityFlag.cut.place || hasFlag e.quality QualityFlag.held.place

/-- The window is eligible (R70), read after the sub-interval's close. -/
def Point.windowEligible (p : Point) (c : Clock) : Bool :=
  p.windowFull c && p.ring.all (fun e => !e.barred) && decide (c.hold = 0) && decide (p.state = .active)

/-- The window demand if the window is eligible, else 0 (R74). -/
def Point.eligibleDemand (p : Point) (c : Clock) : Nat :=
  if p.windowEligible c then p.windowDemand c else 0

/-- A maximum raised by a demand strictly greater than it (R71). -/
def Maximum.raiseTo (m : Maximum) (demand : Nat) (now : CalTime) : Maximum :=
  if m.value < demand then { value := demand, stamp := some now } else m

/-- The maxima after an eligible window (R71). -/
def Point.raiseMaxima (p : Point) (rate : Fin 4) (demand : Nat) (now : CalTime) : Point :=
  { p with
    maxD := p.maxD.set rate (p.maxD[rate].raiseTo demand now)
    maxAll := p.maxAll.raiseTo demand now }

/-- The warning and exceedance check of an eligible window (R72). -/
def Point.checkContract (p : Point) (demand : Nat) : Point :=
  if p.config.contract = 0 then p
  else if p.config.contract ≤ demand then
    ({ p with counters := { p.counters with exceedances := bump p.counters.exceedances } } : Point).raiseStatus
      .exceed
  else if p.config.contract * p.config.warnPercent / 100 ≤ demand then p.raiseStatus .warn
  else p

/-- The rate period of a window: that of its newest sub-interval (R69). -/
def Point.windowRate (p : Point) : Fin 4 :=
  match p.ring with
  | [] => 0
  | e :: _ => e.ratePeriod

/-- Steps 2 and 3 of a boundary for one point (R69 to R73). -/
def Point.evaluate (p : Point) (c : Clock) (now : CalTime) : Point :=
  if p.windowFull c then
    let demand := p.windowDemand c
    let q := { p with present := some { demand := demand, eligible := p.windowEligible c, stamp := now } }
    if p.windowEligible c then (q.raiseMaxima p.windowRate demand now).checkContract demand
    else { q with counters := { q.counters with ineligible := bump q.counters.ineligible } }
  else p

/-- Steps 1 to 3 of a boundary for one point (R63). -/
def Point.boundary (p : Point) (option : Option PenaltyOption) (c : Clock) (now : CalTime) : Point :=
  (p.closeSub option c.window).evaluate c now

/-! ## Readings -/

/-- The dispositions (R33). -/
inductive Disposition where
  | unusedPoint | baseline | duplicate | stale | recovered | discontinuity | accepted
  deriving DecidableEq, Repr

/-- The code of a disposition (R190). -/
def Disposition.code : Disposition → Byte
  | .unusedPoint => 1
  | .baseline => 2
  | .duplicate => 3
  | .stale => 4
  | .recovered => 5
  | .discontinuity => 6
  | .accepted => 7

/-- What a READING carries (R191). -/
structure ReadingData where
  sequence  : Byte
  feRestart : Bool
  registers : Registers
  deriving DecidableEq, Repr

/-- The increments of the four registers, each modulo 2^32 (R27). -/
def increments (value baseline : Registers) : Energies :=
  { ai := (value.ai - baseline.ai).toNat, ae := (value.ae - baseline.ae).toNat,
    rl := (value.rl - baseline.rl).toNat, rc := (value.rc - baseline.rc).toNat }

/-- An increment is above the plausibility limit (R29). -/
def implausible (limit : Nat) (e : Energies) : Bool :=
  decide (limit < e.ai) || decide (limit < e.ae) || decide (limit < e.rl) || decide (limit < e.rc)

/-- The sequence class of a frame (R22); a gap carries d − 1, the frames lost. -/
inductive SequenceClass where
  | duplicate | normal | gap (lost : Nat) | stale
  deriving DecidableEq, Repr

/-- The sequence class by d = (seq − last) mod 256 (R22). -/
def sequenceClass (last : Option Byte) (seq : Byte) : SequenceClass :=
  match last with
  | none => .normal
  | some l =>
    let d := (seq - l).toNat
    if d = 0 then .duplicate else if d = 1 then .normal else if d ≤ 127 then .gap (d - 1) else .stale

/-- A gap of frames: the life counter, and GAP on the open sub-interval (R24). -/
def Point.noteGap (p : Point) (lost : Nat) : Point :=
  { p with
    life := { p.life with lost := satAdd max16 p.life.lost lost }
    sub := p.sub.map (fun b => { b with quality := addFlag b.quality QualityFlag.gap.place }) }

/-- The baselines take the frame's values and the open sub-interval's marker is set (R31). -/
def Point.takeFrame (p : Point) (r : Registers) : Point :=
  { p with
    baselines := some r
    sub := p.sub.map (fun b => { b with accepted := true }) }

/-- A recovery books to the unattributed energies and the totals (R28). -/
def Point.recover (p : Point) (e : Energies) : Point :=
  { p with
    unattributed := p.unattributed.satAdd max64 e
    totals := p.totals.satAdd max64 e
    missingCount := 0 }

/-- A discontinuity drops the increments (R29). -/
def Point.discontinue (p : Point) : Point :=
  ({ p with life := { p.life with discontinuities := bump p.life.discontinuities } } : Point).raiseStatus .discont

/-- An accepted frame books to the open sub-interval, or to the unattributed energies, and to the totals
(R30, R31, R32). -/
def Point.accept (p : Point) (e : Energies) : Point :=
  match p.sub with
  | some b =>
    { p with
      sub := some { b with energy := b.energy.satAdd max32 e }
      totals := p.totals.satAdd max64 e
      missingCount := 0 }
  | none =>
    { p with
      unattributed := p.unattributed.satAdd max64 e
      totals := p.totals.satAdd max64 e
      missingCount := 0 }

/-- Steps 4 and 5 of R19, for a frame classed normal or gap (R26 to R31). -/
def Point.measure (p : Point) (d : ReadingData) : Point × Disposition :=
  match p.baselines with
  | none => ({ p with baselines := some d.registers }, .baseline)
  | some b =>
    let e := increments d.registers b
    if p.inLoss then ((p.recover e).takeFrame d.registers, .recovered)
    else if implausible p.config.plausibility e then (p.discontinue.takeFrame d.registers, .discontinuity)
    else ((p.accept e).takeFrame d.registers, .accepted)

/-- A front-end restart (R21). -/
def Point.restartFrontEnd (p : Point) (d : ReadingData) : Point :=
  ({ p with
    baselines := some d.registers
    lastSeq := some d.sequence
    life := { p.life with restarts := bump p.life.restarts } } : Point).raiseStatus .feRestart

/-- A READING at a configured point: steps 2 to 5 of R19. -/
def Point.takeReading (p : Point) (d : ReadingData) : Point × Disposition :=
  if d.feRestart then (p.restartFrontEnd d, .baseline)
  else
    match sequenceClass p.lastSeq d.sequence with
    | .duplicate => ({ p with life := { p.life with duplicates := bump p.life.duplicates } }, .duplicate)
    | .stale => ({ p with life := { p.life with stale := bump p.life.stale } }, .stale)
    | .normal => ({ p with lastSeq := some d.sequence } : Point).measure d
    | .gap lost => (({ p with lastSeq := some d.sequence } : Point).noteGap lost).measure d

/-- The rate period a forwarded READING carries: that of the open sub-interval, or 15 (R33). -/
def Point.stampRate (p : Point) : Byte :=
  match p.sub with
  | some b => oct b.ratePeriod.val
  | none => 15

/-! ## Holds -/

/-- The marks of a hold cause added: HELD on the open sub-interval and HELD_SEEN (R6). -/
def Point.markHeld (p : Point) : Point :=
  ({ p with
    sub := p.sub.map (fun b => { b with quality := addFlag b.quality QualityFlag.held.place }) } : Point).raisePeriod
      .heldSeen

/-- HOLD POINT: adds OPERATOR; no change if it is present (R16). -/
def Point.hold (p : Point) : Point :=
  if p.operator then p else ({ p with operator := true } : Point).markHeld

/-- RELEASE POINT: removes OPERATOR; the open sub-interval keeps HELD (R17). -/
def Point.release (p : Point) : Point := { p with operator := false }

/-- The CONFLICT cause added, its marks with it (R3, R6, R59). -/
def Point.addConflict (p : Point) : Point := ({ p with conflict := true } : Point).markHeld

/-! ## Starts and closes -/

/-- A warm start at a point after its cut close (R11, R186). -/
def Point.warmStart (p : Point) : Point :=
  ({ p with
    ring := []
    lastSeq := none
    counters := { p.counters with outages := bump p.counters.outages } } : Point).raisePeriod .cutSeen

/-- The reset of the period state (R103): the flags are cleared and HELD_SEEN raised again for a held point
(R6). -/
def Point.resetPeriod (p : Point) (next : BitVec 16) : Point :=
  { p with
    maxD := Vector.replicate 4 Maximum.zero
    maxAll := Maximum.zero
    totals := Energies.zero
    attributed := 0
    unattributed := Energies.zero
    excessSum := 0
    contribution := 0
    counters := PeriodCounters.zero
    periodFlags := if p.held then BitVec.twoPow 4 PeriodFlag.heldSeen.place else 0
    period := next }

/-- The ratchet stack after a push: entry 12 is dropped (R102). -/
def pushRatchet (v : Nat) (stack : List Nat) : List Nat := (v :: stack).take 12

/-- Steps 5 to 8 of a point's close (R98). -/
def Point.settle (p : Point) (c : Charges) (next : BitVec 16) : Point :=
  (({ p with
    ratchet := pushRatchet p.maxAll.value p.ratchet
    residues := { tou := c.tou.carriedOut, facility := c.facility.carriedOut, reactive := c.reactive.carriedOut } }
    : Point).resetPeriod next).raiseStatus .closed

/-- The billing record a point assembles (R100, R101), before the history store gives it its sequence. -/
def Point.record (p : Point) (i : Fin 32) (closing : BitVec 16) (c : Charges) (excess ratio : Nat)
    (clock : Option Clock) (stamp : Option CalTime) (cutClose : Bool) : BillingRecord :=
  { point := i, period := closing, sequence := 0, stamp := stamp,
    flags := recordFlags c.inexact c.overflow p.periodFlags cutClose,
    schedule := p.config.schedule, option := p.config.option,
    totals := p.totals, attributed := p.attributed, unattributed := p.unattributed,
    maxD := p.maxD, maxAll := p.maxAll, contribution := p.contribution,
    clockPeak := (clock.map (·.peak)).getD 0, peakStamp := clock.bind (·.peakStamp),
    ratchetDemand := c.ratchetDemand, minimumDemand := c.minimumDemand, facilityDemand := c.facilityDemand,
    excess := excess, ratio := ratio, tou := c.tou, facility := c.facility, reactive := c.reactive,
    total := c.total, counters := p.counters, ratchetEntry := p.maxAll.value }

end Sys2Proof.Machine
end

