-- ==== Sys2Proof/Machine/Store.lean ====
section
/-! DEFINITION. The history store: its valid slots, an append with its age-out, and the search for a
period's run (R124 to R133). -/

namespace Sys2Proof.Machine

/-- The slot of the record that j appends have followed: j = 0 is the newest (R125). -/
def History.slotBack (h : History) (j : Nat) : Fin 384 := h.writeIndex - 1 - Fin.ofNat 384 j

/-- How many slots newer than it a slot has (R125). -/
def History.ageOf (h : History) (slot : Fin 384) : Nat := (h.writeIndex - 1 - slot).val

/-- A slot is valid: it lies among the valid count slots that end at the newest (R125). -/
def History.isValid (h : History) (slot : Fin 384) : Bool := decide (h.ageOf slot < h.valid)

/-- The valid slots, newest first (R125). -/
def History.validSlots (h : History) : List (Fin 384) := (List.range h.valid).map h.slotBack

/-- A slot holds a record of a point and period. -/
def History.holdsRecordOf (h : History) (slot : Fin 384) (point : Fin 32) (period : BitVec 16) : Bool :=
  match h.slots[slot] with
  | some r => decide (r.point = point) && decide (r.period = period)
  | none => false

/-- A slot holds a record of a period. -/
def History.holdsPeriod (h : History) (slot : Fin 384) (period : BitVec 16) : Bool :=
  match h.slots[slot] with
  | some r => decide (r.period = period)
  | none => false

/-- The age-out: a valid record of the same point and period and every older one become invalid (R127). -/
def History.ageOut (h : History) (point : Fin 32) (period : BitVec 16) : History :=
  match (List.range h.valid).find? (fun j => h.holdsRecordOf (h.slotBack j) point period) with
  | some j => { h with valid := j }
  | none => h

/-- The append of a record (R126). -/
def History.append (h : History) (r : BillingRecord) : History :=
  let aged := h.ageOut r.point r.period
  { slots := h.slots.set h.writeIndex (some { r with sequence := h.sequence })
    writeIndex := h.writeIndex + 1
    valid := if aged.valid < 384 then aged.valid + 1 else aged.valid
    sequence := h.sequence + 1 }

/-- The run of a period, newest first: from the newest valid slot toward the oldest, past the slots of other
periods, then while the period lasts (R133). -/
def History.runOf (h : History) (period : BitVec 16) : List (Fin 384) :=
  (h.validSlots.dropWhile (fun slot => !h.holdsPeriod slot period)).takeWhile
    (fun slot => h.holdsPeriod slot period)

/-- The period of the record in a slot (0 for an empty one). -/
def History.periodAt (h : History) (slot : Fin 384) : BitVec 16 :=
  match h.slots[slot] with
  | some r => r.period
  | none => 0

/-- The period of the newest valid record, 0 when there is none (R129, R193). -/
def History.newestPeriod (h : History) : BitVec 16 := if h.valid = 0 then 0 else h.periodAt (h.slotBack 0)

/-- The period of the oldest valid record, 0 when there is none (R129, R193). -/
def History.oldestPeriod (h : History) : BitVec 16 :=
  if h.valid = 0 then 0 else h.periodAt (h.slotBack (h.valid - 1))

end Sys2Proof.Machine
end

