-- ==== Sys2Proof/Machine/Operands.lean ====
section
/-! DEFINITION. The operand forms: what the octets of a MARK, a READING and each request's arguments say,
and which of them are in range (R1, R144, R146, R147, R190 to R192). -/

namespace Sys2Proof.Machine

/-! ## Octets that name one of a few values -/

/-- A number below n, or none. -/
def finOf (n : Nat) (v : Nat) : Option (Fin n) := if h : v < n then some ⟨v, h⟩ else none

/-- An octet that is a number below n, or 0xFF for NONE (R190): `none` is out of range. -/
def finOrNone (n : Nat) (o : Byte) : Option (Option (Fin n)) :=
  if o = 0xFF then some none else (finOf n o.toNat).map some

/-- An octet that is 0 or 1. -/
def boolOf (o : Byte) : Option Bool := if o = 0 then some false else if o = 1 then some true else none

/-- The condition holds, or the whole is out of range. -/
def ensure (b : Bool) : Option Unit := if b then some () else none

/-- A list of n values as a vector. -/
def vecOf {α : Type} (n : Nat) (l : List α) : Option (Vector α n) :=
  if h : l.length = n then some ⟨l.toArray, by simpa using h⟩ else none

/-- All values of a list, or none if one is out of range. -/
def allSome {α : Type} : List (Option α) → Option (List α)
  | [] => some []
  | none :: _ => none
  | some a :: l => (allSome l).map (a :: ·)

/-- A list cut in groups of n octets (a last group that is not whole is dropped). -/
def groupsOf (n : Nat) (os : List Byte) : List (List Byte) :=
  (List.range (os.length / n)).map (fun k => (os.drop (k * n)).take n)

/-- The octets from a place on, `n` of them, as a number. -/
def field (os : List Byte) (at_ n : Nat) : Nat := beNat ((os.drop at_).take n)

/-- One octet of a list (0 beyond its end). -/
def octetAt (os : List Byte) (k : Nat) : Byte := os.getD k 0

/-! ## MARK and READING (R191) -/

/-- The time a MARK's payload carries. -/
def markTime (p : List Byte) : CalTime :=
  { year := 2000 + (octetAt p 0).toNat, month := (octetAt p 1).toNat, day := (octetAt p 2).toNat,
    hour := (octetAt p 3).toNat, minute := (octetAt p 4).toNat }

/-- What a READING's payload carries. -/
def readingData (p : List Byte) : ReadingData :=
  { sequence := octetAt p 0, feRestart := (octetAt p 1).getLsbD 0,
    registers :=
      { ai := BitVec.ofNat 32 (field p 2 4), ae := BitVec.ofNat 32 (field p 6 4),
        rl := BitVec.ofNat 32 (field p 10 4), rc := BitVec.ofNat 32 (field p 14 4) } }

/-! ## The configuration record (R1, R192) -/

/-- A configuration record in its 15 octets, if every field is in range. -/
def parseConfig (os : List Byte) : Option PointConfig := do
  let clock ← finOrNone 4 (octetAt os 0)
  let schedule ← finOf 8 (octetAt os 1).toNat
  let option ← finOrNone 4 (octetAt os 2)
  let contract := field os 3 4
  let warn := (octetAt os 7).toNat
  let loss := (octetAt os 8).toNat
  let plausibility := field os 9 4
  let mask := (octetAt os 13).toNat
  let forward ← boolOf (octetAt os 14)
  ensure (decide (50 ≤ warn ∧ warn ≤ 99) && decide (1 ≤ loss ∧ loss ≤ 15) &&
    decide (1 ≤ plausibility) && decide (mask < 64))
  return { clock := clock, schedule := schedule, option := option, contract := contract, warnPercent := warn,
           lossLimit := loss, plausibility := plausibility, attentionMask := BitVec.ofNat 6 mask,
           forward := forward }

/-! ## Tariff tables (R144, R146, R147, R192) -/

/-- The table selectors, coded in the order of R144. -/
inductive Selector where
  | seasons | weekdays | holidays | profileMap | profile | closeInstant | schedule | option
  deriving DecidableEq, Repr

def Selector.ofOctet (o : Byte) : Option Selector :=
  match o.toNat with
  | 0 => some .seasons
  | 1 => some .weekdays
  | 2 => some .holidays
  | 3 => some .profileMap
  | 4 => some .profile
  | 5 => some .closeInstant
  | 6 => some .schedule
  | 7 => some .option
  | _ => none

/-- How many indexes a selector allows (R144). -/
def Selector.indexes : Selector → Nat
  | .profile => 8
  | .schedule => 8
  | .option => 4
  | _ => 1

/-- The largest entry count and the octets of one entry, for the selectors of a list table (R144, R146,
R192). -/
def Selector.listForm : Selector → Option (Nat × Nat)
  | .seasons => some (4, 2)
  | .holidays => some (24, 3)
  | .profile => some (8, 3)
  | _ => none

/-- The octets of a table that is no list (R192). -/
def Selector.fixedLength : Selector → Nat
  | .weekdays => 7
  | .profileMap => 16
  | .closeInstant => 3
  | .schedule => 27
  | .option => 3
  | _ => 0

/-- A list rises strictly under an order. -/
def rising {α : Type} (lt : α → α → Bool) : List α → Bool
  | a :: b :: l => lt a b && rising lt (b :: l)
  | _ => true

/-- A season start from its two octets (R147). -/
def parseSeason (os : List Byte) : Option MonthDay :=
  let m := (octetAt os 0).toNat
  let d := (octetAt os 1).toNat
  if 1 ≤ m ∧ m ≤ 12 ∧ 1 ≤ d ∧ d ≤ monthLengthWith 29 m then some { month := m, day := d } else none

/-- The seasons list is in strictly ascending order of month and then day (R147). -/
def seasonBefore (a b : MonthDay) : Bool :=
  decide (a.month < b.month) || (decide (a.month = b.month) && decide (a.day < b.day))

/-- A holiday entry from its three octets (R147, R192). -/
def parseHoliday (os : List Byte) : Option Holiday :=
  let m := (octetAt os 0).toNat
  let d := (octetAt os 1).toNat
  let y := octetAt os 2
  if y = 0xFF then
    if 1 ≤ m ∧ m ≤ 12 ∧ 1 ≤ d ∧ d ≤ monthLengthWith 29 m then some { month := m, day := d, year := none }
    else none
  else if y.toNat ≤ 99 ∧ 1 ≤ m ∧ m ≤ 12 ∧ 1 ≤ d ∧ d ≤ monthLength (2000 + y.toNat) m then
    some { month := m, day := d, year := some (2000 + y.toNat) }
  else none

/-- No two entries are equal (R147). -/
def distinct : List Holiday → Bool
  | [] => true
  | h :: l => decide (h ∉ l) && distinct l

/-- A switch point from its three octets (R147). -/
def parseSwitch (os : List Byte) : Option SwitchPoint := do
  let minute := field os 0 2
  let rate ← finOf 4 (octetAt os 2).toNat
  ensure (decide (minute ≤ 1439))
  return { minute := minute, ratePeriod := rate }

/-- A close instant from its three octets: day 0 with minute 0 is ABSENT (R147, R192). -/
def parseInstant (os : List Byte) : Option (Option CloseInstant) :=
  let d := (octetAt os 0).toNat
  let m := field os 1 2
  if d = 0 ∧ m = 0 then some none
  else if 1 ≤ d ∧ d ≤ 28 ∧ m ≤ 1439 then some (some { day := d, minute := m })
  else none

/-- A rate schedule from its 27 octets (R147, R192). -/
def parseSchedule (os : List Byte) : Option Schedule :=
  let rate (k : Nat) : Nat := field os (4 * k) 4
  let rm := (octetAt os 24).toNat
  let pct := (octetAt os 25).toNat
  let minPct := (octetAt os 26).toNat
  if rate 0 ≤ Config.maxRate ∧ rate 1 ≤ Config.maxRate ∧ rate 2 ≤ Config.maxRate ∧ rate 3 ≤ Config.maxRate ∧
      rate 4 ≤ Config.maxRate ∧ rate 5 ≤ Config.maxRate ∧ rm ≤ 12 ∧ pct ≤ 100 ∧ minPct ≤ 100 then
    some { rateTOU := #v[rate 0, rate 1, rate 2, rate 3], rateFAC := rate 4, rateVAR := rate 5,
           ratchetMonths := rm, ratchetPercent := pct, minPercent := minPct }
  else none

/-- A penalty option from its three octets; an undefined flag bit is out of range (R147, R190, R192). -/
def parseOption (os : List Byte) : Option PenaltyOption :=
  let thr := field os 0 2
  let flags := octetAt os 2
  if thr ≤ 2000 ∧ flags.toNat < 4 then
    some { threshold := thr, leading := flags.getLsbD 0, subinterval := flags.getLsbD 1 }
  else none

/-- The contents of a table, taken as a whole, if they pass the contents check (R147). For a list table the
octets are those after the entry count. -/
def parseContents (sel : Selector) (index : Nat) (os : List Byte) : Option Table :=
  match sel with
  | .seasons => do
    let l ← allSome ((groupsOf 2 os).map parseSeason)
    ensure (rising seasonBefore l)
    return .seasons l
  | .weekdays => do
    let l ← allSome (os.map (fun o => finOf 3 o.toNat))
    let v ← vecOf 7 l
    return .weekdays v
  | .holidays => do
    let l ← allSome ((groupsOf 3 os).map parseHoliday)
    ensure (distinct l)
    return .holidays l
  | .profileMap => do
    let l ← allSome (os.map (fun o => finOf 8 o.toNat))
    let v ← vecOf 16 l
    return .profileMap v
  | .profile => do
    let i ← finOf 8 index
    let l ← allSome ((groupsOf 3 os).map parseSwitch)
    ensure (rising (fun a b => decide (a.minute < b.minute)) l)
    return .profile i l
  | .closeInstant => (parseInstant os).map .closeInstant
  | .schedule => do
    let i ← finOf 8 index
    let s ← parseSchedule os
    return .schedule i s
  | .option => do
    let i ← finOf 4 index
    let o ← parseOption os
    return .option i o

/-- The outcome of the form check of LOAD TABLE (R146 check 1). -/
inductive FormCheck where
  | length
  | range
  | form (sel : Selector) (index : Nat) (contents : List Byte)
  deriving DecidableEq, Repr

/-- The form check of LOAD TABLE (R146): too short for selector, index or a list's entry count is LENGTH
before any other test; then selector, index and entry count; then the length they call for. `contents` are
the octets after the entry count. -/
def checkForm (args : List Byte) : FormCheck :=
  match args with
  | s :: i :: rest =>
    match Selector.ofOctet s with
    | none => .range
    | some sel =>
      match sel.listForm with
      | some (most, size) =>
        match rest with
        | [] => .length
        | count :: entries =>
          if sel.indexes ≤ i.toNat ∨ most < count.toNat then .range
          else if entries.length ≠ count.toNat * size then .length
          else .form sel i.toNat entries
      | none =>
        if sel.indexes ≤ i.toNat then .range
        else if rest.length ≠ sel.fixedLength then .length
        else .form sel i.toNat rest
  | _ => .length

/-- A table put whole into a tariff set (R148). -/
def TariffSet.put (t : TariffSet) : Table → TariffSet
  | .seasons l => { t with seasons := l }
  | .weekdays v => { t with weekdays := v }
  | .holidays l => { t with holidays := l }
  | .profileMap v => { t with profileMap := v }
  | .profile i l => { t with profiles := t.profiles.set i l }
  | .closeInstant c => { t with closeInstant := c }
  | .schedule i s => { t with schedules := t.schedules.set i s }
  | .option i o => { t with options := t.options.set i o }

/-- One table of a tariff set by selector and index (R149); the index is below the selector's count. -/
def TariffSet.get (t : TariffSet) (sel : Selector) (index : Nat) : Table :=
  match sel with
  | .seasons => .seasons t.seasons
  | .weekdays => .weekdays t.weekdays
  | .holidays => .holidays t.holidays
  | .profileMap => .profileMap t.profileMap
  | .profile => .profile (Fin.ofNat 8 index) t.profiles[Fin.ofNat 8 index]
  | .closeInstant => .closeInstant t.closeInstant
  | .schedule => .schedule (Fin.ofNat 8 index) t.schedules[Fin.ofNat 8 index]
  | .option => .option (Fin.ofNat 4 index) t.options[Fin.ofNat 4 index]

/-- A table's contents in octets, in the form LOAD TABLE uses (R192). -/
def Table.octets : Table → List Byte
  | .seasons l => oct l.length :: (l.map (fun e => [oct e.month, oct e.day])).flatten
  | .weekdays v => v.toList.map (fun d => oct d.val)
  | .holidays l =>
    oct l.length ::
      (l.map (fun h => [oct h.month, oct h.day,
        match h.year with
        | none => 0xFF
        | some y => oct (y - 2000)])).flatten
  | .profileMap v => v.toList.map (fun p => oct p.val)
  | .profile _ l => oct l.length :: (l.map (fun p => beBytes 2 p.minute ++ [oct p.ratePeriod.val])).flatten
  | .closeInstant none => [0, 0, 0]
  | .closeInstant (some c) => oct c.day :: beBytes 2 c.minute
  | .schedule _ s =>
    (s.rateTOU.toList.map (beBytes 4)).flatten ++ beBytes 4 s.rateFAC ++ beBytes 4 s.rateVAR ++
      [oct s.ratchetMonths, oct s.ratchetPercent, oct s.minPercent]
  | .option _ o =>
    beBytes 2 o.threshold ++
      [oct ((if o.leading then 1 else 0) + (if o.subinterval then 2 else 0))]

/-! ## The clock settings of SET CLOCK (R57, R192) -/

/-- What SET CLOCK carries. -/
structure ClockArgs where
  clock      : Fin 4
  enable     : Bool
  length     : Nat
  window     : Nat
  holdLength : Nat
  deriving DecidableEq, Repr

/-- SET CLOCK's arguments, if in range (R57 check 1). -/
def parseClock (os : List Byte) : Option ClockArgs := do
  let clock ← finOf 4 (octetAt os 0).toNat
  let enable ← boolOf (octetAt os 1)
  let l := (octetAt os 2).toNat
  let w := (octetAt os 3).toNat
  let h := (octetAt os 4).toNat
  ensure (validTiming l w && decide (h ≤ 15))
  return { clock := clock, enable := enable, length := l, window := w, holdLength := h }

/-! ## READOUT, CLEAR ATTENTION, QUERY POINT (R192) -/

/-- A READOUT's job as the readout unit takes it up, if in range (R131); an undefined flag bit is out of
range (R190). -/
def parseReadout (tag : Byte) (os : List Byte) : Option ReadoutJob :=
  let mask := BitVec.ofNat 32 (field os 0 4)
  let first := BitVec.ofNat 16 (field os 4 2)
  let n := (octetAt os 6).toNat
  let flags := octetAt os 7
  if 1 ≤ n ∧ n ≤ 12 ∧ mask ≠ 0 ∧ flags.toNat < 4 then
    some { tag := tag, mask := mask, first := first, count := n, stopOnMissing := flags.getLsbD 0,
           continueOnOvertake := flags.getLsbD 1, current := first, begun := 1, sent := 0,
           missingPeriods := 0, missingPoints := 0, overtaken := 0 }
  else none

/-- What CLEAR ATTENTION carries. -/
structure ClearArgs where
  points      : BitVec 32
  deviceClear : Bool
  maskWrite   : Bool
  mask        : BitVec 11
  deriving DecidableEq, Repr

/-- CLEAR ATTENTION's arguments, if in range (R180, R190). -/
def parseClear (os : List Byte) : Option ClearArgs :=
  let flags := octetAt os 4
  let mask := field os 5 2
  if flags.toNat < 4 ∧ mask < 2048 then
    some { points := BitVec.ofNat 32 (field os 0 4), deviceClear := flags.getLsbD 0,
           maskWrite := flags.getLsbD 1, mask := BitVec.ofNat 11 mask }
  else none

end Sys2Proof.Machine
end

