-- ==== Sys2Proof/Machine/State.lean ====
section
/-! DEFINITION. The whole state of the part, as plain data, its value after reset, and the ways a step could
stop. -/

namespace Sys2Proof.Machine

/-- Why a step could stop with a fault. -/
inductive Fault where
  /-- Raised by no meaning: the spec names no event at which the supplied part stops working. Safe. -/
  | neverRaised
  deriving DecidableEq, Repr

/-- Why a command could be refused. -/
inductive Refusal where
  /-- An arm of exec that has no meaning yet. No arm of this model answers it. Safe: nothing is claimed of
  such a command. -/
  | notModelled (mnemonic : String)
  deriving DecidableEq, Repr

/-- The state of the part (00_scope.md section 2: ten blocks), the levels of its pins, and three fields of
the model's own: `pending`, `lineIn` and `freeIndex` (log 3, log 4). -/
structure State where
  /-- The commands that wait, first in, first out. -/
  pending        : List Instr
  /-- The octets on the loop input that the framer has not taken yet, oldest first. -/
  lineIn         : List Byte
  /-- The counter the free values of Config are read with. -/
  freeIndex      : Nat
  supply         : Supply
  port           : Port
  /-- The device counter of unused-point readings (R20). -/
  unusedReadings : Nat
  decoder        : Decoder
  time           : TimeBase
  clocks         : Vector Clock 4
  /-- The point table; `none` is UNUSED. -/
  points         : Vector (Option Point) 32
  tariff         : TariffStore
  close          : CloseUnit
  history        : History
  readout        : ReadoutUnit
  attention      : Attention
  deriving DecidableEq, Repr

/-- The part right after a cold start with VDD present (R188 and each block's own table). The levels of the
two input pins and the model's own fields are DESIGN CHOICE (unsafe only for a claim about the part right
after this state with other pin levels). Log 12. -/
def State.reset : State :=
  { pending := [], lineIn := [], freeIndex := 0,
    supply := { vdd := true, retention := true, resetnLow := false, supwarn := false },
    port := Port.cold, unusedReadings := 0, decoder := Decoder.cold, time := TimeBase.cold,
    clocks := Vector.replicate 4 Clock.cold, points := Vector.replicate 32 none,
    tariff := TariffStore.cold, close := CloseUnit.cold, history := History.cold,
    readout := ReadoutUnit.cold, attention := Attention.cold }

end Sys2Proof.Machine
end

