-- ==== Sys2Proof/Machine/Ops.lean ====
section
/-! DEFINITION. The operations over the whole state that the commands share: reading and updating points,
raising device flags, the two frame queues and the output choice, the readout's steps that wait for room,
and replies. -/

namespace Sys2Proof.Machine

/-! ## Points and clocks -/

/-- The point indices in ascending order. -/
def allPoints : List (Fin 32) := List.finRange 32

/-- The clocks in ascending order. -/
def allClocks : List (Fin 4) := [0, 1, 2, 3]

/-- A point context written. -/
def State.setPoint (s : State) (i : Fin 32) (p : Option Point) : State :=
  { s with points := s.points.set i p }

/-- Every configured point changed. -/
def State.mapPoints (s : State) (f : Point → Point) : State :=
  { s with points := s.points.map (Option.map f) }

/-- Every configured point whose clock field names clock k changed. -/
def State.mapPointsOn (s : State) (k : Fin 4) (f : Point → Point) : State :=
  s.mapPoints (fun p => if p.onClock k then f p else p)

/-- A clock written. -/
def State.setClock (s : State) (k : Fin 4) (c : Clock) : State :=
  { s with clocks := s.clocks.set k c }

/-- The clock a point's clock field names. -/
def State.clockOf (s : State) (p : Point) : Option Clock := p.config.clock.map (fun k => s.clocks[k])

/-- The option that governs a point: the slot of the active set its option field names (R80). -/
def State.optionOf (s : State) (p : Point) : Option PenaltyOption :=
  p.config.option.map (fun o => s.tariff.active.options[o])

/-- The open sub-interval of a point cut, under its own clock and option (R68). -/
def State.cutPoint (s : State) (p : Point) : Point :=
  match s.clockOf p with
  | some c => p.cutSub (s.optionOf p) c.window
  | none => p

/-- A point's close is pending: a close is in flight and the point's period is the closing one (R12). -/
def State.closePending (s : State) (p : Point) : Bool := decide (s.close.inFlight = some p.period)

/-! ## Attention -/

/-- Raises a device flag: sticky, and its rise from 0 sets the device attention bit while the flag is in the
device mask (R179). -/
def State.raiseDevice (s : State) (f : DeviceFlag) : State :=
  { s with attention :=
    { s.attention with
      flags := addFlag s.attention.flags f.place
      bit := s.attention.bit || (!hasFlag s.attention.flags f.place && hasFlag s.attention.mask f.place) } }

/-- The attention bits of the 32 points; bit i is point i (R190). -/
def State.pointBits (s : State) : BitVec 32 :=
  allPoints.foldl (fun b i => if (s.points[i].map (·.attention)).getD false then addFlag b i.val else b) 0

/-- The attention summary (R181). -/
def State.summary (s : State) : Bool :=
  s.attention.bit || s.points.toList.any (fun p => (p.map (·.attention)).getD false)

/-- The level of ALERT: it follows the summary (R170). That it is low while VDD is absent is the model's choice:
the spec says nothing of the pin of an unsupplied part (log 25). -/
def State.alert (s : State) : Bool := s.supply.vdd && s.summary

/-- The part is supplied and RESETN does not hold it: it takes frames, runs its timer and drives its output
(R183, R185). -/
def State.live (s : State) : Bool := s.supply.vdd && !s.supply.resetnLow

/-! ## The readout unit -/

/-- The station octet of the frames the part inserts (R164). -/
def State.stationOctet (s : State) : Byte :=
  match s.decoder.station with
  | some n => oct n.val
  | none => unassignedAddress

/-- The status octet of a reply (R192). -/
def State.statusOctet (s : State) : Byte :=
  oct ((if s.summary then 1 else 0) + (if s.decoder.startKind = .warm then 2 else 0) +
    (if s.decoder.startAck then 4 else 0))

/-- The reply codes (R173, R190). -/
inductive ReplyCode where
  | ok | busy | range | locked | noPoint | unknown | length
  deriving DecidableEq, Repr

def ReplyCode.octet : ReplyCode → Byte
  | .ok => 0
  | .busy => 1
  | .range => 2
  | .locked => 3
  | .noPoint => 4
  | .unknown => 5
  | .length => 6

/-- A REPLY with its envelope as the state stands (R173, R192); the data follows for OK alone. -/
def State.replyFrame (s : State) (tag kind : Byte) (code : ReplyCode) (data : List Byte) : Frame :=
  { kind := kindReply, address := s.stationOctet,
    payload := [s.stationOctet, tag, kind, code.octet, s.statusOctet] ++ (if code = .ok then data else []) }

/-- The code of an end reason (R190). -/
def EndReason.octet : EndReason → Byte
  | .done => 1
  | .notFound => 2
  | .overtaken => 3
  | .aborted => 4
  | .supply => 5
  | .restart => 6

/-- The READOUT END reply (R138, R192). -/
def State.readoutEndFrame (s : State) (job : ReadoutJob) (reason : EndReason) : Frame :=
  s.replyFrame job.tag codeReadoutEnd .ok
    (reason.octet :: (beBytes 2 job.sent ++ beBytes 2 job.missingPeriods ++ beBytes 2 job.missingPoints ++
      beBytes 2 job.overtaken ++ beBytes 2 job.current.toNat))

/-- A readout ends with a reason and enters REPORT; not for RESTART (R138). -/
def State.endReadout (s : State) (job : ReadoutJob) (reason : EndReason) : State :=
  ({ s with readout := { phase := .report job reason, lastEnd := some reason } } : State).raiseDevice .readoutEnd

/-- The readout moves on: the next period's search, or DONE after the N-th (R132). -/
def State.readoutMoveOn (s : State) (job : ReadoutJob) : State :=
  if job.begun < job.count then
    { s with readout := { s.readout with
      phase := .search { job with current := job.current + 1, begun := job.begun + 1 } } }
  else s.endReadout job .done

/-- What the step at an offset finds (R134). -/
inductive EmitCheck where
  | endOfRun
  | record (r : BillingRecord)
  | overtaken
  deriving DecidableEq, Repr

/-- The check of the step at the run's offset, on the store as it stands (R134). -/
def State.emitCheck (s : State) (job : ReadoutJob) (run : Run) : EmitCheck :=
  let seq := run.firstSeq + BitVec.ofNat 32 run.offset
  let slot := run.firstSlot + Fin.ofNat 384 run.offset
  if s.history.sequence = seq then .endOfRun
  else
    match s.history.slots[slot] with
    | some r =>
      if s.history.isValid slot ∧ r.sequence = seq then
        (if r.period = job.current then .record r else .endOfRun)
      else .overtaken
    | none => .overtaken

/-- The insert queue has the free places a RECORD frame needs (R135). -/
def State.recordRoom (s : State) : Bool := decide (s.port.queue.length + Config.recordRoom ≤ Config.queuePlaces)

/-- The step at the run's offset has a RECORD frame to queue and finds no room (R135). -/
def State.stepBlocked (s : State) (job : ReadoutJob) (run : Run) : Bool :=
  match s.emitCheck job run with
  | .record r => hasFlag job.mask r.point.val && !s.recordRoom
  | _ => false

/-- The readout in EMIT at a run's offset, its next step tried at once (R132): it waits if it has a frame to
queue and no room (R135). -/
def State.enterEmit (s : State) (job : ReadoutJob) (run : Run) : State :=
  { s with readout := { s.readout with phase := .emit job { run with waiting := s.stepBlocked job run } } }

/-- A frame joins the insert queue as the newest (R168). -/
def State.enqueue (s : State) (q : QueuedFrame) : State :=
  { s with port := { s.port with queue := s.port.queue ++ [q] } }

/-- The code of a stamp: minutes since 2000-01-01 00:00, or none (R190). -/
def stampOctets (t : Option CalTime) : List Byte := beBytes 4 (match t with
  | some t => t.minutes
  | none => 0xFFFFFFFF)

/-- Energies of 8 octets each (R190). -/
def energyOctets (n : Nat) (e : Energies) : List Byte :=
  beBytes n e.ai ++ beBytes n e.ae ++ beBytes n e.rl ++ beBytes n e.rc

/-- A maximum: demand then stamp (R193, R194). -/
def Maximum.octets (m : Maximum) : List Byte := beBytes 5 m.value ++ stampOctets m.stamp

/-- A residue, two's complement (R190). -/
def residueOctet (c : Int) : Byte := BitVec.ofInt 8 c

/-- A charge kind: U, c, B, c′ (R194). -/
def ChargeLine.octets (l : ChargeLine) : List Byte :=
  beBytes 5 l.unrounded ++ [residueOctet l.carriedIn] ++ beBytes 5 l.billed ++ [residueOctet l.carriedOut]

/-- The period counters in the order of R8. -/
def PeriodCounters.octets (c : PeriodCounters) : List Byte :=
  beBytes 2 c.missing ++ beBytes 2 c.gap ++ beBytes 2 c.ineligible ++ beBytes 2 c.exceedances ++ beBytes 2 c.outages

/-- A number or NONE in one octet (R190). -/
def noneOctet {n : Nat} : Option (Fin n) → Byte
  | some k => oct k.val
  | none => 0xFF

/-- A billing record's octets from offset 1 of a RECORD payload (R194). -/
def BillingRecord.octets (r : BillingRecord) : List Byte :=
  [oct r.point.val] ++ beBytes 2 r.period.toNat ++ beBytes 4 r.sequence.toNat ++ stampOctets r.stamp ++
    [oct r.flags.toNat, oct r.schedule.val, noneOctet r.option] ++
    energyOctets 8 r.totals ++ beBytes 8 r.attributed ++ energyOctets 8 r.unattributed ++
    (r.maxD.toList.map Maximum.octets).flatten ++ r.maxAll.octets ++
    beBytes 5 r.contribution ++ beBytes 6 r.clockPeak ++ stampOctets r.peakStamp ++
    beBytes 5 r.ratchetDemand ++ beBytes 5 r.minimumDemand ++ beBytes 5 r.facilityDemand ++
    beBytes 8 r.excess ++ beBytes 2 r.ratio ++
    r.tou.octets ++ r.facility.octets ++ r.reactive.octets ++ beBytes 5 r.total ++
    r.counters.octets ++ beBytes 5 r.ratchetEntry

/-- A RECORD frame: the readout's tag, then the record (R135, R194). -/
def State.recordFrame (s : State) (tag : Byte) (r : BillingRecord) : Frame :=
  { kind := kindRecord, address := s.stationOctet, payload := tag :: r.octets }

/-- The mask points that are not among the points found (R136). -/
def missingPoints (mask found : BitVec 32) : Nat :=
  (allPoints.filter (fun i => hasFlag mask i.val && !hasFlag found i.val)).length

/-- The end of a run (R136). -/
def State.endOfRun (s : State) (job : ReadoutJob) (run : Run) : State :=
  let missing := missingPoints job.mask run.found
  let settled := { job with missingPoints := job.missingPoints + missing }
  if 0 < missing ∧ job.stopOnMissing = true then s.endReadout settled .notFound else s.readoutMoveOn settled

/-- A record found overtaken (R137). -/
def State.recordOvertaken (s : State) (job : ReadoutJob) : State :=
  let counted := { job with overtaken := job.overtaken + 1 }
  if job.continueOnOvertake then s.readoutMoveOn counted else s.endReadout counted .overtaken

/-- The step at the run's offset, taken whole from its check (R134 to R137). A step that has a frame to
queue and no room is not taken and waits. -/
def State.emitStep (s : State) (job : ReadoutJob) (run : Run) : State :=
  match s.emitCheck job run with
  | .endOfRun => s.endOfRun job run
  | .overtaken => s.recordOvertaken job
  | .record r =>
    let next := { run with offset := run.offset + 1 }
    if hasFlag job.mask r.point.val then
      if s.recordRoom then
        (s.enqueue { frame := s.recordFrame job.tag r, restartReply := false }).enterEmit
          { job with sent := job.sent + 1 } { next with found := addFlag run.found r.point.val }
      else s.enterEmit job run
    else s.enterEmit job next

/-- READOUT END queued and the readout IDLE (R138). -/
def State.queueReadoutEnd (s : State) (job : ReadoutJob) (reason : EndReason) : State :=
  ({ s with readout := { s.readout with phase := .idle } } : State).enqueue
    { frame := s.readoutEndFrame job reason, restartReply := false }

/-- What a departure from the insert queue lets through: a waiting step that now has room (R135), or a
READOUT END that had found the queue full (R138, R165). -/
def State.afterDeparture (s : State) : State :=
  match s.readout.phase with
  | .emit job run => if run.waiting && s.recordRoom then s.emitStep job run else s
  | .report job reason =>
    if s.port.queue.length + 1 = Config.queuePlaces then s.queueReadoutEnd job reason else s
  | _ => s

/-! ## Output arbitration -/

/-- The choice the port makes when the transmitter is FREE (R169); none while the part is held or
unsupplied. -/
def State.outputChoice (s : State) : State :=
  if s.live then
    match s.port.transmitter with
    | .sending _ => s
    | .free =>
      match s.port.buffer, s.port.queue with
      | [], [] => s
      | f :: rest, [] =>
        { s with port := { s.port with buffer := rest, transmitter := .sending { frame := f, restartReply := false } } }
      | [], q :: more =>
        ({ s with port := { s.port with queue := more, transmitter := .sending q, streak := 0 } } : State).afterDeparture
      | f :: rest, q :: more =>
        if s.port.streak < Config.streakLimit then
          { s with port := { s.port with
            buffer := rest
            transmitter := .sending { frame := f, restartReply := false }
            streak := s.port.streak + 1 } }
        else
          ({ s with port := { s.port with queue := more, transmitter := .sending q, streak := 0 } } : State).afterDeparture
  else s

/-- A frame of the part's own is queued and, if the transmitter is FREE, a choice made (R168, R169). -/
def State.queueInsert (s : State) (q : QueuedFrame) : State := (s.enqueue q).outputChoice

/-- A frame offered to the pass-through buffer: it joins, or is dropped and counted (R167). -/
def State.offer (s : State) (f : Frame) : State :=
  if s.port.buffer.length < Config.bufferPlaces then
    ({ s with port := { s.port with buffer := s.port.buffer ++ [f] } } : State).outputChoice
  else
    ({ s with port := { s.port with
      counters := { s.port.counters with forwardOverruns := bump s.port.counters.forwardOverruns } } } : State).raiseDevice
      .fwdOverrun

/-! ## Frames discarded -/

/-- The framer is back in HUNT, holding nothing (R160). -/
def State.huntFramer (s : State) : State := { s with port := { s.port with framer := .hunt } }

/-- A frame discarded with a CRC error or as malformed (R162). -/
def State.discardFrame (s : State) (fault : DiscardFault) : State :=
  let c := s.port.counters
  let counted :=
    match fault with
    | .crcError => { c with crc := bump c.crc }
    | .malformed => { c with malformed := bump c.malformed }
  ({ s with port := { s.port with framer := .hunt, counters := counted } } : State).raiseDevice .link

/-- A frame discarded as truncated (R162). -/
def State.truncateFrame (s : State) : State :=
  let c := s.port.counters
  ({ s with port := { s.port with framer := .hunt, counters := { c with truncated := bump c.truncated } } } :
    State).raiseDevice .link

/-! ## Requests -/

/-- What a request's own rule gives: the reply code and data, the state after its effects (which the reply's
envelope shows), and the state after what the request clears once its reply is built (R177, R178).
`restartReply`: a pending restart waits for this reply to leave (R176). -/
structure Answer where
  code         : ReplyCode
  data         : List Byte
  state        : State
  final        : State
  restartReply : Bool

/-- A request taken. -/
def Answer.taken (s : State) (data : List Byte) : Answer :=
  { code := .ok, data := data, state := s, final := s, restartReply := false }

/-- A request refused: it changes nothing but the device flag its code raises (R173). -/
def Answer.refusal (s : State) (code : ReplyCode) : Answer :=
  { code := code, data := [], state := s, final := s, restartReply := false }

/-- The device flag a reply code raises (R173). -/
def State.raiseForCode (s : State) (code : ReplyCode) : State :=
  match code with
  | .busy => s.raiseDevice .busyRefused
  | .locked => s.raiseDevice .lockRefused
  | _ => s

/-- The reply built, then queued, as part of the request's event (R172, R173). -/
def Answer.reply (a : Answer) (tag kind : Byte) : State :=
  (a.final.raiseForCode a.code).queueInsert
    { frame := (a.state.raiseForCode a.code).replyFrame tag kind a.code a.data, restartReply := a.restartReply }

/-- A request that finds the insert queue full is dropped unexecuted (R165). -/
def State.requestOverrun (s : State) : State :=
  ({ s with port := { s.port with
    counters := { s.port.counters with requestOverruns := bump s.port.counters.requestOverruns } } } : State).raiseDevice
    .reqOverrun

/-- The insert queue has a free place (R165). -/
def State.replyRoom (s : State) : Bool := decide (s.port.queue.length < Config.queuePlaces)

/-- A REQUEST frame's address is the part's station (R163). -/
def State.isStation (s : State) (address : Byte) : Bool := decide (s.decoder.station.map (fun n => oct n.val) = some address)

/-- A good frame that arrives while the part is held or unsupplied is not seen; one whose length fails is
malformed (R161, R162, R185; log 21); any other is taken, the framer being back in HUNT. -/
def State.receive (s : State) (f : Frame) (take : State → State) : State :=
  if s.live then (if f.lengthOk then take s.huntFramer else s.discardFrame .malformed) else s

/-- A REQUEST of a known kind (R163, R165, R172): passed on if it is not for this part, dropped if the
insert queue is full, answered LENGTH if its arguments are not of the kind's length, else given to its own
rule. `forUs` says which addresses are this part's. -/
def State.takeRequest (s : State) (kind : RequestKind) (r : Request) (forUs : Bool) (rule : State → Answer) : State :=
  s.receive (r.frame kind) (fun s =>
    if forUs then
      if s.replyRoom then
        if (kind.argLength.map (fun n => decide (r.args.length = n))).getD true then
          (rule s).reply r.tag kind.code
        else (Answer.refusal s .length).reply r.tag kind.code
      else s.requestOverrun
    else s.offer (r.frame kind))

/-- A REQUEST addressed to the part's station. -/
def State.request (s : State) (kind : RequestKind) (r : Request) (rule : State → Answer) : State :=
  s.takeRequest kind r (s.isStation r.address) rule

end Sys2Proof.Machine
end

