-- ==== Sys2Proof/Machine/CloseUnit.lean ====
section
/-! DEFINITION. The close unit: one point's close, a clock's share, the start and the completion of a close
(R91 to R112). -/

namespace Sys2Proof.Machine

/-- The period excess of a point under its option (R85, R86). -/
def State.excessOf (s : State) (p : Point) : Nat :=
  periodExcess (s.optionOf p) p.totals p.unattributed p.excessSum

/-- The charges of a point's close, under its schedule of the active set (R99, R114). -/
def State.chargesOf (s : State) (p : Point) : Charges :=
  charges s.tariff.active.schedules[p.config.schedule] p (s.excessOf p)

/-- The billing record of a point's close of period P (R100). -/
def State.recordOf (s : State) (i : Fin 32) (p : Point) (closing : BitVec 16) (stamp : Option CalTime)
    (cutClose : Bool) : BillingRecord :=
  p.record i closing (s.chargesOf p) (s.excessOf p) (reactiveRatio (s.optionOf p) p.totals) (s.clockOf p) stamp cutClose

/-- A point after its close of period P: the ratchet push, the residues, the reset and CLOSED (R98). -/
def State.settledPoint (s : State) (p : Point) (closing : BitVec 16) : Point := p.settle (s.chargesOf p) (closing + 1)

/-- One point's close of period P as one transaction (R98): values from the active set (R99), reactive
figures (R88), charges, the record appended, the ratchet push, the residues, the reset and CLOSED. -/
def State.closePoint (s : State) (i : Fin 32) (p : Point) (closing : BitVec 16) (stamp : Option CalTime)
    (cutClose : Bool) : State :=
  ({ s with history := s.history.append (s.recordOf i p closing stamp cutClose) } : State).setPoint i
    (some (s.settledPoint p closing))

/-- The points that satisfy a condition close period P, in ascending point index (R95, R96). -/
def State.closePoints (s : State) (which : Point → Bool) (closing : BitVec 16) (stamp : Option CalTime)
    (cutClose : Bool) : State :=
  allPoints.foldl
    (fun t i =>
      match t.points[i] with
      | some p => if which p then t.closePoint i p closing stamp cutClose else t
      | none => t) s

/-- A clock resets its coincident peak, and its points' contributions are 0 from then on (R104). -/
def State.resetPeak (s : State) (k : Fin 4) : State :=
  (s.setClock k { s.clocks[k] with peak := 0, peakStamp := none }).mapPointsOn k
    (fun p => { p with contribution := 0 })

/-- The completion of a close (R105). -/
def State.completeClose (s : State) (closing : BitVec 16) : State :=
  let idle : State :=
    ({ s with close := { inFlight := none, pendingSet := 0, devicePeriod := closing + 1 } } : State).raiseDevice
      .closeDone
  if idle.tariff.atClose then
    { idle with tariff := { idle.tariff with active := idle.tariff.pending, atClose := false } }
  else idle

/-- The completion, if the pending set is empty (R96 step 4, R107 step 3). -/
def State.completeIfEmpty (s : State) (closing : BitVec 16) : State :=
  if s.close.pendingSet = 0 then s.completeClose closing else s

/-- A point has its close of period P before it at a pending clock k: its clock field names k and it is still in
P (R96, R97). -/
def Point.dueAt (p : Point) (k : Fin 4) (closing : BitVec 16) : Bool := p.onClock k && decide (p.period = closing)

/-- A pending clock whose points have closed resets its peak and leaves the pending set (R96, R104). -/
def State.leaveClose (s : State) (k : Fin 4) : State :=
  let t := s.resetPeak k
  { t with close := { t.close with pendingSet := dropFlag t.close.pendingSet k.val } }

/-- A pending clock's share of a close: its points still in P close, its peak is reset and it leaves the
pending set (R96, R107, R110). -/
def State.settleClock (s : State) (k : Fin 4) (closing : BitVec 16) (stamp : Option CalTime) (cutClose : Bool) :
    State := (s.closePoints (fun p => p.dueAt k closing) closing stamp cutClose).leaveClose k

/-- A clock's share of a close in flight, if it is pending, and the completion it may bring (R96, R107). -/
def State.clockShare (s : State) (k : Fin 4) (stamp : Option CalTime) : State :=
  match s.close.inFlight with
  | some closing =>
    if hasFlag s.close.pendingSet k.val then (s.settleClock k closing stamp false).completeIfEmpty closing else s
  | none => s

/-- The pending set a close starts with: with the time set, the enabled clocks some configured point names
(R94 step 2). -/
def State.startingSet (s : State) : BitVec 4 :=
  if s.time.calendar.isSome then
    allClocks.foldl
      (fun b k =>
        if s.clocks[k].enabled && s.points.toList.any (fun p => (p.map (·.onClock k)).getD false)
        then addFlag b k.val else b) 0
  else 0

/-- A close in flight with its pending set (R94). -/
def State.beginClose (s : State) : State :=
  { s with close := { s.close with inFlight := some s.close.devicePeriod, pendingSet := s.startingSet } }

/-- The points without an open sub-interval close at the start (R95). -/
def State.closeIdlePoints (s : State) : State :=
  s.closePoints (fun p => p.sub.isNone) s.close.devicePeriod s.time.calendar false

/-- The clocks that are not pending reset their peaks at the start (R104). -/
def State.resetIdlePeaks (s : State) : State :=
  allClocks.foldl (fun t k => if hasFlag s.close.pendingSet k.val then t else t.resetPeak k) s

/-- A close starts (R94, R95). -/
def State.startClose (s : State) : State :=
  s.beginClose.closeIdlePoints.resetIdlePeaks.completeIfEmpty s.close.devicePeriod

/-- The pending clocks settle, in ascending order, with CUT_CLOSE (R110). -/
def State.settlePending (s : State) (closing : BitVec 16) (stamp : Option CalTime) : State :=
  allClocks.foldl
    (fun t k => if hasFlag s.close.pendingSet k.val then t.settleClock k closing stamp true else t) s

/-- A warm start completes a close in flight: clock by clock the pending points close with CUT_CLOSE, and the
close completes (R110). -/
def State.warmClose (s : State) (stamp : Option CalTime) : State :=
  match s.close.inFlight with
  | some closing => (s.settlePending closing stamp).completeClose closing
  | none => s

/-! ## A warm start's completion of a close, step by step -/

/-- The steps a warm start completes a close in flight by, each whole (R98, R110, R182): one point's close; a
clock's leaving of the pending set, with the completion it may bring. -/
inductive WarmCloseStep where
  | point (i : Fin 32)
  | clock (k : Fin 4)
  deriving DecidableEq, Repr

/-- One step of the completion (R110). -/
def State.warmCloseStep (s : State) (closing : BitVec 16) (stamp : Option CalTime) : WarmCloseStep → State
  | .point i =>
    match s.points[i] with
    | some p => s.closePoint i p closing stamp true
    | none => s
  | .clock k => (s.leaveClose k).completeIfEmpty closing

/-- The pending clocks, in ascending order. -/
def State.pendingClocks (s : State) : List (Fin 4) := allClocks.filter (fun k => hasFlag s.close.pendingSet k.val)

/-- The points that have the close of a period before them at a pending clock, in ascending point index (R96). -/
def State.duePoints (s : State) (closing : BitVec 16) (k : Fin 4) : List (Fin 32) :=
  allPoints.filter (fun i => (s.points[i].map (fun p => p.dueAt k closing)).getD false)

/-- The steps of the completion in their order: the points clock by clock, then the clocks (R110). -/
def State.warmCloseSteps (s : State) (closing : BitVec 16) : List WarmCloseStep :=
  (s.pendingClocks.flatMap (s.duePoints closing)).map .point ++ s.pendingClocks.map .clock

/-- The first n steps of the completion of a close in flight (R110, R183). -/
def State.warmCloseFirst (s : State) (n : Nat) (stamp : Option CalTime) : State :=
  match s.close.inFlight with
  | some closing => ((s.warmCloseSteps closing).take n).foldl (fun t x => t.warmCloseStep closing stamp x) s
  | none => s

end Sys2Proof.Machine
end

