-- ==== Sys2Proof/Machine/Boundary.lean ====
section
/-! DEFINITION. The demand clocks: a boundary in its seven steps (R62 to R76), the opening of sub-intervals,
the enable and the disable of a clock (R58 to R60). -/

namespace Sys2Proof.Machine

/-- The sub-intervals of a clock's points opened at a minute (R66). -/
def State.openPointsOn (s : State) (k : Fin 4) (now : CalTime) : State :=
  s.mapPointsOn k (fun p => p.openSub s.tariff.active s.clocks[k] now)

/-- The sub-intervals of every configured point on an enabled clock opened (R41, R47). -/
def State.openEnabled (s : State) (now : CalTime) : State :=
  allClocks.foldl (fun t k => if t.clocks[k].enabled then t.openPointsOn k now else t) s

/-- The sum of the eligible window demands of a clock's points (R74). -/
def State.coincidentSum (s : State) (k : Fin 4) : Nat :=
  (s.points.toList.map (fun p =>
    match p with
    | some p => if p.onClock k then p.eligibleDemand s.clocks[k] else 0
    | none => 0)).sum

/-- Step 4 of a boundary: the sum against the coincident peak (R74). -/
def State.comparePeak (s : State) (k : Fin 4) (now : CalTime) : State :=
  let sum := s.coincidentSum k
  if s.clocks[k].peak < sum then
    (s.setClock k { s.clocks[k] with peak := sum, peakStamp := some now }).mapPointsOn k
      (fun p => { p with contribution := p.eligibleDemand s.clocks[k] })
  else s

/-- Step 7 of a boundary: the restoration hold counter counts down (R76). -/
def State.countHold (s : State) (k : Fin 4) : State :=
  s.setClock k { s.clocks[k] with hold := s.clocks[k].hold - 1 }

/-- Steps 1 to 4 of a boundary of a clock (R63). At a self-advance its points raise TIME_HOLDOVER first (R46,
R96). -/
def State.evaluateClock (s : State) (k : Fin 4) (now : CalTime) (selfAdvance : Bool) : State :=
  let marked := if selfAdvance then s.mapPointsOn k (fun p => p.raisePeriod .timeHoldover) else s
  (marked.mapPointsOn k (fun p => p.boundary (marked.optionOf p) marked.clocks[k] now)).comparePeak k now

/-- A boundary of a clock (R63): the windows, the clock's share of a close in flight, the next sub-intervals, the
hold counter. -/
def State.boundary (s : State) (k : Fin 4) (now : CalTime) (selfAdvance : Bool) : State :=
  (((s.evaluateClock k now selfAdvance).clockShare k (some now)).openPointsOn k now).countHold k

/-- The clocks that have a boundary at a minute, in the order the world takes them: those listed first, then
the others in ascending number (R62, R111; log 4). -/
def arrange : List (Fin 4) → List (Fin 4) → List (Fin 4)
  | [], due => due
  | k :: order, due => if k ∈ due then k :: arrange order (due.erase k) else arrange order due

/-- The enabled clocks for which a minute is a boundary minute (R62). -/
def State.dueClocks (s : State) (now : CalTime) : List (Fin 4) :=
  allClocks.filter (fun k => s.clocks[k].enabled && s.clocks[k].boundaryMinute now)

/-- A minute handed to the clocks (R46 stage 2). -/
def State.handMinute (s : State) (order : List (Fin 4)) (now : CalTime) (selfAdvance : Bool) : State :=
  (arrange order (s.dueClocks now)).foldl (fun t k => t.boundary k now selfAdvance) s

/-- A clock turned off, its points cut, their rings cleared, CONFLICT added (R59). -/
def State.cutClock (s : State) (k : Fin 4) : State :=
  let off := s.setClock k { s.clocks[k] with enabled := false }
  off.mapPointsOn k (fun p => ({ off.cutPoint p with ring := [] } : Point).addConflict)

/-- A clock disabled (R59): its points are cut, their rings cleared, CONFLICT added; then a pending clock
settles its share of the close (R107). -/
def State.disableClock (s : State) (k : Fin 4) : State :=
  (s.cutClock k).clockShare k s.time.calendar

/-- A clock enabled (R60). -/
def State.enableClock (s : State) (k : Fin 4) : State :=
  let on := (s.setClock k { s.clocks[k] with enabled := true }).mapPointsOn k (fun p => { p with conflict := false })
  match s.time.calendar with
  | some now => on.openPointsOn k now
  | none => on

/-- A point takes up the clock its clock field names: NONE, a disabled clock, or an enabled one with the time
set or not (R13, R14). -/
def State.takeUpClock (s : State) (p : Point) : Point :=
  match s.clockOf p with
  | none => { p with conflict := false }
  | some c =>
    if c.enabled then
      match s.time.calendar with
      | some now => ({ p with conflict := false } : Point).openSub s.tariff.active c now
      | none => { p with conflict := false }
    else p.addConflict

end Sys2Proof.Machine
end

