-- ==== Sys2Proof/Machine/Starts.lean ====
section
/-! DEFINITION. The supply and the starts: the warm start at each of its owners, the cold start, the supply
warning, and the events on the supply and on the pins (R182 to R189). -/

namespace Sys2Proof.Machine

/-! ## The supply warning -/

/-- A SUPWARN assertion (R184): the flag, and a readout in SEARCH or EMIT ends SUPPLY (R140). -/
def State.takeWarning (s : State) : State :=
  let warned := s.raiseDevice .supplyWarn
  match s.readout.phase with
  | .search job => warned.endReadout job .supply
  | .emit job _ => warned.endReadout job .supply
  | .idle => warned
  | .report _ _ => warned

/-- A start completes: it sets the retention mark (R183), and with SUPWARN already high the part takes an
assertion just after it (R184). -/
def State.completeStart (s : State) : State :=
  let started : State := { s with supply := { s.supply with retention := true } }
  if started.supply.supwarn then started.takeWarning else started

/-! ## The warm start, owner by owner (R186) -/

/-- The point contexts at a warm start: each configured point is cut, then restarted (R11, R68). -/
def State.warmPoints (s : State) : State := s.mapPoints (fun p => (s.cutPoint p).warmStart)

/-- A clock at a warm start: the hold counter is loaded with H (R55, R76). -/
def Clock.warmStart (c : Clock) : Clock := { c with hold := c.holdLength }

/-- The time base at a warm start: the last close month and the three counts are kept (R37). -/
def TimeBase.warmStart (t : TimeBase) : TimeBase :=
  { t with calendar := none, state := .unset, timer := .stopped, holdover := 0 }

/-- A readout in flight at a warm start ends RESTART, and nothing is reported (R141). -/
def State.restartReadout (s : State) : State :=
  match s.readout.phase with
  | .idle => s
  | _ => ({ s with readout := { phase := .idle, lastEnd := some .restart } } : State).raiseDevice .readoutEnd

/-- The port at a warm start: the link counters are kept (R159). -/
def Port.warmStart (p : Port) : Port :=
  { p with framer := .hunt, buffer := [], queue := [], transmitter := .free, streak := 0 }

/-- The request decoder at a warm start: station and locks are kept (R171, R175). -/
def Decoder.warmStart (d : Decoder) : Decoder :=
  { d with startKind := .warm, startAck := false, restartPending := false }

/-- The warm start (R186): the cut closes come before the close in flight completes, and the readout ends
before the insert queue is emptied. The close stamp is the calendar time as it stood before the start; after
a supply loss there is none. -/
def State.warmStart (s : State) : State :=
  let points := s.warmPoints
  let timed : State :=
    { points with clocks := points.clocks.map Clock.warmStart, time := points.time.warmStart }
  let closed := timed.warmClose s.time.calendar
  let ended := closed.restartReadout
  ({ ended with port := ended.port.warmStart, decoder := ended.decoder.warmStart } : State).completeStart

/-! ## A warm start that VDD breaks off -/

/-- The point contexts of a set at a warm start (R11, R68). -/
def State.warmPointsIn (s : State) (set : BitVec 32) : State :=
  { s with points := s.points.mapIdx (fun i p =>
      if hasFlag set i then p.map (fun p => (s.cutPoint p).warmStart) else p) }

/-- The clocks of a set at a warm start (R76). -/
def State.warmClocksIn (s : State) (set : BitVec 4) : State :=
  { s with clocks := s.clocks.mapIdx (fun k c => if hasFlag set k then c.warmStart else c) }

/-- VDD is below its range: what the backup domain does not hold is at its warm-start value from here on, but
for the mark of a readout in flight, which the next warm start ends with RESTART (R182, R183; log 9, log 10). -/
def State.loseSupply (s : State) : State :=
  { s with
    supply := { s.supply with vdd := false }
    time := s.time.warmStart
    port := s.port.warmStart
    decoder := s.decoder.warmStart }

/-- What a warm start makes whole in the backup domain by the place VDD falls (R183): each owner's own actions,
and the first steps of the completion of a close once every point has been cut (R186). -/
def State.warmStartPart (s : State) (b : StartBreak) : State :=
  let blocks := (s.warmPointsIn b.points).warmClocksIn b.clocks
  let closed := if b.points = BitVec.allOnes 32 then blocks.warmCloseFirst b.closes s.time.calendar else blocks
  if b.readout then closed.restartReadout else closed

/-- A warm start that comes to its end, or during which VDD falls: the domain then holds whatever the start had
made whole, and the part is without supply (R183). -/
def State.takeWarmStart (s : State) (broken : Option StartBreak) : State :=
  match broken with
  | none => s.warmStart
  | some b => (s.warmStartPart b).loseSupply

/-! ## The cold start -/

/-- Every block at its cold-start values (R188), with the pins, VDD and the retention mark given. The model's
own fields stay as they are. -/
def State.coldDomain (s : State) (vdd retention : Bool) : State :=
  { State.reset with
    pending := s.pending, lineIn := s.lineIn, freeIndex := s.freeIndex
    supply := { s.supply with vdd := vdd, retention := retention } }

/-- The cold start (R188). -/
def State.coldStart (s : State) : State := (s.coldDomain true true).completeStart

/-- A cold start that comes to its end, or during which VDD falls: the domain is then clear, and so is the
retention mark (R183). -/
def State.takeColdStart (s : State) (broken : Option StartBreak) : State :=
  match broken with
  | none => s.coldStart
  | some _ => s.coldDomain false false

/-! ## The commands -/

/-- SUPWARN going high is taken as an assertion; going low is no event of the part (R184; log 11). While VDD
is absent only the pin changes. -/
def execSupwarn (high : Bool) (s : State) : Host.Outcome State Fault Refusal :=
  let t : State := { s with supply := { s.supply with supwarn := high } }
  .next (if high ∧ s.supply.vdd then t.takeWarning else t)

/-- POWER_UP: VDD rises into its range; a warm start if the retention mark is set, else a cold start (R183).
VDD already in range does not rise (log 2). VDD may fall again during the start. -/
def execPowerUp (s : State) (broken : Option StartBreak := none) : Host.Outcome State Fault Refusal :=
  .next (
    if s.supply.vdd then s
    else
      let t : State := { s with supply := { s.supply with vdd := true } }
      if s.supply.retention then t.takeWarmStart broken else t.takeColdStart broken)

/-- RESETN going low makes a warm start at once (R185); while VDD is absent only the pin changes. A line
already low does not go low (log 2). VDD may fall during the start (R183). -/
def execResetn (s : State) (broken : Option StartBreak := none) : Host.Outcome State Fault Refusal :=
  let t : State := { s with supply := { s.supply with resetnLow := true } }
  .next (if s.supply.resetnLow then s else if s.supply.vdd then t.takeWarmStart broken else t)

/-- RESETN returning high: the framer starts in HUNT and the part resumes; no second start (R185). -/
def execResetnRelease (s : State) : Host.Outcome State Fault Refusal :=
  .next (
    if s.supply.resetnLow then
      ({ s with supply := { s.supply with resetnLow := false } } : State).huntFramer
    else s)

/-- SUPPLY_LOSS: VDD falls below its range and the part stops (R182, R183). -/
def execSupplyLoss (s : State) : Host.Outcome State Fault Refusal :=
  .next (if s.supply.vdd then s.loseSupply else s)

/-- VBAK_FAILURE while VDD is absent: the backup domain loses its contents with the retention mark (R182;
log 10). With VDD present, VDD supplies the domain. -/
def execVbakFailure (s : State) : Host.Outcome State Fault Refusal :=
  .next (if s.supply.vdd then s else s.coldDomain false false)

/-- The transmitter is sending the reply a pending restart waits for (R176). -/
def State.sendingRestartReply (s : State) : Bool :=
  match s.port.transmitter with
  | .sending q => q.restartReply
  | .free => false

/-- RESTART_WARM_START: the last octet of the RESTART reply has been sent, and the part makes a warm start (R176,
R185). With no such reply on its way out there is nothing to make one of (log 2). VDD may fall during the start
(R183). -/
def execRestartWarmStart (s : State) (broken : Option StartBreak := none) : Host.Outcome State Fault Refusal :=
  .next (if s.sendingRestartReply then s.takeWarmStart broken else s)

end Sys2Proof.Machine
end

