-- ==== Sys2Proof/Machine/CloseReadout.lean ====
section
/-! DEFINITION. CLOSE PERIOD (R92) and the readout: READOUT, its steps, READOUT END and ABORT READOUT (R131
to R139). -/

namespace Sys2Proof.Machine

/-! ## CLOSE PERIOD -/

/-- CLOSE PERIOD's own check and effect: P, the pending set and the completed indication as the start leaves
them (R92). -/
def State.closePeriodRule (s : State) : Answer :=
  match s.close.inFlight with
  | some _ => Answer.refusal s .busy
  | none =>
    let t := s.startClose
    Answer.taken t
      (beBytes 2 s.close.devicePeriod.toNat ++ [oct t.close.pendingSet.toNat, octBool t.close.inFlight.isNone])

/-- CLOSE PERIOD (R92). -/
def execClosePeriod (r : Request) (s : State) : Host.Outcome State Fault Refusal :=
  .next (s.request .closePeriod r (fun s => s.closePeriodRule))

/-! ## READOUT and its steps -/

/-- READOUT's own checks and effect (R131). -/
def State.readoutRule (s : State) (tag : Byte) (args : List Byte) : Answer :=
  match parseReadout tag args with
  | none => Answer.refusal s .range
  | some job =>
    match s.readout.phase with
    | .idle => Answer.taken { s with readout := { s.readout with phase := .search job } } []
    | _ => Answer.refusal s .busy

/-- READOUT (R131). -/
def execReadout (r : Request) (s : State) : Host.Outcome State Fault Refusal :=
  .next (s.request .readout r (fun s => s.readoutRule r.tag r.args))

/-- The sequence of the record in a slot (0 for an empty one). -/
def History.sequenceAt (h : History) (slot : Fin 384) : BitVec 32 :=
  match h.slots[slot] with
  | some r => r.sequence
  | none => 0

/-- The search of the current period (R133). -/
def State.searchStep (s : State) (job : ReadoutJob) : State :=
  let run := s.history.runOf job.current
  match run.getLast? with
  | none =>
    let counted := { job with missingPeriods := job.missingPeriods + 1 }
    if job.stopOnMissing then s.endReadout counted .notFound else s.readoutMoveOn counted
  | some slot =>
    s.enterEmit job
      { firstSlot := slot, firstSeq := s.history.sequenceAt slot, length := run.length, offset := 0, found := 0,
        waiting := false }

/-- READOUT_SEARCH: the readout unit's step in SEARCH (R133); in no other phase is there one (log 2). -/
def execReadoutSearch (s : State) : Host.Outcome State Fault Refusal :=
  .next (
    if s.live then
      match s.readout.phase with
      | .search job => s.searchStep job
      | _ => s
    else s)

/-- READOUT_EMIT: the step at the run's offset (R134 to R137). A step that waits for room is not taken before
a departure gives it (R135; log 19). -/
def execReadoutEmit (s : State) : Host.Outcome State Fault Refusal :=
  .next (
    if s.live then
      match s.readout.phase with
      | .emit job run => if run.waiting && !s.recordRoom then s else (s.emitStep job run).outputChoice
      | _ => s
    else s)

/-- READOUT_END: in REPORT the report is queued once the insert queue has a free place (R138). -/
def execReadoutEnd (s : State) : Host.Outcome State Fault Refusal :=
  .next (
    if s.live then
      match s.readout.phase with
      | .report job reason => if s.replyRoom then (s.queueReadoutEnd job reason).outputChoice else s
      | _ => s
    else s)

/-! ## ABORT READOUT -/

/-- The code of a phase (R190). -/
def Phase.octet : Phase → Byte
  | .idle => 0
  | .search _ => 1
  | .emit _ _ => 2
  | .report _ _ => 3

/-- The readout ends ABORTED in SEARCH or EMIT (R139). -/
def State.abortReadout (s : State) : State :=
  match s.readout.phase with
  | .search job => s.endReadout job .aborted
  | .emit job _ => s.endReadout job .aborted
  | .idle => s
  | .report _ _ => s

/-- ABORT READOUT (R139): the reply carries the phase after it. -/
def execAbortReadout (r : Request) (s : State) : Host.Outcome State Fault Refusal :=
  .next (s.request .abortReadout r (fun s => Answer.taken s.abortReadout [s.abortReadout.readout.phase.octet]))

end Sys2Proof.Machine
end

