-- ==== Sys2Proof/Machine/Reading.lean ====
section
/-! DEFINITION. READING: the point window, the stamp and the absorption (R18 to R20, R33, R34, R163). What a
frame does to its point context is in Points.lean. -/

namespace Sys2Proof.Machine

/-- The point index an address names in the part's window, if it lies there (R18). -/
def State.windowIndex (s : State) (address : Byte) : Option (Fin 32) :=
  match s.decoder.station with
  | some n => if address.toNat / 32 = n.val then some (Fin.ofNat 32 address.toNat) else none
  | none => none

/-- A READING's payload stamped with its disposition and rate period (R33, R191). -/
def stampReading (payload : List Byte) (d : Disposition) (rate : Byte) : List Byte :=
  (payload.set 18 d.code).set 19 rate

/-- An in-window READING (R19): UNUSED_POINT is counted and forwarded (R20); a configured point takes the
frame, which is then forwarded stamped or absorbed under the forward field (R33, R34). -/
def State.takeReadingAt (s : State) (i : Fin 32) (f : Frame) : State :=
  match s.points[i] with
  | none =>
    ({ s with unusedReadings := bump s.unusedReadings } : State).offer
      { f with payload := stampReading f.payload .unusedPoint 15 }
  | some p =>
    let taken := p.takeReading (readingData f.payload)
    let t := s.setPoint i (some taken.1)
    if p.config.forward then t.offer { f with payload := stampReading f.payload taken.2 taken.1.stampRate }
    else t

/-- A good READING frame (R163): in the window it is processed, elsewhere it is offered unchanged. -/
def State.takeReadingFrame (s : State) (f : Frame) : State :=
  match s.windowIndex f.address with
  | some i => s.takeReadingAt i f
  | none => s.offer f

/-- READING (R19, R163). -/
def execReading (address : Byte) (payload : List Byte) (s : State) : Host.Outcome State Fault Refusal :=
  let f : Frame := { kind := kindReading, address := address, payload := payload }
  .next (s.receive f (fun s => s.takeReadingFrame f))

end Sys2Proof.Machine
end

