-- ==== Sys2Proof/Machine/Port.lean ====
section
/-! DEFINITION. The loop port: the framer octet by octet (R160, R161), the classification of a frame that is
not for this part (R163), and the port's own commands. -/

namespace Sys2Proof.Machine

/-! ## The framer -/

/-- What an octet completes at the framer (R160). -/
inductive FramerEvent where
  | stray (octet : Byte)
  | discard (fault : DiscardFault)
  | good (frame : Frame)
  deriving DecidableEq, Repr

/-- The check at the second CRC octet (R161). -/
def checkFrame (f : Frame) (crc : BitVec 16) : FramerEvent :=
  if frameCrc f = crc then (if f.lengthOk then .good f else .discard .malformed) else .discard .crcError

/-- One octet at the framer (R160). -/
def Framer.step (framer : Framer) (o : Byte) : Framer × Option FramerEvent :=
  match framer with
  | .hunt =>
    if o = syncOctet then (.header [], none) else if o = 0 then (.hunt, none) else (.hunt, some (.stray o))
  | .header held =>
    match held with
    | kind :: address :: _ =>
      if 250 < o.toNat then (.hunt, some (.discard .malformed))
      else if o = 0 then (.check kind address [] none, none)
      else (.body kind address o.toNat [], none)
    | _ => (.header (held ++ [o]), none)
  | .body kind address length held =>
    if held.length + 1 < length then (.body kind address length (held ++ [o]), none)
    else (.check kind address (held ++ [o]) none, none)
  | .check kind address payload first =>
    match first with
    | none => (.check kind address payload (some o), none)
    | some high => (.hunt, some (checkFrame { kind := kind, address := address, payload := payload } (high ++ o)))

/-- Octets at the framer, one after the other, none of which completes anything. -/
def Framer.feed (framer : Framer) : List Byte → Option Framer
  | [] => some framer
  | o :: os =>
    match framer.step o with
    | (next, none) => next.feed os
    | (_, some _) => none

/-- The command an octet's event is (R160 to R163). -/
def FramerEvent.command (order : List (Fin 4)) : FramerEvent → Instr
  | .stray o => .strayOctet o
  | .discard fault => .frameDiscard fault
  | .good f => commandOf order f

/-- One octet of the line is taken: the state with the framer's next state, and the command the octet
completes (R160; log 3). The part takes no octet while it is held or unsupplied (R185). The order of the
clocks at the minute a MARK brings is a free value (log 4). -/
def State.takeOctet (s : State) : State × Option Instr :=
  match s.lineIn with
  | [] => (s, none)
  | o :: rest =>
    let t : State := { s with lineIn := rest }
    if t.live then
      let r := t.port.framer.step o
      let u : State := { t with port := { t.port with framer := r.1 } }
      match r.2 with
      | none => (u, none)
      | some event =>
        ({ u with freeIndex := u.freeIndex + 1 }, some (event.command (Config.clockOrder u.freeIndex)))
    else (t, none)

/-! ## Frames for others -/

/-- An ASSIGN STATION an unassigned part consumes: addressed 0xFF (R163, R164). -/
def State.isOpenAssign (s : State) (address : Byte) : Bool :=
  decide (address = unassignedAddress) && s.decoder.station.isNone

/-- The payload names ASSIGN STATION. -/
def namesAssign : List Byte → Bool
  | _ :: code :: _ => decide (code = RequestKind.assignStation.code)
  | _ => false

/-- A good frame is not taken by any block of this part (R163). -/
def State.foreign (s : State) (f : Frame) : Bool :=
  if f.kind = kindMark then false
  else if f.kind = kindReading then (s.windowIndex f.address).isNone
  else if f.kind = kindRequest then
    !(s.isStation f.address || (s.isOpenAssign f.address && namesAssign f.payload))
  else true

/-- PASS_THROUGH_FRAME: a good frame not for this part is offered unchanged (R163, R167). A frame this part
would take is no such frame (log 2). -/
def execPassThroughFrame (frame : Frame) (s : State) : Host.Outcome State Fault Refusal :=
  .next (s.receive frame (fun s => if s.foreign frame then s.offer frame else s))

/-! ## Discards -/

/-- FRAME_DISCARD (R162). -/
def execFrameDiscard (fault : DiscardFault) (s : State) : Host.Outcome State Fault Refusal :=
  .next (if s.live then s.discardFrame fault else s)

/-- TRUNCATED_FRAME: octets arrive and then the line falls quiet (R160, R162). Inside a frame it is
truncated; in HUNT there is nothing to do, and octets that complete something are no truncated frame
(log 2). -/
def execTruncatedFrame (octets : List Byte) (s : State) : Host.Outcome State Fault Refusal :=
  .next (
    if s.live then
      match s.port.framer.feed octets with
      | some .hunt => s
      | some _ => s.truncateFrame
      | none => s
    else s)

/-- STRAY_OCTET: an octet that is neither sync nor idle fill arrives in HUNT (R160). -/
def execStrayOctet (octet : Byte) (s : State) : Host.Outcome State Fault Refusal :=
  .next (
    if s.live ∧ s.port.framer = .hunt ∧ octet ≠ syncOctet ∧ octet ≠ 0 then
      { s with port := { s.port with
        counters := { s.port.counters with stray := bump s.port.counters.stray } } }
    else s)

/-! ## The transmitter -/

/-- The transmitter returns to FREE and the port makes its choice (R169). -/
def State.sendDone (s : State) : State :=
  ({ s with port := { s.port with transmitter := .free } } : State).outputChoice

/-- FRAME_SENT: the frame's last octet has gone (R169). When it was the reply a pending restart waits for,
the part makes its warm start (R176; log 8). With the transmitter FREE no frame was being sent (log 2). -/
def execFrameSent (s : State) : Host.Outcome State Fault Refusal :=
  .next (
    match s.port.transmitter with
    | .free => s
    | .sending q => if q.restartReply then s.warmStart else s.sendDone)

/-! ## Requests no kind of which is known -/

/-- The answer to a REQUEST for the station that is too short (tag and kind 0) or names no known kind
(R165, R172). -/
def State.answerUnknown (s : State) (payload : List Byte) : State :=
  match payload with
  | tag :: code :: _ => (Answer.refusal s .unknown).reply tag code
  | _ => (Answer.refusal s .length).reply 0 0

/-- UNKNOWN_REQUEST: a REQUEST too short to hold tag and kind, or naming no known kind (R165, R172). A
payload that names a known kind is no such request (log 2). -/
def execUnknownRequest (address : Byte) (payload : List Byte) (s : State) : Host.Outcome State Fault Refusal :=
  let f : Frame := { kind := kindRequest, address := address, payload := payload }
  let known :=
    match payload with
    | _ :: code :: _ => (RequestKind.ofCode code).isSome
    | _ => false
  .next (
    if known then s
    else s.receive f (fun s =>
      if s.isStation address then (if s.replyRoom then s.answerUnknown payload else s.requestOverrun)
      else s.offer f))

end Sys2Proof.Machine
end

