-- ==== Sys2Proof/Machine/PointRequests.lean ====
section
/-! DEFINITION. SET POINT, REMOVE POINT, HOLD POINT, RELEASE POINT (R12 to R17) and SET CLOCK (R57, R58). -/

namespace Sys2Proof.Machine

/-- Either lock is set (R158). -/
def State.anyLock (s : State) : Bool := s.decoder.clearable || s.decoder.commissioning

/-- The code of a point state (R190). -/
def PointState.octet : PointState → Byte
  | .unused => 0
  | .active => 1
  | .loss => 2
  | .held => 3

/-- The reply data of the four point requests: point index, derived state, period number (R192). -/
def pointReply (i : Fin 32) (state : PointState) (period : BitVec 16) : List Byte :=
  [oct i.val, state.octet] ++ beBytes 2 period.toNat

/-- The answer of a point request that leaves the point configured. -/
def State.pointTaken (s : State) (i : Fin 32) (p : Point) : Answer :=
  Answer.taken (s.setPoint i (some p)) (pointReply i p.state p.period)

/-! ## SET POINT -/

/-- The period number of a point configured from UNUSED: the device period, or P+1 while a close is in
flight (R13). -/
def State.newPeriod (s : State) : BitVec 16 :=
  match s.close.inFlight with
  | some closing => closing + 1
  | none => s.close.devicePeriod

/-- A point configured from UNUSED (R13). -/
def State.configure (s : State) (c : PointConfig) : Point := s.takeUpClock (Point.fresh c s.newPeriod)

/-- A configured point with its record replaced (R14): with the clock field changed it is cut under its old
clock and option and takes up the new clock. LOSS is raised where the new loss limit is at or below the
missing count (R5; log 7, log 22). -/
def State.reconfigure (s : State) (p : Point) (c : PointConfig) : Point :=
  let q :=
    if c.clock = p.config.clock then { p with config := c }
    else s.takeUpClock { s.cutPoint p with config := c, ring := [], contribution := 0 }
  if c.lossLimit ≤ p.missingCount then q.raiseStatus .loss else q

/-- SET POINT's own checks and effect (R12 to R14). -/
def State.setPointRule (s : State) (args : List Byte) : Answer :=
  match finOf 32 (octetAt args 0).toNat, parseConfig (args.drop 1) with
  | some i, some c =>
    if s.anyLock then Answer.refusal s .locked
    else
      match s.points[i] with
      | none => s.pointTaken i (s.configure c)
      | some p => if s.closePending p then Answer.refusal s .busy else s.pointTaken i (s.reconfigure p c)
  | _, _ => Answer.refusal s .range

/-- SET POINT (R12, R13, R14). -/
def execSetPoint (r : Request) (s : State) : Host.Outcome State Fault Refusal :=
  .next (s.request .setPoint r (fun s => s.setPointRule r.args))

/-! ## REMOVE POINT, HOLD POINT, RELEASE POINT -/

/-- REMOVE POINT's own checks and effect (R12, R15). The period number of its reply is a free value, the
point having none any more (log 6). -/
def State.removePointRule (s : State) (args : List Byte) : Answer :=
  match finOf 32 (octetAt args 0).toNat with
  | some i =>
    if s.anyLock then Answer.refusal s .locked
    else
      match s.points[i] with
      | none => Answer.refusal s .noPoint
      | some p =>
        if s.closePending p then Answer.refusal s .busy
        else
          Answer.taken (({ s with freeIndex := s.freeIndex + 1 } : State).setPoint i none)
            (pointReply i .unused (Config.removedPeriod s.freeIndex))
  | none => Answer.refusal s .range

/-- REMOVE POINT (R12, R15). -/
def execRemovePoint (r : Request) (s : State) : Host.Outcome State Fault Refusal :=
  .next (s.request .removePoint r (fun s => s.removePointRule r.args))

/-- The checks HOLD POINT and RELEASE POINT share (R12), and a change of the point's hold causes. -/
def State.holdRule (s : State) (args : List Byte) (change : Point → Point) : Answer :=
  match finOf 32 (octetAt args 0).toNat with
  | some i =>
    if s.decoder.commissioning then Answer.refusal s .locked
    else
      match s.points[i] with
      | none => Answer.refusal s .noPoint
      | some p => s.pointTaken i (change p)
  | none => Answer.refusal s .range

/-- HOLD POINT (R12, R16). -/
def execHoldPoint (r : Request) (s : State) : Host.Outcome State Fault Refusal :=
  .next (s.request .holdPoint r (fun s => s.holdRule r.args Point.hold))

/-- RELEASE POINT (R12, R17). -/
def execReleasePoint (r : Request) (s : State) : Host.Outcome State Fault Refusal :=
  .next (s.request .releasePoint r (fun s => s.holdRule r.args Point.release))

/-! ## SET CLOCK -/

/-- SET CLOCK's request carries a timing an enabled clock does not have (R57 check 3). -/
def Clock.timingInUse (c : Clock) (a : ClockArgs) : Bool :=
  c.enabled && (decide (a.length ≠ c.length) || decide (a.window ≠ c.window))

/-- L, W and H are written, then the enable acts (R58). -/
def State.applyClock (s : State) (a : ClockArgs) : State :=
  let before := s.clocks[a.clock]
  let written := s.setClock a.clock
    { before with length := a.length, window := a.window, holdLength := a.holdLength }
  if before.enabled then (if a.enable then written else written.disableClock a.clock)
  else if a.enable then written.enableClock a.clock else written

/-- The seven items of a clock (R55) in the order of R192 and R193. -/
def Clock.octets (c : Clock) : List Byte :=
  [octBool c.enabled, oct c.length, oct c.window, oct c.holdLength, oct c.hold] ++ beBytes 6 c.peak ++
    stampOctets c.peakStamp

/-- SET CLOCK's own checks and effect (R57, R58). -/
def State.setClockRule (s : State) (args : List Byte) : Answer :=
  match parseClock args with
  | none => Answer.refusal s .range
  | some a =>
    if s.anyLock then Answer.refusal s .locked
    else if s.clocks[a.clock].timingInUse a then Answer.refusal s .busy
    else
      let t := s.applyClock a
      Answer.taken t (oct a.clock.val :: t.clocks[a.clock].octets)

/-- SET CLOCK (R57, R58). -/
def execSetClock (r : Request) (s : State) : Host.Outcome State Fault Refusal :=
  .next (s.request .setClock r (fun s => s.setClockRule r.args))

end Sys2Proof.Machine
end

