-- ==== Sys2Proof/Machine/TariffRequests.lean ====
section
/-! DEFINITION. LOAD TABLE and READ TABLE (R146 to R149), ACTIVATE (R150 to R153), LOCK and UNLOCK (R155 to
R158). -/

namespace Sys2Proof.Machine

/-! ## Tables -/

/-- The octet of an activation mark: 0 CLEAR, 1 AT_CLOSE (R192). -/
def State.markOctet (s : State) : Byte := octBool s.tariff.atClose

/-- LOAD TABLE's own checks and effect (R146 to R148). -/
def State.loadTableRule (s : State) (args : List Byte) : Answer :=
  match checkForm args with
  | .length => Answer.refusal s .length
  | .range => Answer.refusal s .range
  | .form sel index contents =>
    match parseContents sel index contents with
    | none => Answer.refusal s .range
    | some table =>
      if s.anyLock then Answer.refusal s .locked
      else
        let t : State := { s with tariff := { s.tariff with pending := s.tariff.pending.put table } }
        Answer.taken t [octetAt args 0, octetAt args 1, t.markOctet]

/-- LOAD TABLE (R146). -/
def execLoadTable (r : Request) (s : State) : Host.Outcome State Fault Refusal :=
  .next (s.request .loadTable r (fun s => s.loadTableRule r.args))

/-- READ TABLE's own checks and reply (R149). -/
def State.readTableRule (s : State) (args : List Byte) : Answer :=
  match Selector.ofOctet (octetAt args 0), boolOf (octetAt args 2) with
  | some sel, some active =>
    let index := (octetAt args 1).toNat
    if sel.indexes ≤ index then Answer.refusal s .range
    else
      let set := if active then s.tariff.active else s.tariff.pending
      Answer.taken s ([octetAt args 0, octetAt args 1, octetAt args 2] ++ (set.get sel index).octets)
  | _, _ => Answer.refusal s .range

/-- READ TABLE (R149). -/
def execReadTable (r : Request) (s : State) : Host.Outcome State Fault Refusal :=
  .next (s.request .readTable r (fun s => s.readTableRule r.args))

/-! ## ACTIVATE -/

/-- The modes of ACTIVATE (R150). -/
inductive ActivateMode where
  | now | atClose | cancel
  deriving DecidableEq, Repr

/-- The mode an octet names (R192). -/
def ActivateMode.ofOctet (o : Byte) : Option ActivateMode :=
  if o = 0 then some .now else if o = 1 then some .atClose else if o = 2 then some .cancel else none

/-- The tariff store after an activation of a mode that is taken (R151 to R153). -/
def TariffStore.activate (t : TariffStore) : ActivateMode → TariffStore
  | .now => { t with active := t.pending, atClose := false }
  | .atClose => { t with atClose := true }
  | .cancel => { t with pending := t.active, atClose := false }

/-- The octet of the close state (R190). -/
def State.closeOctet (s : State) : Byte := octBool s.close.inFlight.isSome

/-- ACTIVATE's own checks and effect (R150). -/
def State.activateRule (s : State) (args : List Byte) : Answer :=
  match ActivateMode.ofOctet (octetAt args 0) with
  | none => Answer.refusal s .range
  | some mode =>
    if s.anyLock then Answer.refusal s .locked
    else if mode = .now ∧ s.close.inFlight.isSome then Answer.refusal s .busy
    else
      let t : State := { s with tariff := s.tariff.activate mode }
      Answer.taken t [octetAt args 0, t.markOctet, t.closeOctet]

/-- ACTIVATE NOW (R150, R151). -/
def execActivateNow (r : Request) (s : State) : Host.Outcome State Fault Refusal :=
  .next (s.request .activate r (fun s => s.activateRule r.args))

/-- ACTIVATE AT_CLOSE (R150, R152). -/
def execActivateAtClose (r : Request) (s : State) : Host.Outcome State Fault Refusal :=
  .next (s.request .activate r (fun s => s.activateRule r.args))

/-- ACTIVATE CANCEL (R150, R153). -/
def execActivateCancel (r : Request) (s : State) : Host.Outcome State Fault Refusal :=
  .next (s.request .activate r (fun s => s.activateRule r.args))

/-! ## LOCK and UNLOCK -/

/-- The locks octet: bit 0 clearable, bit 1 commissioning (R192). -/
def State.locksOctet (s : State) : Byte :=
  oct ((if s.decoder.clearable then 1 else 0) + (if s.decoder.commissioning then 2 else 0))

/-- The answer of a request on the locks that is taken: both locks after it (R156, R157). -/
def State.locksTaken (s : State) (d : Decoder) : Answer :=
  let t : State := { s with decoder := d }
  Answer.taken t [t.locksOctet]

/-- LOCK's own checks and effect (R156). -/
def State.lockRule (s : State) (args : List Byte) : Answer :=
  match boolOf (octetAt args 0) with
  | none => Answer.refusal s .range
  | some false => s.locksTaken { s.decoder with clearable := true }
  | some true =>
    if s.tariff.atClose then Answer.refusal s .busy
    else s.locksTaken { s.decoder with commissioning := true }

/-- LOCK with CLEARABLE (R156). -/
def execLockClearable (r : Request) (s : State) : Host.Outcome State Fault Refusal :=
  .next (s.request .lock r (fun s => s.lockRule r.args))

/-- LOCK with COMMISSION (R156). -/
def execLockCommission (r : Request) (s : State) : Host.Outcome State Fault Refusal :=
  .next (s.request .lock r (fun s => s.lockRule r.args))

/-- UNLOCK's own check and effect (R157). -/
def State.unlockRule (s : State) : Answer :=
  if s.decoder.commissioning then Answer.refusal s .locked
  else s.locksTaken { s.decoder with clearable := false }

/-- UNLOCK (R157). -/
def execUnlock (r : Request) (s : State) : Host.Outcome State Fault Refusal :=
  .next (s.request .unlock r (fun s => s.unlockRule))

end Sys2Proof.Machine
end

