-- ==== Sys2Proof/Machine/TimeBase.lean ====
section
/-! DEFINITION. The time base: marks, the minute timer, the minute advance, steps and the scheduled close
(R37 to R54), and the meanings of MARK and SELF_ADVANCE. -/

namespace Sys2Proof.Machine

/-- The time moved to a minute under a mark: LOCKED, holdover count 0, timer 65 s (R41 to R43, R47). -/
def State.lockAt (s : State) (t : CalTime) : State :=
  { s with time := { s.time with calendar := some t, state := .locked, holdover := 0, timer := .running65 } }

/-- The scheduled close at a time update (R53). -/
def State.scheduledClose (s : State) (now : CalTime) : State :=
  let month : YearMonth := { year := now.year, month := now.month }
  match s.tariff.active.closeInstant with
  | some c =>
    if c.reached now ∧ s.time.lastClose ≠ some month ∧ s.close.inFlight = none then
      ({ s with time := { s.time with lastClose := some month } } : State).startClose
    else s
  | none => s

/-- A mark sets the time from UNSET (R41). -/
def State.setTime (s : State) (t : CalTime) : State := ((s.lockAt t).openEnabled t).scheduledClose t

/-- The two stages of a minute advance, the time having moved to the new minute (R46). -/
def State.minuteAdvance (s : State) (order : List (Fin 4)) (now : CalTime) (selfAdvance : Bool) : State :=
  (s.scheduledClose now).handMinute order now selfAdvance

/-- Every point cut and its ring cleared (R47). -/
def State.cutAll (s : State) : State := s.mapPoints (fun p => { s.cutPoint p with ring := [] })

/-- A time step counted, and TIME_STEP raised (R47). -/
def State.countStep (s : State) : State :=
  ({ s with time := { s.time with steps := bump s.time.steps } } : State).raiseDevice .timeStep

/-- A time step (R47). -/
def State.stepTo (s : State) (t : CalTime) : State :=
  let opened := (s.cutAll.lockAt t).openEnabled t
  (opened.mapPoints (fun p => p.raisePeriod .timeStep)).countStep.scheduledClose t

/-- A valid MARK with time T (R41, R42, R43). -/
def State.takeTime (s : State) (order : List (Fin 4)) (t : CalTime) : State :=
  match s.time.calendar with
  | none => s.setTime t
  | some c =>
    if t = c.next then (s.lockAt t).minuteAdvance order t false
    else if t = c then
      if s.time.state = .locked then
        { s with time := { s.time with duplicates := bump s.time.duplicates } }
      else s.lockAt t
    else s.stepTo t

/-- A MARK at the time base: a mark that is no valid time is counted (R38). -/
def State.takeMark (s : State) (order : List (Fin 4)) (payload : List Byte) : State :=
  let t := markTime payload
  if t.valid then s.takeTime order t
  else { s with time := { s.time with invalid := bump s.time.invalid } }

/-- The code of a time state (R190). -/
def TimeState.place : TimeState → Nat
  | .unset => 0
  | .locked => 1
  | .holdover => 2
  | .uncertain => 3

/-- A bit of an octet written. -/
def writeBit (o : Byte) (i : Nat) (b : Bool) : Byte := if b then addFlag o i else dropFlag o i

/-- Two bits of an octet written, the lower at `i` (R191). -/
def writePair (o : Byte) (i v : Nat) : Byte := writeBit (writeBit o i (v.testBit 0)) (i + 1) (v.testBit 1)

/-- The octet of a MARK's payload that holds station s's time-state place, bits 2s+1..2s of octets 6–7 sent
high octet first (R191). -/
def timePlaceOctet (station : Fin 8) : Nat := if station.val < 4 then 7 else 6

/-- A MARK's payload stamped with the summary and the time state (R166, R191). Bits the layout leaves
undefined stay as they arrived (log 13). -/
def State.stampMark (s : State) (p : List Byte) : List Byte :=
  let v := s.time.state.place
  match s.decoder.station with
  | some n =>
    let k := timePlaceOctet n
    (p.set 5 (writeBit (octetAt p 5) n.val s.summary)).set k (writePair (octetAt p k) (2 * (n.val % 4)) v)
  | none =>
    let o := octetAt p 8
    p.set 8 (writePair (writeBit (writeBit o 0 true) 1 (o.getLsbD 1 || s.summary)) 2 v)

/-- MARK: the time base takes the whole frame, then the port stamps it and offers it on (R38, R163, R166). -/
def execMark (order : List (Fin 4)) (address : Byte) (payload : List Byte) (s : State) :
    Host.Outcome State Fault Refusal :=
  let f : Frame := { kind := kindMark, address := address, payload := payload }
  .next (s.receive f (fun s =>
    let taken := s.takeMark order payload
    taken.offer { f with payload := taken.stampMark payload }))

/-- The state a self-advance moves to: UNCERTAIN from a count of 60 on (R44). -/
def holdoverState (count : Nat) : TimeState := if 60 ≤ count then .uncertain else .holdover

/-- The time moved to a minute without a mark, the holdover count counted (R44). -/
def State.holdoverAt (s : State) (t : CalTime) : State :=
  let count := bump s.time.holdover
  { s with time := { s.time with
    calendar := some t, state := holdoverState count, holdover := count, timer := .running60 } }

/-- HOLDOVER is raised on leaving LOCKED, UNCERTAIN on becoming UNCERTAIN from the state before (R44). -/
def State.raiseHoldover (s : State) (before : TimeState) : State :=
  let flagged := if before = .locked then s.raiseDevice .holdover else s
  if before ≠ .uncertain ∧ s.time.state = .uncertain then flagged.raiseDevice .uncertain else flagged

/-- The self-advance on expiry of the minute timer (R44). -/
def State.selfAdvance (s : State) (order : List (Fin 4)) (c : CalTime) : State :=
  ((s.holdoverAt c.next).raiseHoldover s.time.state).minuteAdvance order c.next true

/-- SELF_ADVANCE: the minute timer expires. It runs in every state but UNSET (R44); where it is stopped, or
the part is held or unsupplied, it has no expiry and nothing happens (log 2). -/
def execSelfAdvance (order : List (Fin 4)) (s : State) : Host.Outcome State Fault Refusal :=
  .next (
    if s.live ∧ s.time.timer ≠ .stopped then
      match s.time.calendar with
      | some c => s.selfAdvance order c
      | none => s
    else s)

end Sys2Proof.Machine
end

