-- ==== Sys2Proof/Machine/DeviceRequests.lean ====
section
/-! DEFINITION. IDENT, ASSIGN STATION, ACK START, RESTART (R164, R174 to R176), QUERY POINT, QUERY DEVICE and
CLEAR ATTENTION (R177 to R180, R193). -/

namespace Sys2Proof.Machine

/-! ## Identification, station and start -/

/-- IDENT (R174): part code, revision, station, time state and device period (R192). -/
def execIdent (r : Request) (s : State) : Host.Outcome State Fault Refusal :=
  .next (s.request .ident r (fun s =>
    Answer.taken s (beBytes 2 Config.partCode ++ [Config.revision, s.stationOctet, oct s.time.state.place] ++
      beBytes 2 s.close.devicePeriod.toNat)))

/-- ASSIGN STATION's own check and effect: an unassigned part takes a station of 0..7; anything else is out
of range (R164). -/
def State.assignRule (s : State) (args : List Byte) : Answer :=
  match s.decoder.station, finOf 8 (octetAt args 0).toNat with
  | none, some n => Answer.taken { s with decoder := { s.decoder with station := some n } } []
  | _, _ => Answer.refusal s .range

/-- ASSIGN STATION: for this part when addressed to its station, or to 0xFF while it has none (R163,
R164). -/
def execAssignStation (r : Request) (s : State) : Host.Outcome State Fault Refusal :=
  .next (s.takeRequest .assignStation r (s.isStation r.address || s.isOpenAssign r.address)
    (fun s => s.assignRule r.args))

/-- ACK START (R175). -/
def execAckStart (r : Request) (s : State) : Host.Outcome State Fault Refusal :=
  .next (s.request .ackStart r (fun s =>
    Answer.taken { s with decoder := { s.decoder with startAck := true } } []))

/-- RESTART (R176): the restart is pending with this reply, unless one is pending already. -/
def execRestart (r : Request) (s : State) : Host.Outcome State Fault Refusal :=
  .next (s.request .restart r (fun s =>
    { Answer.taken { s with decoder := { s.decoder with restartPending := true } } [] with
      restartReply := !s.decoder.restartPending }))

/-! ## QUERY POINT -/

/-- A presence octet or a flag octet from its bits, bit 0 first. -/
def bitsOctet (bits : List Bool) : Byte :=
  oct (bits.foldr (fun b n => (if b then 1 else 0) + 2 * n) 0)

/-- The configuration record in its 15 octets (R192). -/
def PointConfig.octets (c : PointConfig) : List Byte :=
  [noneOctet c.clock, oct c.schedule.val, noneOctet c.option] ++ beBytes 4 c.contract ++
    [oct c.warnPercent, oct c.lossLimit] ++ beBytes 4 c.plausibility ++
    [oct c.attentionMask.toNat, octBool c.forward]

/-- Four registers or baselines (R190). -/
def registerOctets (r : Registers) : List Byte :=
  beBytes 4 r.ai.toNat ++ beBytes 4 r.ae.toNat ++ beBytes 4 r.rl.toNat ++ beBytes 4 r.rc.toNat

/-- Octets of an item that may be absent: sent as 0 (R193). -/
def orZeros {α : Type} (n : Nat) (f : α → List Byte) : Option α → List Byte
  | some a => f a
  | none => List.replicate n 0

/-- The state octet of a view: bits 1..0 the state, bit 2 OPERATOR, bit 3 CONFLICT (R193). -/
def Point.stateOctet (p : Point) : Byte :=
  oct (p.state.octet.toNat + (if p.operator then 4 else 0) + (if p.conflict then 8 else 0))

/-- The first four octets of a view (R193). -/
def Point.viewHead (p : Point) (i : Fin 32) : List Byte :=
  [oct i.val, p.stateOctet] ++ beBytes 2 p.period.toNat

/-- The CONTEXT view (R193). -/
def Point.contextView (p : Point) (i : Fin 32) : List Byte :=
  p.viewHead i ++ p.config.octets ++
    [bitsOctet [p.baselines.isSome, p.lastSeq.isSome, p.sub.isSome, (p.sub.map (·.accepted)).getD false,
      p.present.isSome, (p.present.map (·.eligible)).getD false]] ++
    orZeros 16 registerOctets p.baselines ++ [p.lastSeq.getD 0] ++
    orZeros 18 (fun b => energyOctets 4 b.energy ++ [oct b.ratePeriod.val, oct b.quality.toNat]) p.sub ++
    [oct p.ring.length] ++ orZeros 9 (fun d => beBytes 5 d.demand ++ stampOctets (some d.stamp)) p.present ++
    [oct p.missingCount] ++
    beBytes 2 p.life.duplicates ++ beBytes 2 p.life.stale ++ beBytes 2 p.life.lost ++
    beBytes 2 p.life.discontinuities ++ beBytes 2 p.life.restarts ++
    [oct p.periodFlags.toNat, oct p.status.toNat, octBool p.attention,
      residueOctet p.residues.tou, residueOctet p.residues.facility, residueOctet p.residues.reactive]

/-- The PERIOD view, with the reactive figures to date under the point's option (R90, R193). -/
def Point.periodView (p : Point) (i : Fin 32) (option : Option PenaltyOption) : List Byte :=
  p.viewHead i ++ (p.maxD.toList.map Maximum.octets).flatten ++ p.maxAll.octets ++
    beBytes 5 p.contribution ++ energyOctets 8 p.totals ++ beBytes 8 p.attributed ++
    energyOctets 8 p.unattributed ++ beBytes 8 p.excessSum ++
    beBytes 8 (periodExcess option p.totals p.unattributed p.excessSum) ++
    beBytes 2 (reactiveRatio option p.totals) ++ p.counters.octets ++
    (p.ratchet.map (beBytes 5)).flatten

/-- QUERY POINT's own checks and reply; the clear comes after the reply is built (R177). -/
def State.queryPointRule (s : State) (args : List Byte) : Answer :=
  let options := octetAt args 1
  match finOf 32 (octetAt args 0).toNat with
  | none => Answer.refusal s .range
  | some i =>
    if options.toNat < 4 then
      match s.points[i] with
      | none => Answer.refusal s .noPoint
      | some p =>
        { Answer.taken s (if options.getLsbD 1 then p.periodView i (s.optionOf p) else p.contextView i) with
          final := if options.getLsbD 0 then s.setPoint i (some { p with status := 0 }) else s }
    else Answer.refusal s .range

/-- QUERY POINT (R177). -/
def execQueryPoint (r : Request) (s : State) : Host.Outcome State Fault Refusal :=
  .next (s.request .queryPoint r (fun s => s.queryPointRule r.args))

/-! ## QUERY DEVICE -/

/-- A year and month, or NONE (R193). -/
def monthOctets : Option YearMonth → List Byte
  | some m => [oct (m.year - 2000), oct m.month]
  | none => [0xFF, 0xFF]

/-- The time base's 15 octets (R193). -/
def TimeBase.octets (t : TimeBase) : List Byte :=
  [oct t.state.place] ++ stampOctets t.calendar ++ beBytes 2 t.holdover ++ monthOctets t.lastClose ++
    beBytes 2 t.duplicates ++ beBytes 2 t.invalid ++ beBytes 2 t.steps

/-- The readout unit's 6 octets (R193). -/
def ReadoutUnit.octets (u : ReadoutUnit) : List Byte :=
  let progress : Option ReadoutJob :=
    match u.phase with
    | .idle => none
    | .search job => some job
    | .emit job _ => some job
    | .report job _ => some job
  [u.phase.octet] ++
    orZeros 4 (fun job => beBytes 2 job.current.toNat ++ beBytes 2 job.sent) progress ++
    [(u.lastEnd.map EndReason.octet).getD 0]

/-- The link counters in the order of R159. -/
def LinkCounters.octets (c : LinkCounters) : List Byte :=
  beBytes 2 c.crc ++ beBytes 2 c.truncated ++ beBytes 2 c.malformed ++ beBytes 2 c.stray ++
    beBytes 2 c.forwardOverruns ++ beBytes 2 c.requestOverruns

/-- The close unit's 6 octets (R193). -/
def CloseUnit.octets (c : CloseUnit) : List Byte :=
  [octBool c.inFlight.isSome] ++ beBytes 2 ((c.inFlight.map BitVec.toNat).getD 0) ++ [oct c.pendingSet.toNat] ++
    beBytes 2 c.devicePeriod.toNat

/-- The history store's 10 octets (R129, R193). -/
def History.octets (h : History) : List Byte :=
  beBytes 2 h.valid ++ beBytes 4 h.sequence.toNat ++ beBytes 2 h.oldestPeriod.toNat ++
    beBytes 2 h.newestPeriod.toNat

/-- The attention unit's 9 octets (R193). -/
def State.attentionOctets (s : State) : List Byte :=
  beBytes 2 s.attention.flags.toNat ++ beBytes 2 s.attention.mask.toNat ++ [octBool s.attention.bit] ++
    beBytes 4 s.pointBits.toNat

/-- QUERY DEVICE's 122 octets of data (R178, R193). -/
def State.deviceData (s : State) : List Byte :=
  s.time.octets ++ (s.clocks.toList.map Clock.octets).flatten ++ s.close.octets ++ [s.markOctet, s.locksOctet] ++
    s.readout.octets ++ s.history.octets ++ s.port.counters.octets ++ beBytes 2 s.unusedReadings ++
    s.attentionOctets

/-- QUERY DEVICE's own check and reply; the clear comes after the reply is built (R178). -/
def State.queryDeviceRule (s : State) (args : List Byte) : Answer :=
  match boolOf (octetAt args 0) with
  | none => Answer.refusal s .range
  | some clear =>
    { Answer.taken s s.deviceData with
      final := if clear then { s with attention := { s.attention with flags := 0 } } else s }

/-- QUERY DEVICE (R178). -/
def execQueryDevice (r : Request) (s : State) : Host.Outcome State Fault Refusal :=
  .next (s.request .queryDevice r (fun s => s.queryDeviceRule r.args))

/-! ## CLEAR ATTENTION -/

/-- The attention bits of the points of a set cleared (R180 step 1). -/
def State.clearPoints (s : State) (set : BitVec 32) : State :=
  { s with points := s.points.mapIdx (fun i p =>
      if hasFlag set i then p.map (fun p => { p with attention := false }) else p) }

/-- CLEAR ATTENTION taken (R180). -/
def State.applyClear (s : State) (a : ClearArgs) : State :=
  let t := s.clearPoints a.points
  { t with attention :=
    { t.attention with
      bit := if a.deviceClear then false else t.attention.bit
      mask := if a.maskWrite then a.mask else t.attention.mask } }

/-- CLEAR ATTENTION's own check and effect (R180). -/
def State.clearAttentionRule (s : State) (args : List Byte) : Answer :=
  match parseClear args with
  | none => Answer.refusal s .range
  | some a =>
    let t := s.applyClear a
    Answer.taken t
      (beBytes 2 t.attention.mask.toNat ++ [octBool t.attention.bit] ++ beBytes 4 t.pointBits.toNat)

/-- CLEAR ATTENTION (R180). -/
def execClearAttention (r : Request) (s : State) : Host.Outcome State Fault Refusal :=
  .next (s.request .clearAttention r (fun s => s.clearAttentionRule r.args))

end Sys2Proof.Machine
end

