-- ==== Sys2Proof/Machine/Dispatch.lean ====
section
/-! DEFINITION. The one place a command is given to its meaning. -/

namespace Sys2Proof.Machine

/-- A command's effect on everything but the queue of commands. -/
def exec (i : Instr) (s : State) : Host.Outcome State Fault Refusal :=
  match i with
  | .mark order address payload => Sys2Proof.Machine.execMark order address payload s
  | .selfAdvance order => Sys2Proof.Machine.execSelfAdvance order s
  | .reading address payload => Sys2Proof.Machine.execReading address payload s
  | .passThroughFrame frame => Sys2Proof.Machine.execPassThroughFrame frame s
  | .frameDiscard fault => Sys2Proof.Machine.execFrameDiscard fault s
  | .truncatedFrame octets => Sys2Proof.Machine.execTruncatedFrame octets s
  | .frameSent => Sys2Proof.Machine.execFrameSent s
  | .unknownRequest address payload => Sys2Proof.Machine.execUnknownRequest address payload s
  | .ident request => Sys2Proof.Machine.execIdent request s
  | .assignStation request => Sys2Proof.Machine.execAssignStation request s
  | .ackStart request => Sys2Proof.Machine.execAckStart request s
  | .setPoint request => Sys2Proof.Machine.execSetPoint request s
  | .removePoint request => Sys2Proof.Machine.execRemovePoint request s
  | .holdPoint request => Sys2Proof.Machine.execHoldPoint request s
  | .releasePoint request => Sys2Proof.Machine.execReleasePoint request s
  | .setClock request => Sys2Proof.Machine.execSetClock request s
  | .loadTable request => Sys2Proof.Machine.execLoadTable request s
  | .readTable request => Sys2Proof.Machine.execReadTable request s
  | .activateNow request => Sys2Proof.Machine.execActivateNow request s
  | .activateAtClose request => Sys2Proof.Machine.execActivateAtClose request s
  | .activateCancel request => Sys2Proof.Machine.execActivateCancel request s
  | .closePeriod request => Sys2Proof.Machine.execClosePeriod request s
  | .readout request => Sys2Proof.Machine.execReadout request s
  | .readoutSearch => Sys2Proof.Machine.execReadoutSearch s
  | .readoutEmit => Sys2Proof.Machine.execReadoutEmit s
  | .readoutEnd => Sys2Proof.Machine.execReadoutEnd s
  | .abortReadout request => Sys2Proof.Machine.execAbortReadout request s
  | .queryPoint request => Sys2Proof.Machine.execQueryPoint request s
  | .queryDevice request => Sys2Proof.Machine.execQueryDevice request s
  | .clearAttention request => Sys2Proof.Machine.execClearAttention request s
  | .lockClearable request => Sys2Proof.Machine.execLockClearable request s
  | .lockCommission request => Sys2Proof.Machine.execLockCommission request s
  | .unlock request => Sys2Proof.Machine.execUnlock request s
  | .restart request => Sys2Proof.Machine.execRestart request s
  | .restartWarmStart broken => Sys2Proof.Machine.execRestartWarmStart s broken
  | .supwarn high => Sys2Proof.Machine.execSupwarn high s
  | .powerUp broken => Sys2Proof.Machine.execPowerUp s broken
  | .resetn broken => Sys2Proof.Machine.execResetn s broken
  | .resetnRelease => Sys2Proof.Machine.execResetnRelease s
  | .strayOctet octet => Sys2Proof.Machine.execStrayOctet octet s
  | .supplyLoss => Sys2Proof.Machine.execSupplyLoss s
  | .vbakFailure => Sys2Proof.Machine.execVbakFailure s

end Sys2Proof.Machine
end

