-- ==== Sys2Proof/Machine/Step.lean ====
section
/-! DEFINITION. One step of the part: the command at the front of the queue, or, with none waiting, the next
octet on the loop input (log 3). -/

namespace Sys2Proof.Machine

/-- A step. A waiting command is run on the state with the queue's rest. With none waiting, one octet of the
line is taken by the framer, and the command it completes is run in the same step; with no octet either, the
part idles. -/
def step (s : State) : Host.Outcome State Fault Refusal :=
  match s.pending with
  | c :: rest => exec c { s with pending := rest }
  | [] =>
    match s.takeOctet with
    | (t, none) => .next t
    | (t, some c) => exec c t

/-- The command a word spells, put at the front of the queue; the state as it was where it spells none. -/
def State.withFetchWord (s : State) (nbits w : Nat) : State :=
  match decodeTableWord nbits w with
  | some c => { s with pending := c :: s.pending }
  | none => s

end Sys2Proof.Machine
end

