-- ==== Sys2Proof/Safety.lean ====
section
/-! DEFINITION. What counts as a safe state and a safe run: the invariants the spec's rules give the machine,
each kept by every step on its own premises, and their conjunction. -/

namespace Sys2Proof.Machine

/-! ## The loop port and the locks -/

/-- The pass-through buffer never holds more than 4 frames, the insert queue never more than 8, the forward
streak never exceeds 4 (R159, R169). -/
abbrev State.PortWithin (s : State) : Prop :=
  s.port.buffer.length ≤ 4 ∧ s.port.queue.length ≤ 8 ∧ s.port.streak ≤ 4

/-- No activation is marked while the commissioning lock stands (R156). -/
abbrev State.LockExcludesMark (s : State) : Prop :=
  s.decoder.commissioning = true → s.tariff.atClose = false

/-! ## Time and clocks -/

/-- The time base agrees with itself (R37, R38, R44): UNSET exactly while the calendar time is ABSENT and the
timer stopped, a present time is valid, and the holdover count is 0 in UNSET and LOCKED, 1..59 in HOLDOVER
and at least 60 in UNCERTAIN. -/
abbrev State.TimeConsistent (s : State) : Prop :=
  (s.time.state = .unset ↔ s.time.calendar = none) ∧
  (s.time.timer = .stopped ↔ s.time.calendar = none) ∧
  (∀ t ∈ s.time.calendar, t.valid = true) ∧
  (s.time.state = .unset ∨ s.time.state = .locked → s.time.holdover = 0) ∧
  (s.time.state = .holdover → 1 ≤ s.time.holdover ∧ s.time.holdover < 60) ∧
  (s.time.state = .uncertain → 60 ≤ s.time.holdover ∧ s.time.holdover ≤ max16)

/-- Every clock holds a valid combination of L and W, and H and the hold counter are in 0..15 (R55, R56). -/
abbrev State.ClocksValid (s : State) : Prop :=
  ∀ k : Fin 4, validTiming s.clocks[k].length s.clocks[k].window = true ∧
    s.clocks[k].holdLength ≤ 15 ∧ s.clocks[k].hold ≤ 15

/-! ## Points -/

/-- The four energies are each at most a limit (R32). -/
abbrev Energies.within (limit : Nat) (e : Energies) : Prop :=
  e.ai ≤ limit ∧ e.ae ≤ limit ∧ e.rl ≤ limit ∧ e.rc ≤ limit

/-- A residue is in −50..49 (R7, R123). -/
abbrev residueOk (c : Int) : Prop := -50 ≤ c ∧ c ≤ 49

/-- A maximum carries a stamp exactly while it is above 0 (R7, R71). -/
abbrev Maximum.stamped (m : Maximum) : Prop := m.value = 0 ↔ m.stamp = none

/-- The configuration record's numbers are in range (R1). -/
abbrev PointConfig.InRange (c : PointConfig) : Prop :=
  (50 ≤ c.warnPercent ∧ c.warnPercent ≤ 99) ∧ (1 ≤ c.lossLimit ∧ c.lossLimit ≤ 15) ∧
  (1 ≤ c.plausibility ∧ c.plausibility ≤ max32) ∧ c.contract ≤ max32

/-- The counters are in 0..65,535 (R8). -/
abbrev PeriodCounters.InRange (c : PeriodCounters) : Prop :=
  c.missing ≤ max16 ∧ c.gap ≤ max16 ∧ c.ineligible ≤ max16 ∧ c.exceedances ≤ max16 ∧ c.outages ≤ max16

/-- The counters are in 0..65,535 (R9). -/
abbrev LifeCounters.InRange (c : LifeCounters) : Prop :=
  c.duplicates ≤ max16 ∧ c.stale ≤ max16 ∧ c.lost ≤ max16 ∧ c.discontinuities ≤ max16 ∧ c.restarts ≤ max16

/-- The accumulators are in their ranges (R7, R32, R83). -/
abbrev Point.AccumulatorsInRange (p : Point) : Prop :=
  p.totals.within max64 ∧ p.unattributed.within max64 ∧ p.attributed ≤ max64 ∧ p.excessSum ≤ max64 ∧
  (∀ b ∈ p.sub, b.energy.within max32)

/-- maxAll is the largest of the four maxima, and each of the five is stamped exactly while it is above 0
(R71). -/
abbrev Point.MaximaConsistent (p : Point) : Prop :=
  p.maxAll.value = max (max p.maxD[0].value p.maxD[1].value) (max p.maxD[2].value p.maxD[3].value) ∧
  p.maxAll.stamped ∧ (∀ r : Fin 4, p.maxD[r].stamped)

/-- The residues are in −50..49 and the ratchet stack holds twelve values (R7, R102, R123). -/
abbrev Point.CarriedInRange (p : Point) : Prop :=
  p.ratchet.length = 12 ∧ residueOk p.residues.tou ∧ residueOk p.residues.facility ∧ residueOk p.residues.reactive

/-- A point context within the ranges of R1, R5, R7, R8, R9 and R32. -/
abbrev Point.InRange (p : Point) : Prop :=
  p.config.InRange ∧ p.missingCount ≤ max8 ∧ p.counters.InRange ∧ p.life.InRange ∧ p.AccumulatorsInRange ∧
  p.MaximaConsistent ∧ p.CarriedInRange

/-- Every configured point is within its ranges. -/
abbrev State.PointsInRange (s : State) : Prop := ∀ i : Fin 32, ∀ p ∈ s.points[i], p.InRange

/-- CONFLICT is present exactly while the point's clock field names a disabled clock (R3), HELD_SEEN is set
whenever a point is held (R6), and a point off an enabled clock has an empty ring, one on an enabled clock at
most W entries (R65). -/
abbrev State.HoldsDerived (s : State) : Prop :=
  ∀ i : Fin 32, ∀ p ∈ s.points[i],
    (p.conflict = true ↔ ∃ k : Fin 4, p.config.clock = some k ∧ s.clocks[k].enabled = false) ∧
    (p.held = true → hasFlag p.periodFlags PeriodFlag.heldSeen.place = true) ∧
    (p.config.clock = none → p.ring = []) ∧
    (∀ k : Fin 4, p.config.clock = some k →
      p.ring.length ≤ (if s.clocks[k].enabled then s.clocks[k].window else 0))

/-- A frame has been taken before a gap is seen, and a sub-interval that carries GAP has its marker set (R24,
R26, R67). -/
abbrev State.GapsAccepted (s : State) : Prop :=
  ∀ i : Fin 32, ∀ p ∈ s.points[i],
    (p.lastSeq.isSome = true → p.baselines.isSome = true) ∧
    (∀ b ∈ p.sub, hasFlag b.quality QualityFlag.gap.place = true → b.accepted = true)

/-- Point p's clock field names an enabled clock. -/
abbrev State.OnEnabledClock (s : State) (p : Point) : Prop :=
  ∃ k : Fin 4, p.config.clock = some k ∧ s.clocks[k].enabled = true

/-- An open sub-interval stands at a point on an enabled clock only, and while the part is supplied exactly while
the time is set as well (R41, R59, R66, R94). -/
abbrev State.SubIntervalsDerived (s : State) : Prop :=
  ∀ i : Fin 32, ∀ p ∈ s.points[i],
    (p.sub.isSome = true → s.OnEnabledClock p) ∧
    (s.supply.vdd = true →
      (p.sub.isSome = true ↔ s.time.calendar.isSome = true ∧ s.OnEnabledClock p))

/-! ## The tariff sets -/

/-- A season start is a month and a day of it, February taken as 29 days (R144, R147). -/
abbrev MonthDay.InRange (e : MonthDay) : Prop :=
  (1 ≤ e.month ∧ e.month ≤ 12) ∧ (1 ≤ e.day ∧ e.day ≤ monthLengthWith 29 e.month)

/-- A season start is later in the year than another (R147). -/
abbrev MonthDay.before (a b : MonthDay) : Prop := a.month < b.month ∨ (a.month = b.month ∧ a.day < b.day)

/-- A holiday is a day of its month: in its year, or with February taken as 29 days (R144, R147). -/
abbrev Holiday.InRange (h : Holiday) : Prop :=
  (1 ≤ h.month ∧ h.month ≤ 12) ∧ 1 ≤ h.day ∧ (h.year = none → h.day ≤ monthLengthWith 29 h.month) ∧
  ∀ y ∈ h.year, (2000 ≤ y ∧ y ≤ 2099) ∧ h.day ≤ monthLength y h.month

/-- The seasons list (R144, R147). -/
abbrev SeasonsInRange (l : List MonthDay) : Prop :=
  l.length ≤ 4 ∧ (∀ e ∈ l, e.InRange) ∧ l.Pairwise MonthDay.before

/-- The holiday list (R144, R147). -/
abbrev HolidaysInRange (l : List Holiday) : Prop := l.length ≤ 24 ∧ (∀ h ∈ l, h.InRange) ∧ l.Nodup

/-- A profile (R144, R147). -/
abbrev ProfileInRange (l : List SwitchPoint) : Prop :=
  l.length ≤ 8 ∧ (∀ e ∈ l, e.minute ≤ 1439) ∧ l.Pairwise (fun a b => a.minute < b.minute)

/-- A close instant that is present (R144, R147). -/
abbrev CloseInstant.InRange (c : CloseInstant) : Prop := (1 ≤ c.day ∧ c.day ≤ 28) ∧ c.minute ≤ 1439

/-- A rate schedule (R144, R147). -/
abbrev Schedule.InRange (s : Schedule) : Prop :=
  (∀ r : Fin 4, s.rateTOU[r] ≤ 99999999) ∧ s.rateFAC ≤ 99999999 ∧ s.rateVAR ≤ 99999999 ∧
  s.ratchetMonths ≤ 12 ∧ s.ratchetPercent ≤ 100 ∧ s.minPercent ≤ 100

/-- A penalty option (R144, R147). -/
abbrev PenaltyOption.InRange (o : PenaltyOption) : Prop := o.threshold ≤ 2000

/-- Every table of a tariff set meets the contents check; the weekday map, the profile map and the rate periods do
by their types (R144, R147). -/
abbrev TariffSet.InRange (t : TariffSet) : Prop :=
  SeasonsInRange t.seasons ∧ HolidaysInRange t.holidays ∧ (∀ n : Fin 8, ProfileInRange t.profiles[n]) ∧
  (∀ c ∈ t.closeInstant, c.InRange) ∧ (∀ n : Fin 8, t.schedules[n].InRange) ∧ ∀ n : Fin 4, t.options[n].InRange

/-- Both tariff sets hold valid tables alone (R144, R147). -/
abbrev State.TariffInRange (s : State) : Prop := s.tariff.active.InRange ∧ s.tariff.pending.InRange

/-! ## The close -/

/-- The close unit and the points' period numbers agree (R91, R106): with no close in flight the pending set is
empty and every configured point holds the device period number P; in a close of P every point holds P + 1,
or holds P and is on an enabled clock of the pending set, which is not empty. -/
abbrev State.PeriodsConsistent (s : State) : Prop :=
  (s.close.inFlight = none →
    s.close.pendingSet = 0 ∧ ∀ i : Fin 32, ∀ p ∈ s.points[i], p.period = s.close.devicePeriod) ∧
  (∀ closing ∈ s.close.inFlight,
    closing = s.close.devicePeriod ∧ s.close.pendingSet ≠ 0 ∧
    (∀ k : Fin 4, hasFlag s.close.pendingSet k.val = true → s.clocks[k].enabled = true) ∧
    ∀ i : Fin 32, ∀ p ∈ s.points[i],
      p.period = closing + 1 ∨
      (p.period = closing ∧ ∃ k : Fin 4, p.config.clock = some k ∧ hasFlag s.close.pendingSet k.val = true))

/-- The coincident contributions of a clock's configured points. -/
def State.contributionSum (s : State) (k : Fin 4) : Nat :=
  (s.points.toList.map (fun p =>
    match p with
    | some p => if p.onClock k then p.contribution else 0
    | none => 0)).sum

/-- For each clock, the contributions of the points assigned to it never add up to more than its coincident
peak, which carries a stamp exactly while it is above 0 (R55, R75). -/
abbrev State.SharesWithinPeak (s : State) : Prop :=
  ∀ k : Fin 4, s.contributionSum k ≤ s.clocks[k].peak ∧
    (s.clocks[k].peak = 0 ↔ s.clocks[k].peakStamp = none)

/-! ## The history store -/

/-- Point and period of the record in a slot. -/
def History.keyAt (h : History) (slot : Fin 384) : Option (Fin 32 × BitVec 16) :=
  h.slots[slot].map (fun r => (r.point, r.period))

/-- The valid records stand one after the other with rising sequences, the newest carrying the counter's value
less 1, and no two of them are of one point and period (R125, R127). -/
abbrev History.Ordered (h : History) : Prop :=
  h.valid ≤ 384 ∧
  (∀ j : Fin 384, j.val < h.valid →
    h.slots[h.slotBack j.val].map (·.sequence) = some (h.sequence - 1 - BitVec.ofNat 32 j.val)) ∧
  (∀ j k : Fin 384, j.val < k.val → k.val < h.valid → h.keyAt (h.slotBack j.val) ≠ h.keyAt (h.slotBack k.val))

/-! ## Safe states and runs -/

/-- All the invariants together. -/
structure State.Safe (s : State) : Prop where
  port       : s.PortWithin
  lock       : s.LockExcludesMark
  time       : s.TimeConsistent
  clocks     : s.ClocksValid
  tariff     : s.TariffInRange
  points     : s.PointsInRange
  holds      : s.HoldsDerived
  gaps       : s.GapsAccepted
  subs       : s.SubIntervalsDerived
  periods    : s.PeriodsConsistent
  shares     : s.SharesWithinPeak
  history    : s.history.Ordered

/-- n steps from s to t, none of which faults or refuses, every state on the way being safe. -/
inductive SafeRun : Nat → State → State → Prop where
  | done {s : State} : s.Safe → SafeRun 0 s s
  | next {n : Nat} {s u t : State} : s.Safe → step s = .next u → SafeRun n u t → SafeRun (n + 1) s t

end Sys2Proof.Machine
end

