-- ==== Sys2Proof/WellFormed.lean ====
section
/-! DEFINITION. Which terms of `Instr` are a command of their row: the frame passes R161's length check and is
spelled by the row's own kind and argument, a stray octet is neither sync nor idle fill, the octets of a truncated
frame are fewer than a whole frame's, a start is broken off where it can be. A term that is not well formed is still
given to the part as the frame it is (log 21); this file says what a sender means by each row. -/

namespace Sys2Proof

/-- A REQUEST frame's argument octets fit its length octet (R190: a payload of at most 250 octets, two of
them tag and request kind). -/
def Request.fits (r : Request) : Bool := decide (r.args.length ≤ 248)

/-- The payload of an UNKNOWN_REQUEST: too short for tag and request kind, or naming no known kind
(R172). -/
def unknownPayload : List Byte → Bool
  | _ :: code :: _ => (RequestKind.ofCode code).isNone
  | _ => true

/-- The close unit completes a close in flight only after every point has been cut (R186). -/
def StartBreak.wf (b : StartBreak) : Bool := decide (b.closes = 0) || decide (b.points = BitVec.allOnes 32)

/-- A start that VDD breaks off, if it is one, is broken off at a place it can come to. -/
def brokenWf (broken : Option StartBreak) : Bool := (broken.map StartBreak.wf).getD true

/-- A command is well formed. -/
def Instr.wf : Instr → Bool
  | .mark _ _ p => decide (p.length = 9)
  | .selfAdvance _ => true
  | .reading _ p => decide (p.length = 20)
  | .passThroughFrame f =>
    f.lengthOk && decide (f.kind ≠ kindMark)
  | .frameDiscard _ => true
  | .truncatedFrame os => decide (os.length ≤ 255)
  | .frameSent => true
  | .unknownRequest _ p => decide (p.length ≤ 250) && unknownPayload p
  | .ident r => r.fits
  | .assignStation r => r.fits
  | .ackStart r => r.fits
  | .setPoint r => r.fits
  | .removePoint r => r.fits
  | .holdPoint r => r.fits
  | .releasePoint r => r.fits
  | .setClock r => r.fits
  | .loadTable r => r.fits
  | .readTable r => r.fits
  | .activateNow r => r.fits && (decide (r.args ≠ [1]) && decide (r.args ≠ [2]))
  | .activateAtClose r => decide (r.args = [1])
  | .activateCancel r => decide (r.args = [2])
  | .closePeriod r => r.fits
  | .readout r => r.fits
  | .readoutSearch => true
  | .readoutEmit => true
  | .readoutEnd => true
  | .abortReadout r => r.fits
  | .queryPoint r => r.fits
  | .queryDevice r => r.fits
  | .clearAttention r => r.fits
  | .lockClearable r => r.fits && decide (r.args ≠ [1])
  | .lockCommission r => decide (r.args = [1])
  | .unlock r => r.fits
  | .restart r => r.fits
  | .restartWarmStart b => brokenWf b
  | .supwarn _ => true
  | .powerUp b => brokenWf b
  | .resetn b => brokenWf b
  | .resetnRelease => true
  | .strayOctet o => decide (o ≠ syncOctet) && decide (o ≠ 0)
  | .supplyLoss => true
  | .vbakFailure => true

end Sys2Proof
end

