-- ==== Sys2Proof/Certificates/Slice0/Obligations.lean ====
section
/-! DEFINITION. The statements for the provers, and the few words they are written in. A statement names the
state a command starts from, and the state it leaves by a record update of it: whatever the update does not
name is unchanged. -/

namespace Sys2Proof.Statements

open Sys2Proof.Machine

/-! ## The words of the statements -/

/-- VDD is in its range and RESETN is high: the part takes frames and runs its timer (R183, R185). -/
abbrev Live (s : State) : Prop := s.supply.vdd = true ∧ s.supply.resetnLow = false

/-- The address is the part's station (R163). -/
abbrev AddressedTo (s : State) (address : Byte) : Prop :=
  ∃ n : Fin 8, s.decoder.station = some n ∧ address = oct n.val

/-- A live part takes a request: addressed to its station, with a free place for the reply (R163, R165) and a
payload that a frame can carry (R190). -/
abbrev Ready (s : State) (r : Request) : Prop :=
  Live s ∧ AddressedTo s r.address ∧ s.port.queue.length < 8 ∧ r.args.length ≤ 248

/-- Neither lock is set (R158). -/
abbrev Unlocked (s : State) : Prop := s.decoder.clearable = false ∧ s.decoder.commissioning = false

/-- Once a frame's last octet has arrived the framer is in HUNT (R160). -/
abbrev hunting (s : State) : State := { s with port := { s.port with framer := .hunt } }

/-- A request's event: its effects leave the state u, the reply is built on it, joins the insert queue, and
the port makes the choice a joining frame calls for (R168, R169, R172, R173). -/
def answered (u : State) (r : Request) (k : RequestKind) (code : ReplyCode) (data : List Byte) : State :=
  u.queueInsert { frame := u.replyFrame r.tag k.code code data, restartReply := false }

/-- The sub-interval a point opens at a minute (R66): SHORT off the clock's boundary minutes, HELD if held. -/
def openedSub (set : TariffSet) (c : Clock) (now : CalTime) (held : Bool) : SubInterval :=
  { energy := { ai := 0, ae := 0, rl := 0, rc := 0 }, ratePeriod := ratePeriodAt set now,
    quality := (if now.minute % c.length = 0 then 0#5 else 4#5) ||| (if held then 16#5 else 0#5),
    accepted := false }

/-- The context of a point as SET POINT creates it from UNUSED (R13), before it takes up its clock. -/
def freshPoint (c : PointConfig) (period : BitVec 16) : Point :=
  { config := c, baselines := none, lastSeq := none, sub := none, ring := [], present := none,
    maxD := Vector.replicate 4 { value := 0, stamp := none }, maxAll := { value := 0, stamp := none },
    contribution := 0, totals := { ai := 0, ae := 0, rl := 0, rc := 0 }, attributed := 0,
    unattributed := { ai := 0, ae := 0, rl := 0, rc := 0 }, excessSum := 0, missingCount := 0,
    period := period,
    counters := { missing := 0, gap := 0, ineligible := 0, exceedances := 0, outages := 0 },
    life := { duplicates := 0, stale := 0, lost := 0, discontinuities := 0, restarts := 0 },
    periodFlags := 0, status := 0, attention := false, operator := false, conflict := false,
    ratchet := [0, 0, 0, 0, 0, 0, 0, 0, 0, 0, 0, 0], residues := { tou := 0, facility := 0, reactive := 0 } }

/-- The reply data of a point request (R192). -/
def pointData (i : Fin 32) (state : Byte) (period : BitVec 16) : List Byte :=
  [oct i.val, state] ++ beBytes 2 period.toNat

/-- A pending clock of a close that starts: enabled, and named by some configured point (R94). -/
def Qualifies (s : State) (k : Fin 4) : Prop :=
  s.clocks[k].enabled = true ∧ ∃ i : Fin 32, ∃ p ∈ s.points[i], p.config.clock = some k

/-- What a cut close and the loss of the window leave of a point (R68): no sub-interval, an empty ring, the
sub-interval's Ai attributed, its excess summed and its gap counted under the option given, CUT_SEEN if there
was one to cut, and everything the cut does not touch as it was. -/
def CutFrom (option : Option PenaltyOption) (p q : Point) : Prop :=
  q.sub = none ∧ q.ring = [] ∧
  (∀ b ∈ p.sub,
    q.attributed = min max64 (p.attributed + b.energy.ai) ∧
    q.excessSum = min max64 (p.excessSum + subIntervalExcess option b.energy) ∧
    (q.counters.gap = if b.quality.getLsbD 0 then min max16 (p.counters.gap + 1) else p.counters.gap) ∧
    q.periodFlags.getLsbD 2 = true) ∧
  (p.sub = none → q.attributed = p.attributed ∧ q.excessSum = p.excessSum ∧ q.counters.gap = p.counters.gap) ∧
  q.baselines = p.baselines ∧ q.present = p.present ∧ q.maxD = p.maxD ∧ q.maxAll = p.maxAll ∧
  q.totals = p.totals ∧ q.unattributed = p.unattributed ∧ q.missingCount = p.missingCount ∧
  q.period = p.period ∧ q.life = p.life ∧ q.operator = p.operator ∧ q.ratchet = p.ratchet ∧
  q.residues = p.residues ∧ q.counters.missing = p.counters.missing ∧
  q.counters.ineligible = p.counters.ineligible ∧ q.counters.exceedances = p.counters.exceedances

/-- A point whose open sub-interval is cut and whose ring is cleared (R47, R68, R186): the sub-interval's Ai is
attributed, its excess summed and its gap counted under the option given, and CUT_SEEN is raised; all else is as it
was. Without a clock, or without a sub-interval, there is nothing to cut. -/
def cutOff (option : Option PenaltyOption) (p : Point) : Point :=
  match p.config.clock, p.sub with
  | some _, some b =>
    { p with
      sub := none
      ring := []
      attributed := min max64 (p.attributed + b.energy.ai)
      excessSum := min max64 (p.excessSum + subIntervalExcess option b.energy)
      counters := { p.counters with
        gap := if b.quality.getLsbD 0 then min max16 (p.counters.gap + 1) else p.counters.gap }
      periodFlags := p.periodFlags ||| 4#4 }
  | _, _ => { p with ring := [] }

/-- A point after its own actions of a warm start (R11): cut, its last sequence gone, the outage counted, CUT_SEEN
raised. -/
def restarted (option : Option PenaltyOption) (p : Point) : Point :=
  { cutOff option p with
    lastSeq := none
    counters := { (cutOff option p).counters with outages := min max16 (p.counters.outages + 1) }
    periodFlags := p.periodFlags ||| 4#4 }

/-- A point after its close of a period (R98, R102, R103), with the residues it carries on: the ratchet push, the
period state at its first values, HELD_SEEN again for a held point, CLOSED raised; all else as it was. -/
def closedPoint (closing : BitVec 16) (carried : Residues) (p : Point) : Point :=
  { p with
    maxD := Vector.replicate 4 { value := 0, stamp := none }
    maxAll := { value := 0, stamp := none }
    contribution := 0
    totals := { ai := 0, ae := 0, rl := 0, rc := 0 }
    attributed := 0
    unattributed := { ai := 0, ae := 0, rl := 0, rc := 0 }
    excessSum := 0
    counters := { missing := 0, gap := 0, ineligible := 0, exceedances := 0, outages := 0 }
    periodFlags := if p.operator = true ∨ p.conflict = true then 8 else 0
    period := closing + 1
    ratchet := (p.maxAll.value :: p.ratchet).take 12
    residues := carried
    status := p.status ||| 32#6
    attention := p.attention || (!p.status.getLsbD 5 && p.config.attentionMask.getLsbD 5) }

/-- The residues a record carries out (R101). -/
def carriedOut (x : BillingRecord) : Residues :=
  { tou := x.tou.carriedOut, facility := x.facility.carriedOut, reactive := x.reactive.carriedOut }

/-- The period of the record in a slot, if it holds one. -/
def slotPeriod (h : History) (slot : Fin 384) : Option (BitVec 16) := h.slots[slot].map (·.period)

/-- Records appended one after the other (R126): one for each of the points, in their order, of the period, with
the close stamp and CUT_CLOSE as given. -/
def Records (before after : History) (points : List (Fin 32)) (closing : BitVec 16) (stamp : Option CalTime)
    (cut : Bool) (rs : List BillingRecord) : Prop :=
  after = rs.foldl History.append before ∧ rs.map (·.point) = points ∧
  ∀ r ∈ rs, r.period = closing ∧ r.stamp = stamp ∧ r.flags.getLsbD 6 = cut

/-- The points of a clock that are still in a period, in ascending point index (R96). -/
def pointsIn (s : State) (k : Fin 4) (closing : BitVec 16) : List (Fin 32) :=
  (List.finRange 32).filter (fun i =>
    match s.points[i] with
    | some p => decide (p.config.clock = some k ∧ p.period = closing)
    | none => false)

/-- The clocks of the pending set, in ascending order. -/
def pendingOf (s : State) : List (Fin 4) := (List.finRange 4).filter (fun k => s.close.pendingSet.getLsbD k.val)

/-- The points that a warm start closes, clock by clock (R110). -/
def duePoints (s : State) (closing : BitVec 16) : List (Fin 32) :=
  (pendingOf s).flatMap (fun k => pointsIn s k closing)

/-- The option a point's record names, in the active set. -/
def optionIn (s : State) (p : Point) : Option PenaltyOption :=
  p.config.option.map (fun o => s.tariff.active.options[o])

/-- The records of the closes a warm start makes (R100, R110): each of its point as it stands restarted, with
CUT_CLOSE, the time as it stood before the start, and its clock's peak as it stood before its reset. -/
def RestartRecords (s t : State) (points : List (Fin 32)) (closing : BitVec 16) (rs : List BillingRecord) : Prop :=
  Records s.history t.history points closing s.time.calendar true rs ∧
  ∀ x ∈ rs, ∀ p ∈ s.points[x.point], ∃ z : Point, z = restarted (optionIn s p) p ∧
    x.totals = z.totals ∧ x.attributed = z.attributed ∧ x.unattributed = z.unattributed ∧ x.maxD = z.maxD ∧
    x.maxAll = z.maxAll ∧ x.contribution = z.contribution ∧ x.counters = z.counters ∧
    (∀ b : Nat, b < 4 → x.flags.getLsbD (b + 2) = z.periodFlags.getLsbD b) ∧
    ∀ k : Fin 4, p.config.clock = some k → x.clockPeak = s.clocks[k].peak ∧ x.peakStamp = s.clocks[k].peakStamp

/-- The completion of the close of a period (R105): IDLE with an empty pending set and the next device period,
CLOSE_DONE raised, and the activation made if it is marked. -/
def Completed (s t : State) (closing : BitVec 16) : Prop :=
  t.close = { inFlight := none, pendingSet := 0, devicePeriod := closing + 1 } ∧
  hasFlag t.attention.flags 8 = true ∧
  t.tariff = (if s.tariff.atClose then { active := s.tariff.pending, pending := s.tariff.pending, atClose := false }
    else s.tariff)

/-- A clock's leaving of the pending set (R96, R105, R107): the close completes if it was the last. -/
def LeavesPending (s t : State) (k : Fin 4) (closing : BitVec 16) : Prop :=
  ((∃ j : Fin 4, j ≠ k ∧ hasFlag s.close.pendingSet j.val = true) →
    (t.close.inFlight = some closing ∧ t.close.devicePeriod = s.close.devicePeriod ∧
      ∀ j : Fin 4, hasFlag t.close.pendingSet j.val = (hasFlag s.close.pendingSet j.val && decide (j ≠ k))) ∧
    t.tariff = s.tariff ∧ t.attention = s.attention) ∧
  ((∀ j : Fin 4, j ≠ k → hasFlag s.close.pendingSet j.val = false) → Completed s t closing)

/-! ### Windows -/

/-- A window of a ring is eligible (R70). -/
abbrev Eligible (c : Clock) (q : Point) : Prop :=
  q.ring.length = c.window ∧ c.hold = 0 ∧ q.operator = false ∧ q.conflict = false ∧
  q.missingCount < q.config.lossLimit ∧
  ∀ e ∈ q.ring, e.quality.getLsbD 1 = false ∧ e.quality.getLsbD 2 = false ∧ e.quality.getLsbD 3 = false ∧
    e.quality.getLsbD 4 = false

/-- The window demand of a ring (R69): the entries' Ai times 60/(L×W). -/
def demandOf (c : Clock) (q : Point) : Nat := (q.ring.map (·.ai)).sum * (60 / (c.length * c.window))

/-- What a point brings to the coincident sum (R74). -/
def shareOf (c : Clock) (q : Point) : Nat := if Eligible c q then demandOf c q else 0

/-! ### Time updates -/

/-- The time base at a minute under a mark (R41 to R43, R47). -/
def lockedTime (b : TimeBase) (now : CalTime) : TimeBase :=
  { b with calendar := some now, state := .locked, holdover := 0, timer := .running65 }

/-- The four conditions of the scheduled close at a new time (R53). -/
def CloseDue (s : State) (now : CalTime) : Prop :=
  ∃ c : CloseInstant, s.tariff.active.closeInstant = some c ∧
    (c.day < now.day ∨ (now.day = c.day ∧ c.minute ≤ now.hour * 60 + now.minute)) ∧
    s.time.lastClose ≠ some { year := now.year, month := now.month } ∧ s.close.inFlight = none

/-- The scheduled close at a time update (R53, R54): if it is due, its month is written and a close starts as for
CLOSE PERIOD (`ClosePeriodStartsClose`); else nothing changes. -/
def Updated (s t : State) (now : CalTime) : Prop :=
  (CloseDue s now → t = State.startClose
    { s with time := { s.time with lastClose := some { year := now.year, month := now.month } } }) ∧
  (¬ CloseDue s now → t = s)

/-- A minute advance (R46, R62): the scheduled close first, then the clocks due at the minute take their
boundaries one after the other, in the order given as far as it names them (log 4). -/
def MinuteTaken (s t : State) (order : List (Fin 4)) (now : CalTime) (selfAdvance : Bool) : Prop :=
  ∃ (v : State) (due : List (Fin 4)), Updated s v now ∧ due.Nodup ∧
    (∀ k : Fin 4, k ∈ due ↔ v.clocks[k].enabled = true ∧ now.minute % v.clocks[k].length = 0) ∧
    (order.Nodup → (∀ k : Fin 4, k ∈ order) → due.Sublist order) ∧
    t = due.foldl (fun u k => u.boundary k now selfAdvance) v

/-- A point as it stands once its sub-interval is opened at a minute, if its clock is enabled (R41, R47, R66). -/
def openedPoint (s : State) (now : CalTime) (p : Point) : Point :=
  match p.config.clock with
  | some k =>
    if s.clocks[k].enabled then
      { p with sub := some (openedSub s.tariff.active s.clocks[k] now (p.operator || p.conflict)) }
    else p
  | none => p

/-! ### The rate period -/

/-- A season start has been reached on a date (R49). -/
def seasonReached (e : MonthDay) (t : CalTime) : Prop := e.month < t.month ∨ (e.month = t.month ∧ e.day ≤ t.day)

/-- The season of a date (R49). -/
def SeasonIs (l : List MonthDay) (t : CalTime) (season : Nat) : Prop :=
  (l = [] ∧ season = 0) ∨
  (l ≠ [] ∧ (∀ e ∈ l, ¬ seasonReached e t) ∧ season + 1 = l.length) ∨
  (∃ e : MonthDay, l[season]? = some e ∧ seasonReached e t ∧ ∀ f : MonthDay,
    l[season + 1]? = some f → ¬ seasonReached f t)

/-- The rate period a profile gives at a minute of the day (R51). -/
def ProfileGives (l : List SwitchPoint) (minute : Nat) (rate : Fin 4) : Prop :=
  (l = [] ∧ rate = 0) ∨
  ((∀ e ∈ l, minute < e.minute) ∧ ∃ e : SwitchPoint, l.getLast? = some e ∧ rate = e.ratePeriod) ∨
  (∃ (n : Nat) (e : SwitchPoint), l[n]? = some e ∧ e.minute ≤ minute ∧
    (∀ f : SwitchPoint, l[n + 1]? = some f → minute < f.minute) ∧ rate = e.ratePeriod)

/-! ### The readout -/

/-- The readout ended (R138). -/
def ended (s : State) (job : ReadoutJob) (reason : EndReason) : State :=
  State.raiseDevice { s with readout := { phase := .report job reason, lastEnd := some reason } } .readoutEnd

/-- The readout on to its next period, or done after its last (R132). -/
def movedOn (s : State) (job : ReadoutJob) : State :=
  if job.begun < job.count then
    { s with readout := { s.readout with
      phase := .search { job with current := job.current + 1, begun := job.begun + 1 } } }
  else ended s job .done

/-- The step at the run's offset finds a record to take (R134). -/
def RecordAt (s : State) (job : ReadoutJob) (run : Run) (r : BillingRecord) : Prop :=
  s.history.sequence ≠ run.firstSeq + BitVec.ofNat 32 run.offset ∧
  s.history.isValid (run.firstSlot + Fin.ofNat 384 run.offset) = true ∧
  s.history.slots[run.firstSlot + Fin.ofNat 384 run.offset] = some r ∧
  r.sequence = run.firstSeq + BitVec.ofNat 32 run.offset ∧ r.period = job.current

/-- EMIT at a run's offset: its next step waits exactly if it has a record to queue and no room for it (R132, R135;
log 19). -/
def InEmit (s t : State) (job : ReadoutJob) (run : Run) : Prop :=
  ∃ w : Bool, t = { s with readout := { s.readout with phase := .emit job { run with waiting := w } } } ∧
    (w = true ↔ 6 ≤ s.port.queue.length ∧ ∃ r : BillingRecord, RecordAt s job run r ∧
      job.mask.getLsbD r.point.val = true)

/-- A step of the readout in EMIT from s to t, before any output choice (R134 to R137). -/
def EmitTaken (s t : State) (job : ReadoutJob) (run : Run) : Prop :=
  (∀ r : BillingRecord, RecordAt s job run r →
    (job.mask.getLsbD r.point.val = true → s.port.queue.length ≤ 5 →
      InEmit { s with port := { s.port with queue := s.port.queue ++
          [{ frame := { kind := 0x32, address := s.stationOctet, payload := job.tag :: r.octets }
             restartReply := false }] } } t
        { job with sent := job.sent + 1 }
        { run with offset := run.offset + 1, found := run.found ||| BitVec.twoPow 32 r.point.val }) ∧
    (job.mask.getLsbD r.point.val = true → 6 ≤ s.port.queue.length →
      t = { s with readout := { s.readout with phase := .emit job { run with waiting := true } } }) ∧
    (job.mask.getLsbD r.point.val = false → InEmit s t job { run with offset := run.offset + 1 })) ∧
  (s.history.sequence ≠ run.firstSeq + BitVec.ofNat 32 run.offset →
    (s.history.isValid (run.firstSlot + Fin.ofNat 384 run.offset) = false ∨
      ∀ r ∈ s.history.slots[run.firstSlot + Fin.ofNat 384 run.offset],
        r.sequence ≠ run.firstSeq + BitVec.ofNat 32 run.offset) →
    t = (if job.continueOnOvertake then movedOn s { job with overtaken := job.overtaken + 1 }
      else ended s { job with overtaken := job.overtaken + 1 } .overtaken)) ∧
  (s.history.sequence = run.firstSeq + BitVec.ofNat 32 run.offset ∨
    (∃ r ∈ s.history.slots[run.firstSlot + Fin.ofNat 384 run.offset],
      s.history.isValid (run.firstSlot + Fin.ofNat 384 run.offset) = true ∧
      r.sequence = run.firstSeq + BitVec.ofNat 32 run.offset ∧ r.period ≠ job.current) →
    ∀ n : Nat, n = ((List.finRange 32).filter (fun i => job.mask.getLsbD i.val && !run.found.getLsbD i.val)).length →
    t = (if 0 < n ∧ job.stopOnMissing = true then ended s { job with missingPoints := job.missingPoints + n } .notFound
      else movedOn s { job with missingPoints := job.missingPoints + n }))

/-- The place of a device flag (R179, R190). -/
def deviceFlagPlace : DeviceFlag → Nat
  | .timeStep => 0
  | .holdover => 1
  | .uncertain => 2
  | .link => 3
  | .fwdOverrun => 4
  | .reqOverrun => 5
  | .busyRefused => 6
  | .lockRefused => 7
  | .closeDone => 8
  | .readoutEnd => 9
  | .supplyWarn => 10

/-- The place of a status flag (R10, R190). -/
def statusFlagPlace : StatusFlag → Nat
  | .loss => 0
  | .exceed => 1
  | .warn => 2
  | .discont => 3
  | .feRestart => 4
  | .closed => 5

/-- The code of a reply code (R190). -/
def replyCode : ReplyCode → Byte
  | .ok => 0
  | .busy => 1
  | .range => 2
  | .locked => 3
  | .noPoint => 4
  | .unknown => 5
  | .length => 6

/-- The code of a disposition (R190). -/
def dispositionCode : Disposition → Byte
  | .unusedPoint => 1
  | .baseline => 2
  | .duplicate => 3
  | .stale => 4
  | .recovered => 5
  | .discontinuity => 6
  | .accepted => 7

/-- The code of a request kind, and how many argument octets it carries, if they are always as many (R192). -/
def requestRow : RequestKind → Byte × Option Nat
  | .ident => (0x01, some 0)
  | .assignStation => (0x02, some 1)
  | .ackStart => (0x03, some 0)
  | .setPoint => (0x10, some 16)
  | .removePoint => (0x11, some 1)
  | .holdPoint => (0x12, some 1)
  | .releasePoint => (0x13, some 1)
  | .setClock => (0x18, some 5)
  | .loadTable => (0x20, none)
  | .readTable => (0x21, some 3)
  | .activate => (0x22, some 1)
  | .closePeriod => (0x28, some 0)
  | .readout => (0x30, some 8)
  | .abortReadout => (0x31, some 0)
  | .queryPoint => (0x38, some 2)
  | .queryDevice => (0x39, some 1)
  | .clearAttention => (0x3A, some 7)
  | .lock => (0x40, some 1)
  | .unlock => (0x41, some 0)
  | .restart => (0x48, some 0)

/-- The code of an end reason (R190). -/
def endCode : EndReason → Nat
  | .done => 1
  | .notFound => 2
  | .overtaken => 3
  | .aborted => 4
  | .supply => 5
  | .restart => 6

/-- READOUT END queued and the readout IDLE (R138). -/
def reported (s : State) (job : ReadoutJob) (reason : EndReason) : State :=
  { s with
    readout := { s.readout with phase := .idle }
    port := { s.port with queue := s.port.queue ++
      [{ frame := s.replyFrame job.tag 0x32 .ok
           (oct (endCode reason) :: (beBytes 2 job.sent ++ beBytes 2 job.missingPeriods ++
             beBytes 2 job.missingPoints ++ beBytes 2 job.overtaken ++ beBytes 2 job.current.toNat))
         restartReply := false }] } }

/-! ### Layouts

A layout is a list of fields, each an offset, a width in octets and a value. -/

/-- Octets hold the fields of a layout, each at its offset, high octet first (R190). -/
def Holds (os : List Byte) (fields : List (Nat × Nat × Nat)) : Prop :=
  ∀ f ∈ fields, (os.drop f.1).take f.2.1 = beBytes f.2.1 f.2.2

/-- The code of a stamp: minutes since 2000-01-01 00:00, or 0xFFFFFFFF for none (R190). -/
def stampCode : Option CalTime → Nat
  | some t => t.minutes
  | none => 0xFFFFFFFF

/-- The code of a number or NONE (R190). -/
def noneCode {n : Nat} : Option (Fin n) → Nat
  | some k => k.val
  | none => 0xFF

/-- The code of a residue, two's complement (R190). -/
def residueCode (c : Int) : Nat := (c % 256).toNat

/-- A yes or no. -/
def bit (b : Bool) : Nat := if b then 1 else 0

/-- The number in octets from a place on, high octet first (R190). -/
def numberAt (os : List Byte) (at_ width : Nat) : Nat :=
  ((os.drop at_).take width).foldl (fun n o => n * 256 + o.toNat) 0

/-- Four energies of a width, one after the other. -/
def energyFields (at_ width : Nat) (e : Energies) : List (Nat × Nat × Nat) :=
  [(at_, width, e.ai), (at_ + width, width, e.ae), (at_ + 2 * width, width, e.rl), (at_ + 3 * width, width, e.rc)]

/-- A demand, then its stamp. -/
def maximumFields (at_ : Nat) (m : Maximum) : List (Nat × Nat × Nat) :=
  [(at_, 5, m.value), (at_ + 5, 4, stampCode m.stamp)]

/-- The configuration record (R192). -/
def configFields (at_ : Nat) (c : PointConfig) : List (Nat × Nat × Nat) :=
  [(at_, 1, noneCode c.clock), (at_ + 1, 1, c.schedule.val), (at_ + 2, 1, noneCode c.option),
   (at_ + 3, 4, c.contract), (at_ + 7, 1, c.warnPercent), (at_ + 8, 1, c.lossLimit),
   (at_ + 9, 4, c.plausibility), (at_ + 13, 1, c.attentionMask.toNat), (at_ + 14, 1, bit c.forward)]

/-- The period counters (R8). -/
def counterFields (at_ : Nat) (c : PeriodCounters) : List (Nat × Nat × Nat) :=
  [(at_, 2, c.missing), (at_ + 2, 2, c.gap), (at_ + 4, 2, c.ineligible), (at_ + 6, 2, c.exceedances),
   (at_ + 8, 2, c.outages)]

/-- The four values of a charge kind (R194). -/
def lineFields (at_ : Nat) (l : ChargeLine) : List (Nat × Nat × Nat) :=
  [(at_, 5, l.unrounded), (at_ + 5, 1, residueCode l.carriedIn), (at_ + 6, 5, l.billed),
   (at_ + 11, 1, residueCode l.carriedOut)]

/-- The RECORD payload (R194). -/
def recordFields (tag : Byte) (r : BillingRecord) : List (Nat × Nat × Nat) :=
  [(0, 1, tag.toNat), (1, 1, r.point.val), (2, 2, r.period.toNat), (4, 4, r.sequence.toNat), (8, 4, stampCode r.stamp),
   (12, 1, r.flags.toNat), (13, 1, r.schedule.val), (14, 1, noneCode r.option)] ++ energyFields 15 8 r.totals ++
  [(47, 8, r.attributed)] ++ energyFields 55 8 r.unattributed ++ maximumFields 87 r.maxD[0] ++
  maximumFields 96 r.maxD[1] ++ maximumFields 105 r.maxD[2] ++ maximumFields 114 r.maxD[3] ++
  maximumFields 123 r.maxAll ++
  [(132, 5, r.contribution), (137, 6, r.clockPeak), (143, 4, stampCode r.peakStamp), (147, 5, r.ratchetDemand),
   (152, 5, r.minimumDemand), (157, 5, r.facilityDemand), (162, 8, r.excess), (170, 2, r.ratio)] ++
  lineFields 172 r.tou ++ lineFields 184 r.facility ++ lineFields 196 r.reactive ++ [(208, 5, r.total)] ++
  counterFields 213 r.counters ++ [(223, 5, r.ratchetEntry)]

/-- The state of a point and its hold causes in one octet (R193). -/
def stateCode (p : Point) : Nat :=
  (if p.operator = true ∨ p.conflict = true then 3 else if p.config.lossLimit ≤ p.missingCount then 2 else 1) +
    4 * bit p.operator + 8 * bit p.conflict

/-- The CONTEXT view (R193); an absent item is sent as 0. -/
def contextFields (i : Fin 32) (p : Point) : List (Nat × Nat × Nat) :=
  let r : Registers := p.baselines.getD { ai := 0, ae := 0, rl := 0, rc := 0 }
  let b : SubInterval := p.sub.getD
    { energy := { ai := 0, ae := 0, rl := 0, rc := 0 }, ratePeriod := 0, quality := 0, accepted := false }
  [(0, 1, i.val), (1, 1, stateCode p), (2, 2, p.period.toNat)] ++ configFields 4 p.config ++
  [(19, 1, bit p.baselines.isSome + 2 * bit p.lastSeq.isSome + 4 * bit p.sub.isSome + 8 * bit b.accepted +
      16 * bit p.present.isSome + 32 * bit ((p.present.map (·.eligible)).getD false)),
   (20, 4, r.ai.toNat), (24, 4, r.ae.toNat), (28, 4, r.rl.toNat), (32, 4, r.rc.toNat),
   (36, 1, (p.lastSeq.getD 0).toNat)] ++ energyFields 37 4 b.energy ++
  [(53, 1, b.ratePeriod.val), (54, 1, b.quality.toNat), (55, 1, p.ring.length),
   (56, 5, (p.present.map (·.demand)).getD 0), (61, 4, (p.present.map (·.stamp.minutes)).getD 0),
   (65, 1, p.missingCount), (66, 2, p.life.duplicates), (68, 2, p.life.stale), (70, 2, p.life.lost),
   (72, 2, p.life.discontinuities), (74, 2, p.life.restarts), (76, 1, p.periodFlags.toNat), (77, 1, p.status.toNat),
   (78, 1, bit p.attention), (79, 1, residueCode p.residues.tou), (80, 1, residueCode p.residues.facility),
   (81, 1, residueCode p.residues.reactive)]

/-- The period excess under an option (R85, R86). -/
def excessUnder (option : Option PenaltyOption) (p : Point) : Nat :=
  match option with
  | none => 0
  | some o =>
    min max64 (if o.subinterval then p.excessSum + o.excess p.unattributed else o.excess p.totals)

/-- The PERIOD view, with the reactive figures to date under an option (R90, R193). -/
def periodFields (i : Fin 32) (p : Point) (option : Option PenaltyOption) : List (Nat × Nat × Nat) :=
  [(0, 1, i.val), (1, 1, stateCode p), (2, 2, p.period.toNat)] ++ maximumFields 4 p.maxD[0] ++
  maximumFields 13 p.maxD[1] ++ maximumFields 22 p.maxD[2] ++ maximumFields 31 p.maxD[3] ++ maximumFields 40 p.maxAll ++
  [(49, 5, p.contribution)] ++ energyFields 54 8 p.totals ++ [(86, 8, p.attributed)] ++
  energyFields 94 8 p.unattributed ++
  [(126, 8, p.excessSum), (134, 8, excessUnder option p), (142, 2, reactiveRatio option p.totals)] ++
  counterFields 144 p.counters ++ p.ratchet.mapIdx (fun n v => (154 + 5 * n, 5, v))

/-- A demand clock in QUERY DEVICE's reply (R193). -/
def clockFields (at_ : Nat) (c : Clock) : List (Nat × Nat × Nat) :=
  [(at_, 1, bit c.enabled), (at_ + 1, 1, c.length), (at_ + 2, 1, c.window), (at_ + 3, 1, c.holdLength),
   (at_ + 4, 1, c.hold), (at_ + 5, 6, c.peak), (at_ + 11, 4, stampCode c.peakStamp)]

/-- The code of a time state (R190). -/
def timeCode : TimeState → Nat
  | .unset => 0
  | .locked => 1
  | .holdover => 2
  | .uncertain => 3

/-- The code of a readout phase (R190). -/
def phaseCode : Phase → Nat
  | .idle => 0
  | .search _ => 1
  | .emit _ _ => 2
  | .report _ _ => 3

/-- The readout's job, if one is in flight. -/
def jobOf (s : State) : Option ReadoutJob :=
  match s.readout.phase with
  | .idle => none
  | .search job => some job
  | .emit job _ => some job
  | .report job _ => some job

/-- QUERY DEVICE's data (R193). -/
def deviceFields (s : State) : List (Nat × Nat × Nat) :=
  [(0, 1, timeCode s.time.state), (1, 4, stampCode s.time.calendar), (5, 2, s.time.holdover),
   (7, 1, (s.time.lastClose.map (·.year - 2000)).getD 0xFF), (8, 1, (s.time.lastClose.map (·.month)).getD 0xFF),
   (9, 2, s.time.duplicates), (11, 2, s.time.invalid), (13, 2, s.time.steps)] ++ clockFields 15 s.clocks[0] ++
  clockFields 30 s.clocks[1] ++ clockFields 45 s.clocks[2] ++ clockFields 60 s.clocks[3] ++
  [(75, 1, bit s.close.inFlight.isSome), (76, 2, (s.close.inFlight.map (·.toNat)).getD 0),
   (78, 1, s.close.pendingSet.toNat), (79, 2, s.close.devicePeriod.toNat), (81, 1, bit s.tariff.atClose),
   (82, 1, bit s.decoder.clearable + 2 * bit s.decoder.commissioning),
   (83, 1, phaseCode s.readout.phase), (84, 2, ((jobOf s).map (·.current.toNat)).getD 0),
   (86, 2, ((jobOf s).map (·.sent)).getD 0), (88, 1, (s.readout.lastEnd.map endCode).getD 0),
   (89, 2, s.history.valid), (91, 4, s.history.sequence.toNat),
   (95, 2, if s.history.valid = 0 then 0
      else ((slotPeriod s.history (s.history.slotBack (s.history.valid - 1))).map (·.toNat)).getD 0),
   (97, 2, if s.history.valid = 0 then 0
      else ((slotPeriod s.history (s.history.slotBack 0)).map (·.toNat)).getD 0),
   (99, 2, s.port.counters.crc), (101, 2, s.port.counters.truncated), (103, 2, s.port.counters.malformed),
   (105, 2, s.port.counters.stray), (107, 2, s.port.counters.forwardOverruns),
   (109, 2, s.port.counters.requestOverruns), (111, 2, s.unusedReadings), (113, 2, s.attention.flags.toNat),
   (115, 2, s.attention.mask.toNat), (117, 1, bit s.attention.bit), (118, 4, s.pointBits.toNat)]

/-- A table's contents in octets (R192). -/
def tableOctets : Table → List Byte
  | .seasons l => oct l.length :: l.flatMap (fun e => [oct e.month, oct e.day])
  | .weekdays v => [oct v[0].val, oct v[1].val, oct v[2].val, oct v[3].val, oct v[4].val, oct v[5].val, oct v[6].val]
  | .holidays l => oct l.length :: l.flatMap (fun h =>
      [oct h.month, oct h.day, ((h.year.map (fun y => oct (y - 2000))).getD 0xFF)])
  | .profileMap v => (List.finRange 16).map (fun n => oct v[n].val)
  | .profile _ l => oct l.length :: l.flatMap (fun e => beBytes 2 e.minute ++ [oct e.ratePeriod.val])
  | .closeInstant c =>
    match c with
    | none => [0, 0, 0]
    | some c => oct c.day :: beBytes 2 c.minute
  | .schedule _ s =>
    beBytes 4 s.rateTOU[0] ++ beBytes 4 s.rateTOU[1] ++ beBytes 4 s.rateTOU[2] ++ beBytes 4 s.rateTOU[3] ++
      beBytes 4 s.rateFAC ++ beBytes 4 s.rateVAR ++ [oct s.ratchetMonths, oct s.ratchetPercent, oct s.minPercent]
  | .option _ o => beBytes 2 o.threshold ++ [oct (bit o.leading + 2 * bit o.subinterval)]

/-! ### What is in range -/

/-- A configuration record's octets with every field in range (R1, R192). -/
def RecordInRange (os : List Byte) : Prop :=
  (numberAt os 0 1 ≤ 3 ∨ numberAt os 0 1 = 255) ∧ numberAt os 1 1 ≤ 7 ∧
  (numberAt os 2 1 ≤ 3 ∨ numberAt os 2 1 = 255) ∧ (50 ≤ numberAt os 7 1 ∧ numberAt os 7 1 ≤ 99) ∧
  (1 ≤ numberAt os 8 1 ∧ numberAt os 8 1 ≤ 15) ∧ 1 ≤ numberAt os 9 4 ∧ numberAt os 13 1 ≤ 63 ∧ numberAt os 14 1 ≤ 1

/-- A table meets its selector's conditions (R147). -/
def TableInRange : Table → Prop
  | .seasons l => SeasonsInRange l
  | .weekdays _ => True
  | .holidays l => HolidaysInRange l
  | .profileMap _ => True
  | .profile _ l => ProfileInRange l
  | .closeInstant c => ∀ x ∈ c, x.InRange
  | .schedule _ x => x.InRange
  | .option _ o => o.InRange

/-- A tariff set holds a table (R144). -/
def HasTable (set : TariffSet) : Table → Prop
  | .seasons l => set.seasons = l
  | .weekdays v => set.weekdays = v
  | .holidays l => set.holidays = l
  | .profileMap v => set.profileMap = v
  | .profile i l => set.profiles[i] = l
  | .closeInstant c => set.closeInstant = c
  | .schedule i x => set.schedules[i] = x
  | .option i o => set.options[i] = o

/-- A tariff set with one table replaced whole (R148). -/
def withTable (set : TariffSet) : Table → TariffSet
  | .seasons l => { set with seasons := l }
  | .weekdays v => { set with weekdays := v }
  | .holidays l => { set with holidays := l }
  | .profileMap v => { set with profileMap := v }
  | .profile i l => { set with profiles := set.profiles.set i l }
  | .closeInstant c => { set with closeInstant := c }
  | .schedule i x => { set with schedules := set.schedules.set i x }
  | .option i o => { set with options := set.options.set i o }

/-- The selector and the index a table is named by (R144, R192). -/
def tablePlace : Table → Nat × Nat
  | .seasons _ => (0, 0)
  | .weekdays _ => (1, 0)
  | .holidays _ => (2, 0)
  | .profileMap _ => (3, 0)
  | .profile i _ => (4, i.val)
  | .closeInstant _ => (5, 0)
  | .schedule i _ => (6, i.val)
  | .option i _ => (7, i.val)

/-- What a selector calls for, if it is one: how many indexes, the largest entry count for a list, and the octets of
an entry or of the table (R144, R146, R192). -/
def tableForm : Nat → Option (Nat × Option Nat × Nat)
  | 0 => some (1, some 4, 2)
  | 1 => some (1, none, 7)
  | 2 => some (1, some 24, 3)
  | 3 => some (1, none, 16)
  | 4 => some (8, some 8, 3)
  | 5 => some (1, none, 3)
  | 6 => some (8, none, 27)
  | 7 => some (4, none, 3)
  | _ => none

/-- Selector, index and length pass the form check (R146). -/
def FormRight (sel index : Byte) (rest : List Byte) : Prop :=
  (∃ indexes size : Nat, tableForm sel.toNat = some (indexes, none, size) ∧ index.toNat < indexes ∧
    rest.length = size) ∨
  (∃ (indexes largest size : Nat) (count : Byte) (entries : List Byte),
    tableForm sel.toNat = some (indexes, some largest, size) ∧ rest = count :: entries ∧ index.toNat < indexes ∧
    count.toNat ≤ largest ∧ entries.length = count.toNat * size)

/-- The octets are LOAD TABLE's arguments for a table that is valid (R146, R147, R192). -/
def Carries (args : List Byte) (table : Table) : Prop :=
  TableInRange table ∧ ∃ sel index : Byte, tablePlace table = (sel.toNat, index.toNat) ∧
    args = sel :: index :: tableOctets table

end Sys2Proof.Statements

open Sys2Proof Sys2Proof.Machine Sys2Proof.Statements

/-! ## Steps -/

/-- A step of a state whose queue has a command in front runs that command on the state with the queue's
rest. -/
def Obligations.StepRunsFrontCommand : Prop :=
  ∀ (c : Instr) (rest : List Instr) (s : State), s.pending = c :: rest →
    step s = exec c { s with pending := rest }

/-- With no command waiting, a live part takes one octet of the line (R160) and runs the command it completes;
a part that is held or unsupplied drops the octet; with no octet either, the part idles. That an octet is
taken, and idling, on an empty queue are the model's choice (log 3), as is the free order of the clocks
(log 4). -/
def Obligations.EmptyQueueTakesOneOctet : Prop :=
  ∀ s : State, s.pending = [] →
    (s.lineIn = [] → step s = .next s) ∧
    (∀ (o : Byte) (rest : List Byte), s.lineIn = o :: rest →
      (¬ Live s → step s = .next { s with lineIn := rest }) ∧
      (Live s → ∀ fr : Framer,
        (s.port.framer.step o = (fr, none) →
          step s = .next { s with lineIn := rest, port := { s.port with framer := fr } }) ∧
        (∀ e : FramerEvent, s.port.framer.step o = (fr, some e) →
          step s = exec
            (match e with
             | .good f => commandOf (Config.clockOrder s.freeIndex) f
             | .discard fault => .frameDiscard fault
             | .stray o => .strayOctet o)
            { s with lineIn := rest, port := { s.port with framer := fr }, freeIndex := s.freeIndex + 1 })))

/-- Every command answers a next state and leaves the queue of commands and the octets on the line as they
were: no ordinary data ends a run. That a command the state rules out answers a next state too is the model's choice
(log 2), and so are the queue and the line (log 3). -/
def Obligations.ExecAnswersNextAndKeepsQueues : Prop :=
  ∀ (c : Instr) (s : State), ∃ t : State, exec c s = .next t ∧ t.pending = s.pending ∧ t.lineIn = s.lineIn

/-! ## Frames and commands -/

/-- The frame a well-formed command carries reads back as that command. A PASS_THROUGH_FRAME that carries a READING or
a REQUEST reads back as the row of that kind, whose meaning passes it on (`FramesForOthersPassUnchanged`). What frame
a command carries is by R190 to R192. -/
def Obligations.FrameCommandsReadBack : Prop :=
  (∀ (c : Instr) (f : Frame), c.wf = true → c.frame? = some f →
    (∀ g : Frame, c = .passThroughFrame g → g.kind ≠ 0x20 ∧ g.kind ≠ 0x30) →
    commandOf c.order f = c) ∧
  (∀ (order : List (Fin 4)) (a : Byte) (p : List Byte),
    (Instr.mark order a p).frame? = some { kind := 0x10, address := a, payload := p } ∧
    (Instr.reading a p).frame? = some { kind := 0x20, address := a, payload := p } ∧
    (Instr.unknownRequest a p).frame? = some { kind := 0x30, address := a, payload := p }) ∧
  (∀ f : Frame, (Instr.passThroughFrame f).frame? = some f) ∧
  (∀ (k : RequestKind) (r : Request), (requestCommand k r).frame? =
    some { kind := 0x30, address := r.address, payload := r.tag :: (requestRow k).1 :: r.args })

/-- The octets of a frame that passes the length check, taken one by one from HUNT, complete nothing before
the last, which completes that frame and leaves the framer in HUNT (R160, R161). -/
def Obligations.FramerReadsBackEveryFrame : Prop :=
  ∀ f : Frame, f.lengthOk = true → ∃ (fr : Framer) (last : Byte),
    (frameOctets f).getLast? = some last ∧ Framer.feed .hunt (frameOctets f).dropLast = some fr ∧
    fr.step last = (.hunt, some (.good f))

/-- Any payload of 0..250 octets with any two octets in the place of the CRC: nothing is completed before the last
octet, and then CRC errors come before malformed lengths and both before a good frame (R160, R161). A length octet
of 251..255 discards the frame as malformed at once. In HUNT an octet that is neither sync nor idle fill is stray. A
frame's octets, its CRC (generator 0x1021, initial value 0xFFFF) and the length check are spelled out. -/
def Obligations.FramerChecksCrcThenLength : Prop :=
  (∀ (f : Frame) (h l : Byte), f.payload.length ≤ 250 → ∃ fr : Framer,
    Framer.feed .hunt (0xC5 :: (frameContents f ++ [h])) = some fr ∧
    fr.step l = (.hunt, some (if frameCrc f ≠ h ++ l then .discard .crcError
      else if f.lengthOk = true then .good f else .discard .malformed))) ∧
  (∀ kind address o : Byte, 250 < o.toNat → ∃ fr : Framer,
    Framer.feed .hunt [0xC5, kind, address] = some fr ∧ fr.step o = (.hunt, some (.discard .malformed))) ∧
  (∀ o : Byte, o ≠ 0xC5 → Framer.step .hunt o = (.hunt, if o = 0 then none else some (.stray o))) ∧
  (∀ f : Frame,
    frameContents f = f.kind :: f.address :: oct f.payload.length :: f.payload ∧
    frameOctets f = 0xC5 :: (frameContents f ++ [oct ((frameCrc f).toNat / 256), oct (frameCrc f).toNat]) ∧
    frameCrc f = (frameContents f).foldl (fun (c : BitVec 16) (o : Byte) => (List.range 8).foldl
      (fun (c : BitVec 16) _ => if c.msb then (c <<< 1) ^^^ 0x1021#16 else c <<< 1)
      (c ^^^ (o.setWidth 16 <<< 8))) 0xFFFF#16 ∧
    (f.lengthOk = true ↔ f.payload.length ≤ 250 ∧ (f.kind = 0x10 → f.payload.length = 9) ∧
      (f.kind = 0x20 → f.payload.length = 20) ∧ (f.kind = 0x31 → 5 ≤ f.payload.length) ∧
      (f.kind = 0x32 → f.payload.length = 228)))

/-! ## The loop port -/

/-- A discarded frame and a stray octet count in their own link counter, which saturates; a discard raises
LINK and leaves the framer in HUNT; nothing else changes (R160, R162). -/
def Obligations.DiscardsAndStraysCounted : Prop :=
  ∀ s : State, Live s →
    exec (.frameDiscard .crcError) s = .next (State.raiseDevice { s with port := { s.port with
      framer := .hunt, counters := { s.port.counters with crc := min 65535 (s.port.counters.crc + 1) } } } .link) ∧
    exec (.frameDiscard .malformed) s = .next (State.raiseDevice { s with port := { s.port with
      framer := .hunt
      counters := { s.port.counters with malformed := min 65535 (s.port.counters.malformed + 1) } } } .link) ∧
    (∀ (octets : List Byte) (fr : Framer), s.port.framer.feed octets = some fr →
      exec (.truncatedFrame octets) s = .next (if fr = .hunt then s else
        State.raiseDevice { s with port := { s.port with
          framer := .hunt
          counters := { s.port.counters with truncated := min 65535 (s.port.counters.truncated + 1) } } } .link)) ∧
    (∀ o : Byte, s.port.framer = .hunt → o ≠ 0xC5 → o ≠ 0 →
      exec (.strayOctet o) s = .next { s with port := { s.port with
        counters := { s.port.counters with stray := min 65535 (s.port.counters.stray + 1) } } })

/-- A frame for no block of this part is offered to the pass-through buffer as it arrived, whichever row
spells it: a REPLY, a RECORD or an unknown kind; a READING outside the point window or at an unassigned part;
a REQUEST of a known kind or of none that is not addressed to the station and is not an ASSIGN STATION an
unassigned part consumes (R18, R163, R164). -/
def Obligations.FramesForOthersPassUnchanged : Prop :=
  ∀ s : State, Live s →
    (∀ f : Frame, f.lengthOk = true → f.kind ≠ 0x10 → f.kind ≠ 0x20 → f.kind ≠ 0x30 →
      exec (.passThroughFrame f) s = .next ((hunting s).offer f)) ∧
    (∀ (a : Byte) (p : List Byte), p.length = 20 → (∀ n ∈ s.decoder.station, a.toNat / 32 ≠ n.val) →
      exec (.reading a p) s = .next ((hunting s).offer { kind := 0x20, address := a, payload := p }) ∧
      exec (.passThroughFrame { kind := 0x20, address := a, payload := p }) s =
        .next ((hunting s).offer { kind := 0x20, address := a, payload := p })) ∧
    (∀ (k : RequestKind) (r : Request), r.args.length ≤ 248 → ¬ AddressedTo s r.address →
      ¬ (k = .assignStation ∧ r.address = 0xFF ∧ s.decoder.station = none) →
      exec (requestCommand k r) s = .next ((hunting s).offer (r.frame k)) ∧
      exec (.passThroughFrame (r.frame k)) s = .next ((hunting s).offer (r.frame k))) ∧
    (∀ (a : Byte) (p : List Byte), p.length ≤ 250 → unknownPayload p = true → ¬ AddressedTo s a →
      exec (.unknownRequest a p) s = .next ((hunting s).offer { kind := 0x30, address := a, payload := p }) ∧
      exec (.passThroughFrame { kind := 0x30, address := a, payload := p }) s =
        .next ((hunting s).offer { kind := 0x30, address := a, payload := p }))

/-- A frame offered to the pass-through buffer joins it as the newest while it holds fewer than 4, and waits there
while the transmitter is sending; into an idle port it goes at once; at a full buffer it is dropped, the forward
overruns count and FWD_OVERRUN is raised (R167, R169). A device flag that is raised stays set, and its rise from 0
while it is in the device mask sets the device attention bit (R179). -/
def Obligations.OfferJoinsOrCountsOverrun : Prop :=
  ∀ (s : State) (f : Frame),
    (∀ q : QueuedFrame, s.port.buffer.length < 4 → s.port.transmitter = .sending q →
      s.offer f = { s with port := { s.port with buffer := s.port.buffer ++ [f] } }) ∧
    (Live s → s.port.buffer = [] → s.port.queue = [] → s.port.transmitter = .free →
      s.offer f = { s with port := { s.port with transmitter := .sending { frame := f, restartReply := false } } }) ∧
    (4 ≤ s.port.buffer.length →
      s.offer f = State.raiseDevice { s with port := { s.port with counters := { s.port.counters with
        forwardOverruns := min 65535 (s.port.counters.forwardOverruns + 1) } } } .fwdOverrun) ∧
    (∀ d : DeviceFlag, s.raiseDevice d = { s with attention := { s.attention with
      flags := s.attention.flags ||| BitVec.twoPow 11 (deviceFlagPlace d)
      bit := s.attention.bit || (!s.attention.flags.getLsbD (deviceFlagPlace d) &&
        s.attention.mask.getLsbD (deviceFlagPlace d)) } })

/-- FRAME_SENT: the port's next choice (R169). The oldest forwarded frame goes while the insert queue is empty or
the streak is below 4, and the streak counts it only if an inserted frame waits; else the oldest inserted frame goes
and the streak is 0; with both empty the transmitter stays FREE. The frame that left was not the reply a restart
waits for. A departure from the insert queue takes a waiting readout step again if it leaves 3 places, and queues a
READOUT END that had found the queue full (R135, R138, R165; both within the departure: log 19). The choice is the
one of `outputChoice`, which makes none while the transmitter is sending. -/
def Obligations.FrameSentChoosesNextFrame : Prop :=
  ∀ (s : State) (q : QueuedFrame), Live s → s.port.transmitter = .sending q → q.restartReply = false →
    (s.port.buffer = [] → s.port.queue = [] →
      exec .frameSent s = .next { s with port := { s.port with transmitter := .free } }) ∧
    (∀ (f : Frame) (rest : List Frame), s.port.buffer = f :: rest →
      (s.port.queue = [] ∨ s.port.streak < 4) →
      exec .frameSent s = .next { s with port := { s.port with
        buffer := rest
        transmitter := .sending { frame := f, restartReply := false }
        streak := if s.port.queue = [] then s.port.streak else s.port.streak + 1 } }) ∧
    (∀ (g : QueuedFrame) (more : List QueuedFrame), s.port.queue = g :: more →
      (s.port.buffer = [] ∨ 4 ≤ s.port.streak) →
      let left : State := { s with port := { s.port with queue := more, transmitter := .sending g, streak := 0 } }
      ((s.readout.phase = .idle ∨ (∃ job : ReadoutJob, s.readout.phase = .search job) ∨
          (∃ (job : ReadoutJob) (run : Run), s.readout.phase = .emit job run ∧
            (run.waiting = false ∨ 6 ≤ more.length)) ∨
          (∃ (job : ReadoutJob) (reason : EndReason), s.readout.phase = .report job reason ∧ more.length ≠ 7)) →
        exec .frameSent s = .next left) ∧
      (∀ (job : ReadoutJob) (run : Run), s.readout.phase = .emit job run → run.waiting = true → more.length ≤ 5 →
        ∃ t : State, EmitTaken left t job run ∧ exec .frameSent s = .next t) ∧
      (∀ (job : ReadoutJob) (reason : EndReason), s.readout.phase = .report job reason → more.length = 7 →
        exec .frameSent s = .next (reported left job reason))) ∧
    exec .frameSent s = .next (State.outputChoice { s with port := { s.port with transmitter := .free } }) ∧
    s.outputChoice = s

/-- A reply joins the insert queue as the newest frame and waits while the transmitter is sending; into an idle port
it goes at once (R168, R169), a departure that takes a waiting readout step with it (R135; log 19) and finds no
READOUT END that had met a full queue. Its envelope is the station, the tag, the kind, the code and the status
octet, and its data goes with OK alone (R173, R192). -/
def Obligations.ReplyQueuedWithItsEnvelope : Prop :=
  ∀ (u : State) (r : Request) (k : RequestKind) (code : ReplyCode) (data : List Byte) (station : Byte) (f : Frame),
    (∀ n : Fin 8, u.decoder.station = some n → station = oct n.val) →
    (u.decoder.station = none → station = 0xFF) →
    f = { kind := 0x31, address := station,
          payload := [station, r.tag, (requestRow k).1, replyCode code,
            (if u.attention.bit = true ∨ (∃ i : Fin 32, ∃ p ∈ u.points[i], p.attention = true) then 1#8 else 0#8) |||
            (if u.decoder.startKind = .warm then 2#8 else 0#8) |||
            (if u.decoder.startAck = true then 4#8 else 0#8)] ++ (if code = .ok then data else []) } →
    (∀ q : QueuedFrame, u.port.transmitter = .sending q →
      answered u r k code data =
        { u with port := { u.port with queue := u.port.queue ++ [{ frame := f, restartReply := false }] } }) ∧
    (Live u → u.port.transmitter = .free → u.port.buffer = [] → u.port.queue = [] →
      let left : State :=
        { u with port := { u.port with transmitter := .sending { frame := f, restartReply := false }, streak := 0 } }
      ((∀ (job : ReadoutJob) (run : Run), u.readout.phase = .emit job run → run.waiting = false) →
        answered u r k code data = left) ∧
      (∀ (job : ReadoutJob) (run : Run), u.readout.phase = .emit job run → run.waiting = true →
        EmitTaken left (answered u r k code data) job run))

/-! ## Requests as such -/

/-- A request for this part that finds the insert queue full is dropped unexecuted: the request overruns count and
REQ_OVERRUN is raised, whatever its kind, an ASSIGN STATION addressed 0xFF at an unassigned part among them (R164,
R165). -/
def Obligations.FullQueueDropsRequest : Prop :=
  ∀ (s : State), Live s → s.port.queue.length = 8 →
    let dropped : State := State.raiseDevice { s with port := { s.port with
      framer := .hunt
      counters := { s.port.counters with requestOverruns := min 65535 (s.port.counters.requestOverruns + 1) } } }
      .reqOverrun
    (∀ (k : RequestKind) (r : Request), r.args.length ≤ 248 → AddressedTo s r.address →
      exec (requestCommand k r) s = .next dropped) ∧
    (∀ r : Request, r.args.length ≤ 248 → r.address = 0xFF → s.decoder.station = none →
      exec (.assignStation r) s = .next dropped) ∧
    (∀ (a : Byte) (p : List Byte), p.length ≤ 250 → unknownPayload p = true → AddressedTo s a →
      exec (.unknownRequest a p) s = .next dropped)

/-- UNKNOWN_REQUEST for the station is answered: too short with LENGTH, tag 0 and kind 0, the missing octets being
answered as 0 and so is the tag of a payload of one octet (log 14); of no known kind, READOUT END among them, with
UNKNOWN and its own tag and kind (R165, R172, R173). -/
def Obligations.UnknownRequestAnswered : Prop :=
  ∀ (s : State) (a : Byte) (p : List Byte), Live s → AddressedTo s a → s.port.queue.length < 8 → p.length ≤ 250 →
    (p.length < 2 →
      exec (.unknownRequest a p) s = .next ((hunting s).queueInsert
        { frame := (hunting s).replyFrame 0 0 .length [], restartReply := false })) ∧
    (∀ (tag code : Byte) (rest : List Byte), p = tag :: code :: rest → RequestKind.ofCode code = none →
      exec (.unknownRequest a p) s = .next ((hunting s).queueInsert
        { frame := (hunting s).replyFrame tag code .unknown [], restartReply := false })) ∧
    RequestKind.ofCode 0x32 = none ∧
    (∀ (code : Byte) (k : RequestKind), RequestKind.ofCode code = some k ↔ code = (requestRow k).1)

/-- While VDD is absent or RESETN is low, no frame, octet, timer expiry or readout step changes the part
(R183, R185). -/
def Obligations.HeldPartTakesNothing : Prop :=
  ∀ s : State, ¬ Live s →
    (∀ (c : Instr) (f : Frame), c.frame? = some f → exec c s = .next s) ∧
    (∀ order : List (Fin 4), exec (.selfAdvance order) s = .next s) ∧
    (∀ fault : DiscardFault, exec (.frameDiscard fault) s = .next s) ∧
    (∀ octets : List Byte, exec (.truncatedFrame octets) s = .next s) ∧
    (∀ o : Byte, exec (.strayOctet o) s = .next s) ∧
    exec .readoutSearch s = .next s ∧ exec .readoutEmit s = .next s ∧ exec .readoutEnd s = .next s

/-- A request whose payload length is not that of its kind is answered LENGTH, LOAD TABLE's own form check among
them; one that is out of range is answered RANGE; neither has another effect, under either lock and in every state.
Out of range are a point index or clock number beyond its range, a timing that is not valid, a configuration record
with a field out of range, a selector, a mode or a lock argument that is none (spelled by ACTIVATE_NOW and
LOCK_CLEARABLE: log 16), a readout of no point or of a count outside 1..12, flag octets with undefined bits (log 15)
(R12, R57, R131, R146, R147, R150, R156, R172, R177, R178, R180, R190). A timing is valid by R55 and R56, a
configuration record by R1, a table by R147, and each is told here on its octets; the length of a request is that of
R192. LOAD TABLE looks at selector, index and entry count before the length they call for. -/
def Obligations.WrongLengthOrRangeAnswered : Prop :=
  (∀ l w : Nat, validTiming l w = true ↔
    l ∈ [1, 2, 3, 4, 5, 6, 10, 12, 15, 20, 30, 60] ∧ (1 ≤ w ∧ w ≤ 15) ∧ 60 % (l * w) = 0) ∧
  (∀ k : RequestKind, k.code = (requestRow k).1 ∧ k.argLength = (requestRow k).2) ∧
  (∀ rest : List Byte, rest.length = 15 → RecordInRange rest → ∃ c : PointConfig, c.InRange ∧ rest = c.octets) ∧
  ∀ (s : State) (r : Request), Ready s r →
    (r.args.length < 2 → exec (.loadTable r) s = .next (answered (hunting s) r .loadTable .length [])) ∧
    (∀ (sel index : Byte) (rest : List Byte), r.args = sel :: index :: rest →
      (tableForm sel.toNat = none →
        exec (.loadTable r) s = .next (answered (hunting s) r .loadTable .range [])) ∧
      (∀ indexes size : Nat, tableForm sel.toNat = some (indexes, none, size) →
        (indexes ≤ index.toNat → exec (.loadTable r) s = .next (answered (hunting s) r .loadTable .range [])) ∧
        (index.toNat < indexes → rest.length ≠ size →
          exec (.loadTable r) s = .next (answered (hunting s) r .loadTable .length []))) ∧
      (∀ indexes largest size : Nat, tableForm sel.toNat = some (indexes, some largest, size) →
        (rest = [] → exec (.loadTable r) s = .next (answered (hunting s) r .loadTable .length [])) ∧
        (∀ (count : Byte) (entries : List Byte), rest = count :: entries →
          (indexes ≤ index.toNat ∨ largest < count.toNat →
            exec (.loadTable r) s = .next (answered (hunting s) r .loadTable .range [])) ∧
          (index.toNat < indexes → count.toNat ≤ largest → entries.length ≠ count.toNat * size →
            exec (.loadTable r) s = .next (answered (hunting s) r .loadTable .length [])))) ∧
      (FormRight sel index rest → (∀ table : Table, ¬ Carries r.args table) →
        exec (.loadTable r) s = .next (answered (hunting s) r .loadTable .range []))) ∧
    (∀ (k : RequestKind) (n : Nat), k.argLength = some n → r.args.length ≠ n →
      exec (requestCommand k r) s = .next (answered (hunting s) r k .length [])) ∧
    (checkForm r.args = .length → exec (.loadTable r) s = .next (answered (hunting s) r .loadTable .length [])) ∧
    (checkForm r.args = .range → exec (.loadTable r) s = .next (answered (hunting s) r .loadTable .range [])) ∧
    (∀ (sel : Selector) (index : Nat) (contents : List Byte), checkForm r.args = .form sel index contents →
      parseContents sel index contents = none →
      exec (.loadTable r) s = .next (answered (hunting s) r .loadTable .range [])) ∧
    (∀ (i : Fin 32) (o : Byte), r.args = [oct i.val, o] → 3 < o.toNat →
      exec (.queryPoint r) s = .next (answered (hunting s) r .queryPoint .range [])) ∧
    (∀ (i : Byte) (rest : List Byte), r.args = i :: rest → 31 < i.toNat →
      (rest.length = 15 → exec (.setPoint r) s = .next (answered (hunting s) r .setPoint .range [])) ∧
      (rest = [] →
        exec (.removePoint r) s = .next (answered (hunting s) r .removePoint .range []) ∧
        exec (.holdPoint r) s = .next (answered (hunting s) r .holdPoint .range []) ∧
        exec (.releasePoint r) s = .next (answered (hunting s) r .releasePoint .range [])) ∧
      (rest.length = 1 → exec (.queryPoint r) s = .next (answered (hunting s) r .queryPoint .range []))) ∧
    (∀ (i : Byte) (rest : List Byte), r.args = i :: rest → rest.length = 15 → ¬ RecordInRange rest →
      exec (.setPoint r) s = .next (answered (hunting s) r .setPoint .range [])) ∧
    (∀ k e l w h : Byte, r.args = [k, e, l, w, h] →
      (3 < k.toNat ∨ 1 < e.toNat ∨ validTiming l.toNat w.toNat = false ∨ 15 < h.toNat) →
      exec (.setClock r) s = .next (answered (hunting s) r .setClock .range [])) ∧
    (∀ (sel i : Byte) (rest : List Byte), r.args = sel :: i :: rest → 7 < sel.toNat →
      checkForm r.args = .range ∧ exec (.loadTable r) s = .next (answered (hunting s) r .loadTable .range [])) ∧
    (∀ m : Byte, r.args = [m] → 2 < m.toNat →
      exec (.activateNow r) s = .next (answered (hunting s) r .activate .range [])) ∧
    (∀ m : Byte, r.args = [m] → 1 < m.toNat →
      exec (.lockClearable r) s = .next (answered (hunting s) r .lock .range []) ∧
      exec (.queryDevice r) s = .next (answered (hunting s) r .queryDevice .range [])) ∧
    (∀ a b c d x y n flags : Byte, r.args = [a, b, c, d, x, y, n, flags] →
      (n.toNat = 0 ∨ 12 < n.toNat ∨ [a, b, c, d] = [0, 0, 0, 0] ∨ 3 < flags.toNat) →
      exec (.readout r) s = .next (answered (hunting s) r .readout .range [])) ∧
    (∀ a b c d flags x y : Byte, r.args = [a, b, c, d, flags, x, y] → (3 < flags.toNat ∨ 7 < x.toNat) →
      exec (.clearAttention r) s = .next (answered (hunting s) r .clearAttention .range []))

/-- A request a lock refuses is answered LOCKED and raises LOCK_REFUSED, and changes nothing else: SET POINT,
REMOVE POINT, SET CLOCK, LOAD TABLE and ACTIVATE in its three modes under either lock; HOLD POINT, RELEASE
POINT and UNLOCK under the commissioning lock. Each is in range, and the lock is looked at before any busy
check (R12, R57, R146, R150, R157, R158). -/
def Obligations.LocksRefuseRequests : Prop :=
  ∀ (s : State) (r : Request), Ready s r →
    (¬ Unlocked s →
      (∀ (i : Fin 32) (c : PointConfig), c.InRange → r.args = oct i.val :: c.octets →
        exec (.setPoint r) s = .next (answered ((hunting s).raiseDevice .lockRefused) r .setPoint .locked [])) ∧
      (∀ i : Fin 32, r.args = [oct i.val] →
        exec (.removePoint r) s = .next (answered ((hunting s).raiseDevice .lockRefused) r .removePoint .locked [])) ∧
      (∀ (k : Fin 4) (e : Bool) (l w h : Nat), validTiming l w = true → h ≤ 15 →
        r.args = [oct k.val, octBool e, oct l, oct w, oct h] →
        exec (.setClock r) s = .next (answered ((hunting s).raiseDevice .lockRefused) r .setClock .locked [])) ∧
      (∀ table : Table, Carries r.args table →
        exec (.loadTable r) s = .next (answered ((hunting s).raiseDevice .lockRefused) r .loadTable .locked [])) ∧
      (r.args = [0] →
        exec (.activateNow r) s = .next (answered ((hunting s).raiseDevice .lockRefused) r .activate .locked [])) ∧
      (r.args = [1] →
        exec (.activateAtClose r) s = .next (answered ((hunting s).raiseDevice .lockRefused) r .activate .locked [])) ∧
      (r.args = [2] →
        exec (.activateCancel r) s = .next (answered ((hunting s).raiseDevice .lockRefused) r .activate .locked []))) ∧
    (s.decoder.commissioning = true →
      (∀ i : Fin 32, r.args = [oct i.val] →
        exec (.holdPoint r) s = .next (answered ((hunting s).raiseDevice .lockRefused) r .holdPoint .locked []) ∧
        exec (.releasePoint r) s = .next (answered ((hunting s).raiseDevice .lockRefused) r .releasePoint .locked [])) ∧
      (r.args = [] →
        exec (.unlock r) s = .next (answered ((hunting s).raiseDevice .lockRefused) r .unlock .locked [])))

/-- A request whose operation or resource is in use is answered BUSY and raises BUSY_REFUSED, and changes
nothing else: SET POINT and REMOVE POINT on a point whose close is pending, SET CLOCK with another timing on an
enabled clock, ACTIVATE NOW and CLOSE PERIOD while a close is in flight, READOUT while one is in flight, LOCK
COMMISSION while the mark is AT_CLOSE (R12, R57, R92, R131, R150, R156). -/
def Obligations.BusyRefusesRequests : Prop :=
  ∀ (s : State) (r : Request), Ready s r →
    (Unlocked s → ∀ (i : Fin 32) (p : Point), s.points[i] = some p → s.close.inFlight = some p.period →
      (∀ c : PointConfig, c.InRange → r.args = oct i.val :: c.octets →
        exec (.setPoint r) s = .next (answered ((hunting s).raiseDevice .busyRefused) r .setPoint .busy [])) ∧
      (r.args = [oct i.val] →
        exec (.removePoint r) s = .next (answered ((hunting s).raiseDevice .busyRefused) r .removePoint .busy []))) ∧
    (Unlocked s → ∀ (k : Fin 4) (e : Bool) (l w h : Nat), validTiming l w = true → h ≤ 15 →
      r.args = [oct k.val, octBool e, oct l, oct w, oct h] → s.clocks[k].enabled = true →
      (l ≠ s.clocks[k].length ∨ w ≠ s.clocks[k].window) →
      exec (.setClock r) s = .next (answered ((hunting s).raiseDevice .busyRefused) r .setClock .busy [])) ∧
    (s.close.inFlight ≠ none →
      (Unlocked s → r.args = [0] →
        exec (.activateNow r) s = .next (answered ((hunting s).raiseDevice .busyRefused) r .activate .busy [])) ∧
      (r.args = [] →
        exec (.closePeriod r) s = .next (answered ((hunting s).raiseDevice .busyRefused) r .closePeriod .busy []))) ∧
    (s.readout.phase ≠ .idle → ∀ (mask : BitVec 32) (first : BitVec 16) (n : Nat) (stop go : Bool),
      1 ≤ n → n ≤ 12 → mask ≠ 0 → r.args = beBytes 4 mask.toNat ++ beBytes 2 first.toNat ++
        [oct n, oct ((if stop then 1 else 0) + (if go then 2 else 0))] →
      exec (.readout r) s = .next (answered ((hunting s).raiseDevice .busyRefused) r .readout .busy [])) ∧
    (s.tariff.atClose = true → r.args = [1] →
      exec (.lockCommission r) s = .next (answered ((hunting s).raiseDevice .busyRefused) r .lock .busy []))

/-! ## Identification, station, start, restart -/

/-- IDENT reports part code 0x0432, the revision (a free value, log 5), the station, the time state and the device
period number and changes no state; ACK START sets the start-acknowledged flag, and its own reply carries it; ASSIGN
STATION addressed 0xFF at an unassigned part takes an argument of 0..7 as the station, at once, and refuses any
other with RANGE; addressed to the part's own station it is refused with RANGE (R164, R174, R175, R192). -/
def Obligations.IdentAckAndStationAnswered : Prop :=
  (∀ (s : State) (r : Request), Ready s r → r.args = [] →
    (∀ n : Fin 8, s.decoder.station = some n →
      exec (.ident r) s = .next (answered (hunting s) r .ident .ok
        ([0x04, 0x32, Config.revision, oct n.val,
          (match s.time.state with
           | .unset => 0
           | .locked => 1
           | .holdover => 2
           | .uncertain => 3)] ++ beBytes 2 s.close.devicePeriod.toNat))) ∧
    exec (.ackStart r) s = .next (answered
      { hunting s with decoder := { s.decoder with startAck := true } } r .ackStart .ok [])) ∧
  (∀ (s : State) (r : Request) (n : Byte), Live s → s.port.queue.length < 8 → r.args = [n] →
    (r.address = 0xFF → s.decoder.station = none →
      (∀ m : Fin 8, n = oct m.val → exec (.assignStation r) s = .next (answered
        { hunting s with decoder := { s.decoder with station := some m } } r .assignStation .ok [])) ∧
      (7 < n.toNat → exec (.assignStation r) s = .next (answered (hunting s) r .assignStation .range []))) ∧
    (AddressedTo s r.address → exec (.assignStation r) s = .next (answered (hunting s) r .assignStation .range [])))

/-- RESTART is answered OK; the restart is pending with this reply, unless one is pending already. When the
marked reply has been sent the part makes its warm start: FRAME_SENT of that reply is this event, and so is
RESTART_WARM_START (log 8) (R176, R185). -/
def Obligations.RestartWaitsForItsReply : Prop :=
  (∀ (s : State) (r : Request), Ready s r → r.args = [] →
    exec (.restart r) s = .next (State.queueInsert
      { hunting s with decoder := { s.decoder with restartPending := true } }
      { frame := (hunting s).replyFrame r.tag 0x48 .ok [], restartReply := !s.decoder.restartPending })) ∧
  (∀ (s : State) (q : QueuedFrame), s.port.transmitter = .sending q → q.restartReply = true →
    exec .frameSent s = .next s.warmStart ∧ exec (.restartWarmStart none) s = .next s.warmStart)

/-! ## Point requests and SET CLOCK -/

/-- SET POINT on an UNUSED point configures it (R13): the record is as carried, every item of the running context is
at its first value, the period is the device period number, or P+1 while a close of P is in flight, and the point
takes up its clock: none; a disabled one, with CONFLICT and HELD_SEEN; an enabled one, with a sub-interval opened at
once if the time is set. No other point changes. The record's 15 octets hold its fields in the order of R192. -/
def Obligations.SetPointConfiguresUnused : Prop :=
  ∀ (s : State) (r : Request) (i : Fin 32) (c : PointConfig) (period : BitVec 16), Ready s r → Unlocked s →
    c.InRange → r.args = oct i.val :: c.octets → s.points[i] = none →
    (s.close.inFlight = none → period = s.close.devicePeriod) →
    (∀ closing : BitVec 16, s.close.inFlight = some closing → period = closing + 1) →
    (c.octets.length = 15 ∧ Holds c.octets (configFields 0 c)) ∧
    (c.clock = none →
      exec (.setPoint r) s = .next (answered
        { hunting s with points := s.points.set i (some (freshPoint c period)) } r .setPoint .ok
        (pointData i 1 period))) ∧
    (∀ k : Fin 4, c.clock = some k → s.clocks[k].enabled = false →
      exec (.setPoint r) s = .next (answered
        { hunting s with
          points := s.points.set i (some { freshPoint c period with conflict := true, periodFlags := 8 }) }
        r .setPoint .ok (pointData i 3 period))) ∧
    (∀ k : Fin 4, c.clock = some k → s.clocks[k].enabled = true →
      (s.time.calendar = none →
        exec (.setPoint r) s = .next (answered
          { hunting s with points := s.points.set i (some (freshPoint c period)) } r .setPoint .ok
          (pointData i 1 period))) ∧
      (∀ now : CalTime, s.time.calendar = some now →
        exec (.setPoint r) s = .next (answered
          { hunting s with
            points := s.points.set i
              (some { freshPoint c period with sub := some (openedSub s.tariff.active s.clocks[k] now false) }) }
          r .setPoint .ok (pointData i 1 period))))

/-- SET POINT on a configured point whose close is not pending replaces its record (R14). With the clock field
unchanged the context is kept whole; with it changed the open sub-interval is cut under the old option, the ring is
cleared, the contribution is 0, everything else is kept, and the point takes up the new clock: none; a disabled one,
with CONFLICT and HELD_SEEN; an enabled one, with a sub-interval opened at once if the time is set. LOSS is raised
where the new loss limit is at or below the missing count (R5; with the new attention mask, and also where the limit
is the old one: logs 7 and 22). With no clock before, or no open sub-interval, there is nothing to cut: attributed
energy, excess sum, gap counter and CUT_SEEN are kept. LOSS that rises under the new attention mask sets the attention
bit (R10). The reply carries the point's state after the request; the record is carried in the octets of R192. -/
def Obligations.SetPointReplacesRecord : Prop :=
  ∀ (s : State) (r : Request) (i : Fin 32) (c : PointConfig) (p : Point), Ready s r → Unlocked s →
    c.InRange → r.args = oct i.val :: c.octets → s.points[i] = some p → s.close.inFlight ≠ some p.period →
    (c.octets.length = 15 ∧ Holds c.octets (configFields 0 c)) ∧
    ∃ q : Point,
      exec (.setPoint r) s = .next (answered { hunting s with points := s.points.set i (some q) } r .setPoint .ok
        (pointData i (if q.operator = true ∨ q.conflict = true then 3
          else if c.lossLimit ≤ q.missingCount then 2 else 1) p.period)) ∧
      q.config = c ∧
      (c.clock = p.config.clock → c.lossLimit ≤ p.missingCount →
        q = ({ p with config := c } : Point).raiseStatus .loss) ∧
      (c.clock = p.config.clock → p.missingCount < c.lossLimit → q = { p with config := c }) ∧
      (q.status.getLsbD 0 = true ↔ p.status.getLsbD 0 = true ∨ c.lossLimit ≤ p.missingCount) ∧
      q.attention = (p.attention ||
        (decide (c.lossLimit ≤ p.missingCount) && !p.status.getLsbD 0 && c.attentionMask.getLsbD 0)) ∧
      (c.clock ≠ p.config.clock →
        q.contribution = 0 ∧
        q.ring = [] ∧ q.missingCount = p.missingCount ∧ q.totals = p.totals ∧ q.maxD = p.maxD ∧
        q.ratchet = p.ratchet ∧ q.residues = p.residues ∧ q.operator = p.operator ∧ q.period = p.period ∧
        q.baselines = p.baselines ∧ q.lastSeq = p.lastSeq ∧ q.present = p.present ∧ q.maxAll = p.maxAll ∧
        q.unattributed = p.unattributed ∧ q.life = p.life ∧ q.counters.missing = p.counters.missing ∧
        q.counters.ineligible = p.counters.ineligible ∧ q.counters.exceedances = p.counters.exceedances ∧
        q.counters.outages = p.counters.outages ∧ (∀ b : Nat, 1 ≤ b → q.status.getLsbD b = p.status.getLsbD b) ∧
        (p.config.clock ≠ none →
          CutFrom (p.config.option.map (fun o => s.tariff.active.options[o])) p { q with sub := none }) ∧
        (p.config.clock = none ∨ p.sub = none → q.attributed = p.attributed ∧ q.excessSum = p.excessSum ∧
          q.counters.gap = p.counters.gap ∧ q.periodFlags.getLsbD 2 = p.periodFlags.getLsbD 2) ∧
        (∀ b : Nat, b < 2 → q.periodFlags.getLsbD b = p.periodFlags.getLsbD b) ∧
        (q.conflict = true ↔ ∃ k : Fin 4, c.clock = some k ∧ s.clocks[k].enabled = false) ∧
        (q.periodFlags.getLsbD 3 = true ↔ p.periodFlags.getLsbD 3 = true ∨ q.conflict = true) ∧
        (∀ (k : Fin 4) (now : CalTime), c.clock = some k → s.clocks[k].enabled = true →
          s.time.calendar = some now → q.sub = some (openedSub s.tariff.active s.clocks[k] now p.operator)) ∧
        (p.config.clock ≠ none ∨ p.sub = none → s.time.calendar = none ∨ (∀ k : Fin 4, c.clock = some k →
          s.clocks[k].enabled = false) → q.sub = none))

/-- REMOVE POINT returns a configured point whose close is not pending to UNUSED, with its whole context; its
reply names the state UNUSED and, for the period, the free value of log 6. On an UNUSED point REMOVE POINT,
HOLD POINT and RELEASE POINT are answered NOPOINT, and QUERY POINT too (R12, R15, R177). -/
def Obligations.RemovePointForgetsPoint : Prop :=
  ∀ (s : State) (r : Request) (i : Fin 32), Ready s r →
    (∀ p : Point, Unlocked s → r.args = [oct i.val] → s.points[i] = some p → s.close.inFlight ≠ some p.period →
      exec (.removePoint r) s = .next (answered
        { hunting s with points := s.points.set i none, freeIndex := s.freeIndex + 1 } r .removePoint .ok
        (pointData i 0 (Config.removedPeriod s.freeIndex)))) ∧
    (s.points[i] = none →
      (Unlocked s → r.args = [oct i.val] →
        exec (.removePoint r) s = .next (answered (hunting s) r .removePoint .noPoint [])) ∧
      (s.decoder.commissioning = false → r.args = [oct i.val] →
        exec (.holdPoint r) s = .next (answered (hunting s) r .holdPoint .noPoint []) ∧
        exec (.releasePoint r) s = .next (answered (hunting s) r .releasePoint .noPoint [])) ∧
      (∀ o : Byte, o.toNat < 4 → r.args = [oct i.val, o] →
        exec (.queryPoint r) s = .next (answered (hunting s) r .queryPoint .noPoint [])))

/-- HOLD POINT adds OPERATOR, HELD on the open sub-interval and HELD_SEEN, and changes nothing where OPERATOR
is present; RELEASE POINT removes OPERATOR and leaves HELD on the sub-interval (R6, R16, R17). The reply
carries the derived state (R2). -/
def Obligations.HoldAndReleaseSetOperator : Prop :=
  ∀ (s : State) (r : Request) (i : Fin 32) (p : Point), Ready s r → s.decoder.commissioning = false →
    r.args = [oct i.val] → s.points[i] = some p →
    (p.operator = true →
      exec (.holdPoint r) s = .next (answered { hunting s with points := s.points.set i (some p) } r .holdPoint .ok
        (pointData i 3 p.period))) ∧
    (p.operator = false →
      exec (.holdPoint r) s = .next (answered
        { hunting s with points := s.points.set i (some { p with
            operator := true
            sub := p.sub.map (fun b => { b with quality := b.quality ||| 16#5 })
            periodFlags := p.periodFlags ||| 8#4 }) } r .holdPoint .ok (pointData i 3 p.period))) ∧
    exec (.releasePoint r) s = .next (answered
      { hunting s with points := s.points.set i (some { p with operator := false }) } r .releasePoint .ok
      (pointData i (if p.conflict = true then 3 else if p.config.lossLimit ≤ p.missingCount then 2 else 1)
        p.period))

/-- SET CLOCK that does not disable (R58, R60): the settings are written; an enabled clock takes a new H; a
disabled clock that is enabled takes CONFLICT from its points and, with the time set, opens their
sub-intervals. Hold counter, peak and stamp stay. The reply carries the seven items after the request. -/
def Obligations.SetClockWritesAndEnables : Prop :=
  ∀ (s : State) (r : Request) (k : Fin 4) (e : Bool) (l w h : Nat), Ready s r → Unlocked s →
    validTiming l w = true → h ≤ 15 → r.args = [oct k.val, octBool e, oct l, oct w, oct h] →
    let c : Clock := s.clocks[k]
    let written : Clock := { c with length := l, window := w, holdLength := h }
    let data (c : Clock) : List Byte :=
      [oct k.val, octBool c.enabled, oct c.length, oct c.window, oct c.holdLength, oct c.hold] ++
        beBytes 6 c.peak ++ stampOctets c.peakStamp
    (c.enabled = false → e = false →
      exec (.setClock r) s = .next (answered { hunting s with clocks := s.clocks.set k written } r .setClock .ok
        (data written))) ∧
    (c.enabled = true → e = true → l = c.length → w = c.window →
      exec (.setClock r) s = .next (answered
        { hunting s with clocks := s.clocks.set k { c with holdLength := h } } r .setClock .ok
        (data { c with holdLength := h }))) ∧
    (c.enabled = false → e = true →
      exec (.setClock r) s = .next (answered
        { hunting s with
          clocks := s.clocks.set k { written with enabled := true }
          points := s.points.map (Option.map (fun p =>
            if p.config.clock = some k then
              { p with
                conflict := false
                sub := match s.time.calendar with
                  | none => p.sub
                  | some now => some (openedSub s.tariff.active written now p.operator) }
            else p)) } r .setClock .ok (data { written with enabled := true })))

/-- SET CLOCK that disables an enabled clock (R59, R107): H is written, the clock is disabled, every point of it is
cut, its ring cleared and CONFLICT taken with HELD_SEEN; other points are untouched. If the clock is pending in a
close of P, its points still in P close at once to P+1, with a record each that carries the current time, CUT_SEEN
and HELD_SEEN and no CUT_CLOSE; the peak is reset and the clock leaves the pending set, and the close completes if
it was the last. -/
def Obligations.DisableClockCutsItsPoints : Prop :=
  ∀ (s : State) (r : Request) (k : Fin 4) (h : Nat), Ready s r → Unlocked s → h ≤ 15 →
    s.clocks[k].enabled = true → validTiming s.clocks[k].length s.clocks[k].window = true →
    r.args = [oct k.val, 0, oct s.clocks[k].length, oct s.clocks[k].window, oct h] →
    ∃ t : State,
      exec (.setClock r) s = .next (answered t r .setClock .ok
        ([oct k.val, 0, oct s.clocks[k].length, oct s.clocks[k].window, oct h, oct s.clocks[k].hold] ++
          beBytes 6 t.clocks[k].peak ++ stampOctets t.clocks[k].peakStamp)) ∧
      t = { hunting s with
        points := t.points, clocks := t.clocks, close := t.close, history := t.history, tariff := t.tariff
        attention := t.attention } ∧
      t.clocks[k].enabled = false ∧ t.clocks[k].holdLength = h ∧ t.clocks[k].hold = s.clocks[k].hold ∧
      t.clocks[k].length = s.clocks[k].length ∧ t.clocks[k].window = s.clocks[k].window ∧
      (∀ j : Fin 4, j ≠ k → t.clocks[j] = s.clocks[j]) ∧
      (∀ (i : Fin 32) (p : Point), s.points[i] = some p → p.config.clock ≠ some k → t.points[i] = some p) ∧
      (∀ i : Fin 32, s.points[i] = none → t.points[i] = none) ∧
      (∀ (i : Fin 32) (p : Point), s.points[i] = some p → p.config.clock = some k →
        ∃ q : Point, t.points[i] = some q ∧ q.config = p.config ∧ q.conflict = true ∧ q.sub = none ∧
          q.ring = [] ∧ q.periodFlags.getLsbD 3 = true ∧ q.missingCount = p.missingCount) ∧
      (s.close.inFlight = none ∨ hasFlag s.close.pendingSet k.val = false →
        t.close = s.close ∧ t.history = s.history ∧ t.tariff = s.tariff ∧ t.attention = s.attention ∧
        t.clocks[k].peak = s.clocks[k].peak ∧
        t.clocks[k].peakStamp = s.clocks[k].peakStamp ∧
        ∀ (i : Fin 32) (p : Point), s.points[i] = some p → p.config.clock = some k →
          ∃ q : Point, t.points[i] = some q ∧
            CutFrom (p.config.option.map (fun o => s.tariff.active.options[o])) p q ∧
            q.contribution = p.contribution) ∧
      (∀ closing : BitVec 16, s.close.inFlight = some closing → hasFlag s.close.pendingSet k.val = true →
        hasFlag t.close.pendingSet k.val = false ∧ t.clocks[k].peak = 0 ∧ t.clocks[k].peakStamp = none ∧
        (∀ (i : Fin 32) (p : Point), s.points[i] = some p → p.config.clock = some k →
          ∃ q : Point, t.points[i] = some q ∧ q.contribution = 0 ∧
            q.period = (if p.period = closing then closing + 1 else p.period)) ∧
        (∃ rs : List BillingRecord,
          Records s.history t.history (pointsIn s k closing) closing s.time.calendar false rs ∧
          ∀ x ∈ rs, x.flags.getLsbD 5 = true ∧ x.clockPeak = s.clocks[k].peak ∧
            x.peakStamp = s.clocks[k].peakStamp ∧ ∀ p ∈ s.points[x.point], x.totals = p.totals ∧
              (p.sub ≠ none → x.flags.getLsbD 4 = true) ∧
              ∀ b ∈ p.sub, x.attributed = min max64 (p.attributed + b.energy.ai)) ∧
        LeavesPending s t k closing)

/-! ## Tariff requests and locks -/

/-- LOAD TABLE that passes the form and contents checks, with neither lock set, replaces the named table of the
pending set whole; the active set stays. READ TABLE answers the named table of the copy it names, in the octets of
R192, under either lock and changes nothing; a selector, an index or a copy beyond its range is answered RANGE (R146
to R149). A table is valid by R147, is named by selector and index as R144 gives, and stands in the octets of
R192. -/
def Obligations.LoadTableWritesAndReadTableAnswers : Prop :=
  (∀ (s : State) (r : Request) (sel index copy : Byte), Ready s r → r.args = [sel, index, copy] → 7 < sel.toNat →
    exec (.readTable r) s = .next (answered (hunting s) r .readTable .range [])) ∧
  (∀ (s : State) (r : Request), Ready s r →
    (∀ (table : Table) (sel index : Byte), Unlocked s → TableInRange table →
      tablePlace table = (sel.toNat, index.toNat) → r.args = sel :: index :: tableOctets table →
      exec (.loadTable r) s = .next (answered
        { hunting s with tariff := { s.tariff with pending := withTable s.tariff.pending table } } r .loadTable .ok
        [sel, index, octBool s.tariff.atClose])) ∧
    (∀ (table : Table) (sel index : Byte), tablePlace table = (sel.toNat, index.toNat) →
      (r.args = [sel, index, 0] → HasTable s.tariff.pending table → exec (.readTable r) s = .next
        (answered (hunting s) r .readTable .ok ([sel, index, 0] ++ tableOctets table))) ∧
      (r.args = [sel, index, 1] → HasTable s.tariff.active table → exec (.readTable r) s = .next
        (answered (hunting s) r .readTable .ok ([sel, index, 1] ++ tableOctets table)))) ∧
    (∀ (sel index copy : Byte) (indexes : Nat) (form : Option Nat × Nat), r.args = [sel, index, copy] →
      tableForm sel.toNat = some (indexes, form) → indexes ≤ index.toNat ∨ 1 < copy.toNat →
      exec (.readTable r) s = .next (answered (hunting s) r .readTable .range []))) ∧
  (∀ (set : TariffSet) (table : Table), set.put table = withTable set table) ∧
  (∀ (set : TariffSet) (sel index : Byte) (kind : Selector), Selector.ofOctet sel = some kind →
    (∃ form : Option Nat × Nat, tableForm sel.toNat = some (kind.indexes, form)) ∧
    (index.toNat < kind.indexes → HasTable set (set.get kind index.toNat) ∧
      tablePlace (set.get kind index.toNat) = (sel.toNat, index.toNat))) ∧
  ∀ (s : State) (r : Request) (sel index : Byte) (kind : Selector), Ready s r →
    Selector.ofOctet sel = some kind →
    (∀ (rest contents : List Byte) (n : Nat) (table : Table), Unlocked s → r.args = sel :: index :: rest →
      checkForm r.args = .form kind n contents → parseContents kind n contents = some table →
      exec (.loadTable r) s = .next (answered
        { hunting s with tariff := { s.tariff with pending := s.tariff.pending.put table } } r .loadTable .ok
        [sel, index, octBool s.tariff.atClose])) ∧
    (∀ copy : Byte, r.args = [sel, index, copy] → kind.indexes ≤ index.toNat ∨ 1 < copy.toNat →
      exec (.readTable r) s = .next (answered (hunting s) r .readTable .range [])) ∧
    (index.toNat < kind.indexes →
      (r.args = [sel, index, 0] → exec (.readTable r) s = .next (answered (hunting s) r .readTable .ok
        ([sel, index, 0] ++ tableOctets (s.tariff.pending.get kind index.toNat)))) ∧
      (r.args = [sel, index, 1] → exec (.readTable r) s = .next (answered (hunting s) r .readTable .ok
        ([sel, index, 1] ++ tableOctets (s.tariff.active.get kind index.toNat)))))

/-- A table that LOAD TABLE takes is returned by READ TABLE of the pending copy in the very octets it was
loaded with: what follows selector and index, the entry count of a list with it (R148, R149, R192). -/
def Obligations.ReadTableReturnsWhatWasLoaded : Prop :=
  ∀ (set : TariffSet) (sel index : Byte) (rest : List Byte) (kind : Selector) (n : Nat) (contents : List Byte)
    (table : Table), checkForm (sel :: index :: rest) = .form kind n contents →
    parseContents kind n contents = some table →
    Selector.ofOctet sel = some kind ∧ n = index.toNat ∧ n < kind.indexes ∧
    ((set.put table).get kind n).octets = rest

/-- ACTIVATE with neither lock set: NOW, with no close in flight, copies the pending set into the active set and
clears the mark; AT_CLOSE sets the mark and touches neither set; CANCEL clears the mark and copies the active
set into the pending set (R150 to R153). -/
def Obligations.ActivateMovesTariffSets : Prop :=
  ∀ (s : State) (r : Request), Ready s r → Unlocked s →
    (r.args = [0] → s.close.inFlight = none →
      exec (.activateNow r) s = .next (answered
        { hunting s with tariff := { active := s.tariff.pending, pending := s.tariff.pending, atClose := false } }
        r .activate .ok [0, 0, 0])) ∧
    (r.args = [1] →
      exec (.activateAtClose r) s = .next (answered
        { hunting s with tariff := { s.tariff with atClose := true } } r .activate .ok
        [1, 1, octBool s.close.inFlight.isSome])) ∧
    (r.args = [2] →
      exec (.activateCancel r) s = .next (answered
        { hunting s with tariff := { active := s.tariff.active, pending := s.tariff.active, atClose := false } }
        r .activate .ok [2, 0, octBool s.close.inFlight.isSome]))

/-- LOCK with CLEARABLE sets the clearable lock under either lock, under the commissioning lock too (log 23);
LOCK with COMMISSION, the mark CLEAR, sets the commissioning lock; UNLOCK, the commissioning lock clear, clears the
clearable lock. Each reply carries both locks after it (R156 to R158). -/
def Obligations.LockAndUnlockAnswered : Prop :=
  ∀ (s : State) (r : Request), Ready s r →
    (r.args = [0] →
      exec (.lockClearable r) s = .next (answered
        { hunting s with decoder := { s.decoder with clearable := true } } r .lock .ok
        [if s.decoder.commissioning then 3 else 1])) ∧
    (r.args = [1] → s.tariff.atClose = false →
      exec (.lockCommission r) s = .next (answered
        { hunting s with decoder := { s.decoder with commissioning := true } } r .lock .ok
        [if s.decoder.clearable then 3 else 2])) ∧
    (r.args = [] → s.decoder.commissioning = false →
      exec (.unlock r) s = .next (answered
        { hunting s with decoder := { s.decoder with clearable := false } } r .unlock .ok [0]))

/-! ## The close and the charges -/

/-- CLOSE PERIOD with no close in flight starts one (R92, R94, R95, R104): with the time set, the pending set
becomes the enabled clocks some configured point names; if it is empty, or the time is UNSET, the close completes
within the request. Every configured point without an open sub-interval is closed to P+1 at once, with a record each
that carries the current time and its clock's peak as it stood before any reset; a point of a pending clock with one
is untouched. A clock that is not pending resets its peak. The reply carries P, the pending set and the completed
indication as they stand after the start. -/
def Obligations.ClosePeriodStartsClose : Prop :=
  ∀ (s : State) (r : Request), Ready s r → r.args = [] → s.close.inFlight = none →
    ∃ t : State,
      exec (.closePeriod r) s = .next (answered t r .closePeriod .ok (beBytes 2 s.close.devicePeriod.toNat ++
        [oct t.close.pendingSet.toNat, octBool t.close.inFlight.isNone])) ∧
      t = State.startClose (hunting s) ∧
      t = { hunting s with
        points := t.points, clocks := t.clocks, close := t.close, history := t.history, tariff := t.tariff
        attention := t.attention } ∧
      (s.time.calendar = none ∨ (∀ k : Fin 4, ¬ Qualifies s k) → Completed s t s.close.devicePeriod) ∧
      (s.time.calendar ≠ none → (∃ k : Fin 4, Qualifies s k) →
        t.close.inFlight = some s.close.devicePeriod ∧ t.close.devicePeriod = s.close.devicePeriod ∧
        (∀ k : Fin 4, hasFlag t.close.pendingSet k.val = true ↔ Qualifies s k) ∧
        t.tariff = s.tariff ∧ t.attention = s.attention ∧
        ∀ (i : Fin 32) (k : Fin 4) (p : Point), s.points[i] = some p → p.sub ≠ none → p.config.clock = some k →
          s.clocks[k].enabled = true → t.points[i] = some p) ∧
      (∀ k : Fin 4, (s.time.calendar ≠ none → Qualifies s k → t.clocks[k] = s.clocks[k]) ∧
        (s.time.calendar = none ∨ ¬ Qualifies s k →
          t.clocks[k] = { s.clocks[k] with peak := 0, peakStamp := none })) ∧
      (∃ rs : List BillingRecord, Records s.history t.history ((List.finRange 32).filter (fun i =>
          match s.points[i] with
          | some p => p.sub.isNone
          | none => false)) s.close.devicePeriod s.time.calendar false rs ∧
        ∀ x ∈ rs, ∀ p ∈ s.points[x.point],
          (p.config.clock = none → x.clockPeak = 0 ∧ x.peakStamp = none) ∧
          ∀ k : Fin 4, p.config.clock = some k →
            x.clockPeak = s.clocks[k].peak ∧ x.peakStamp = s.clocks[k].peakStamp) ∧
      (∀ (i : Fin 32) (p : Point), s.points[i] = some p → p.sub = none →
        ∃ q : Point, t.points[i] = some q ∧ q.period = s.close.devicePeriod + 1 ∧ q.config = p.config ∧
          q.ratchet = (p.maxAll.value :: p.ratchet).take 12 ∧ q.totals = { ai := 0, ae := 0, rl := 0, rc := 0 }) ∧
      (∀ i : Fin 32, s.points[i] = none → t.points[i] = none)

/-- One point's close of period P is one transaction (R98 to R103, R126, R127): a record with the next sequence
stands in the slot at the write index, with the period's figures read before the reset, its clock's peak and stamp,
its reactive figures, demands and charges, each charge being the line of its dividend and of the residue carried in,
so that B = U + c − c′, with INEXACT and OVERFLOW; the write index and the sequence counter move on, no other slot
changes, and one more record is valid, an older valid record of the same point and period having aged out with all
before it. maxAll is pushed onto the ratchet stack; the residues take what the charges carried out; the period state
is reset and P+1 begins, with HELD_SEEN raised again for a held point; CLOSED is raised. No other point changes. -/
def Obligations.PointCloseSettlesPeriod : Prop :=
  ∀ (s : State) (i : Fin 32) (p : Point) (closing : BitVec 16) (stamp : Option CalTime) (cut : Bool),
    let rates : Schedule := s.tariff.active.schedules[p.config.schedule]
    let option : Option PenaltyOption := p.config.option.map (fun o => s.tariff.active.options[o])
    let h : History := (s.closePoint i p closing stamp cut).history
    ∃ (r : BillingRecord) (q : Point),
      h.slots[s.history.writeIndex] = some r ∧ h = s.history.append r ∧
      (s.closePoint i p closing stamp cut).points = s.points.set i (some q) ∧
      r.point = i ∧ r.period = closing ∧ r.sequence = s.history.sequence ∧ r.stamp = stamp ∧
      r.schedule = p.config.schedule ∧ r.option = p.config.option ∧ r.totals = p.totals ∧
      r.attributed = p.attributed ∧ r.unattributed = p.unattributed ∧ r.maxD = p.maxD ∧ r.maxAll = p.maxAll ∧
      r.contribution = p.contribution ∧ r.counters = p.counters ∧ r.ratchetEntry = p.maxAll.value ∧
      (p.config.clock = none → r.clockPeak = 0 ∧ r.peakStamp = none) ∧
      (∀ k : Fin 4, p.config.clock = some k → r.clockPeak = s.clocks[k].peak ∧ r.peakStamp = s.clocks[k].peakStamp) ∧
      r.excess = excessUnder option p ∧ r.ratio = reactiveRatio option p.totals ∧
      r.ratchetDemand = (charges rates p r.excess).ratchetDemand ∧
      r.minimumDemand = p.config.contract * rates.minPercent / 100 ∧
      r.facilityDemand = max p.maxAll.value (max r.ratchetDemand r.minimumDemand) ∧
      (∃ d1 d2 d3 : Nat,
        d1 = p.maxD[0].value * rates.rateTOU[0] + p.maxD[1].value * rates.rateTOU[1] +
          p.maxD[2].value * rates.rateTOU[2] + p.maxD[3].value * rates.rateTOU[3] ∧
        d2 = r.facilityDemand * rates.rateFAC ∧ d3 = r.excess * rates.rateVAR ∧
        r.tou = chargeLine d1 p.residues.tou ∧ r.facility = chargeLine d2 p.residues.facility ∧
        r.reactive = chargeLine d3 p.residues.reactive ∧
        (r.flags.getLsbD 0 = true ↔ d1 % 1000 ≠ 0 ∨ d2 % 1000 ≠ 0 ∨ d3 % 1000 ≠ 0) ∧
        (r.flags.getLsbD 1 = true ↔ chargeOverflow d1 p.residues.tou = true ∨
          chargeOverflow d2 p.residues.facility = true ∨ chargeOverflow d3 p.residues.reactive = true ∨
          999999999999 < r.tou.billed + r.facility.billed + r.reactive.billed)) ∧
      r.flags.getLsbD 6 = cut ∧ (∀ b : Nat, b < 4 → r.flags.getLsbD (b + 2) = p.periodFlags.getLsbD b) ∧
      (r.tou.billed : Int) = r.tou.unrounded + r.tou.carriedIn - r.tou.carriedOut ∧
      (r.facility.billed : Int) = r.facility.unrounded + r.facility.carriedIn - r.facility.carriedOut ∧
      (r.reactive.billed : Int) = r.reactive.unrounded + r.reactive.carriedIn - r.reactive.carriedOut ∧
      r.tou.carriedIn = p.residues.tou ∧ r.facility.carriedIn = p.residues.facility ∧
      r.reactive.carriedIn = p.residues.reactive ∧
      r.total = min 999999999999 (r.tou.billed + r.facility.billed + r.reactive.billed) ∧
      (h.writeIndex = s.history.writeIndex + 1 ∧ h.sequence = s.history.sequence + 1 ∧
        (∀ slot : Fin 384, slot ≠ s.history.writeIndex → h.slots[slot] = s.history.slots[slot]) ∧
        ∀ n : Nat, n ≤ s.history.valid →
          (∀ j : Nat, j < n → s.history.keyAt (s.history.slotBack j) ≠ some (i, closing)) →
          (n = s.history.valid ∨ s.history.keyAt (s.history.slotBack n) = some (i, closing)) →
          h.valid = (if n < 384 then n + 1 else n)) ∧
      q.residues = { tou := r.tou.carriedOut, facility := r.facility.carriedOut, reactive := r.reactive.carriedOut } ∧
      q.ratchet = (p.maxAll.value :: p.ratchet).take 12 ∧ q.period = closing + 1 ∧ q.config = p.config ∧
      q.maxAll = { value := 0, stamp := none } ∧ q.maxD = Vector.replicate 4 { value := 0, stamp := none } ∧
      q.totals = { ai := 0, ae := 0, rl := 0, rc := 0 } ∧ q.attributed = 0 ∧
      q.unattributed = { ai := 0, ae := 0, rl := 0, rc := 0 } ∧ q.excessSum = 0 ∧ q.contribution = 0 ∧
      q.counters = { missing := 0, gap := 0, ineligible := 0, exceedances := 0, outages := 0 } ∧
      q.periodFlags = (if p.operator = true ∨ p.conflict = true then 8 else 0) ∧ q.status = p.status ||| 32#6 ∧
      q.attention = (p.attention || (!p.status.getLsbD 5 && p.config.attentionMask.getLsbD 5)) ∧
      q.sub = p.sub ∧ q.ring = p.ring ∧ q.present = p.present ∧ q.missingCount = p.missingCount ∧
      q.baselines = p.baselines ∧ q.lastSeq = p.lastSeq ∧ q.life = p.life ∧ q.operator = p.operator ∧
      q.conflict = p.conflict

/-- The three charges of a close (R115 to R118): TOU demand from the maxima and their rates, the ratchet demand
from the largest of the first Rm stack entries, the minimum billing demand, the facility demand and its charge,
the reactive charge; each unrounded amount is the dividend over 1000, rounded down and held at the largest
amount. -/
def Obligations.ChargesFollowScheduleRates : Prop :=
  ∀ (s : Schedule) (p : Point) (excess : Nat),
    (charges s p excess).tou.unrounded = min 999999999999
      ((p.maxD[0].value * s.rateTOU[0] + p.maxD[1].value * s.rateTOU[1] + p.maxD[2].value * s.rateTOU[2] +
        p.maxD[3].value * s.rateTOU[3]) / 1000) ∧
    (s.ratchetMonths = 0 → (charges s p excess).ratchetDemand = 0) ∧
    (0 < s.ratchetMonths → ∃ m : Nat,
      (charges s p excess).ratchetDemand = m * s.ratchetPercent / 100 ∧
      (∀ v ∈ p.ratchet.take s.ratchetMonths, v ≤ m) ∧ (m = 0 ∨ m ∈ p.ratchet.take s.ratchetMonths)) ∧
    (charges s p excess).minimumDemand = p.config.contract * s.minPercent / 100 ∧
    (charges s p excess).facilityDemand =
      max p.maxAll.value (max (charges s p excess).ratchetDemand (charges s p excess).minimumDemand) ∧
    (charges s p excess).facility.unrounded =
      min 999999999999 ((charges s p excess).facilityDemand * s.rateFAC / 1000) ∧
    (charges s p excess).reactive.unrounded = min 999999999999 (excess * s.rateVAR / 1000)

/-- Rounding to the cent with a carried residue (R121), for one charge kind: for every unrounded amount and every
residue in −50..49, the billed amount is U plus the residue carried in less the residue carried out; a negative sum
bills 0 and carries it on; else the sum is rounded half up to the cent, or held at the largest amount with OVERFLOW;
and the residue carried out lies in −50..49 again. A kind with U = 0 passes its residue through. OVERFLOW is set
exactly where the unrounded amount (R120) or the billed amount is held. That the three lines of a billing record are
such lines is `PointCloseSettlesPeriod`. -/
def Obligations.RoundingCarriesResidue : Prop :=
  ∀ (dividend : Nat) (c : Int),
    let l := chargeLine dividend c
    let t : Int := l.unrounded + c
    (chargeOverflow dividend c = true ↔ 999999999999 < dividend / 1000 ∨ 999999999999 < (t + 50) / 100 * 100) ∧
    (-50 ≤ c → c ≤ 49 →
    l.unrounded = min 999999999999 (dividend / 1000) ∧ l.carriedIn = c ∧
    (-50 ≤ t ∧ t ≤ 1000000000048) ∧
    (l.billed : Int) = l.unrounded + l.carriedIn - l.carriedOut ∧
    -50 ≤ l.carriedOut ∧ l.carriedOut ≤ 49 ∧
    (t < 0 → l.billed = 0 ∧ l.carriedOut = t) ∧
    (0 ≤ t → (t + 50) / 100 * 100 ≤ 999999999999 → (l.billed : Int) = (t + 50) / 100 * 100) ∧
    (999999999999 < (t + 50) / 100 * 100 → l.billed = 999999999999 ∧ chargeOverflow dividend c = true) ∧
    (l.unrounded = 0 → l.carriedOut = c ∧ l.billed = 0))

/-- The reactive figures of a lump and of a point (R81, R82, R87): chargeable energy is Rl, or Rl + Rc under ADD;
the allowance is floor(Ai × thr / 1000); the excess is what is above it, else 0; the ratio is in thousandths,
limited to 9999, with its two cases for no import. A closing sub-interval adds its excess under an option with
SUBINTERVAL basis, and nothing under another or none (in part R83). -/
def Obligations.ReactiveExcessAndRatio : Prop :=
  ∀ (o : PenaltyOption) (e : Energies),
    let rq := if o.leading then e.rl + e.rc else e.rl
    o.chargeable e = rq ∧ o.allowance e = e.ai * o.threshold / 1000 ∧
    (e.ai * o.threshold / 1000 < rq → o.excess e = rq - e.ai * o.threshold / 1000) ∧
    (rq ≤ e.ai * o.threshold / 1000 → o.excess e = 0) ∧
    (0 < e.ai → reactiveRatio (some o) e = min 9999 (1000 * rq / e.ai) ∧
      reactiveRatio none e = min 9999 (1000 * e.rl / e.ai)) ∧
    (e.ai = 0 → reactiveRatio (some o) e = (if rq = 0 then 0 else 9999) ∧
      reactiveRatio none e = (if e.rl = 0 then 0 else 9999)) ∧
    subIntervalExcess none e = 0 ∧
    subIntervalExcess (some o) e = (if o.subinterval = true then rq - e.ai * o.threshold / 1000 else 0)

/-! ## The readout -/

/-- READOUT in range with no readout in flight is answered OK and enters SEARCH for its first period with all
counts 0; ABORT READOUT ends one in SEARCH or EMIT with ABORTED and raises READOUT_END, changes nothing in IDLE
or REPORT, and answers the phase it leaves (R131, R139). -/
def Obligations.ReadoutTakenAndAborted : Prop :=
  ∀ (s : State) (r : Request), Ready s r →
    (∀ (mask : BitVec 32) (first : BitVec 16) (n : Nat) (stop go : Bool), 1 ≤ n → n ≤ 12 → mask ≠ 0 →
      r.args = beBytes 4 mask.toNat ++ beBytes 2 first.toNat ++
        [oct n, oct ((if stop then 1 else 0) + (if go then 2 else 0))] →
      s.readout.phase = .idle →
      ∀ job : ReadoutJob,
        job = { tag := r.tag, mask := mask, first := first, count := n, stopOnMissing := stop,
                continueOnOvertake := go, current := first, begun := 1, sent := 0, missingPeriods := 0,
                missingPoints := 0, overtaken := 0 } →
        exec (.readout r) s = .next (answered
          { hunting s with readout := { s.readout with phase := .search job } } r .readout .ok [])) ∧
    (r.args = [] →
      (s.readout.phase = .idle → exec (.abortReadout r) s = .next (answered (hunting s) r .abortReadout .ok [0])) ∧
      (∀ (job : ReadoutJob) (reason : EndReason), s.readout.phase = .report job reason →
        exec (.abortReadout r) s = .next (answered (hunting s) r .abortReadout .ok [3])) ∧
      (∀ (job : ReadoutJob) (run : Run), (s.readout.phase = .search job ∨ s.readout.phase = .emit job run) →
        exec (.abortReadout r) s = .next (answered
          (State.raiseDevice { hunting s with readout := { phase := .report job .aborted, lastEnd := some .aborted } }
            .readoutEnd) r .abortReadout .ok [3])))

/-- READOUT_SEARCH (R133): with no valid record of the current period it is missing, and the readout ends NOT_FOUND
under STOP_ON_MISSING, or moves on, or ends DONE after its last period. Else the run is the newest stretch of valid
slots of that period: EMIT begins at its oldest slot with that record's sequence, the stretch's length, offset 0 and
no point found. The slot j back from the newest is the one j + 1 below the write index, round the store. -/
def Obligations.ReadoutSearchFindsNewestRun : Prop :=
  ∀ (s : State) (job : ReadoutJob), Live s → s.readout.phase = .search job →
    ((∀ j : Nat, j < s.history.valid → slotPeriod s.history (s.history.slotBack j) ≠ some job.current) →
      exec .readoutSearch s = .next (
        if job.stopOnMissing = true ∨ job.count ≤ job.begun then
          State.raiseDevice { s with readout :=
            { phase := .report { job with missingPeriods := job.missingPeriods + 1 }
                (if job.stopOnMissing then .notFound else .done)
              lastEnd := some (if job.stopOnMissing then .notFound else .done) } } .readoutEnd
        else { s with readout := { s.readout with phase := .search { job with
          missingPeriods := job.missingPeriods + 1, current := job.current + 1, begun := job.begun + 1 } } })) ∧
    (∀ a n : Nat, 0 < n → a + n ≤ s.history.valid →
      (∀ j : Nat, j < a → slotPeriod s.history (s.history.slotBack j) ≠ some job.current) →
      (∀ j : Nat, a ≤ j → j < a + n → slotPeriod s.history (s.history.slotBack j) = some job.current) →
      (a + n = s.history.valid ∨ slotPeriod s.history (s.history.slotBack (a + n)) ≠ some job.current) →
      ∃ (run : Run), exec .readoutSearch s = .next { s with readout := { s.readout with phase := .emit job run } } ∧
        run.firstSlot = s.history.slotBack (a + n - 1) ∧ run.length = n ∧ run.offset = 0 ∧ run.found = 0 ∧
        s.history.slots[s.history.slotBack (a + n - 1)].map (·.sequence) = some run.firstSeq) ∧
    (∀ j : Nat, j < 384 → (s.history.slotBack j).val = (s.history.writeIndex.val + 383 - j) % 384)

/-- READOUT_EMIT (R134 to R137) at offset k of the run. A valid record of the expected sequence and the period is
queued as a RECORD frame with the readout's tag if its point is in the mask and 3 places are free; without room the
step waits and nothing is queued; out of the mask it is passed over. A slot that is invalid or holds another
sequence is overtaken. At the record counter, or at a record of another period, the run ends and the mask points not
found count as missing. An overtake ends the readout or, under CONTINUE_ON_OVERTAKE, passes on; missing points end
it under STOP_ON_MISSING; else the next period is searched, or the readout is DONE after its last. The port then
makes the choice a joining frame calls for. A step that waits is not taken while 3 places are not free, and is taken
from a fresh check once they are (log 19). The valid slots are those of the valid count, from the newest back
(R125). The RECORD payload's 228 octets are those of R194. -/
def Obligations.ReadoutEmitTakesItsStep : Prop :=
  (∀ (s : State) (job : ReadoutJob) (run : Run), Live s → s.readout.phase = .emit job run →
    (run.waiting = true → 6 ≤ s.port.queue.length → exec .readoutEmit s = .next s) ∧
    (run.waiting = false ∨ s.port.queue.length ≤ 5 →
      ∃ t : State, EmitTaken s t job run ∧ exec .readoutEmit s = .next t.outputChoice)) ∧
  (∀ (h : History) (slot : Fin 384), h.isValid slot = true ↔ ∃ j : Nat, j < h.valid ∧ slot = h.slotBack j) ∧
  (∀ s : State, (∀ n : Fin 8, s.decoder.station = some n → s.stationOctet = oct n.val) ∧
    (s.decoder.station = none → s.stationOctet = 0xFF)) ∧
  (∀ (tag : Byte) (r : BillingRecord),
    (tag :: r.octets).length = 228 ∧ Holds (tag :: r.octets) (recordFields tag r))

/-- READOUT_END (R138): in REPORT, with a free place, the report is queued with the readout's tag, the reason
and the four counts and the last period reached, and the phase becomes IDLE; with the queue full it waits. -/
def Obligations.ReadoutEndQueuesReport : Prop :=
  ∀ (s : State) (job : ReadoutJob) (reason : EndReason), Live s → s.readout.phase = .report job reason →
    (s.port.queue.length < 8 →
      ∀ code : Byte,
        code = (match reason with
          | .done => 1
          | .notFound => 2
          | .overtaken => 3
          | .aborted => 4
          | .supply => 5
          | .restart => 6) →
      exec .readoutEnd s = .next (State.outputChoice { s with
        readout := { s.readout with phase := .idle }
        port := { s.port with queue := s.port.queue ++
          [{ frame := s.replyFrame job.tag 0x32 .ok
               ([code] ++ beBytes 2 job.sent ++ beBytes 2 job.missingPeriods ++ beBytes 2 job.missingPoints ++
                 beBytes 2 job.overtaken ++ beBytes 2 job.current.toNat)
             restartReply := false }] } })) ∧
    (8 ≤ s.port.queue.length → exec .readoutEnd s = .next s)

/-! ## Queries and attention -/

/-- QUERY POINT answers the view its options name, CONTEXT of 82 octets or PERIOD of 214, built before any clearing,
and with the clear flag then clears the point's six status flags and nothing else (R177, R193). Each view's octets
hold its fields in the order of R193. -/
def Obligations.QueryPointReportsThenClears : Prop :=
  ∀ (s : State) (r : Request) (i : Fin 32) (p : Point) (clear period : Bool), Ready s r → s.points[i] = some p →
    r.args = [oct i.val, oct ((if clear then 1 else 0) + (if period then 2 else 0))] →
    exec (.queryPoint r) s = .next (State.queueInsert
      { hunting s with points := if clear then s.points.set i (some { p with status := 0 }) else s.points }
      { frame := (hunting s).replyFrame r.tag 0x38 .ok
          (if period then p.periodView i (p.config.option.map (fun o => s.tariff.active.options[o]))
           else p.contextView i)
        restartReply := false }) ∧
    ((p.contextView i).length = 82 ∧ Holds (p.contextView i) (contextFields i p)) ∧
    (p.ratchet.length = 12 → ∀ view : List Byte,
      view = p.periodView i (p.config.option.map (fun o => s.tariff.active.options[o])) →
      view.length = 214 ∧ Holds view (periodFields i p (p.config.option.map (fun o => s.tariff.active.options[o]))))

/-- QUERY DEVICE answers the device's 122 octets, which hold its fields in the order of R193, built before any
clearing, and with the clear flag then clears the eleven device flags and nothing else (R178, R193). Numbers, yes or
no and stamps are written in octets as R190 gives. -/
def Obligations.QueryDeviceReportsThenClears : Prop :=
  ∀ (s : State) (r : Request) (clear : Bool), Ready s r → r.args = [octBool clear] →
    exec (.queryDevice r) s = .next (State.queueInsert
      { hunting s with attention :=
          { s.attention with flags := if clear then 0 else s.attention.flags } }
      { frame := (hunting s).replyFrame r.tag 0x39 .ok (hunting s).deviceData, restartReply := false }) ∧
    (hunting s).deviceData.length = 122 ∧ Holds (hunting s).deviceData (deviceFields s) ∧
    (∀ i : Fin 32, s.pointBits.getLsbD i.val = true ↔ ∃ p ∈ s.points[i], p.attention = true) ∧
    (∀ n v : Nat, (beBytes n v).length = n ∧
      ∀ k : Nat, k < n → (beBytes n v)[k]? = some (oct (v / 256 ^ (n - 1 - k)))) ∧
    (∀ v : Nat, (oct v).toNat = v % 256) ∧ (∀ b : Bool, octBool b = oct (bit b)) ∧
    (∀ t : Option CalTime, stampOctets t = beBytes 4 (stampCode t))

/-- CLEAR ATTENTION clears the attention bits of the points named, the device attention bit under the device-clear
flag, and writes the device mask under the mask-write flag; no status flag, no device flag and no other item
changes. The reply carries the mask and the bits after it (R180). The summary is the OR of the 33 bits (R181), and
ALERT is its level, at once, while VDD is present (R170); that ALERT is low while VDD is absent is the model's
choice (log 25). -/
def Obligations.ClearAttentionClearsBits : Prop :=
  ∀ (s : State) (r : Request) (set : BitVec 32) (clear write : Bool) (mask : BitVec 11), Ready s r →
    r.args = beBytes 4 set.toNat ++ [oct ((if clear then 1 else 0) + (if write then 2 else 0))] ++
      beBytes 2 mask.toNat →
    ∃ u : State,
      exec (.clearAttention r) s = .next (answered u r .clearAttention .ok
        (beBytes 2 u.attention.mask.toNat ++ [octBool u.attention.bit] ++ beBytes 4 u.pointBits.toNat)) ∧
      u = { hunting s with points := u.points, attention := u.attention } ∧
      u.attention.flags = s.attention.flags ∧
      u.attention.bit = (s.attention.bit && !clear) ∧
      u.attention.mask = (if write then mask else s.attention.mask) ∧
      (∀ i : Fin 32, u.points[i] = s.points[i].map (fun p =>
        { p with attention := p.attention && !set.getLsbD i.val })) ∧
      (∀ i : Fin 32, u.pointBits.getLsbD i.val = true ↔ ∃ p ∈ u.points[i], p.attention = true) ∧
      (∀ v : State, (v.summary = true ↔ v.attention.bit = true ∨ ∃ i : Fin 32, ∃ p ∈ v.points[i], p.attention = true) ∧
        (v.supply.vdd = true → v.alert = v.summary) ∧ (v.supply.vdd = false → v.alert = false))

/-! ## Supply and starts -/

/-- SUPWARN going high while VDD is present raises SUPPLY_WARN and ends a readout in SEARCH or EMIT with SUPPLY; any
other readout state stays; going low changes the pin alone (R140, R184). That SUPWARN given high again counts as an
assertion is the model's choice (log 11). -/
def Obligations.SupplyWarningEndsReadout : Prop :=
  ∀ s : State, s.supply.vdd = true →
    exec (.supwarn false) s = .next { s with supply := { s.supply with supwarn := false } } ∧
    (∀ (job : ReadoutJob) (run : Run), (s.readout.phase = .search job ∨ s.readout.phase = .emit job run) →
      exec (.supwarn true) s = .next (State.raiseDevice (State.raiseDevice { s with
        supply := { s.supply with supwarn := true }
        readout := { phase := .report job .supply, lastEnd := some .supply } } .supplyWarn) .readoutEnd)) ∧
    (∀ (job : ReadoutJob) (reason : EndReason),
      (s.readout.phase = .idle ∨ s.readout.phase = .report job reason) →
      exec (.supwarn true) s = .next (State.raiseDevice
        { s with supply := { s.supply with supwarn := true } } .supplyWarn))

/-- SUPPLY_LOSS leaves the backup domain as it was, and only it: the time is UNSET, the framer, buffer, queue and
transmitter hold nothing, no restart is pending. POWER_UP makes a warm start if the retention mark is set and a cold
start if VBAK_FAILURE has cleared it: every block at its reset value, with the pins as they are, and SUPPLY_WARN
raised if SUPWARN is high. RESETN going low while VDD is present makes a warm start at once; RESETN returning high
puts the framer in HUNT and changes nothing else (R182 to R185, R188). The starts here come to their end
(`WarmStartActsOnEveryOwner` has the others). What SUPPLY_LOSS and VBAK_FAILURE leave while VDD is absent is the
model's choice (log 10), and so is VBAK as an event (log 11). -/
def Obligations.SupplyAndResetnMakeStarts : Prop :=
  ∀ s : State,
    (s.supply.vdd = true → s.supply.resetnLow = false →
      exec (.resetn none) s = .next (State.warmStart { s with supply := { s.supply with resetnLow := true } })) ∧
    (s.supply.resetnLow = true → exec .resetnRelease s = .next
      { s with supply := { s.supply with resetnLow := false }, port := { s.port with framer := .hunt } }) ∧
    (s.supply.vdd = true → ∃ t : State, exec .supplyLoss s = .next t ∧
      t.supply = { s.supply with vdd := false } ∧ t.points = s.points ∧ t.clocks = s.clocks ∧
      t.tariff = s.tariff ∧ t.close = s.close ∧ t.history = s.history ∧ t.attention = s.attention ∧
      t.readout.lastEnd = s.readout.lastEnd ∧ t.unusedReadings = s.unusedReadings ∧
      t.decoder.station = s.decoder.station ∧ t.decoder.clearable = s.decoder.clearable ∧
      t.decoder.commissioning = s.decoder.commissioning ∧ t.decoder.restartPending = false ∧
      t.port = { framer := .hunt, buffer := [], queue := [], transmitter := .free, streak := 0,
                 counters := s.port.counters } ∧
      t.time = { s.time with calendar := none, state := .unset, timer := .stopped, holdover := 0 }) ∧
    (s.supply.vdd = false →
      (s.supply.retention = true →
        exec (.powerUp none) s = .next (State.warmStart { s with supply := { s.supply with vdd := true } })) ∧
      (s.supply.retention = false → ∃ t : State, exec (.powerUp none) s = .next t ∧
        t = { State.reset with
          pending := s.pending
          lineIn := s.lineIn
          freeIndex := s.freeIndex
          supply := { s.supply with vdd := true, retention := true }
          attention := { flags := if s.supply.supwarn then 1024 else 0, mask := 0, bit := false } }) ∧
      ∃ t : State, exec .vbakFailure s = .next t ∧ t.supply = { s.supply with retention := false } ∧
        t.points = Vector.replicate 32 none ∧ t.history.valid = 0 ∧ t.tariff = TariffStore.cold ∧
        t.decoder.station = none)

/-- What a warm start does to each owner (R11, R186): every configured point, energy-only points among them, is cut,
its ring and last sequence gone, the outage counted and CUT_SEEN raised, and keeps everything else; hold counters
take H; the time is UNSET; a readout in flight ends RESTART; the port is empty with its counters kept; start kind
WARM; and a close in flight completes (R110): points of its period on a pending clock close to P+1, clock by clock,
each with a record of the point as it stands restarted, with CUT_CLOSE and the time as it stood before the start;
pending clocks reset their peaks and contributions; the device period advances, CLOSE_DONE is raised and a marked
activation is made. Tariff sets without an activation, station, locks, device mask and configuration records are
kept. With SUPWARN high SUPPLY_WARN is raised (R184). A start that VDD breaks off (R183), at POWER_UP, RESETN or
RESTART_WARM_START alike, leaves whole what it had come to: the points of one set and the clocks of another are
restarted and the others are untouched, and the close unit has made none of its completion or, once every point is
cut, its first steps, the points one by one and then the clocks; the part is without supply, with its retention mark
as it was. A cold start broken off leaves the domain clear and the mark clear. In what order the pieces come is the
model's choice (log 18); so is it that what is outside the backup domain then stands at its warm-start values (log
10), and that a readout in flight that the broken start had not ended keeps its phase, for the next start to end it
RESTART (log 9). -/
def Obligations.WarmStartActsOnEveryOwner : Prop :=
  ∀ s : State,
    ((s.warmStart).time = { s.time with calendar := none, state := .unset, timer := .stopped, holdover := 0 } ∧
    (s.warmStart).port = { framer := .hunt, buffer := [], queue := [], transmitter := .free, streak := 0,
                           counters := s.port.counters } ∧
    (s.warmStart).decoder = { s.decoder with startKind := .warm, startAck := false, restartPending := false } ∧
    (s.warmStart).readout.phase = .idle ∧
    (s.readout.phase = .idle → (s.warmStart).readout = s.readout) ∧
    (s.readout.phase ≠ .idle → (s.warmStart).readout.lastEnd = some .restart ∧
      hasFlag (s.warmStart).attention.flags 9 = true) ∧
    (s.supply.supwarn = true → hasFlag (s.warmStart).attention.flags 10 = true) ∧
    (s.warmStart).supply = { s.supply with retention := true } ∧ (s.warmStart).attention.mask = s.attention.mask) ∧
    (∀ k : Fin 4, (s.warmStart).clocks[k].hold = s.clocks[k].holdLength ∧
      (s.warmStart).clocks[k].holdLength = s.clocks[k].holdLength ∧
      (s.warmStart).clocks[k].enabled = s.clocks[k].enabled ∧
      (s.warmStart).clocks[k].length = s.clocks[k].length ∧ (s.warmStart).clocks[k].window = s.clocks[k].window ∧
      (s.close.inFlight = none ∨ hasFlag s.close.pendingSet k.val = false →
        (s.warmStart).clocks[k].peak = s.clocks[k].peak ∧ (s.warmStart).clocks[k].peakStamp = s.clocks[k].peakStamp)) ∧
    (∀ i : Fin 32, s.points[i] = none → (s.warmStart).points[i] = none) ∧
    (s.close.inFlight = none → (s.warmStart).close = s.close ∧ (s.warmStart).history = s.history ∧
      (s.warmStart).tariff = s.tariff ∧
      ∀ (i : Fin 32) (p : Point), s.points[i] = some p →
        (s.warmStart).points[i] = some (restarted (optionIn s p) p)) ∧
    (∀ closing : BitVec 16, s.close.inFlight = some closing →
      Completed s s.warmStart closing ∧
      (∀ k : Fin 4, hasFlag s.close.pendingSet k.val = true →
        (s.warmStart).clocks[k].peak = 0 ∧ (s.warmStart).clocks[k].peakStamp = none) ∧
      ∃ rs : List BillingRecord, RestartRecords s s.warmStart (duePoints s closing) closing rs ∧
        ∀ (i : Fin 32) (p : Point), s.points[i] = some p → ∃ z : Point, z = restarted (optionIn s p) p ∧
          ((∀ k : Fin 4, p.config.clock = some k → hasFlag s.close.pendingSet k.val = false) →
            (s.warmStart).points[i] = some z) ∧
          (∀ k : Fin 4, p.config.clock = some k → hasFlag s.close.pendingSet k.val = true →
            (p.period ≠ closing → (s.warmStart).points[i] = some { z with contribution := 0 }) ∧
            (p.period = closing → ∃ x ∈ rs, x.point = i ∧
              (s.warmStart).points[i] = some (closedPoint closing (carriedOut x) z)))) ∧
    (∀ b : StartBreak, s.supply.vdd = false → s.supply.retention = false →
      exec (.powerUp (some b)) s = .next { State.reset with
        pending := s.pending, lineIn := s.lineIn, freeIndex := s.freeIndex
        supply := { s.supply with vdd := false, retention := false } }) ∧
    (∀ b : StartBreak, ∃ t : State,
      ((s.supply.vdd = false → s.supply.retention = true → exec (.powerUp (some b)) s = .next t) ∧
        (s.supply.vdd = true → s.supply.resetnLow = false → exec (.resetn (some b)) s = .next
          { t with supply := { t.supply with resetnLow := true } }) ∧
        (∀ q : QueuedFrame, s.port.transmitter = .sending q → q.restartReply = true →
          exec (.restartWarmStart (some b)) s = .next t)) ∧
      t.supply = { s.supply with vdd := false } ∧ t.tariff.pending = s.tariff.pending ∧
      t.time = { s.time with calendar := none, state := .unset, timer := .stopped, holdover := 0 } ∧
      t.port = { framer := .hunt, buffer := [], queue := [], transmitter := .free, streak := 0,
                 counters := s.port.counters } ∧
      t.decoder = { s.decoder with startKind := .warm, startAck := false, restartPending := false } ∧
      t.attention.mask = s.attention.mask ∧
      (b.readout = false → t.readout = s.readout) ∧
      (b.readout = true → t.readout.phase = .idle ∧ (s.readout.phase ≠ .idle →
        t.readout.lastEnd = some .restart ∧ hasFlag t.attention.flags 9 = true)) ∧
      (∀ i : Fin 32, s.points[i] = none → t.points[i] = none) ∧
      (∀ k : Fin 4, t.clocks[k].hold = (if b.clocks.getLsbD k.val then s.clocks[k].holdLength else s.clocks[k].hold)) ∧
      (b.points ≠ BitVec.allOnes 32 ∨ b.closes = 0 ∨ s.close.inFlight = none →
        t.close = s.close ∧ t.history = s.history ∧ t.tariff = s.tariff ∧
        (∀ k : Fin 4, t.clocks[k].peak = s.clocks[k].peak ∧ t.clocks[k].peakStamp = s.clocks[k].peakStamp) ∧
        ∀ i : Fin 32,
          (b.points.getLsbD i.val = false → t.points[i] = s.points[i]) ∧
          (b.points.getLsbD i.val = true → ∀ p ∈ s.points[i], t.points[i] = some (restarted (optionIn s p) p))) ∧
      (b.points = BitVec.allOnes 32 → ∀ closing : BitVec 16, s.close.inFlight = some closing →
        ∃ (rs : List BillingRecord) (left : List (Fin 4)),
          RestartRecords s t ((duePoints s closing).take b.closes) closing rs ∧
          left = (pendingOf s).take (b.closes - (duePoints s closing).length) ∧
          (∀ (i : Fin 32) (p : Point), s.points[i] = some p → ∃ z : Point, z = restarted (optionIn s p) p ∧
            (i ∈ (duePoints s closing).take b.closes → ∃ x ∈ rs, x.point = i ∧
              t.points[i] = some (closedPoint closing (carriedOut x) z)) ∧
            (i ∉ (duePoints s closing).take b.closes → t.points[i] = some { z with
              contribution := if ∃ k ∈ left, p.config.clock = some k then 0 else p.contribution })) ∧
          (∀ k : Fin 4, t.clocks[k].peak = (if k ∈ left then 0 else s.clocks[k].peak) ∧
            t.clocks[k].peakStamp = (if k ∈ left then none else s.clocks[k].peakStamp)) ∧
          (left ≠ pendingOf s → t.tariff = s.tariff ∧ t.close.inFlight = some closing ∧
            t.close.devicePeriod = s.close.devicePeriod ∧ ∀ j : Fin 4,
              hasFlag t.close.pendingSet j.val = (hasFlag s.close.pendingSet j.val && decide (j ∉ left))) ∧
          (left = pendingOf s → left ≠ [] → Completed s t closing)))

/-! ## Time -/

/-- A valid MARK at a live part, whatever the time state, leaves the part LOCKED at the mark's time with the timer
loaded with 65 s, but for a mark at the current time C in LOCKED, which counts as a duplicate and leaves the timer
running; a mark at C in HOLDOVER or UNCERTAIN makes no advance. The frame is offered on, stamped, with its date and
time octets as they arrived (R41 to R43, R47, R166). From UNSET the mark sets the time: every configured point on an
enabled clock has its sub-interval opened, and the setting is a time update for the scheduled close (R53). At C+1 it
is a minute advance: the scheduled close, then the clocks due (R46, R62), in the order the command gives (log 4). At
any time but C and C+1 it is a step: every point is cut and its ring cleared and keeps everything else,
sub-intervals open at T, TIME_STEP is raised at every configured point and for the device, the step is counted, and
the step is a time update. -/
def Obligations.ValidMarkLocksTheTime : Prop :=
  ∀ (s : State) (order : List (Fin 4)) (a : Byte) (p : List Byte), Live s → p.length = 9 →
    (markTime p).valid = true →
    ∃ t : State,
      exec (.mark order a p) s = .next (t.offer { kind := 0x10, address := a, payload := t.stampMark p }) ∧
      (t.stampMark p).length = 9 ∧ (t.stampMark p).take 5 = p.take 5 ∧
      t = { hunting s with
        time := t.time, points := t.points, clocks := t.clocks, close := t.close, history := t.history
        tariff := t.tariff, attention := t.attention } ∧
      t.time.calendar = some (markTime p) ∧ t.time.state = .locked ∧
      (s.time.calendar = none →
        Updated { hunting s with
          time := lockedTime s.time (markTime p)
          points := s.points.map (Option.map (openedPoint s (markTime p))) } t (markTime p)) ∧
      (s.time.calendar ≠ some (markTime p) ∨ s.time.state ≠ .locked → t.time.timer = .running65) ∧
      (∀ c : CalTime, s.time.calendar = some c →
        (markTime p = c → t = { hunting s with
          time := if s.time.state = .locked then { s.time with duplicates := min 65535 (s.time.duplicates + 1) }
          else lockedTime s.time c }) ∧
        (markTime p = c.next →
          MinuteTaken { hunting s with time := lockedTime s.time (markTime p) } t order (markTime p) false) ∧
        (markTime p ≠ c.next → markTime p ≠ c → ∃ v : State,
          v = State.raiseDevice { hunting s with
            time := { lockedTime s.time (markTime p) with steps := min 65535 (s.time.steps + 1) }
            points := v.points } .timeStep ∧
          (∀ i : Fin 32, s.points[i] = none → v.points[i] = none) ∧
          (∀ (i : Fin 32) (x : Point), s.points[i] = some x → ∃ z : Point, z = cutOff (optionIn s x) x ∧
            v.points[i] = some { openedPoint s (markTime p) z with periodFlags := z.periodFlags ||| 2#4 }) ∧
          Updated v t (markTime p)))

/-- A MARK whose fields are no valid time counts as invalid; a MARK equal to the current time counts as a duplicate
in LOCKED, and in HOLDOVER and UNCERTAIN brings the part back to LOCKED with no advance. Each is then stamped and
offered; nothing else changes (R38, R42, R43). The time a MARK carries stands in its first five octets (R191). -/
def Obligations.InvalidDuplicateAndResynchronisingMarks : Prop :=
  ∀ (s : State) (order : List (Fin 4)) (a : Byte) (p : List Byte), Live s → p.length = 9 →
    let offered (u : State) : State := u.offer { kind := 0x10, address := a, payload := u.stampMark p }
    (∀ (y mo d h mi : Byte) (status : List Byte), p = y :: mo :: d :: h :: mi :: status →
      markTime p =
        { year := 2000 + y.toNat, month := mo.toNat, day := d.toNat, hour := h.toNat, minute := mi.toNat }) ∧
    ((markTime p).valid = false →
      exec (.mark order a p) s = .next (offered { hunting s with
        time := { s.time with invalid := min 65535 (s.time.invalid + 1) } })) ∧
    ((markTime p).valid = true → s.time.calendar = some (markTime p) →
      (s.time.state = .locked →
        exec (.mark order a p) s = .next (offered { hunting s with
          time := { s.time with duplicates := min 65535 (s.time.duplicates + 1) } })) ∧
      (s.time.state ≠ .locked →
        exec (.mark order a p) s = .next (offered { hunting s with
          time := { s.time with state := .locked, holdover := 0, timer := .running65 } })))

/-- A MARK's status area (R166, R191): an assigned part writes its attention place and its two time-state bits and
nothing else, so octet 8 with its undefined bits leaves as it arrived (log 13); an unassigned part sets
unassigned-present, ORs its summary into unassigned attention and writes the unassigned time state, and bits 4..7 of
octet 8 leave as they arrived (log 13). -/
def Obligations.MarkStampedInItsOwnPlaces : Prop :=
  ∀ (s : State) (y mo d h mi at5 t6 t7 u8 : Byte), ∃ at5' t6' t7' u8' : Byte,
    s.stampMark [y, mo, d, h, mi, at5, t6, t7, u8] = [y, mo, d, h, mi, at5', t6', t7', u8'] ∧
    (∀ n : Fin 8, s.decoder.station = some n →
      u8' = u8 ∧
      (∀ b : Nat, b < 8 → at5'.getLsbD b = (if b = n.val then s.summary else at5.getLsbD b)) ∧
      (∀ b : Nat, b < 16 → (t6' ++ t7').getLsbD b =
        (if b = 2 * n.val then (timeCode s.time.state).testBit 0
         else if b = 2 * n.val + 1 then (timeCode s.time.state).testBit 1 else (t6 ++ t7).getLsbD b))) ∧
    (s.decoder.station = none →
      at5' = at5 ∧ t6' = t6 ∧ t7' = t7 ∧
      u8'.getLsbD 0 = true ∧ u8'.getLsbD 1 = (u8.getLsbD 1 || s.summary) ∧
      u8'.getLsbD 2 = (timeCode s.time.state).testBit 0 ∧ u8'.getLsbD 3 = (timeCode s.time.state).testBit 1 ∧
      ∀ b : Nat, 4 ≤ b → u8'.getLsbD b = u8.getLsbD b)

/-- SELF_ADVANCE with the timer running moves the part one minute on: the time is C+1, the holdover count is one
more, saturating, the timer is loaded with 60 s, and the state is HOLDOVER below a count of 60 and UNCERTAIN from
there. HOLDOVER is raised if it was LOCKED, UNCERTAIN as it becomes UNCERTAIN (R44). The minute then goes the way of
every minute advance: the scheduled close, then the clocks due in the order the command gives (log 4), whose
boundaries know that it is a self-advance (R46, R53, R62). -/
def Obligations.SelfAdvanceMovesOneMinute : Prop :=
  ∀ (s : State) (order : List (Fin 4)) (c : CalTime), Live s → s.time.timer ≠ .stopped →
    s.time.calendar = some c →
    ∃ t u v : State, exec (.selfAdvance order) s = .next t ∧
      u = { s with time := { s.time with
        calendar := some c.next
        holdover := min 65535 (s.time.holdover + 1)
        timer := .running60
        state := if 60 ≤ min 65535 (s.time.holdover + 1) then .uncertain else .holdover } } ∧
      v = (if s.time.state ≠ .uncertain ∧ 60 ≤ min 65535 (s.time.holdover + 1)
        then State.raiseDevice (if s.time.state = .locked then State.raiseDevice u .holdover else u) .uncertain
        else if s.time.state = .locked then State.raiseDevice u .holdover else u) ∧
      MinuteTaken v t order c.next true ∧
      t.time = { u.time with lastClose := t.time.lastClose } ∧
      t = { s with
        time := t.time, points := t.points, clocks := t.clocks, close := t.close, history := t.history
        tariff := t.tariff, attention := t.attention } ∧
      (s.time.state = .locked → hasFlag t.attention.flags 1 = true) ∧
      (s.time.state ≠ .uncertain → 60 ≤ min 65535 (s.time.holdover + 1) → hasFlag t.attention.flags 2 = true) ∧
      (hasFlag s.attention.flags 2 = false → min 65535 (s.time.holdover + 1) < 60 →
        hasFlag t.attention.flags 2 = false)

/-- A time is valid in the ranges of R38, with the month lengths of R39. The minute after a valid time is found by
carrying (R39); it is valid and is one minute later, the minute after 2099-12-31 23:59 being 2000-01-01 00:00 (R39,
with the minutes of R190); the weekday rises by one from day to day and 2000-01-01 is weekday 5 (R40). The rate
period of a minute is that of the profile that the profile map gives for its season and its day type: the latest
season start and the latest switch point reached, or the last of the list where none is (R49 to R51). -/
def Obligations.MinuteAdvanceIsOneMinute : Prop :=
  (∀ (feb m : Nat), monthLengthWith feb m = (if m = 2 then feb else if m = 4 ∨ m = 6 ∨ m = 9 ∨ m = 11 then 30 else 31)) ∧
  (∀ y m : Nat, monthLength y m = monthLengthWith (if y % 4 = 0 then 29 else 28) m) ∧
  (∀ c : CalTime, c.valid = true ↔ (2000 ≤ c.year ∧ c.year ≤ 2099) ∧ (1 ≤ c.month ∧ c.month ≤ 12) ∧
    (1 ≤ c.day ∧ c.day ≤ monthLength c.year c.month) ∧ c.hour ≤ 23 ∧ c.minute ≤ 59) ∧
  (∀ c : CalTime, c.valid = true →
    (c.minute < 59 → c.next = { c with minute := c.minute + 1 }) ∧
    (c.minute = 59 → c.hour < 23 → c.next = { c with minute := 0, hour := c.hour + 1 }) ∧
    (c.minute = 59 → c.hour = 23 → c.day < monthLength c.year c.month →
      c.next = { c with minute := 0, hour := 0, day := c.day + 1 }) ∧
    (c.minute = 59 → c.hour = 23 → c.day = monthLength c.year c.month → c.month < 12 →
      c.next = { c with minute := 0, hour := 0, day := 1, month := c.month + 1 }) ∧
    (c.minute = 59 → c.hour = 23 → c.day = 31 → c.month = 12 →
      c.next = { year := if c.year = 2099 then 2000 else c.year + 1, month := 1, day := 1, hour := 0, minute := 0 })) ∧
  CalTime.minutes { year := 2000, month := 1, day := 1, hour := 0, minute := 0 } = 0 ∧
  (∀ c : CalTime, c.valid = true → c.next.valid = true ∧ c.next.minutes = (c.minutes + 1) % 52596000) ∧
  (∀ c : CalTime, c.valid = true → weekday c.year c.month c.day = Fin.ofNat 7 (5 + c.minutes / 1440)) ∧
  CalTime.next { year := 2099, month := 12, day := 31, hour := 23, minute := 59 } =
    { year := 2000, month := 1, day := 1, hour := 0, minute := 0 } ∧
  weekday 2000 1 1 = 5 ∧
  (∀ (set : TariffSet) (t : CalTime), set.seasons.length ≤ 4 →
    set.seasons.Pairwise (fun a b => a.month < b.month ∨ (a.month = b.month ∧ a.day < b.day)) →
    (∀ n : Fin 8, set.profiles[n].Pairwise (fun a b => a.minute < b.minute)) →
    ∃ (season : Nat) (dayType : Nat) (place : Fin 16), SeasonIs set.seasons t season ∧
      ((∃ h ∈ set.holidays, h.month = t.month ∧ h.day = t.day ∧ ∀ y ∈ h.year, y = t.year) → dayType = 3) ∧
      ((∀ h ∈ set.holidays, ¬ (h.month = t.month ∧ h.day = t.day ∧ ∀ y ∈ h.year, y = t.year)) →
        dayType = (set.weekdays[weekday t.year t.month t.day]).val) ∧
      place.val = 4 * season + dayType ∧
      ProfileGives set.profiles[set.profileMap[place]] (t.hour * 60 + t.minute) (ratePeriodAt set t))

/-! ## Readings and boundaries -/

/-- READING in the point window (R18 to R20, R33, R34): at an UNUSED point it counts and goes on with disposition 1
and rate period 15; at a configured point the context takes it, and it goes on stamped with its disposition and the
open sub-interval's rate period, or is absorbed, under the forward field. Nothing else changes. What a READING
carries stands in its octets as R191 gives, and the disposition codes are those of R190. -/
def Obligations.ReadingTakenAtItsPoint : Prop :=
  ∀ (s : State) (n : Fin 8) (i : Fin 32) (a : Byte) (p : List Byte), Live s → s.decoder.station = some n →
    a.toNat = 32 * n.val + i.val → p.length = 20 →
    (s.points[i] = none →
      exec (.reading a p) s = .next (State.offer
        { hunting s with unusedReadings := min 65535 (s.unusedReadings + 1) }
        { kind := 0x20, address := a, payload := p.take 18 ++ [1, 15] })) ∧
    (∀ q : Point, s.points[i] = some q →
      let taken := (q.takeReading (readingData p)).1
      let u : State := { hunting s with points := s.points.set i (some taken) }
      (q.config.forward = false → exec (.reading a p) s = .next u) ∧
      (q.config.forward = true → exec (.reading a p) s = .next (u.offer
        { kind := 0x20, address := a,
          payload := p.take 18 ++ [(q.takeReading (readingData p)).2.code,
            (match taken.sub with
             | some b => oct b.ratePeriod.val
             | none => 15)] }))) ∧
    (∀ d : ReadingData, d = readingData p →
      Holds p [(0, 1, d.sequence.toNat), (2, 4, d.registers.ai.toNat), (6, 4, d.registers.ae.toNat),
        (10, 4, d.registers.rl.toNat), (14, 4, d.registers.rc.toNat)] ∧
      (d.feRestart = true ↔ ∃ o ∈ p[1]?, o.getLsbD 0 = true)) ∧
    (∀ d : Disposition, d.code = dispositionCode d)

/-- What a frame does to a point context, by its sequence class and its increments (R21 to R31): DUPLICATE and STALE
count and change nothing else; FE_RESTART sets baselines and last sequence and delivers nothing; a first frame sets
the baselines; a recovery books to unattributed energies and totals; a discontinuity drops the increments; an
accepted frame books to the open sub-interval, or to the unattributed energies, and to the totals. Across a gap of
frames the lost frames count and the open sub-interval carries GAP, and the frame is then taken as the next in
sequence. An increment is the difference modulo 2^32 (R27); a frame is implausible with any increment above the
limit (R29); an accumulator is held at its largest value, each on its own (R32); a status flag stays set, and its
rise from 0 under the attention mask sets the attention bit (R10). -/
def Obligations.ReadingDispositionsAtPoint : Prop :=
  ∀ (p : Point) (d : ReadingData),
    (d.feRestart = true → p.takeReading d =
      (Point.raiseStatus { p with
        baselines := some d.registers
        lastSeq := some d.sequence
        life := { p.life with restarts := min 65535 (p.life.restarts + 1) } } .feRestart, .baseline)) ∧
    (d.feRestart = false → ∀ l : Byte, p.lastSeq = some l →
      ((d.sequence - l).toNat = 0 → p.takeReading d =
        ({ p with life := { p.life with duplicates := min 65535 (p.life.duplicates + 1) } }, .duplicate)) ∧
      (128 ≤ (d.sequence - l).toNat → p.takeReading d =
        ({ p with life := { p.life with stale := min 65535 (p.life.stale + 1) } }, .stale))) ∧
    (d.feRestart = false → p.lastSeq = none → p.baselines = none → p.takeReading d =
      ({ p with lastSeq := some d.sequence, baselines := some d.registers }, .baseline)) ∧
    (d.feRestart = false → (p.lastSeq = none ∨ ∃ l ∈ p.lastSeq, (d.sequence - l).toNat = 1) →
      ∀ b : Registers, p.baselines = some b →
      let e := increments d.registers b
      let q : Point := { p with
        lastSeq := some d.sequence
        baselines := some d.registers
        sub := p.sub.map (fun b => { b with accepted := true }) }
      (p.config.lossLimit ≤ p.missingCount → p.takeReading d =
        ({ q with unattributed := p.unattributed.satAdd max64 e, totals := p.totals.satAdd max64 e,
                  missingCount := 0 }, .recovered)) ∧
      (p.missingCount < p.config.lossLimit → implausible p.config.plausibility e = true → p.takeReading d =
        (Point.raiseStatus { q with life := { p.life with
          discontinuities := min 65535 (p.life.discontinuities + 1) } } .discont, .discontinuity)) ∧
      (p.missingCount < p.config.lossLimit → implausible p.config.plausibility e = false →
        (∀ x : SubInterval, p.sub = some x → p.takeReading d =
          ({ q with sub := some { x with energy := x.energy.satAdd max32 e, accepted := true },
                    totals := p.totals.satAdd max64 e, missingCount := 0 }, .accepted)) ∧
        (p.sub = none → p.takeReading d =
          ({ q with unattributed := p.unattributed.satAdd max64 e, totals := p.totals.satAdd max64 e,
                    missingCount := 0 }, .accepted)))) ∧
    (d.feRestart = false → ∀ l : Byte, p.lastSeq = some l → 2 ≤ (d.sequence - l).toNat →
      (d.sequence - l).toNat ≤ 127 →
      (p.takeReading d).1.life.lost = min 65535 (p.life.lost + ((d.sequence - l).toNat - 1)) ∧
      (p.takeReading d).1.lastSeq = some d.sequence ∧
      (∀ x ∈ (p.takeReading d).1.sub, x.quality.getLsbD 0 = true) ∧
      p.takeReading d = Point.takeReading { p with
        lastSeq := some (d.sequence - 1)
        life := { p.life with lost := min 65535 (p.life.lost + ((d.sequence - l).toNat - 1)) }
        sub := p.sub.map (fun b => { b with quality := b.quality ||| 1#5 }) } d ∧
      (p.baselines.isSome = true → p.missingCount < p.config.lossLimit → ∀ b ∈ p.baselines,
        implausible p.config.plausibility (increments d.registers b) = false →
        (p.takeReading d).2 = .accepted ∧ (p.takeReading d).1.missingCount = 0 ∧
        (p.takeReading d).1.totals = p.totals.satAdd max64 (increments d.registers b) ∧
        (p.takeReading d).1.sub = p.sub.map (fun x =>
          { x with energy := x.energy.satAdd max32 (increments d.registers b), accepted := true
                   quality := x.quality ||| 1#5 }) ∧
        (p.takeReading d).1.unattributed = (if p.sub.isSome then p.unattributed
          else p.unattributed.satAdd max64 (increments d.registers b)))) ∧
    (∀ v b : Registers, increments v b =
      { ai := (v.ai.toNat + 4294967296 - b.ai.toNat) % 4294967296
        ae := (v.ae.toNat + 4294967296 - b.ae.toNat) % 4294967296
        rl := (v.rl.toNat + 4294967296 - b.rl.toNat) % 4294967296
        rc := (v.rc.toNat + 4294967296 - b.rc.toNat) % 4294967296 }) ∧
    (∀ (limit : Nat) (e : Energies),
      implausible limit e = true ↔ limit < e.ai ∨ limit < e.ae ∨ limit < e.rl ∨ limit < e.rc) ∧
    (∀ (limit : Nat) (a e : Energies), a.satAdd limit e =
      { ai := min limit (a.ai + e.ai), ae := min limit (a.ae + e.ae), rl := min limit (a.rl + e.rl),
        rc := min limit (a.rc + e.rc) }) ∧
    (max16 = 65535 ∧ max32 = 4294967295 ∧ max64 = 18446744073709551615) ∧
    (∀ f : StatusFlag, p.raiseStatus f = { p with
      status := p.status ||| BitVec.twoPow 6 (statusFlagPlace f)
      attention := p.attention || (!p.status.getLsbD (statusFlagPlace f) &&
        p.config.attentionMask.getLsbD (statusFlagPlace f)) })

/-- The boundary of a clock (R63). At each of its points (R64, R65, R69 to R73): an open sub-interval is closed;
without an accepted frame it gains NODATA and counts missing, with LOSS as the count comes equal to the limit (R5);
with GAP it counts; its Ai is attributed and pushed onto the ring of at most W entries. A full ring gives the
present demand, the entries' Ai times 60/(L×W), stamped; an eligible window raises the maxima it exceeds and no
other, and is checked against the contract, for EXCEED or WARN; a full window that is not eligible counts. A flag
that rises under the attention mask sets the attention bit (R10). At a self-advance TIME_HOLDOVER is raised at every
point first (R46). Then, at the clock (R74, R76, R96, R104): a sum of the eligible demands above the coincident peak
becomes the peak, with stamp and contributions; a pending clock settles its share of the close, its points still in
P closing with a record each, its peak going back to 0 and the close completing with the last clock; every point's
next sub-interval opens; the hold counter counts down. -/
def Obligations.BoundaryClosesAndEvaluates : Prop :=
  (∀ (p : Point) (option : Option PenaltyOption) (c : Clock) (now : CalTime),
    let q := p.boundary option c now
    (q.sub = none ∧ q.config = p.config ∧ q.totals = p.totals ∧ q.unattributed = p.unattributed ∧
      q.baselines = p.baselines ∧ q.lastSeq = p.lastSeq ∧ q.life = p.life ∧ q.periodFlags = p.periodFlags ∧
      q.period = p.period ∧ q.operator = p.operator ∧ q.conflict = p.conflict ∧ q.contribution = p.contribution ∧
      q.ratchet = p.ratchet ∧ q.residues = p.residues ∧ q.counters.outages = p.counters.outages) ∧
    (∀ b : SubInterval, p.sub = some b →
      q.ring = ({ ai := b.energy.ai
                  ratePeriod := b.ratePeriod
                  quality := if b.accepted then b.quality else b.quality ||| 2#5 } :: p.ring).take c.window ∧
      q.attributed = min max64 (p.attributed + b.energy.ai) ∧
      q.missingCount = (if b.accepted then p.missingCount else min 255 (p.missingCount + 1)) ∧
      q.counters.missing = (if b.accepted then p.counters.missing else min 65535 (p.counters.missing + 1)) ∧
      q.counters.gap = (if b.quality.getLsbD 0 then min 65535 (p.counters.gap + 1) else p.counters.gap) ∧
      q.excessSum = min max64 (p.excessSum + subIntervalExcess option b.energy)) ∧
    (p.sub = none → q.ring = p.ring ∧ q.attributed = p.attributed ∧ q.missingCount = p.missingCount ∧
      q.counters.missing = p.counters.missing ∧ q.counters.gap = p.counters.gap ∧ q.excessSum = p.excessSum) ∧
    (q.ring.length ≠ c.window → q.present = p.present ∧ q.maxAll = p.maxAll ∧ q.maxD = p.maxD ∧
      q.counters.ineligible = p.counters.ineligible) ∧
    (q.ring.length = c.window →
      ∃ f : Bool, q.present = some { demand := demandOf c q, eligible := f, stamp := now } ∧
        (f = true ↔ Eligible c q)) ∧
    (∀ (e : RingEntry) (rest : List RingEntry), q.ring = e :: rest → Eligible c q →
      q.maxAll = (if p.maxAll.value < demandOf c q then { value := demandOf c q, stamp := some now } else p.maxAll) ∧
      q.maxD = p.maxD.set e.ratePeriod (if p.maxD[e.ratePeriod].value < demandOf c q
        then { value := demandOf c q, stamp := some now } else p.maxD[e.ratePeriod]) ∧
      q.counters.ineligible = p.counters.ineligible) ∧
    (q.ring.length = c.window → ¬ Eligible c q → q.maxAll = p.maxAll ∧ q.maxD = p.maxD ∧
      q.counters.ineligible = min 65535 (p.counters.ineligible + 1)) ∧
    q.counters.exceedances = (if Eligible c q ∧ p.config.contract ≠ 0 ∧ p.config.contract ≤ demandOf c q
      then min 65535 (p.counters.exceedances + 1) else p.counters.exceedances) ∧
    ((q.status.getLsbD 0 = true ↔ p.status.getLsbD 0 = true ∨
        ∃ b ∈ p.sub, b.accepted = false ∧ min 255 (p.missingCount + 1) = p.config.lossLimit) ∧
      (q.status.getLsbD 1 = true ↔ p.status.getLsbD 1 = true ∨
        (Eligible c q ∧ p.config.contract ≠ 0 ∧ p.config.contract ≤ demandOf c q)) ∧
      (q.status.getLsbD 2 = true ↔ p.status.getLsbD 2 = true ∨
        (Eligible c q ∧ p.config.contract ≠ 0 ∧ demandOf c q < p.config.contract ∧
          p.config.contract * p.config.warnPercent / 100 ≤ demandOf c q)) ∧
      (∀ b : Nat, 3 ≤ b → q.status.getLsbD b = p.status.getLsbD b) ∧
      (q.attention = true ↔ p.attention = true ∨ ∃ b : Nat, q.status.getLsbD b = true ∧
        p.status.getLsbD b = false ∧ p.config.attentionMask.getLsbD b = true))) ∧
  (∀ (s : State) (k : Fin 4) (now : CalTime) (selfAdvance : Bool),
    let c : Clock := s.clocks[k]
    let after (p : Point) : Point :=
      ({ p with periodFlags := if selfAdvance then p.periodFlags ||| 1#4 else p.periodFlags } : Point).boundary
        (p.config.option.map (fun o => s.tariff.active.options[o])) c now
    let sum : Nat := (s.points.toList.map (fun x =>
      match x with
      | some p => if p.config.clock = some k then shareOf c (after p) else 0
      | none => 0)).sum
    let t := s.boundary k now selfAdvance
    t = { s with
      points := t.points, clocks := t.clocks, close := t.close, history := t.history, tariff := t.tariff
      attention := t.attention } ∧
    (∀ j : Fin 4, j ≠ k → t.clocks[j] = s.clocks[j]) ∧
    (∀ i : Fin 32, s.points[i] = none → t.points[i] = none) ∧
    (∀ (i : Fin 32) (p : Point), s.points[i] = some p → p.config.clock ≠ some k → t.points[i] = some p) ∧
    (s.close.inFlight = none ∨ hasFlag s.close.pendingSet k.val = false →
      t.close = s.close ∧ t.history = s.history ∧ t.tariff = s.tariff ∧ t.attention = s.attention ∧
      t.clocks[k] = { c with
        hold := c.hold - 1
        peak := if c.peak < sum then sum else c.peak
        peakStamp := if c.peak < sum then some now else c.peakStamp } ∧
      ∀ (i : Fin 32) (p : Point), s.points[i] = some p → p.config.clock = some k →
        t.points[i] = some { after p with
          contribution := if c.peak < sum then shareOf c (after p) else p.contribution
          sub := some (openedSub s.tariff.active c now (p.operator || p.conflict)) }) ∧
    (∀ closing : BitVec 16, s.close.inFlight = some closing → hasFlag s.close.pendingSet k.val = true →
      LeavesPending s t k closing ∧
      t.clocks[k] = { c with hold := c.hold - 1, peak := 0, peakStamp := none } ∧
      (∃ rs : List BillingRecord, Records s.history t.history (pointsIn s k closing) closing (some now) false rs ∧
        ∀ r ∈ rs, r.clockPeak = max c.peak sum ∧ ∀ p ∈ s.points[r.point],
          r.contribution = (if c.peak < sum then shareOf c (after p) else p.contribution) ∧
          r.maxAll = (after p).maxAll ∧ r.attributed = (after p).attributed) ∧
      ∀ (i : Fin 32) (p : Point), s.points[i] = some p → p.config.clock = some k →
        ∃ q : Point, t.points[i] = some q ∧ q.contribution = 0 ∧
          q.sub = some (openedSub t.tariff.active c now (p.operator || p.conflict)) ∧ q.ring = (after p).ring ∧
          q.period = (if p.period = closing then closing + 1 else p.period) ∧
          (p.period = closing → q.ratchet = ((after p).maxAll.value :: p.ratchet).take 12 ∧
            q.maxAll = { value := 0, stamp := none } ∧ q.totals = { ai := 0, ae := 0, rl := 0, rc := 0 }) ∧
          (p.period ≠ closing → q = { after p with contribution := 0, sub := q.sub })))

/-! ## Invariants -/

/-- Every step keeps the limits of the port: 4 frames in the pass-through buffer, 8 in the insert queue, a
forward streak of 4 (R159, R169). -/
def Obligations.StepKeepsPortWithinLimits : Prop :=
  ∀ s t : State, s.PortWithin → step s = .next t → t.PortWithin

/-- Every step keeps the time base consistent and every clock's settings valid (R37, R38, R44, R55, R56). On a
premise of its own, every step keeps every table of both tariff sets valid (R144, R147): the seasons, holidays and
profiles that the rate period is read from, the close instant, the schedules and the options. -/
def Obligations.StepKeepsTimeAndClocksValid : Prop :=
  (∀ s t : State, s.TimeConsistent → s.ClocksValid → step s = .next t → t.TimeConsistent ∧ t.ClocksValid) ∧
  (∀ s t : State, s.TariffInRange → step s = .next t → t.TariffInRange)

/-- Every step keeps every point within its ranges: record fields, saturating counters and energies, twelve
ratchet entries, residues in −50..49, maxAll the largest maximum (R1, R5, R7 to R9, R32, R71, R102, R123). On a
premise of its own, every step keeps the rule that a last sequence comes with baselines and that a sub-interval with
GAP has its marker set (R24, R26, R67). -/
def Obligations.StepKeepsPointsInRange : Prop :=
  (∀ s t : State, s.PointsInRange → step s = .next t → t.PointsInRange) ∧
  (∀ s t : State, s.GapsAccepted → step s = .next t → t.GapsAccepted)

/-- Every step keeps CONFLICT, HELD_SEEN and the rings as derived, the open sub-intervals where R66 puts them,
and the close unit in agreement with the points' period numbers (R3, R6, R65, R91, R94, R106). -/
def Obligations.StepKeepsHoldsSubIntervalsAndPeriods : Prop :=
  ∀ s t : State, s.HoldsDerived → s.SubIntervalsDerived → s.PeriodsConsistent → step s = .next t →
    t.HoldsDerived ∧ t.SubIntervalsDerived ∧ t.PeriodsConsistent

/-- Every step keeps each clock's coincident peak at or above the sum of its points' contributions (R75). -/
def Obligations.StepKeepsSharesWithinPeak : Prop :=
  ∀ s t : State, s.SharesWithinPeak → step s = .next t → t.SharesWithinPeak

/-- Every step keeps the history store in order: valid records one after the other with rising sequences, and no
two of one point and period (R125, R127). -/
def Obligations.StepKeepsHistoryOrdered : Prop :=
  ∀ s t : State, s.history.Ordered → step s = .next t → t.history.Ordered

/-- While the commissioning lock is set, no step changes a point's configuration record, a clock's settings, or
either tariff set, and the lock stands; only a cold start, or the loss of the backup domain, ends it, and takes
all of these back to their first values (at once while VDD is absent: log 10). Every step keeps the rule that no
activation is marked under the lock (R156). -/
def Obligations.CommissioningLockFreezesSettings : Prop :=
  ∀ s t : State, s.LockExcludesMark → step s = .next t →
    t.LockExcludesMark ∧
    (s.decoder.commissioning = true →
      (t.decoder.commissioning = true ∧ t.tariff = s.tariff ∧
        (∀ k : Fin 4, t.clocks[k].enabled = s.clocks[k].enabled ∧ t.clocks[k].length = s.clocks[k].length ∧
          t.clocks[k].window = s.clocks[k].window ∧ t.clocks[k].holdLength = s.clocks[k].holdLength) ∧
        (∀ i : Fin 32, t.points[i].map (·.config) = s.points[i].map (·.config))) ∨
      (s.supply.vdd = false ∧ t.decoder.commissioning = false ∧ t.tariff = TariffStore.cold ∧
        (∀ k : Fin 4, t.clocks[k] = Clock.cold) ∧ (∀ i : Fin 32, t.points[i] = none)))

/-- The state after reset meets every invariant, and every block is at its own cold-start values (R11, R37, R55,
R91, R124, R130, R145, R159, R171, R179, R188): no point, clocks disabled at L = 15 and W = 1, the time UNSET, the
never-loaded tariff sets. -/
def Obligations.ResetMeetsEveryInvariant : Prop :=
  State.reset.Safe ∧
  State.reset.points = Vector.replicate 32 none ∧
  State.reset.clocks = Vector.replicate 4
    { enabled := false, length := 15, window := 1, holdLength := 0, hold := 0, peak := 0, peakStamp := none } ∧
  State.reset.time = { calendar := none, state := .unset, timer := .stopped, holdover := 0, lastClose := none,
                       duplicates := 0, invalid := 0, steps := 0 } ∧
  (∀ set : TariffSet, set =
    { seasons := [], weekdays := Vector.replicate 7 0, holidays := [], profileMap := Vector.replicate 16 0
      profiles := Vector.replicate 8 [], closeInstant := none
      schedules := Vector.replicate 8 { rateTOU := Vector.replicate 4 0, rateFAC := 0, rateVAR := 0
                                        ratchetMonths := 0, ratchetPercent := 0, minPercent := 0 }
      options := Vector.replicate 4 { threshold := 0, leading := false, subinterval := false } } →
    State.reset.tariff = { active := set, pending := set, atClose := false }) ∧
  State.reset.close = { inFlight := none, pendingSet := 0, devicePeriod := 0 } ∧
  State.reset.history = { slots := Vector.replicate 384 none, writeIndex := 0, valid := 0, sequence := 0 } ∧
  State.reset.readout = { phase := .idle, lastEnd := none } ∧
  State.reset.attention = { flags := 0, mask := 0, bit := false } ∧ State.reset.unusedReadings = 0 ∧
  State.reset.decoder = { station := none, clearable := false, commissioning := false, startKind := .cold
                          startAck := false, restartPending := false } ∧
  State.reset.port = { framer := .hunt, buffer := [], queue := [], transmitter := .free, streak := 0
                       counters := { crc := 0, truncated := 0, malformed := 0, stray := 0, forwardOverruns := 0
                                     requestOverruns := 0 } }
end

