-- ==== Sys2Proof/Laws/State.lean ====
section
/-! SUPPORT. What each named update of the state leaves unchanged, field by field, so that no later proof
unfolds a record update; and what the updates of points and clocks read back as. -/

-- One declaration after the other: the package as one text then needs few threads.
set_option Elab.async false

namespace Sys2Proof.Machine

variable (s : State)

/-! ## setPoint -/

@[simp] theorem State.setPoint_pending (i : Fin 32) (p : Option Point) : (s.setPoint i p).pending = s.pending := rfl
@[simp] theorem State.setPoint_lineIn (i : Fin 32) (p : Option Point) : (s.setPoint i p).lineIn = s.lineIn := rfl
@[simp] theorem State.setPoint_freeIndex (i : Fin 32) (p : Option Point) : (s.setPoint i p).freeIndex = s.freeIndex := rfl
@[simp] theorem State.setPoint_supply (i : Fin 32) (p : Option Point) : (s.setPoint i p).supply = s.supply := rfl
@[simp] theorem State.setPoint_port (i : Fin 32) (p : Option Point) : (s.setPoint i p).port = s.port := rfl
@[simp] theorem State.setPoint_unusedReadings (i : Fin 32) (p : Option Point) : (s.setPoint i p).unusedReadings = s.unusedReadings := rfl
@[simp] theorem State.setPoint_decoder (i : Fin 32) (p : Option Point) : (s.setPoint i p).decoder = s.decoder := rfl
@[simp] theorem State.setPoint_time (i : Fin 32) (p : Option Point) : (s.setPoint i p).time = s.time := rfl
@[simp] theorem State.setPoint_clocks (i : Fin 32) (p : Option Point) : (s.setPoint i p).clocks = s.clocks := rfl
@[simp] theorem State.setPoint_tariff (i : Fin 32) (p : Option Point) : (s.setPoint i p).tariff = s.tariff := rfl
@[simp] theorem State.setPoint_close (i : Fin 32) (p : Option Point) : (s.setPoint i p).close = s.close := rfl
@[simp] theorem State.setPoint_history (i : Fin 32) (p : Option Point) : (s.setPoint i p).history = s.history := rfl
@[simp] theorem State.setPoint_readout (i : Fin 32) (p : Option Point) : (s.setPoint i p).readout = s.readout := rfl
@[simp] theorem State.setPoint_attention (i : Fin 32) (p : Option Point) : (s.setPoint i p).attention = s.attention := rfl

/-! ## mapPoints -/

@[simp] theorem State.mapPoints_pending (f : Point → Point) : (s.mapPoints f).pending = s.pending := rfl
@[simp] theorem State.mapPoints_lineIn (f : Point → Point) : (s.mapPoints f).lineIn = s.lineIn := rfl
@[simp] theorem State.mapPoints_freeIndex (f : Point → Point) : (s.mapPoints f).freeIndex = s.freeIndex := rfl
@[simp] theorem State.mapPoints_supply (f : Point → Point) : (s.mapPoints f).supply = s.supply := rfl
@[simp] theorem State.mapPoints_port (f : Point → Point) : (s.mapPoints f).port = s.port := rfl
@[simp] theorem State.mapPoints_unusedReadings (f : Point → Point) : (s.mapPoints f).unusedReadings = s.unusedReadings := rfl
@[simp] theorem State.mapPoints_decoder (f : Point → Point) : (s.mapPoints f).decoder = s.decoder := rfl
@[simp] theorem State.mapPoints_time (f : Point → Point) : (s.mapPoints f).time = s.time := rfl
@[simp] theorem State.mapPoints_clocks (f : Point → Point) : (s.mapPoints f).clocks = s.clocks := rfl
@[simp] theorem State.mapPoints_tariff (f : Point → Point) : (s.mapPoints f).tariff = s.tariff := rfl
@[simp] theorem State.mapPoints_close (f : Point → Point) : (s.mapPoints f).close = s.close := rfl
@[simp] theorem State.mapPoints_history (f : Point → Point) : (s.mapPoints f).history = s.history := rfl
@[simp] theorem State.mapPoints_readout (f : Point → Point) : (s.mapPoints f).readout = s.readout := rfl
@[simp] theorem State.mapPoints_attention (f : Point → Point) : (s.mapPoints f).attention = s.attention := rfl

/-! ## mapPointsOn -/

@[simp] theorem State.mapPointsOn_pending (k : Fin 4) (f : Point → Point) : (s.mapPointsOn k f).pending = s.pending := rfl
@[simp] theorem State.mapPointsOn_lineIn (k : Fin 4) (f : Point → Point) : (s.mapPointsOn k f).lineIn = s.lineIn := rfl
@[simp] theorem State.mapPointsOn_freeIndex (k : Fin 4) (f : Point → Point) : (s.mapPointsOn k f).freeIndex = s.freeIndex := rfl
@[simp] theorem State.mapPointsOn_supply (k : Fin 4) (f : Point → Point) : (s.mapPointsOn k f).supply = s.supply := rfl
@[simp] theorem State.mapPointsOn_port (k : Fin 4) (f : Point → Point) : (s.mapPointsOn k f).port = s.port := rfl
@[simp] theorem State.mapPointsOn_unusedReadings (k : Fin 4) (f : Point → Point) : (s.mapPointsOn k f).unusedReadings = s.unusedReadings := rfl
@[simp] theorem State.mapPointsOn_decoder (k : Fin 4) (f : Point → Point) : (s.mapPointsOn k f).decoder = s.decoder := rfl
@[simp] theorem State.mapPointsOn_time (k : Fin 4) (f : Point → Point) : (s.mapPointsOn k f).time = s.time := rfl
@[simp] theorem State.mapPointsOn_clocks (k : Fin 4) (f : Point → Point) : (s.mapPointsOn k f).clocks = s.clocks := rfl
@[simp] theorem State.mapPointsOn_tariff (k : Fin 4) (f : Point → Point) : (s.mapPointsOn k f).tariff = s.tariff := rfl
@[simp] theorem State.mapPointsOn_close (k : Fin 4) (f : Point → Point) : (s.mapPointsOn k f).close = s.close := rfl
@[simp] theorem State.mapPointsOn_history (k : Fin 4) (f : Point → Point) : (s.mapPointsOn k f).history = s.history := rfl
@[simp] theorem State.mapPointsOn_readout (k : Fin 4) (f : Point → Point) : (s.mapPointsOn k f).readout = s.readout := rfl
@[simp] theorem State.mapPointsOn_attention (k : Fin 4) (f : Point → Point) : (s.mapPointsOn k f).attention = s.attention := rfl

/-! ## setClock -/

@[simp] theorem State.setClock_pending (k : Fin 4) (c : Clock) : (s.setClock k c).pending = s.pending := rfl
@[simp] theorem State.setClock_lineIn (k : Fin 4) (c : Clock) : (s.setClock k c).lineIn = s.lineIn := rfl
@[simp] theorem State.setClock_freeIndex (k : Fin 4) (c : Clock) : (s.setClock k c).freeIndex = s.freeIndex := rfl
@[simp] theorem State.setClock_supply (k : Fin 4) (c : Clock) : (s.setClock k c).supply = s.supply := rfl
@[simp] theorem State.setClock_port (k : Fin 4) (c : Clock) : (s.setClock k c).port = s.port := rfl
@[simp] theorem State.setClock_unusedReadings (k : Fin 4) (c : Clock) : (s.setClock k c).unusedReadings = s.unusedReadings := rfl
@[simp] theorem State.setClock_decoder (k : Fin 4) (c : Clock) : (s.setClock k c).decoder = s.decoder := rfl
@[simp] theorem State.setClock_time (k : Fin 4) (c : Clock) : (s.setClock k c).time = s.time := rfl
@[simp] theorem State.setClock_points (k : Fin 4) (c : Clock) : (s.setClock k c).points = s.points := rfl
@[simp] theorem State.setClock_tariff (k : Fin 4) (c : Clock) : (s.setClock k c).tariff = s.tariff := rfl
@[simp] theorem State.setClock_close (k : Fin 4) (c : Clock) : (s.setClock k c).close = s.close := rfl
@[simp] theorem State.setClock_history (k : Fin 4) (c : Clock) : (s.setClock k c).history = s.history := rfl
@[simp] theorem State.setClock_readout (k : Fin 4) (c : Clock) : (s.setClock k c).readout = s.readout := rfl
@[simp] theorem State.setClock_attention (k : Fin 4) (c : Clock) : (s.setClock k c).attention = s.attention := rfl

/-! ## raiseDevice -/

@[simp] theorem State.raiseDevice_pending (f : DeviceFlag) : (s.raiseDevice f).pending = s.pending := rfl
@[simp] theorem State.raiseDevice_lineIn (f : DeviceFlag) : (s.raiseDevice f).lineIn = s.lineIn := rfl
@[simp] theorem State.raiseDevice_freeIndex (f : DeviceFlag) : (s.raiseDevice f).freeIndex = s.freeIndex := rfl
@[simp] theorem State.raiseDevice_supply (f : DeviceFlag) : (s.raiseDevice f).supply = s.supply := rfl
@[simp] theorem State.raiseDevice_port (f : DeviceFlag) : (s.raiseDevice f).port = s.port := rfl
@[simp] theorem State.raiseDevice_unusedReadings (f : DeviceFlag) : (s.raiseDevice f).unusedReadings = s.unusedReadings := rfl
@[simp] theorem State.raiseDevice_decoder (f : DeviceFlag) : (s.raiseDevice f).decoder = s.decoder := rfl
@[simp] theorem State.raiseDevice_time (f : DeviceFlag) : (s.raiseDevice f).time = s.time := rfl
@[simp] theorem State.raiseDevice_clocks (f : DeviceFlag) : (s.raiseDevice f).clocks = s.clocks := rfl
@[simp] theorem State.raiseDevice_points (f : DeviceFlag) : (s.raiseDevice f).points = s.points := rfl
@[simp] theorem State.raiseDevice_tariff (f : DeviceFlag) : (s.raiseDevice f).tariff = s.tariff := rfl
@[simp] theorem State.raiseDevice_close (f : DeviceFlag) : (s.raiseDevice f).close = s.close := rfl
@[simp] theorem State.raiseDevice_history (f : DeviceFlag) : (s.raiseDevice f).history = s.history := rfl
@[simp] theorem State.raiseDevice_readout (f : DeviceFlag) : (s.raiseDevice f).readout = s.readout := rfl

/-! ## huntFramer -/

@[simp] theorem State.huntFramer_pending : s.huntFramer.pending = s.pending := rfl
@[simp] theorem State.huntFramer_lineIn : s.huntFramer.lineIn = s.lineIn := rfl
@[simp] theorem State.huntFramer_freeIndex : s.huntFramer.freeIndex = s.freeIndex := rfl
@[simp] theorem State.huntFramer_supply : s.huntFramer.supply = s.supply := rfl
@[simp] theorem State.huntFramer_unusedReadings : s.huntFramer.unusedReadings = s.unusedReadings := rfl
@[simp] theorem State.huntFramer_decoder : s.huntFramer.decoder = s.decoder := rfl
@[simp] theorem State.huntFramer_time : s.huntFramer.time = s.time := rfl
@[simp] theorem State.huntFramer_clocks : s.huntFramer.clocks = s.clocks := rfl
@[simp] theorem State.huntFramer_points : s.huntFramer.points = s.points := rfl
@[simp] theorem State.huntFramer_tariff : s.huntFramer.tariff = s.tariff := rfl
@[simp] theorem State.huntFramer_close : s.huntFramer.close = s.close := rfl
@[simp] theorem State.huntFramer_history : s.huntFramer.history = s.history := rfl
@[simp] theorem State.huntFramer_readout : s.huntFramer.readout = s.readout := rfl
@[simp] theorem State.huntFramer_attention : s.huntFramer.attention = s.attention := rfl

/-! ## enqueue -/

@[simp] theorem State.enqueue_pending (q : QueuedFrame) : (s.enqueue q).pending = s.pending := rfl
@[simp] theorem State.enqueue_lineIn (q : QueuedFrame) : (s.enqueue q).lineIn = s.lineIn := rfl
@[simp] theorem State.enqueue_freeIndex (q : QueuedFrame) : (s.enqueue q).freeIndex = s.freeIndex := rfl
@[simp] theorem State.enqueue_supply (q : QueuedFrame) : (s.enqueue q).supply = s.supply := rfl
@[simp] theorem State.enqueue_unusedReadings (q : QueuedFrame) : (s.enqueue q).unusedReadings = s.unusedReadings := rfl
@[simp] theorem State.enqueue_decoder (q : QueuedFrame) : (s.enqueue q).decoder = s.decoder := rfl
@[simp] theorem State.enqueue_time (q : QueuedFrame) : (s.enqueue q).time = s.time := rfl
@[simp] theorem State.enqueue_clocks (q : QueuedFrame) : (s.enqueue q).clocks = s.clocks := rfl
@[simp] theorem State.enqueue_points (q : QueuedFrame) : (s.enqueue q).points = s.points := rfl
@[simp] theorem State.enqueue_tariff (q : QueuedFrame) : (s.enqueue q).tariff = s.tariff := rfl
@[simp] theorem State.enqueue_close (q : QueuedFrame) : (s.enqueue q).close = s.close := rfl
@[simp] theorem State.enqueue_history (q : QueuedFrame) : (s.enqueue q).history = s.history := rfl
@[simp] theorem State.enqueue_readout (q : QueuedFrame) : (s.enqueue q).readout = s.readout := rfl
@[simp] theorem State.enqueue_attention (q : QueuedFrame) : (s.enqueue q).attention = s.attention := rfl

/-! ## discardFrame -/

@[simp] theorem State.discardFrame_pending (f : DiscardFault) : (s.discardFrame f).pending = s.pending := rfl
@[simp] theorem State.discardFrame_lineIn (f : DiscardFault) : (s.discardFrame f).lineIn = s.lineIn := rfl
@[simp] theorem State.discardFrame_freeIndex (f : DiscardFault) : (s.discardFrame f).freeIndex = s.freeIndex := rfl
@[simp] theorem State.discardFrame_supply (f : DiscardFault) : (s.discardFrame f).supply = s.supply := rfl
@[simp] theorem State.discardFrame_unusedReadings (f : DiscardFault) : (s.discardFrame f).unusedReadings = s.unusedReadings := rfl
@[simp] theorem State.discardFrame_decoder (f : DiscardFault) : (s.discardFrame f).decoder = s.decoder := rfl
@[simp] theorem State.discardFrame_time (f : DiscardFault) : (s.discardFrame f).time = s.time := rfl
@[simp] theorem State.discardFrame_clocks (f : DiscardFault) : (s.discardFrame f).clocks = s.clocks := rfl
@[simp] theorem State.discardFrame_points (f : DiscardFault) : (s.discardFrame f).points = s.points := rfl
@[simp] theorem State.discardFrame_tariff (f : DiscardFault) : (s.discardFrame f).tariff = s.tariff := rfl
@[simp] theorem State.discardFrame_close (f : DiscardFault) : (s.discardFrame f).close = s.close := rfl
@[simp] theorem State.discardFrame_history (f : DiscardFault) : (s.discardFrame f).history = s.history := rfl
@[simp] theorem State.discardFrame_readout (f : DiscardFault) : (s.discardFrame f).readout = s.readout := rfl

/-! ## truncateFrame -/

@[simp] theorem State.truncateFrame_pending : s.truncateFrame.pending = s.pending := rfl
@[simp] theorem State.truncateFrame_lineIn : s.truncateFrame.lineIn = s.lineIn := rfl
@[simp] theorem State.truncateFrame_freeIndex : s.truncateFrame.freeIndex = s.freeIndex := rfl
@[simp] theorem State.truncateFrame_supply : s.truncateFrame.supply = s.supply := rfl
@[simp] theorem State.truncateFrame_unusedReadings : s.truncateFrame.unusedReadings = s.unusedReadings := rfl
@[simp] theorem State.truncateFrame_decoder : s.truncateFrame.decoder = s.decoder := rfl
@[simp] theorem State.truncateFrame_time : s.truncateFrame.time = s.time := rfl
@[simp] theorem State.truncateFrame_clocks : s.truncateFrame.clocks = s.clocks := rfl
@[simp] theorem State.truncateFrame_points : s.truncateFrame.points = s.points := rfl
@[simp] theorem State.truncateFrame_tariff : s.truncateFrame.tariff = s.tariff := rfl
@[simp] theorem State.truncateFrame_close : s.truncateFrame.close = s.close := rfl
@[simp] theorem State.truncateFrame_history : s.truncateFrame.history = s.history := rfl
@[simp] theorem State.truncateFrame_readout : s.truncateFrame.readout = s.readout := rfl

/-! ## requestOverrun -/

@[simp] theorem State.requestOverrun_pending : s.requestOverrun.pending = s.pending := rfl
@[simp] theorem State.requestOverrun_lineIn : s.requestOverrun.lineIn = s.lineIn := rfl
@[simp] theorem State.requestOverrun_freeIndex : s.requestOverrun.freeIndex = s.freeIndex := rfl
@[simp] theorem State.requestOverrun_supply : s.requestOverrun.supply = s.supply := rfl
@[simp] theorem State.requestOverrun_unusedReadings : s.requestOverrun.unusedReadings = s.unusedReadings := rfl
@[simp] theorem State.requestOverrun_decoder : s.requestOverrun.decoder = s.decoder := rfl
@[simp] theorem State.requestOverrun_time : s.requestOverrun.time = s.time := rfl
@[simp] theorem State.requestOverrun_clocks : s.requestOverrun.clocks = s.clocks := rfl
@[simp] theorem State.requestOverrun_points : s.requestOverrun.points = s.points := rfl
@[simp] theorem State.requestOverrun_tariff : s.requestOverrun.tariff = s.tariff := rfl
@[simp] theorem State.requestOverrun_close : s.requestOverrun.close = s.close := rfl
@[simp] theorem State.requestOverrun_history : s.requestOverrun.history = s.history := rfl
@[simp] theorem State.requestOverrun_readout : s.requestOverrun.readout = s.readout := rfl

/-! ## endReadout -/

@[simp] theorem State.endReadout_pending (j : ReadoutJob) (r : EndReason) : (s.endReadout j r).pending = s.pending := rfl
@[simp] theorem State.endReadout_lineIn (j : ReadoutJob) (r : EndReason) : (s.endReadout j r).lineIn = s.lineIn := rfl
@[simp] theorem State.endReadout_freeIndex (j : ReadoutJob) (r : EndReason) : (s.endReadout j r).freeIndex = s.freeIndex := rfl
@[simp] theorem State.endReadout_supply (j : ReadoutJob) (r : EndReason) : (s.endReadout j r).supply = s.supply := rfl
@[simp] theorem State.endReadout_port (j : ReadoutJob) (r : EndReason) : (s.endReadout j r).port = s.port := rfl
@[simp] theorem State.endReadout_unusedReadings (j : ReadoutJob) (r : EndReason) : (s.endReadout j r).unusedReadings = s.unusedReadings := rfl
@[simp] theorem State.endReadout_decoder (j : ReadoutJob) (r : EndReason) : (s.endReadout j r).decoder = s.decoder := rfl
@[simp] theorem State.endReadout_time (j : ReadoutJob) (r : EndReason) : (s.endReadout j r).time = s.time := rfl
@[simp] theorem State.endReadout_clocks (j : ReadoutJob) (r : EndReason) : (s.endReadout j r).clocks = s.clocks := rfl
@[simp] theorem State.endReadout_points (j : ReadoutJob) (r : EndReason) : (s.endReadout j r).points = s.points := rfl
@[simp] theorem State.endReadout_tariff (j : ReadoutJob) (r : EndReason) : (s.endReadout j r).tariff = s.tariff := rfl
@[simp] theorem State.endReadout_close (j : ReadoutJob) (r : EndReason) : (s.endReadout j r).close = s.close := rfl
@[simp] theorem State.endReadout_history (j : ReadoutJob) (r : EndReason) : (s.endReadout j r).history = s.history := rfl

/-! ## enterEmit -/

@[simp] theorem State.enterEmit_pending (j : ReadoutJob) (r : Run) : (s.enterEmit j r).pending = s.pending := rfl
@[simp] theorem State.enterEmit_lineIn (j : ReadoutJob) (r : Run) : (s.enterEmit j r).lineIn = s.lineIn := rfl
@[simp] theorem State.enterEmit_freeIndex (j : ReadoutJob) (r : Run) : (s.enterEmit j r).freeIndex = s.freeIndex := rfl
@[simp] theorem State.enterEmit_supply (j : ReadoutJob) (r : Run) : (s.enterEmit j r).supply = s.supply := rfl
@[simp] theorem State.enterEmit_port (j : ReadoutJob) (r : Run) : (s.enterEmit j r).port = s.port := rfl
@[simp] theorem State.enterEmit_unusedReadings (j : ReadoutJob) (r : Run) : (s.enterEmit j r).unusedReadings = s.unusedReadings := rfl
@[simp] theorem State.enterEmit_decoder (j : ReadoutJob) (r : Run) : (s.enterEmit j r).decoder = s.decoder := rfl
@[simp] theorem State.enterEmit_time (j : ReadoutJob) (r : Run) : (s.enterEmit j r).time = s.time := rfl
@[simp] theorem State.enterEmit_clocks (j : ReadoutJob) (r : Run) : (s.enterEmit j r).clocks = s.clocks := rfl
@[simp] theorem State.enterEmit_points (j : ReadoutJob) (r : Run) : (s.enterEmit j r).points = s.points := rfl
@[simp] theorem State.enterEmit_tariff (j : ReadoutJob) (r : Run) : (s.enterEmit j r).tariff = s.tariff := rfl
@[simp] theorem State.enterEmit_close (j : ReadoutJob) (r : Run) : (s.enterEmit j r).close = s.close := rfl
@[simp] theorem State.enterEmit_history (j : ReadoutJob) (r : Run) : (s.enterEmit j r).history = s.history := rfl
@[simp] theorem State.enterEmit_attention (j : ReadoutJob) (r : Run) : (s.enterEmit j r).attention = s.attention := rfl

/-! ## queueReadoutEnd -/

@[simp] theorem State.queueReadoutEnd_pending (j : ReadoutJob) (r : EndReason) : (s.queueReadoutEnd j r).pending = s.pending := rfl
@[simp] theorem State.queueReadoutEnd_lineIn (j : ReadoutJob) (r : EndReason) : (s.queueReadoutEnd j r).lineIn = s.lineIn := rfl
@[simp] theorem State.queueReadoutEnd_freeIndex (j : ReadoutJob) (r : EndReason) : (s.queueReadoutEnd j r).freeIndex = s.freeIndex := rfl
@[simp] theorem State.queueReadoutEnd_supply (j : ReadoutJob) (r : EndReason) : (s.queueReadoutEnd j r).supply = s.supply := rfl
@[simp] theorem State.queueReadoutEnd_unusedReadings (j : ReadoutJob) (r : EndReason) : (s.queueReadoutEnd j r).unusedReadings = s.unusedReadings := rfl
@[simp] theorem State.queueReadoutEnd_decoder (j : ReadoutJob) (r : EndReason) : (s.queueReadoutEnd j r).decoder = s.decoder := rfl
@[simp] theorem State.queueReadoutEnd_time (j : ReadoutJob) (r : EndReason) : (s.queueReadoutEnd j r).time = s.time := rfl
@[simp] theorem State.queueReadoutEnd_clocks (j : ReadoutJob) (r : EndReason) : (s.queueReadoutEnd j r).clocks = s.clocks := rfl
@[simp] theorem State.queueReadoutEnd_points (j : ReadoutJob) (r : EndReason) : (s.queueReadoutEnd j r).points = s.points := rfl
@[simp] theorem State.queueReadoutEnd_tariff (j : ReadoutJob) (r : EndReason) : (s.queueReadoutEnd j r).tariff = s.tariff := rfl
@[simp] theorem State.queueReadoutEnd_close (j : ReadoutJob) (r : EndReason) : (s.queueReadoutEnd j r).close = s.close := rfl
@[simp] theorem State.queueReadoutEnd_history (j : ReadoutJob) (r : EndReason) : (s.queueReadoutEnd j r).history = s.history := rfl
@[simp] theorem State.queueReadoutEnd_attention (j : ReadoutJob) (r : EndReason) : (s.queueReadoutEnd j r).attention = s.attention := rfl

/-! ## lockAt -/

@[simp] theorem State.lockAt_pending (t : CalTime) : (s.lockAt t).pending = s.pending := rfl
@[simp] theorem State.lockAt_lineIn (t : CalTime) : (s.lockAt t).lineIn = s.lineIn := rfl
@[simp] theorem State.lockAt_freeIndex (t : CalTime) : (s.lockAt t).freeIndex = s.freeIndex := rfl
@[simp] theorem State.lockAt_supply (t : CalTime) : (s.lockAt t).supply = s.supply := rfl
@[simp] theorem State.lockAt_port (t : CalTime) : (s.lockAt t).port = s.port := rfl
@[simp] theorem State.lockAt_unusedReadings (t : CalTime) : (s.lockAt t).unusedReadings = s.unusedReadings := rfl
@[simp] theorem State.lockAt_decoder (t : CalTime) : (s.lockAt t).decoder = s.decoder := rfl
@[simp] theorem State.lockAt_clocks (t : CalTime) : (s.lockAt t).clocks = s.clocks := rfl
@[simp] theorem State.lockAt_points (t : CalTime) : (s.lockAt t).points = s.points := rfl
@[simp] theorem State.lockAt_tariff (t : CalTime) : (s.lockAt t).tariff = s.tariff := rfl
@[simp] theorem State.lockAt_close (t : CalTime) : (s.lockAt t).close = s.close := rfl
@[simp] theorem State.lockAt_history (t : CalTime) : (s.lockAt t).history = s.history := rfl
@[simp] theorem State.lockAt_readout (t : CalTime) : (s.lockAt t).readout = s.readout := rfl
@[simp] theorem State.lockAt_attention (t : CalTime) : (s.lockAt t).attention = s.attention := rfl

/-! ## applyClear -/

@[simp] theorem State.applyClear_pending (a : ClearArgs) : (s.applyClear a).pending = s.pending := rfl
@[simp] theorem State.applyClear_lineIn (a : ClearArgs) : (s.applyClear a).lineIn = s.lineIn := rfl
@[simp] theorem State.applyClear_freeIndex (a : ClearArgs) : (s.applyClear a).freeIndex = s.freeIndex := rfl
@[simp] theorem State.applyClear_supply (a : ClearArgs) : (s.applyClear a).supply = s.supply := rfl
@[simp] theorem State.applyClear_port (a : ClearArgs) : (s.applyClear a).port = s.port := rfl
@[simp] theorem State.applyClear_unusedReadings (a : ClearArgs) : (s.applyClear a).unusedReadings = s.unusedReadings := rfl
@[simp] theorem State.applyClear_decoder (a : ClearArgs) : (s.applyClear a).decoder = s.decoder := rfl
@[simp] theorem State.applyClear_time (a : ClearArgs) : (s.applyClear a).time = s.time := rfl
@[simp] theorem State.applyClear_clocks (a : ClearArgs) : (s.applyClear a).clocks = s.clocks := rfl
@[simp] theorem State.applyClear_tariff (a : ClearArgs) : (s.applyClear a).tariff = s.tariff := rfl
@[simp] theorem State.applyClear_close (a : ClearArgs) : (s.applyClear a).close = s.close := rfl
@[simp] theorem State.applyClear_history (a : ClearArgs) : (s.applyClear a).history = s.history := rfl
@[simp] theorem State.applyClear_readout (a : ClearArgs) : (s.applyClear a).readout = s.readout := rfl

/-! ## Points and clocks read back -/

@[simp] theorem State.setPoint_points_same (i : Fin 32) (p : Option Point) : (s.setPoint i p).points[i] = p := by
  simp [State.setPoint]

theorem State.setPoint_points_other (i j : Fin 32) (p : Option Point) (h : i ≠ j) :
    (s.setPoint i p).points[j] = s.points[j] := by
  simp only [State.setPoint, Fin.getElem_fin]
  exact Vector.getElem_set_ne _ _ (fun e => h (Fin.ext e))

@[simp] theorem State.mapPoints_points_get (f : Point → Point) (i : Fin 32) :
    (s.mapPoints f).points[i] = s.points[i].map f := by
  simp [State.mapPoints]

@[simp] theorem State.mapPointsOn_points_get (k : Fin 4) (f : Point → Point) (i : Fin 32) :
    (s.mapPointsOn k f).points[i] = s.points[i].map (fun p => if p.onClock k then f p else p) := by
  simp [State.mapPointsOn, State.mapPoints]

@[simp] theorem State.setClock_clocks_same (k : Fin 4) (c : Clock) : (s.setClock k c).clocks[k] = c := by
  simp [State.setClock]

theorem State.setClock_clocks_other (k j : Fin 4) (c : Clock) (h : k ≠ j) :
    (s.setClock k c).clocks[j] = s.clocks[j] := by
  simp only [State.setClock, Fin.getElem_fin]
  exact Vector.getElem_set_ne _ _ (fun e => h (Fin.ext e))

/-! ## Flags -/

theorem hasFlag_addFlag {n : Nat} (b : BitVec n) (i j : Nat) :
    hasFlag (addFlag b i) j = (hasFlag b j || (decide (i < n) && decide (i = j))) := by
  simp only [hasFlag, addFlag, BitVec.getLsbD_or, BitVec.getLsbD_twoPow]

theorem hasFlag_dropFlag {n : Nat} (b : BitVec n) (i j : Nat) :
    hasFlag (dropFlag b i) j = (hasFlag b j && !decide (i = j)) := by
  simp only [hasFlag, dropFlag, BitVec.getLsbD_and, BitVec.getLsbD_not, BitVec.getLsbD_twoPow]
  by_cases h : j < n
  · by_cases e : i = j
    · subst e; simp [h]
    · simp [h, e]
  · simp [BitVec.getLsbD_of_ge b j (Nat.le_of_not_lt h)]

/-- A device flag once raised is raised (R179). -/
theorem State.raiseDevice_flag (f : DeviceFlag) : hasFlag (s.raiseDevice f).attention.flags f.place = true := by
  cases f <;> simp [State.raiseDevice, hasFlag_addFlag, DeviceFlag.place]

/-- Raising a device flag sets the device attention bit exactly when the flag rises from 0 while it is in the
mask, and clears nothing (R179). -/
theorem State.raiseDevice_bit (f : DeviceFlag) :
    (s.raiseDevice f).attention.bit =
      (s.attention.bit || (!hasFlag s.attention.flags f.place && hasFlag s.attention.mask f.place)) := rfl

@[simp] theorem State.raiseDevice_mask (f : DeviceFlag) : (s.raiseDevice f).attention.mask = s.attention.mask := rfl

end Sys2Proof.Machine
end

