-- ==== Sys2Proof/Laws/Loop.lean ====
section
/-! SUPPORT. What the operations of the loop port and of the readout unit can change: the port, the readout
unit and the attention unit, nothing else; and what the insert queue holds after them. -/

-- One declaration after the other: the package as one text then needs few threads.
set_option Elab.async false

namespace Sys2Proof.Machine

/-! ## The frame of the loop operations -/

/-- Two states agree on everything but the port, the readout unit and the attention unit. -/
def LoopFrame (s t : State) : Prop :=
  t = { s with port := t.port, readout := t.readout, attention := t.attention }

theorem LoopFrame.refl (s : State) : LoopFrame s s := rfl

theorem LoopFrame.trans {s t u : State} (h : LoopFrame s t) (g : LoopFrame t u) : LoopFrame s u := by
  rw [LoopFrame] at *; rw [g, h]

theorem LoopFrame.enqueue (s : State) (q : QueuedFrame) : LoopFrame s (s.enqueue q) := rfl
theorem LoopFrame.raiseDevice (s : State) (f : DeviceFlag) : LoopFrame s (s.raiseDevice f) := rfl
theorem LoopFrame.enterEmit (s : State) (j : ReadoutJob) (r : Run) : LoopFrame s (s.enterEmit j r) := rfl
theorem LoopFrame.endReadout (s : State) (j : ReadoutJob) (r : EndReason) : LoopFrame s (s.endReadout j r) := rfl
theorem LoopFrame.queueReadoutEnd (s : State) (j : ReadoutJob) (r : EndReason) :
    LoopFrame s (s.queueReadoutEnd j r) := rfl
theorem LoopFrame.huntFramer (s : State) : LoopFrame s s.huntFramer := rfl
theorem LoopFrame.withPort (s : State) (p : Port) : LoopFrame s { s with port := p } := rfl

theorem LoopFrame.readoutMoveOn (s : State) (j : ReadoutJob) : LoopFrame s (s.readoutMoveOn j) := by
  unfold State.readoutMoveOn; split <;> rfl

theorem LoopFrame.endOfRun (s : State) (j : ReadoutJob) (r : Run) : LoopFrame s (s.endOfRun j r) := by
  simp only [State.endOfRun]
  split
  · rfl
  · exact .readoutMoveOn s _

theorem LoopFrame.recordOvertaken (s : State) (j : ReadoutJob) : LoopFrame s (s.recordOvertaken j) := by
  simp only [State.recordOvertaken]
  split
  · exact .readoutMoveOn s _
  · rfl

theorem LoopFrame.emitStep (s : State) (j : ReadoutJob) (r : Run) : LoopFrame s (s.emitStep j r) := by
  unfold State.emitStep
  split
  · exact .endOfRun s j r
  · exact .recordOvertaken s j
  · dsimp only
    split
    · split
      · exact (LoopFrame.enqueue s _).trans (.enterEmit _ _ _)
      · rfl
    · rfl

theorem LoopFrame.afterDeparture (s : State) : LoopFrame s s.afterDeparture := by
  unfold State.afterDeparture
  split
  · split
    · exact .emitStep s _ _
    · rfl
  · split <;> rfl
  · rfl

theorem LoopFrame.outputChoice (s : State) : LoopFrame s s.outputChoice := by
  unfold State.outputChoice
  split
  · split
    · rfl
    · split
      · rfl
      · rfl
      · exact (LoopFrame.withPort s _).trans (.afterDeparture _)
      · split
        · rfl
        · exact (LoopFrame.withPort s _).trans (.afterDeparture _)
  · rfl

theorem LoopFrame.queueInsert (s : State) (q : QueuedFrame) : LoopFrame s (s.queueInsert q) :=
  (LoopFrame.enqueue s q).trans (.outputChoice _)

theorem LoopFrame.offer (s : State) (f : Frame) : LoopFrame s (s.offer f) := by
  unfold State.offer
  split
  · exact (LoopFrame.withPort s _).trans (.outputChoice _)
  · rfl

theorem LoopFrame.raiseForCode (s : State) (c : ReplyCode) : LoopFrame s (s.raiseForCode c) := by
  cases c <;> rfl

theorem LoopFrame.reply (a : Answer) (tag kind : Byte) : LoopFrame a.final (a.reply tag kind) :=
  (LoopFrame.raiseForCode a.final a.code).trans (.queueInsert _ _)

theorem LoopFrame.discardFrame (s : State) (f : DiscardFault) : LoopFrame s (s.discardFrame f) := rfl
theorem LoopFrame.truncateFrame (s : State) : LoopFrame s s.truncateFrame := rfl
theorem LoopFrame.requestOverrun (s : State) : LoopFrame s s.requestOverrun := rfl

/-- A readout's warning and end touch the readout and attention units alone. -/
theorem LoopFrame.takeWarning (s : State) : LoopFrame s s.takeWarning := by
  simp only [State.takeWarning]; split <;> rfl

theorem LoopFrame.restartReadout (s : State) : LoopFrame s s.restartReadout := by
  unfold State.restartReadout; split <;> rfl

/-! ## Field by field -/

theorem LoopFrame.pending {s t : State} (h : LoopFrame s t) : t.pending = s.pending := by rw [LoopFrame] at h; rw [h]
theorem LoopFrame.lineIn {s t : State} (h : LoopFrame s t) : t.lineIn = s.lineIn := by rw [LoopFrame] at h; rw [h]
theorem LoopFrame.freeIndex {s t : State} (h : LoopFrame s t) : t.freeIndex = s.freeIndex := by rw [LoopFrame] at h; rw [h]
theorem LoopFrame.supply {s t : State} (h : LoopFrame s t) : t.supply = s.supply := by rw [LoopFrame] at h; rw [h]
theorem LoopFrame.unusedReadings {s t : State} (h : LoopFrame s t) : t.unusedReadings = s.unusedReadings := by rw [LoopFrame] at h; rw [h]
theorem LoopFrame.decoder {s t : State} (h : LoopFrame s t) : t.decoder = s.decoder := by rw [LoopFrame] at h; rw [h]
theorem LoopFrame.time {s t : State} (h : LoopFrame s t) : t.time = s.time := by rw [LoopFrame] at h; rw [h]
theorem LoopFrame.clocks {s t : State} (h : LoopFrame s t) : t.clocks = s.clocks := by rw [LoopFrame] at h; rw [h]
theorem LoopFrame.points {s t : State} (h : LoopFrame s t) : t.points = s.points := by rw [LoopFrame] at h; rw [h]
theorem LoopFrame.tariff {s t : State} (h : LoopFrame s t) : t.tariff = s.tariff := by rw [LoopFrame] at h; rw [h]
theorem LoopFrame.close {s t : State} (h : LoopFrame s t) : t.close = s.close := by rw [LoopFrame] at h; rw [h]
theorem LoopFrame.history {s t : State} (h : LoopFrame s t) : t.history = s.history := by rw [LoopFrame] at h; rw [h]

@[simp] theorem State.outputChoice_pending (s : State) : s.outputChoice.pending = s.pending := (LoopFrame.outputChoice s).pending
@[simp] theorem State.outputChoice_lineIn (s : State) : s.outputChoice.lineIn = s.lineIn := (LoopFrame.outputChoice s).lineIn
@[simp] theorem State.outputChoice_freeIndex (s : State) : s.outputChoice.freeIndex = s.freeIndex := (LoopFrame.outputChoice s).freeIndex
@[simp] theorem State.outputChoice_supply (s : State) : s.outputChoice.supply = s.supply := (LoopFrame.outputChoice s).supply
@[simp] theorem State.outputChoice_unusedReadings (s : State) : s.outputChoice.unusedReadings = s.unusedReadings := (LoopFrame.outputChoice s).unusedReadings
@[simp] theorem State.outputChoice_decoder (s : State) : s.outputChoice.decoder = s.decoder := (LoopFrame.outputChoice s).decoder
@[simp] theorem State.outputChoice_time (s : State) : s.outputChoice.time = s.time := (LoopFrame.outputChoice s).time
@[simp] theorem State.outputChoice_clocks (s : State) : s.outputChoice.clocks = s.clocks := (LoopFrame.outputChoice s).clocks
@[simp] theorem State.outputChoice_points (s : State) : s.outputChoice.points = s.points := (LoopFrame.outputChoice s).points
@[simp] theorem State.outputChoice_tariff (s : State) : s.outputChoice.tariff = s.tariff := (LoopFrame.outputChoice s).tariff
@[simp] theorem State.outputChoice_close (s : State) : s.outputChoice.close = s.close := (LoopFrame.outputChoice s).close
@[simp] theorem State.outputChoice_history (s : State) : s.outputChoice.history = s.history := (LoopFrame.outputChoice s).history

@[simp] theorem State.afterDeparture_pending (s : State) : s.afterDeparture.pending = s.pending := (LoopFrame.afterDeparture s).pending
@[simp] theorem State.afterDeparture_lineIn (s : State) : s.afterDeparture.lineIn = s.lineIn := (LoopFrame.afterDeparture s).lineIn
@[simp] theorem State.afterDeparture_freeIndex (s : State) : s.afterDeparture.freeIndex = s.freeIndex := (LoopFrame.afterDeparture s).freeIndex
@[simp] theorem State.afterDeparture_supply (s : State) : s.afterDeparture.supply = s.supply := (LoopFrame.afterDeparture s).supply
@[simp] theorem State.afterDeparture_unusedReadings (s : State) : s.afterDeparture.unusedReadings = s.unusedReadings := (LoopFrame.afterDeparture s).unusedReadings
@[simp] theorem State.afterDeparture_decoder (s : State) : s.afterDeparture.decoder = s.decoder := (LoopFrame.afterDeparture s).decoder
@[simp] theorem State.afterDeparture_time (s : State) : s.afterDeparture.time = s.time := (LoopFrame.afterDeparture s).time
@[simp] theorem State.afterDeparture_clocks (s : State) : s.afterDeparture.clocks = s.clocks := (LoopFrame.afterDeparture s).clocks
@[simp] theorem State.afterDeparture_points (s : State) : s.afterDeparture.points = s.points := (LoopFrame.afterDeparture s).points
@[simp] theorem State.afterDeparture_tariff (s : State) : s.afterDeparture.tariff = s.tariff := (LoopFrame.afterDeparture s).tariff
@[simp] theorem State.afterDeparture_close (s : State) : s.afterDeparture.close = s.close := (LoopFrame.afterDeparture s).close
@[simp] theorem State.afterDeparture_history (s : State) : s.afterDeparture.history = s.history := (LoopFrame.afterDeparture s).history

@[simp] theorem State.emitStep_pending (s : State) (j : ReadoutJob) (r : Run) : (s.emitStep j r).pending = s.pending := (LoopFrame.emitStep s j r).pending
@[simp] theorem State.emitStep_lineIn (s : State) (j : ReadoutJob) (r : Run) : (s.emitStep j r).lineIn = s.lineIn := (LoopFrame.emitStep s j r).lineIn
@[simp] theorem State.emitStep_freeIndex (s : State) (j : ReadoutJob) (r : Run) : (s.emitStep j r).freeIndex = s.freeIndex := (LoopFrame.emitStep s j r).freeIndex
@[simp] theorem State.emitStep_supply (s : State) (j : ReadoutJob) (r : Run) : (s.emitStep j r).supply = s.supply := (LoopFrame.emitStep s j r).supply
@[simp] theorem State.emitStep_unusedReadings (s : State) (j : ReadoutJob) (r : Run) : (s.emitStep j r).unusedReadings = s.unusedReadings := (LoopFrame.emitStep s j r).unusedReadings
@[simp] theorem State.emitStep_decoder (s : State) (j : ReadoutJob) (r : Run) : (s.emitStep j r).decoder = s.decoder := (LoopFrame.emitStep s j r).decoder
@[simp] theorem State.emitStep_time (s : State) (j : ReadoutJob) (r : Run) : (s.emitStep j r).time = s.time := (LoopFrame.emitStep s j r).time
@[simp] theorem State.emitStep_clocks (s : State) (j : ReadoutJob) (r : Run) : (s.emitStep j r).clocks = s.clocks := (LoopFrame.emitStep s j r).clocks
@[simp] theorem State.emitStep_points (s : State) (j : ReadoutJob) (r : Run) : (s.emitStep j r).points = s.points := (LoopFrame.emitStep s j r).points
@[simp] theorem State.emitStep_tariff (s : State) (j : ReadoutJob) (r : Run) : (s.emitStep j r).tariff = s.tariff := (LoopFrame.emitStep s j r).tariff
@[simp] theorem State.emitStep_close (s : State) (j : ReadoutJob) (r : Run) : (s.emitStep j r).close = s.close := (LoopFrame.emitStep s j r).close
@[simp] theorem State.emitStep_history (s : State) (j : ReadoutJob) (r : Run) : (s.emitStep j r).history = s.history := (LoopFrame.emitStep s j r).history

@[simp] theorem State.queueInsert_pending (s : State) (q : QueuedFrame) : (s.queueInsert q).pending = s.pending := (LoopFrame.queueInsert s q).pending
@[simp] theorem State.queueInsert_lineIn (s : State) (q : QueuedFrame) : (s.queueInsert q).lineIn = s.lineIn := (LoopFrame.queueInsert s q).lineIn
@[simp] theorem State.queueInsert_freeIndex (s : State) (q : QueuedFrame) : (s.queueInsert q).freeIndex = s.freeIndex := (LoopFrame.queueInsert s q).freeIndex
@[simp] theorem State.queueInsert_supply (s : State) (q : QueuedFrame) : (s.queueInsert q).supply = s.supply := (LoopFrame.queueInsert s q).supply
@[simp] theorem State.queueInsert_unusedReadings (s : State) (q : QueuedFrame) : (s.queueInsert q).unusedReadings = s.unusedReadings := (LoopFrame.queueInsert s q).unusedReadings
@[simp] theorem State.queueInsert_decoder (s : State) (q : QueuedFrame) : (s.queueInsert q).decoder = s.decoder := (LoopFrame.queueInsert s q).decoder
@[simp] theorem State.queueInsert_time (s : State) (q : QueuedFrame) : (s.queueInsert q).time = s.time := (LoopFrame.queueInsert s q).time
@[simp] theorem State.queueInsert_clocks (s : State) (q : QueuedFrame) : (s.queueInsert q).clocks = s.clocks := (LoopFrame.queueInsert s q).clocks
@[simp] theorem State.queueInsert_points (s : State) (q : QueuedFrame) : (s.queueInsert q).points = s.points := (LoopFrame.queueInsert s q).points
@[simp] theorem State.queueInsert_tariff (s : State) (q : QueuedFrame) : (s.queueInsert q).tariff = s.tariff := (LoopFrame.queueInsert s q).tariff
@[simp] theorem State.queueInsert_close (s : State) (q : QueuedFrame) : (s.queueInsert q).close = s.close := (LoopFrame.queueInsert s q).close
@[simp] theorem State.queueInsert_history (s : State) (q : QueuedFrame) : (s.queueInsert q).history = s.history := (LoopFrame.queueInsert s q).history

@[simp] theorem State.offer_pending (s : State) (f : Frame) : (s.offer f).pending = s.pending := (LoopFrame.offer s f).pending
@[simp] theorem State.offer_lineIn (s : State) (f : Frame) : (s.offer f).lineIn = s.lineIn := (LoopFrame.offer s f).lineIn
@[simp] theorem State.offer_freeIndex (s : State) (f : Frame) : (s.offer f).freeIndex = s.freeIndex := (LoopFrame.offer s f).freeIndex
@[simp] theorem State.offer_supply (s : State) (f : Frame) : (s.offer f).supply = s.supply := (LoopFrame.offer s f).supply
@[simp] theorem State.offer_unusedReadings (s : State) (f : Frame) : (s.offer f).unusedReadings = s.unusedReadings := (LoopFrame.offer s f).unusedReadings
@[simp] theorem State.offer_decoder (s : State) (f : Frame) : (s.offer f).decoder = s.decoder := (LoopFrame.offer s f).decoder
@[simp] theorem State.offer_time (s : State) (f : Frame) : (s.offer f).time = s.time := (LoopFrame.offer s f).time
@[simp] theorem State.offer_clocks (s : State) (f : Frame) : (s.offer f).clocks = s.clocks := (LoopFrame.offer s f).clocks
@[simp] theorem State.offer_points (s : State) (f : Frame) : (s.offer f).points = s.points := (LoopFrame.offer s f).points
@[simp] theorem State.offer_tariff (s : State) (f : Frame) : (s.offer f).tariff = s.tariff := (LoopFrame.offer s f).tariff
@[simp] theorem State.offer_close (s : State) (f : Frame) : (s.offer f).close = s.close := (LoopFrame.offer s f).close
@[simp] theorem State.offer_history (s : State) (f : Frame) : (s.offer f).history = s.history := (LoopFrame.offer s f).history

@[simp] theorem State.raiseForCode_pending (s : State) (c : ReplyCode) : (s.raiseForCode c).pending = s.pending := (LoopFrame.raiseForCode s c).pending
@[simp] theorem State.raiseForCode_lineIn (s : State) (c : ReplyCode) : (s.raiseForCode c).lineIn = s.lineIn := (LoopFrame.raiseForCode s c).lineIn
@[simp] theorem State.raiseForCode_freeIndex (s : State) (c : ReplyCode) : (s.raiseForCode c).freeIndex = s.freeIndex := (LoopFrame.raiseForCode s c).freeIndex
@[simp] theorem State.raiseForCode_supply (s : State) (c : ReplyCode) : (s.raiseForCode c).supply = s.supply := (LoopFrame.raiseForCode s c).supply
@[simp] theorem State.raiseForCode_unusedReadings (s : State) (c : ReplyCode) : (s.raiseForCode c).unusedReadings = s.unusedReadings := (LoopFrame.raiseForCode s c).unusedReadings
@[simp] theorem State.raiseForCode_decoder (s : State) (c : ReplyCode) : (s.raiseForCode c).decoder = s.decoder := (LoopFrame.raiseForCode s c).decoder
@[simp] theorem State.raiseForCode_time (s : State) (c : ReplyCode) : (s.raiseForCode c).time = s.time := (LoopFrame.raiseForCode s c).time
@[simp] theorem State.raiseForCode_clocks (s : State) (c : ReplyCode) : (s.raiseForCode c).clocks = s.clocks := (LoopFrame.raiseForCode s c).clocks
@[simp] theorem State.raiseForCode_points (s : State) (c : ReplyCode) : (s.raiseForCode c).points = s.points := (LoopFrame.raiseForCode s c).points
@[simp] theorem State.raiseForCode_tariff (s : State) (c : ReplyCode) : (s.raiseForCode c).tariff = s.tariff := (LoopFrame.raiseForCode s c).tariff
@[simp] theorem State.raiseForCode_close (s : State) (c : ReplyCode) : (s.raiseForCode c).close = s.close := (LoopFrame.raiseForCode s c).close
@[simp] theorem State.raiseForCode_history (s : State) (c : ReplyCode) : (s.raiseForCode c).history = s.history := (LoopFrame.raiseForCode s c).history

@[simp] theorem State.takeWarning_pending (s : State) : s.takeWarning.pending = s.pending := (LoopFrame.takeWarning s).pending
@[simp] theorem State.takeWarning_lineIn (s : State) : s.takeWarning.lineIn = s.lineIn := (LoopFrame.takeWarning s).lineIn
@[simp] theorem State.takeWarning_freeIndex (s : State) : s.takeWarning.freeIndex = s.freeIndex := (LoopFrame.takeWarning s).freeIndex
@[simp] theorem State.takeWarning_supply (s : State) : s.takeWarning.supply = s.supply := (LoopFrame.takeWarning s).supply
@[simp] theorem State.takeWarning_unusedReadings (s : State) : s.takeWarning.unusedReadings = s.unusedReadings := (LoopFrame.takeWarning s).unusedReadings
@[simp] theorem State.takeWarning_decoder (s : State) : s.takeWarning.decoder = s.decoder := (LoopFrame.takeWarning s).decoder
@[simp] theorem State.takeWarning_time (s : State) : s.takeWarning.time = s.time := (LoopFrame.takeWarning s).time
@[simp] theorem State.takeWarning_clocks (s : State) : s.takeWarning.clocks = s.clocks := (LoopFrame.takeWarning s).clocks
@[simp] theorem State.takeWarning_points (s : State) : s.takeWarning.points = s.points := (LoopFrame.takeWarning s).points
@[simp] theorem State.takeWarning_tariff (s : State) : s.takeWarning.tariff = s.tariff := (LoopFrame.takeWarning s).tariff
@[simp] theorem State.takeWarning_close (s : State) : s.takeWarning.close = s.close := (LoopFrame.takeWarning s).close
@[simp] theorem State.takeWarning_history (s : State) : s.takeWarning.history = s.history := (LoopFrame.takeWarning s).history

@[simp] theorem Answer.reply_pending (a : Answer) (tag kind : Byte) : (a.reply tag kind).pending = a.final.pending :=
  (LoopFrame.reply a tag kind).pending
@[simp] theorem Answer.reply_lineIn (a : Answer) (tag kind : Byte) : (a.reply tag kind).lineIn = a.final.lineIn :=
  (LoopFrame.reply a tag kind).lineIn
@[simp] theorem Answer.reply_freeIndex (a : Answer) (tag kind : Byte) : (a.reply tag kind).freeIndex = a.final.freeIndex :=
  (LoopFrame.reply a tag kind).freeIndex
@[simp] theorem Answer.reply_supply (a : Answer) (tag kind : Byte) : (a.reply tag kind).supply = a.final.supply :=
  (LoopFrame.reply a tag kind).supply
@[simp] theorem Answer.reply_unusedReadings (a : Answer) (tag kind : Byte) : (a.reply tag kind).unusedReadings = a.final.unusedReadings :=
  (LoopFrame.reply a tag kind).unusedReadings
@[simp] theorem Answer.reply_decoder (a : Answer) (tag kind : Byte) : (a.reply tag kind).decoder = a.final.decoder :=
  (LoopFrame.reply a tag kind).decoder
@[simp] theorem Answer.reply_time (a : Answer) (tag kind : Byte) : (a.reply tag kind).time = a.final.time :=
  (LoopFrame.reply a tag kind).time
@[simp] theorem Answer.reply_clocks (a : Answer) (tag kind : Byte) : (a.reply tag kind).clocks = a.final.clocks :=
  (LoopFrame.reply a tag kind).clocks
@[simp] theorem Answer.reply_points (a : Answer) (tag kind : Byte) : (a.reply tag kind).points = a.final.points :=
  (LoopFrame.reply a tag kind).points
@[simp] theorem Answer.reply_tariff (a : Answer) (tag kind : Byte) : (a.reply tag kind).tariff = a.final.tariff :=
  (LoopFrame.reply a tag kind).tariff
@[simp] theorem Answer.reply_close (a : Answer) (tag kind : Byte) : (a.reply tag kind).close = a.final.close :=
  (LoopFrame.reply a tag kind).close
@[simp] theorem Answer.reply_history (a : Answer) (tag kind : Byte) : (a.reply tag kind).history = a.final.history :=
  (LoopFrame.reply a tag kind).history

/-! ## Device flags -/

/-- No device flag is dropped between two states. -/
def FlagsKept (s t : State) : Prop :=
  ∀ i : Nat, hasFlag s.attention.flags i = true → hasFlag t.attention.flags i = true

theorem FlagsKept.same {s t : State} (h : t.attention = s.attention) : FlagsKept s t := fun i hi => by rw [h]; exact hi

theorem FlagsKept.trans {s t u : State} (h : FlagsKept s t) (g : FlagsKept t u) : FlagsKept s u :=
  fun i hi => g i (h i hi)

theorem FlagsKept.raiseDevice (s : State) (f : DeviceFlag) : FlagsKept s (s.raiseDevice f) := fun i hi => by
  simp only [State.raiseDevice, hasFlag_addFlag, hi, Bool.true_or]

theorem FlagsKept.endReadout (s : State) (j : ReadoutJob) (r : EndReason) : FlagsKept s (s.endReadout j r) :=
  (FlagsKept.same rfl).trans (.raiseDevice _ .readoutEnd)

theorem FlagsKept.readoutMoveOn (s : State) (j : ReadoutJob) : FlagsKept s (s.readoutMoveOn j) := by
  unfold State.readoutMoveOn; split
  · exact .same rfl
  · exact .endReadout s j _

theorem FlagsKept.emitStep (s : State) (j : ReadoutJob) (r : Run) : FlagsKept s (s.emitStep j r) := by
  unfold State.emitStep
  split
  · simp only [State.endOfRun]
    split
    · exact .endReadout s _ _
    · exact .readoutMoveOn s _
  · simp only [State.recordOvertaken]
    split
    · exact .readoutMoveOn s _
    · exact .endReadout s _ _
  · dsimp only
    split
    · split <;> exact .same rfl
    · exact .same rfl

theorem FlagsKept.afterDeparture (s : State) : FlagsKept s s.afterDeparture := by
  unfold State.afterDeparture
  split
  · split
    · exact .emitStep s _ _
    · exact .same rfl
  · split <;> exact .same rfl
  · exact .same rfl

theorem FlagsKept.outputChoice (s : State) : FlagsKept s s.outputChoice := by
  have h : ∀ p : Port, FlagsKept s ({ s with port := p } : State).afterDeparture := fun p =>
    FlagsKept.trans (t := { s with port := p }) (.same rfl) (.afterDeparture _)
  unfold State.outputChoice
  split
  · split
    · exact .same rfl
    · split
      · exact .same rfl
      · exact .same rfl
      · exact h _
      · split
        · exact .same rfl
        · exact h _
  · exact .same rfl

theorem FlagsKept.queueInsert (s : State) (q : QueuedFrame) : FlagsKept s (s.queueInsert q) :=
  FlagsKept.trans (t := s.enqueue q) (.same rfl) (.outputChoice _)

theorem FlagsKept.offer (s : State) (f : Frame) : FlagsKept s (s.offer f) := by
  have h : ∀ p : Port, FlagsKept s ({ s with port := p } : State).outputChoice := fun p =>
    FlagsKept.trans (t := { s with port := p }) (.same rfl) (.outputChoice _)
  have g : ∀ p : Port, FlagsKept s (({ s with port := p } : State).raiseDevice .fwdOverrun) := fun p =>
    FlagsKept.trans (t := { s with port := p }) (.same rfl) (.raiseDevice _ _)
  unfold State.offer
  split
  · exact h _
  · exact g _

theorem FlagsKept.raiseForCode (s : State) (c : ReplyCode) : FlagsKept s (s.raiseForCode c) := by
  cases c
  case busy => exact .raiseDevice s _
  case locked => exact .raiseDevice s _
  all_goals exact .same rfl

theorem FlagsKept.reply (a : Answer) (tag kind : Byte) : FlagsKept a.final (a.reply tag kind) :=
  (FlagsKept.raiseForCode a.final a.code).trans (.queueInsert _ _)

/-! ## A frame received and a request taken, said once -/

/-- Everything `receive` can do (R161, R162, R185). -/
theorem State.receive_cases (s : State) (f : Frame) (take : State → State) :
    (s.live = false ∧ s.receive f take = s) ∨
    (s.live = true ∧ f.lengthOk = false ∧ s.receive f take = s.discardFrame .malformed) ∨
    (s.live = true ∧ f.lengthOk = true ∧ s.receive f take = take s.huntFramer) := by
  unfold State.receive
  cases hl : s.live <;> cases hf : f.lengthOk <;> simp

/-- A good frame at a live part is taken with the framer back in HUNT. -/
theorem State.receive_good {s : State} {f : Frame} (take : State → State) (hl : s.live = true)
    (hf : f.lengthOk = true) : s.receive f take = take s.huntFramer := by
  simp [State.receive, hl, hf]

/-- A part that is held or unsupplied takes no frame (R185). -/
theorem State.receive_dead {s : State} (f : Frame) (take : State → State) (hl : s.live = false) :
    s.receive f take = s := by
  simp [State.receive, hl]

/-- Everything `takeRequest` can do with a good frame: pass it on, drop it, answer LENGTH, or give it to its
own rule (R163, R165, R172). -/
theorem State.takeRequest_cases {s : State} {k : RequestKind} {r : Request} (forUs : Bool) (rule : State → Answer)
    (hl : s.live = true) (hf : (r.frame k).lengthOk = true) :
    (forUs = false ∧ s.takeRequest k r forUs rule = s.huntFramer.offer (r.frame k)) ∨
    (forUs = true ∧ 8 ≤ s.port.queue.length ∧ s.takeRequest k r forUs rule = s.huntFramer.requestOverrun) ∨
    (forUs = true ∧ s.port.queue.length < 8 ∧
      s.takeRequest k r forUs rule = (Answer.refusal s.huntFramer .length).reply r.tag k.code) ∨
    (forUs = true ∧ s.port.queue.length < 8 ∧
      s.takeRequest k r forUs rule = (rule s.huntFramer).reply r.tag k.code) := by
  rw [State.takeRequest, State.receive_good _ hl hf]
  cases forUs
  · simp
  · by_cases hq : s.port.queue.length < 8
    · have hr : s.huntFramer.replyRoom = true := by
        simp [State.replyRoom, State.huntFramer, Config.queuePlaces, hq]
      simp only [hr, if_true]
      split
      · exact .inr (.inr (.inr ⟨trivial, hq, rfl⟩))
      · exact .inr (.inr (.inl ⟨trivial, hq, rfl⟩))
    · have hr : s.huntFramer.replyRoom = false := by
        simp [State.replyRoom, State.huntFramer, Config.queuePlaces, hq]
      simp only [hr, if_true]
      exact .inr (.inl ⟨trivial, Nat.le_of_not_lt hq, by simp⟩)

/-- A request for this part, with room for its reply and arguments of its kind's length, goes to its own rule
(R163, R165, R172). -/
theorem State.takeRequest_rule {s : State} {k : RequestKind} {r : Request} (rule : State → Answer)
    (hl : s.live = true) (hf : (r.frame k).lengthOk = true) (hq : s.port.queue.length < 8)
    (ha : ∀ n ∈ k.argLength, r.args.length = n) :
    s.takeRequest k r true rule = (rule s.huntFramer).reply r.tag k.code := by
  rw [State.takeRequest, State.receive_good _ hl hf]
  have hr : s.huntFramer.replyRoom = true := by
    simp [State.replyRoom, State.huntFramer, Config.queuePlaces, hq]
  simp only [hr, if_true]
  cases hk : k.argLength with
  | none => simp
  | some n => simp [ha n (by simp [hk])]

/-- A request frame passes the length check exactly when its arguments fit (R161, R190). -/
theorem Request.frame_lengthOk (k : RequestKind) (r : Request) (h : r.fits = true) :
    (r.frame k).lengthOk = true := by
  simp only [Request.fits, decide_eq_true_eq] at h
  simp [Frame.lengthOk, Request.frame, kindRequest, kindMark, kindReading, kindReply, kindRecord]
  omega

end Sys2Proof.Machine
end

