-- ==== Sys2Proof/Laws/Meter.lean ====
section
/-! SUPPORT. What the metering operations (closes, boundaries, clock changes, minute advances) can change: the
clocks, the points, the tariff store, the close unit, the history store, the attention unit and the last close
month, nothing else; and what each leaves of the single fields. -/

-- One declaration after the other: the package as one text then needs few threads.
set_option Elab.async false

namespace Sys2Proof.Machine

/-- Two states agree on everything but clocks, points, tariff, close unit, history, attention and the last
scheduled close month. -/
def MeterFrame (s t : State) : Prop :=
  t = { s with clocks := t.clocks, points := t.points, tariff := t.tariff, close := t.close, history := t.history,
               attention := t.attention, time := { s.time with lastClose := t.time.lastClose } }

theorem MeterFrame.refl (s : State) : MeterFrame s s := rfl

theorem MeterFrame.trans {s t u : State} (h : MeterFrame s t) (g : MeterFrame t u) : MeterFrame s u := by
  rw [MeterFrame] at *; rw [g, h]

theorem MeterFrame.pending {s t : State} (h : MeterFrame s t) : t.pending = s.pending := by rw [MeterFrame] at h; rw [h]
theorem MeterFrame.lineIn {s t : State} (h : MeterFrame s t) : t.lineIn = s.lineIn := by rw [MeterFrame] at h; rw [h]
theorem MeterFrame.freeIndex {s t : State} (h : MeterFrame s t) : t.freeIndex = s.freeIndex := by rw [MeterFrame] at h; rw [h]
theorem MeterFrame.supply {s t : State} (h : MeterFrame s t) : t.supply = s.supply := by rw [MeterFrame] at h; rw [h]
theorem MeterFrame.port {s t : State} (h : MeterFrame s t) : t.port = s.port := by rw [MeterFrame] at h; rw [h]
theorem MeterFrame.unusedReadings {s t : State} (h : MeterFrame s t) : t.unusedReadings = s.unusedReadings := by
  rw [MeterFrame] at h; rw [h]
theorem MeterFrame.decoder {s t : State} (h : MeterFrame s t) : t.decoder = s.decoder := by rw [MeterFrame] at h; rw [h]
theorem MeterFrame.readout {s t : State} (h : MeterFrame s t) : t.readout = s.readout := by rw [MeterFrame] at h; rw [h]
theorem MeterFrame.calendar {s t : State} (h : MeterFrame s t) : t.time.calendar = s.time.calendar := by
  rw [MeterFrame] at h; rw [h]
theorem MeterFrame.time {s t : State} (h : MeterFrame s t) :
    t.time = { s.time with lastClose := t.time.lastClose } := by rw [MeterFrame] at h; rw [h]

/-! ## Folds -/

/-- What every step of a fold keeps, the fold keeps. -/
theorem foldl_keeps {α β : Type} {f : α → β → α} {R : α → Prop} (l : List β) (s : α) (hs : R s)
    (h : ∀ t b, b ∈ l → R t → R (f t b)) : R (l.foldl f s) := by
  induction l generalizing s with
  | nil => exact hs
  | cons b l ih => exact ih _ (h s b (by simp) hs) (fun t c hc => h t c (by simp [hc]))

theorem MeterFrame.foldl {β : Type} {f : State → β → State} (h : ∀ t b, MeterFrame t (f t b)) (l : List β) (s : State) :
    MeterFrame s (l.foldl f s) :=
  foldl_keeps l s (.refl s) (fun t b _ ht => ht.trans (h t b))

/-! ## The operations -/

theorem MeterFrame.setPoint (s : State) (i : Fin 32) (p : Option Point) : MeterFrame s (s.setPoint i p) := rfl
theorem MeterFrame.mapPoints (s : State) (f : Point → Point) : MeterFrame s (s.mapPoints f) := rfl
theorem MeterFrame.mapPointsOn (s : State) (k : Fin 4) (f : Point → Point) : MeterFrame s (s.mapPointsOn k f) := rfl
theorem MeterFrame.setClock (s : State) (k : Fin 4) (c : Clock) : MeterFrame s (s.setClock k c) := rfl
theorem MeterFrame.raiseDevice (s : State) (f : DeviceFlag) : MeterFrame s (s.raiseDevice f) := rfl

theorem MeterFrame.withClose (s : State) (c : CloseUnit) : MeterFrame s { s with close := c } := rfl
theorem MeterFrame.withLastClose (s : State) (m : Option YearMonth) :
    MeterFrame s { s with time := { s.time with lastClose := m } } := rfl

theorem MeterFrame.closePoint (s : State) (i : Fin 32) (p : Point) (n : BitVec 16) (t : Option CalTime) (b : Bool) :
    MeterFrame s (s.closePoint i p n t b) := rfl

theorem MeterFrame.closePoints (s : State) (w : Point → Bool) (n : BitVec 16) (t : Option CalTime) (b : Bool) :
    MeterFrame s (s.closePoints w n t b) := by
  refine MeterFrame.foldl (fun t i => ?_) _ s
  split
  · split
    · exact .closePoint ..
    · exact .refl _
  · exact .refl _

theorem MeterFrame.resetPeak (s : State) (k : Fin 4) : MeterFrame s (s.resetPeak k) := rfl

theorem MeterFrame.completeClose (s : State) (n : BitVec 16) : MeterFrame s (s.completeClose n) := by
  simp only [State.completeClose]; split <;> rfl

theorem MeterFrame.completeIfEmpty (s : State) (n : BitVec 16) : MeterFrame s (s.completeIfEmpty n) := by
  unfold State.completeIfEmpty; split
  · exact .completeClose s n
  · rfl

theorem MeterFrame.leaveClose (s : State) (k : Fin 4) : MeterFrame s (s.leaveClose k) :=
  (MeterFrame.resetPeak s k).trans (.withClose _ _)

theorem MeterFrame.settleClock (s : State) (k : Fin 4) (n : BitVec 16) (t : Option CalTime) (b : Bool) :
    MeterFrame s (s.settleClock k n t b) := (MeterFrame.closePoints s _ n t b).trans (.leaveClose _ k)

theorem MeterFrame.clockShare (s : State) (k : Fin 4) (t : Option CalTime) : MeterFrame s (s.clockShare k t) := by
  unfold State.clockShare; split
  · split
    · exact (MeterFrame.settleClock ..).trans (.completeIfEmpty ..)
    · rfl
  · rfl

theorem MeterFrame.beginClose (s : State) : MeterFrame s s.beginClose := rfl

theorem MeterFrame.closeIdlePoints (s : State) : MeterFrame s s.closeIdlePoints := .closePoints ..

theorem MeterFrame.resetIdlePeaks (s : State) : MeterFrame s s.resetIdlePeaks := by
  refine MeterFrame.foldl (fun t k => ?_) _ s
  split <;> rfl

theorem MeterFrame.startClose (s : State) : MeterFrame s s.startClose :=
  (((MeterFrame.beginClose s).trans (.closeIdlePoints _)).trans (.resetIdlePeaks _)).trans (.completeIfEmpty ..)

theorem MeterFrame.settlePending (s : State) (n : BitVec 16) (t : Option CalTime) :
    MeterFrame s (s.settlePending n t) := by
  refine MeterFrame.foldl (fun t k => ?_) _ s
  split
  · exact .settleClock ..
  · rfl

theorem MeterFrame.warmClose (s : State) (t : Option CalTime) : MeterFrame s (s.warmClose t) := by
  unfold State.warmClose; split
  · exact (MeterFrame.settlePending ..).trans (.completeClose ..)
  · rfl

theorem MeterFrame.openPointsOn (s : State) (k : Fin 4) (now : CalTime) : MeterFrame s (s.openPointsOn k now) := rfl

theorem MeterFrame.openEnabled (s : State) (now : CalTime) : MeterFrame s (s.openEnabled now) :=
  MeterFrame.foldl (fun t k => by split <;> rfl) _ s

theorem MeterFrame.comparePeak (s : State) (k : Fin 4) (now : CalTime) : MeterFrame s (s.comparePeak k now) := by
  simp only [State.comparePeak]; split <;> rfl

theorem MeterFrame.countHold (s : State) (k : Fin 4) : MeterFrame s (s.countHold k) := rfl

theorem MeterFrame.evaluateClock (s : State) (k : Fin 4) (now : CalTime) (b : Bool) :
    MeterFrame s (s.evaluateClock k now b) := by
  simp only [State.evaluateClock]
  refine MeterFrame.trans ?_ (.comparePeak ..)
  refine MeterFrame.trans ?_ (.mapPointsOn ..)
  split <;> rfl

theorem MeterFrame.boundary (s : State) (k : Fin 4) (now : CalTime) (b : Bool) :
    MeterFrame s (s.boundary k now b) :=
  (((MeterFrame.evaluateClock s k now b).trans (.clockShare ..)).trans (.openPointsOn ..)).trans (.countHold ..)

theorem MeterFrame.handMinute (s : State) (order : List (Fin 4)) (now : CalTime) (b : Bool) :
    MeterFrame s (s.handMinute order now b) :=
  MeterFrame.foldl (fun t k => .boundary t k now b) _ s

theorem MeterFrame.cutClock (s : State) (k : Fin 4) : MeterFrame s (s.cutClock k) := rfl

theorem MeterFrame.disableClock (s : State) (k : Fin 4) : MeterFrame s (s.disableClock k) :=
  (MeterFrame.cutClock s k).trans (.clockShare ..)

theorem MeterFrame.enableClock (s : State) (k : Fin 4) : MeterFrame s (s.enableClock k) := by
  simp only [State.enableClock]; split <;> rfl

theorem MeterFrame.applyClock (s : State) (a : ClockArgs) : MeterFrame s (s.applyClock a) := by
  simp only [State.applyClock]
  split
  · split
    · rfl
    · exact MeterFrame.trans (.setClock ..) (.disableClock ..)
  · split
    · exact MeterFrame.trans (.setClock ..) (.enableClock ..)
    · rfl

theorem MeterFrame.scheduledClose (s : State) (now : CalTime) : MeterFrame s (s.scheduledClose now) := by
  simp only [State.scheduledClose]; split
  · split
    · exact MeterFrame.trans (.withLastClose ..) (.startClose _)
    · rfl
  · rfl

theorem MeterFrame.minuteAdvance (s : State) (order : List (Fin 4)) (now : CalTime) (b : Bool) :
    MeterFrame s (s.minuteAdvance order now b) :=
  (MeterFrame.scheduledClose s now).trans (.handMinute ..)

theorem MeterFrame.cutAll (s : State) : MeterFrame s s.cutAll := rfl

theorem MeterFrame.warmPoints (s : State) : MeterFrame s s.warmPoints := rfl

/-! ## The attention unit -/

/-- Raising a device flag twice raises it once. -/
theorem State.raiseDevice_twice (s : State) (f : DeviceFlag) : (s.raiseDevice f).raiseDevice f = s.raiseDevice f := by
  have h : hasFlag (addFlag s.attention.flags f.place) f.place = true := by
    rw [hasFlag_addFlag]; cases f <;> simp [DeviceFlag.place]
  have e : addFlag (addFlag s.attention.flags f.place) f.place = addFlag s.attention.flags f.place := by
    simp only [addFlag, BitVec.or_assoc, BitVec.or_self]
  simp only [State.raiseDevice, h, e, Bool.not_true, Bool.false_and, Bool.or_false]

/-- The attention unit is as it was, or has had CLOSE_DONE raised. -/
def CloseDoneOnly (s t : State) : Prop :=
  t.attention = s.attention ∨ t.attention = (s.raiseDevice .closeDone).attention

theorem CloseDoneOnly.same {s t : State} (h : t.attention = s.attention) : CloseDoneOnly s t := .inl h

theorem CloseDoneOnly.trans {s t u : State} (h : CloseDoneOnly s t) (g : CloseDoneOnly t u) : CloseDoneOnly s u := by
  have e : ∀ v w : State, v.attention = w.attention → (v.raiseDevice .closeDone).attention = (w.raiseDevice .closeDone).attention := by
    intro v w hv; simp only [State.raiseDevice, hv]
  rcases h with h | h <;> rcases g with g | g
  · exact .inl (g.trans h)
  · exact .inr (g.trans (e _ _ h))
  · exact .inr (g.trans h)
  · refine .inr (g.trans ?_)
    rw [e _ _ h, State.raiseDevice_twice]

theorem CloseDoneOnly.foldl {β : Type} {f : State → β → State} (h : ∀ t b, CloseDoneOnly t (f t b)) (l : List β)
    (s : State) : CloseDoneOnly s (l.foldl f s) :=
  foldl_keeps l s (.same rfl) (fun t b _ ht => ht.trans (h t b))

theorem CloseDoneOnly.closePoints (s : State) (w : Point → Bool) (n : BitVec 16) (t : Option CalTime) (b : Bool) :
    CloseDoneOnly s (s.closePoints w n t b) := by
  refine CloseDoneOnly.foldl (fun t i => ?_) _ s
  split
  · split <;> exact .same rfl
  · exact .same rfl

theorem CloseDoneOnly.completeClose (s : State) (n : BitVec 16) : CloseDoneOnly s (s.completeClose n) := by
  simp only [State.completeClose]; split <;> exact .inr rfl

theorem CloseDoneOnly.completeIfEmpty (s : State) (n : BitVec 16) : CloseDoneOnly s (s.completeIfEmpty n) := by
  unfold State.completeIfEmpty; split
  · exact .completeClose s n
  · exact .same rfl

theorem CloseDoneOnly.settleClock (s : State) (k : Fin 4) (n : BitVec 16) (t : Option CalTime) (b : Bool) :
    CloseDoneOnly s (s.settleClock k n t b) := by
  have h := CloseDoneOnly.closePoints s (fun p => p.dueAt k n) n t b
  simp only [State.settleClock]
  generalize s.closePoints (fun p => p.dueAt k n) n t b = u at h
  exact h.trans (.same rfl)

theorem CloseDoneOnly.clockShare (s : State) (k : Fin 4) (t : Option CalTime) : CloseDoneOnly s (s.clockShare k t) := by
  unfold State.clockShare; split
  · split
    · exact (CloseDoneOnly.settleClock ..).trans (.completeIfEmpty ..)
    · exact .same rfl
  · exact .same rfl

theorem CloseDoneOnly.startClose (s : State) : CloseDoneOnly s s.startClose := by
  have h1 : CloseDoneOnly s.beginClose s.beginClose.closeIdlePoints := .closePoints ..
  have h2 : CloseDoneOnly s.beginClose.closeIdlePoints s.beginClose.closeIdlePoints.resetIdlePeaks := by
    refine CloseDoneOnly.foldl (fun t k => ?_) _ _
    split <;> exact .same rfl
  exact ((CloseDoneOnly.trans (.same rfl) h1).trans h2).trans (.completeIfEmpty ..)

theorem CloseDoneOnly.warmClose (s : State) (t : Option CalTime) : CloseDoneOnly s (s.warmClose t) := by
  unfold State.warmClose; split
  · refine CloseDoneOnly.trans (CloseDoneOnly.foldl (fun t k => ?_) _ _) (.completeClose ..)
    split
    · exact .settleClock ..
    · exact .same rfl
  · exact .same rfl

theorem CloseDoneOnly.evaluateClock (s : State) (k : Fin 4) (now : CalTime) (b : Bool) :
    CloseDoneOnly s (s.evaluateClock k now b) := by
  refine .same ?_
  simp only [State.evaluateClock, State.comparePeak]
  split <;> split <;> rfl

theorem CloseDoneOnly.boundary (s : State) (k : Fin 4) (now : CalTime) (b : Bool) :
    CloseDoneOnly s (s.boundary k now b) :=
  ((CloseDoneOnly.evaluateClock s k now b).trans (.clockShare _ k (some now))).trans (.same rfl)

theorem CloseDoneOnly.minuteAdvance (s : State) (order : List (Fin 4)) (now : CalTime) (b : Bool) :
    CloseDoneOnly s (s.minuteAdvance order now b) := by
  refine CloseDoneOnly.trans (t := s.scheduledClose now) ?_
    (CloseDoneOnly.foldl (fun t k => .boundary t k now b) _ _)
  have h : ∀ m, CloseDoneOnly s (State.startClose { s with time := { s.time with lastClose := m } }) := fun m =>
    CloseDoneOnly.trans (t := { s with time := { s.time with lastClose := m } }) (.same rfl) (.startClose _)
  simp only [State.scheduledClose]
  split
  · split
    · exact h _
    · exact .same rfl
  · exact .same rfl

/-- A device flag other than CLOSE_DONE is as it was. -/
theorem CloseDoneOnly.flag {s t : State} (h : CloseDoneOnly s t) {i : Nat} (hi : i ≠ 8) :
    hasFlag t.attention.flags i = hasFlag s.attention.flags i := by
  rcases h with h | h
  · rw [h]
  · have : ¬ 8 = i := fun e => hi e.symm
    simp [h, State.raiseDevice, hasFlag_addFlag, DeviceFlag.place, this]

end Sys2Proof.Machine
end

