-- ==== Sys2Proof/Laws/Close.lean ====
section
/-! SUPPORT. What the operations of a close leave, point by point and clock by clock: closing points, a reset
peak, a clock's share, the start, the completion. -/

-- One declaration after the other: the package as one text then needs few threads.
set_option Elab.async false

namespace Sys2Proof.Machine

/-! ## One point's close -/

theorem State.settledPoint_congr {s t : State} (h : t.tariff = s.tariff) (p : Point) (n : BitVec 16) :
    t.settledPoint p n = s.settledPoint p n := by
  simp only [State.settledPoint, State.chargesOf, State.excessOf, State.optionOf, h]

@[simp] theorem State.closePoint_clocks (s : State) (i : Fin 32) (p : Point) (n : BitVec 16) (t : Option CalTime)
    (b : Bool) : (s.closePoint i p n t b).clocks = s.clocks := rfl
@[simp] theorem State.closePoint_tariff (s : State) (i : Fin 32) (p : Point) (n : BitVec 16) (t : Option CalTime)
    (b : Bool) : (s.closePoint i p n t b).tariff = s.tariff := rfl
@[simp] theorem State.closePoint_close (s : State) (i : Fin 32) (p : Point) (n : BitVec 16) (t : Option CalTime)
    (b : Bool) : (s.closePoint i p n t b).close = s.close := rfl
@[simp] theorem State.closePoint_time (s : State) (i : Fin 32) (p : Point) (n : BitVec 16) (t : Option CalTime)
    (b : Bool) : (s.closePoint i p n t b).time = s.time := rfl
@[simp] theorem State.closePoint_history (s : State) (i : Fin 32) (p : Point) (n : BitVec 16) (t : Option CalTime)
    (b : Bool) : (s.closePoint i p n t b).history = s.history.append (s.recordOf i p n t b) := rfl

/-! ## Closing the points that satisfy a condition -/

/-- One turn of `closePoints`: the point at an index closes if it satisfies the condition. -/
def State.closeTurn (which : Point → Bool) (n : BitVec 16) (stamp : Option CalTime) (cut : Bool) (t : State)
    (i : Fin 32) : State :=
  match t.points[i] with
  | some p => if which p then t.closePoint i p n stamp cut else t
  | none => t

theorem State.closePoints_eq (s : State) (which : Point → Bool) (n : BitVec 16) (stamp : Option CalTime) (cut : Bool) :
    s.closePoints which n stamp cut = allPoints.foldl (State.closeTurn which n stamp cut) s := rfl

/-- What `closePoints` leaves of everything but points and history. -/
structure CloseTurnFrame (s t : State) : Prop where
  clocks  : t.clocks = s.clocks
  tariff  : t.tariff = s.tariff
  close   : t.close = s.close
  time    : t.time = s.time
  attention : t.attention = s.attention

theorem CloseTurnFrame.turn (which : Point → Bool) (n : BitVec 16) (stamp : Option CalTime) (cut : Bool) (t : State)
    (i : Fin 32) : CloseTurnFrame t (State.closeTurn which n stamp cut t i) := by
  unfold State.closeTurn
  split
  · split <;> exact ⟨rfl, rfl, rfl, rfl, rfl⟩
  · exact ⟨rfl, rfl, rfl, rfl, rfl⟩

theorem CloseTurnFrame.trans {s t u : State} (h : CloseTurnFrame s t) (g : CloseTurnFrame t u) : CloseTurnFrame s u :=
  ⟨g.clocks.trans h.clocks, g.tariff.trans h.tariff, g.close.trans h.close, g.time.trans h.time,
    g.attention.trans h.attention⟩

theorem CloseTurnFrame.closePoints (s : State) (which : Point → Bool) (n : BitVec 16) (stamp : Option CalTime)
    (cut : Bool) : CloseTurnFrame s (s.closePoints which n stamp cut) := by
  rw [State.closePoints_eq]
  exact foldl_keeps _ s ⟨rfl, rfl, rfl, rfl, rfl⟩ (fun t i _ h => h.trans (.turn which n stamp cut t i))

theorem State.closeTurn_points (which : Point → Bool) (n : BitVec 16) (stamp : Option CalTime) (cut : Bool) (t : State)
    (i j : Fin 32) :
    (State.closeTurn which n stamp cut t i).points[j] =
      if i = j then t.points[j].map (fun p => if which p then t.settledPoint p n else p) else t.points[j] := by
  unfold State.closeTurn
  by_cases hij : i = j
  · subst hij
    rw [if_pos rfl]
    split
    · rename_i p hp
      rw [hp]
      split
      · rename_i hw
        simp only [State.closePoint, State.setPoint_points_same, Option.map_some, hw, if_true]
      · rename_i hw; rw [hp]; simp only [Option.map_some, hw, Bool.false_eq_true, if_false]
    · rename_i hp; rw [hp]; rfl
  · rw [if_neg hij]
    split
    · split
      · simp only [State.closePoint]; rw [State.setPoint_points_other _ _ _ _ hij]
      · rfl
    · rfl

theorem State.foldl_closeTurn_points (which : Point → Bool) (n : BitVec 16) (stamp : Option CalTime) (cut : Bool)
    (l : List (Fin 32)) (hl : l.Nodup) (s t : State) (ht : t.tariff = s.tariff) (j : Fin 32) :
    (l.foldl (State.closeTurn which n stamp cut) t).points[j] =
      if j ∈ l then t.points[j].map (fun p => if which p then s.settledPoint p n else p) else t.points[j] := by
  induction l generalizing t with
  | nil => simp
  | cons i l ih =>
    rw [List.nodup_cons] at hl
    rw [List.foldl_cons, ih hl.2 _ ((CloseTurnFrame.turn which n stamp cut t i).tariff.trans ht),
      State.closeTurn_points]
    by_cases hij : i = j
    · subst hij
      simp only [hl.1, if_false, if_true, List.mem_cons, true_or]
      simp only [State.settledPoint_congr ht]
    · have hji : ¬ j = i := fun e => hij e.symm
      simp only [hij, if_false, List.mem_cons, hji, false_or]

/-- Every configured point that satisfies the condition is settled, every other point is as it was (R95, R96). -/
theorem State.closePoints_points (s : State) (which : Point → Bool) (n : BitVec 16) (stamp : Option CalTime)
    (cut : Bool) (j : Fin 32) :
    (s.closePoints which n stamp cut).points[j] =
      s.points[j].map (fun p => if which p then s.settledPoint p n else p) := by
  rw [State.closePoints_eq, State.foldl_closeTurn_points which n stamp cut allPoints (List.nodup_finRange 32) s s rfl]
  simp [allPoints]

/-! ## A peak reset, a completion -/

theorem State.resetPeak_points (s : State) (k : Fin 4) (j : Fin 32) :
    (s.resetPeak k).points[j] = s.points[j].map (fun p => if p.onClock k then { p with contribution := 0 } else p) := by
  simp only [State.resetPeak, State.mapPointsOn_points_get, State.setClock_points]

theorem State.resetPeak_clocks (s : State) (k j : Fin 4) :
    (s.resetPeak k).clocks[j] = if k = j then { s.clocks[j] with peak := 0, peakStamp := none } else s.clocks[j] := by
  simp only [State.resetPeak, State.mapPointsOn_clocks]
  by_cases h : k = j
  · subst h; rw [if_pos rfl, State.setClock_clocks_same]
  · rw [if_neg h, State.setClock_clocks_other _ _ _ _ h]

@[simp] theorem State.resetPeak_tariff (s : State) (k : Fin 4) : (s.resetPeak k).tariff = s.tariff := rfl
@[simp] theorem State.resetPeak_close (s : State) (k : Fin 4) : (s.resetPeak k).close = s.close := rfl
@[simp] theorem State.resetPeak_time (s : State) (k : Fin 4) : (s.resetPeak k).time = s.time := rfl
@[simp] theorem State.resetPeak_history (s : State) (k : Fin 4) : (s.resetPeak k).history = s.history := rfl
@[simp] theorem State.resetPeak_attention (s : State) (k : Fin 4) : (s.resetPeak k).attention = s.attention := rfl

@[simp] theorem State.completeClose_points (s : State) (n : BitVec 16) : (s.completeClose n).points = s.points := by
  simp only [State.completeClose]; split <;> rfl
@[simp] theorem State.completeClose_clocks (s : State) (n : BitVec 16) : (s.completeClose n).clocks = s.clocks := by
  simp only [State.completeClose]; split <;> rfl
@[simp] theorem State.completeClose_history (s : State) (n : BitVec 16) : (s.completeClose n).history = s.history := by
  simp only [State.completeClose]; split <;> rfl
@[simp] theorem State.completeClose_time (s : State) (n : BitVec 16) : (s.completeClose n).time = s.time := by
  simp only [State.completeClose]; split <;> rfl
theorem State.completeClose_close (s : State) (n : BitVec 16) :
    (s.completeClose n).close = { inFlight := none, pendingSet := 0, devicePeriod := n + 1 } := by
  simp only [State.completeClose]; split <;> rfl
theorem State.completeClose_tariff (s : State) (n : BitVec 16) :
    (s.completeClose n).tariff =
      if s.tariff.atClose then { s.tariff with active := s.tariff.pending, atClose := false } else s.tariff := by
  cases h : s.tariff.atClose <;> simp [State.completeClose, h]
theorem State.completeClose_attention (s : State) (n : BitVec 16) :
    (s.completeClose n).attention = (s.raiseDevice .closeDone).attention := by
  simp only [State.completeClose]; split <;> rfl

@[simp] theorem State.completeIfEmpty_points (s : State) (n : BitVec 16) : (s.completeIfEmpty n).points = s.points := by
  unfold State.completeIfEmpty; split <;> simp
@[simp] theorem State.completeIfEmpty_clocks (s : State) (n : BitVec 16) : (s.completeIfEmpty n).clocks = s.clocks := by
  unfold State.completeIfEmpty; split <;> simp
@[simp] theorem State.completeIfEmpty_history (s : State) (n : BitVec 16) :
    (s.completeIfEmpty n).history = s.history := by
  unfold State.completeIfEmpty; split <;> simp
theorem State.completeIfEmpty_close (s : State) (n : BitVec 16) :
    (s.completeIfEmpty n).close =
      if s.close.pendingSet = 0 then { inFlight := none, pendingSet := 0, devicePeriod := n + 1 } else s.close := by
  unfold State.completeIfEmpty; split
  · exact State.completeClose_close s n
  · rfl

/-! ## A clock's share -/

/-- A point of a clock that settles: it closes if its period is the closing one, and its contribution is 0
(R96, R104). -/
def State.sharedPoint (s : State) (n : BitVec 16) (p : Point) : Point :=
  { (if p.period = n then s.settledPoint p n else p) with contribution := 0 }

/-- A point under the share of clock k. -/
def State.sharePoint (s : State) (k : Fin 4) (n : BitVec 16) (p : Point) : Point :=
  if p.onClock k then s.sharedPoint n p else p

theorem State.sharedPoint_config (s : State) (n : BitVec 16) (p : Point) : (s.sharedPoint n p).config = p.config := by
  simp only [State.sharedPoint]; split <;> rfl

theorem State.sharedPoint_congr {s t : State} (h : t.tariff = s.tariff) (n : BitVec 16) (p : Point) :
    t.sharedPoint n p = s.sharedPoint n p := by
  simp only [State.sharedPoint, State.settledPoint_congr h]

theorem State.settledPoint_onClock (s : State) (p : Point) (n : BitVec 16) (k : Fin 4) :
    (s.settledPoint p n).onClock k = p.onClock k := rfl

theorem State.leaveClose_points (s : State) (k : Fin 4) (j : Fin 32) : (s.leaveClose k).points[j] =
    s.points[j].map (fun p => if p.onClock k then { p with contribution := 0 } else p) := s.resetPeak_points k j
theorem State.leaveClose_clocks (s : State) (k j : Fin 4) : (s.leaveClose k).clocks[j] =
    if k = j then { s.clocks[j] with peak := 0, peakStamp := none } else s.clocks[j] := s.resetPeak_clocks k j
@[simp] theorem State.leaveClose_close (s : State) (k : Fin 4) :
    (s.leaveClose k).close = { s.close with pendingSet := dropFlag s.close.pendingSet k.val } := rfl
@[simp] theorem State.leaveClose_tariff (s : State) (k : Fin 4) : (s.leaveClose k).tariff = s.tariff := rfl
@[simp] theorem State.leaveClose_time (s : State) (k : Fin 4) : (s.leaveClose k).time = s.time := rfl
@[simp] theorem State.leaveClose_attention (s : State) (k : Fin 4) : (s.leaveClose k).attention = s.attention := rfl
@[simp] theorem State.leaveClose_history (s : State) (k : Fin 4) : (s.leaveClose k).history = s.history := rfl

theorem State.settleClock_points (s : State) (k : Fin 4) (n : BitVec 16) (stamp : Option CalTime) (cut : Bool)
    (j : Fin 32) : (s.settleClock k n stamp cut).points[j] = s.points[j].map (s.sharePoint k n) := by
  rw [State.settleClock, State.leaveClose_points, State.closePoints_points]
  cases s.points[j] with
  | none => rfl
  | some p =>
    simp only [Option.map_some, State.sharePoint, State.sharedPoint, Point.dueAt]
    by_cases hk : p.onClock k = true
    · by_cases hp : p.period = n
      · simp [hk, hp, State.settledPoint_onClock]
      · simp [hk, hp]
    · simp [hk]

theorem State.settleClock_clocks (s : State) (k : Fin 4) (n : BitVec 16) (stamp : Option CalTime) (cut : Bool)
    (j : Fin 4) : (s.settleClock k n stamp cut).clocks[j] =
      if k = j then { s.clocks[j] with peak := 0, peakStamp := none } else s.clocks[j] := by
  rw [State.settleClock, State.leaveClose_clocks, (CloseTurnFrame.closePoints ..).clocks]

theorem State.settleClock_close (s : State) (k : Fin 4) (n : BitVec 16) (stamp : Option CalTime) (cut : Bool) :
    (s.settleClock k n stamp cut).close =
      { s.close with pendingSet := dropFlag s.close.pendingSet k.val } := by
  rw [State.settleClock, State.leaveClose_close, (CloseTurnFrame.closePoints ..).close]

theorem State.settleClock_tariff (s : State) (k : Fin 4) (n : BitVec 16) (stamp : Option CalTime) (cut : Bool) :
    (s.settleClock k n stamp cut).tariff = s.tariff := by
  rw [State.settleClock, State.leaveClose_tariff, (CloseTurnFrame.closePoints ..).tariff]

theorem State.settleClock_time (s : State) (k : Fin 4) (n : BitVec 16) (stamp : Option CalTime) (cut : Bool) :
    (s.settleClock k n stamp cut).time = s.time := by
  rw [State.settleClock, State.leaveClose_time, (CloseTurnFrame.closePoints ..).time]

theorem State.settleClock_attention (s : State) (k : Fin 4) (n : BitVec 16) (stamp : Option CalTime) (cut : Bool) :
    (s.settleClock k n stamp cut).attention = s.attention := by
  rw [State.settleClock, State.leaveClose_attention, (CloseTurnFrame.closePoints ..).attention]

/-- Everything a clock's share of a close can do (R96, R107): nothing, or the clock settles, and the close
completes if no clock is left pending. -/
theorem State.clockShare_cases (s : State) (k : Fin 4) (stamp : Option CalTime) :
    ((s.close.inFlight = none ∨ hasFlag s.close.pendingSet k.val = false) ∧ s.clockShare k stamp = s) ∨
    ∃ n, s.close.inFlight = some n ∧ hasFlag s.close.pendingSet k.val = true ∧
      s.clockShare k stamp = (s.settleClock k n stamp false).completeIfEmpty n := by
  unfold State.clockShare
  cases h : s.close.inFlight with
  | none => exact .inl ⟨.inl rfl, rfl⟩
  | some n =>
    cases hp : hasFlag s.close.pendingSet k.val
    · exact .inl ⟨.inr rfl, by simp⟩
    · exact .inr ⟨n, rfl, rfl, by simp⟩

theorem State.foldl_settleClock (set : BitVec 4) (n : BitVec 16) (stamp : Option CalTime) (l : List (Fin 4))
    (hl : l.Nodup) (s : State) :
    let t := l.foldl (fun t k => if hasFlag set k.val then t.settleClock k n stamp true else t) s
    (∀ j : Fin 32, t.points[j] = s.points[j].map (fun p =>
        if ∃ k ∈ l, p.config.clock = some k ∧ hasFlag set k.val = true then s.sharedPoint n p else p)) ∧
    (∀ j : Fin 4, t.clocks[j] =
      if j ∈ l ∧ hasFlag set j.val = true then { s.clocks[j] with peak := 0, peakStamp := none } else s.clocks[j]) ∧
    t.tariff = s.tariff := by
  induction l generalizing s with
  | nil => simp
  | cons k l ih =>
    rw [List.nodup_cons] at hl
    intro t
    have ht : t = l.foldl (fun t k => if hasFlag set k.val then t.settleClock k n stamp true else t)
        (if hasFlag set k.val then s.settleClock k n stamp true else s) := rfl
    by_cases hk : hasFlag set k.val = true
    case neg =>
      rw [if_neg hk] at ht
      rw [ht]
      obtain ⟨h1, h2, h3⟩ := ih hl.2 s
      refine ⟨fun j => ?_, fun j => ?_, h3⟩
      · rw [h1]
        congr 1; funext p
        have : (∃ a ∈ k :: l, p.config.clock = some a ∧ hasFlag set a.val = true) ↔
            ∃ a ∈ l, p.config.clock = some a ∧ hasFlag set a.val = true := by
          constructor
          · rintro ⟨a, ha, h⟩
            rcases List.mem_cons.1 ha with rfl | ha
            · exact absurd h.2 hk
            · exact ⟨a, ha, h⟩
          · rintro ⟨a, ha, h⟩; exact ⟨a, List.mem_cons_of_mem _ ha, h⟩
        simp only [this]
      · rw [h2]
        by_cases hj : j = k
        · subst hj; simp [hk]
        · simp [hj]
    case pos =>
      rw [if_pos hk] at ht
      rw [ht]
      obtain ⟨h1, h2, h3⟩ := ih hl.2 (s.settleClock k n stamp true)
      have ht := State.settleClock_tariff s k n stamp true
      refine ⟨fun j => ?_, fun j => ?_, h3.trans ht⟩
      · rw [h1, State.settleClock_points]
        cases s.points[j] with
        | none => rfl
        | some p =>
          simp only [Option.map_some, State.sharedPoint_congr ht]
          by_cases hp : p.config.clock = some k
          · have e1 : s.sharePoint k n p = s.sharedPoint n p := by simp [State.sharePoint, Point.onClock, hp]
            have e2 : ¬ ∃ a ∈ l, (s.sharePoint k n p).config.clock = some a ∧ hasFlag set a.val = true := by
              rintro ⟨a, ha, h, _⟩
              rw [e1, State.sharedPoint_config, hp] at h
              cases h; exact hl.1 ha
            have e3 : ∃ a ∈ k :: l, p.config.clock = some a ∧ hasFlag set a.val = true := ⟨k, by simp, hp, hk⟩
            rw [if_neg e2, if_pos e3, e1]
          · have e1 : s.sharePoint k n p = p := by simp [State.sharePoint, Point.onClock, hp]
            have e2 : (∃ a ∈ k :: l, p.config.clock = some a ∧ hasFlag set a.val = true) ↔
                ∃ a ∈ l, p.config.clock = some a ∧ hasFlag set a.val = true := by
              constructor
              · rintro ⟨a, ha, h⟩
                rcases List.mem_cons.1 ha with rfl | ha
                · exact absurd h.1 hp
                · exact ⟨a, ha, h⟩
              · rintro ⟨a, ha, h⟩; exact ⟨a, List.mem_cons_of_mem _ ha, h⟩
            simp only [e1, e2]
      · rw [h2, State.settleClock_clocks]
        by_cases hj : j = k
        · subst hj
          simp only [if_true, List.mem_cons, true_or, hk, and_self]
          split <;> rfl
        · have hj' : ¬ k = j := fun e => hj e.symm
          simp only [hj', if_false, List.mem_cons, hj, false_or]

/-! ## The start of a close -/

theorem State.closeIdlePoints_points (s : State) (j : Fin 32) :
    s.closeIdlePoints.points[j] =
      s.points[j].map (fun p => if p.sub.isNone then s.settledPoint p s.close.devicePeriod else p) :=
  State.closePoints_points ..

/-- A point whose contribution a start of a close takes back: one of a clock that is not pending (R94, R104). -/
def idlePeakPoint (set : BitVec 4) (p : Point) : Point :=
  if ∃ k : Fin 4, p.config.clock = some k ∧ hasFlag set k.val = false then { p with contribution := 0 } else p

theorem State.foldl_resetPeak (set : BitVec 4) (l : List (Fin 4)) (s : State) :
    (∀ j : Fin 32, (l.foldl (fun t k => if hasFlag set k.val then t else t.resetPeak k) s).points[j] =
      s.points[j].map (fun p =>
        if ∃ k ∈ l, p.config.clock = some k ∧ hasFlag set k.val = false then { p with contribution := 0 } else p)) ∧
    (∀ j : Fin 4, (l.foldl (fun t k => if hasFlag set k.val then t else t.resetPeak k) s).clocks[j] =
      if j ∈ l ∧ hasFlag set j.val = false then { s.clocks[j] with peak := 0, peakStamp := none } else s.clocks[j]) ∧
    (l.foldl (fun t k => if hasFlag set k.val then t else t.resetPeak k) s).close = s.close ∧
    (l.foldl (fun t k => if hasFlag set k.val then t else t.resetPeak k) s).tariff = s.tariff ∧
    (l.foldl (fun t k => if hasFlag set k.val then t else t.resetPeak k) s).history = s.history := by
  induction l generalizing s with
  | nil => simp
  | cons k l ih =>
    rw [List.foldl_cons]
    by_cases hk : hasFlag set k.val = true
    · rw [if_pos hk]
      obtain ⟨h1, h2, h3⟩ := ih s
      refine ⟨fun j => ?_, fun j => ?_, h3⟩
      · rw [h1]
        congr 1; funext p
        have : (∃ a ∈ k :: l, p.config.clock = some a ∧ hasFlag set a.val = false) ↔
            ∃ a ∈ l, p.config.clock = some a ∧ hasFlag set a.val = false := by
          constructor
          · rintro ⟨a, ha, h⟩
            rcases List.mem_cons.1 ha with rfl | ha
            · rw [hk] at h; exact absurd h.2 (by simp)
            · exact ⟨a, ha, h⟩
          · rintro ⟨a, ha, h⟩; exact ⟨a, List.mem_cons_of_mem _ ha, h⟩
        simp only [this]
      · rw [h2]
        by_cases hj : j = k
        · subst hj; simp [hk]
        · simp [hj]
    · rw [if_neg hk]
      have hk' : hasFlag set k.val = false := by simpa using hk
      obtain ⟨h1, h2, h3⟩ := ih (s.resetPeak k)
      refine ⟨fun j => ?_, fun j => ?_, h3⟩
      · rw [h1, State.resetPeak_points]
        cases s.points[j] with
        | none => rfl
        | some p =>
          simp only [Option.map_some]
          by_cases hp : p.config.clock = some k
          · have e1 : p.onClock k = true := by simp [Point.onClock, hp]
            have e2 : ∃ a ∈ k :: l, p.config.clock = some a ∧ hasFlag set a.val = false := ⟨k, by simp, hp, hk'⟩
            rw [if_pos e1, if_pos e2]
            split <;> rfl
          · have e1 : p.onClock k = false := by simp [Point.onClock, hp]
            have e2 : (∃ a ∈ k :: l, p.config.clock = some a ∧ hasFlag set a.val = false) ↔
                ∃ a ∈ l, p.config.clock = some a ∧ hasFlag set a.val = false := by
              constructor
              · rintro ⟨a, ha, h⟩
                rcases List.mem_cons.1 ha with rfl | ha
                · exact absurd h.1 hp
                · exact ⟨a, ha, h⟩
              · rintro ⟨a, ha, h⟩; exact ⟨a, List.mem_cons_of_mem _ ha, h⟩
            simp only [e1, Bool.false_eq_true, if_false, e2]
      · rw [h2, State.resetPeak_clocks]
        by_cases hj : j = k
        · subst hj
          simp only [if_true, List.mem_cons, true_or, hk', and_self]
          split <;> rfl
        · have hj' : ¬ k = j := fun e => hj e.symm
          simp only [hj', if_false, List.mem_cons, hj, false_or]

theorem allClocks_all (k : Fin 4) : k ∈ allClocks := by revert k; decide

theorem State.resetIdlePeaks_points (s : State) (j : Fin 32) :
    s.resetIdlePeaks.points[j] = s.points[j].map (idlePeakPoint s.close.pendingSet) := by
  have h := (State.foldl_resetPeak s.close.pendingSet allClocks s).1 j
  refine Eq.trans h ?_
  congr 1; funext p
  have : (∃ k ∈ allClocks, p.config.clock = some k ∧ hasFlag s.close.pendingSet k.val = false) ↔
      ∃ k : Fin 4, p.config.clock = some k ∧ hasFlag s.close.pendingSet k.val = false :=
    ⟨fun ⟨k, _, h⟩ => ⟨k, h⟩, fun ⟨k, h⟩ => ⟨k, allClocks_all k, h⟩⟩
  simp only [this, idlePeakPoint]

theorem State.resetIdlePeaks_clocks (s : State) (j : Fin 4) :
    s.resetIdlePeaks.clocks[j] =
      if hasFlag s.close.pendingSet j.val = false then { s.clocks[j] with peak := 0, peakStamp := none }
      else s.clocks[j] := by
  have h := (State.foldl_resetPeak s.close.pendingSet allClocks s).2.1 j
  refine Eq.trans h ?_
  simp only [allClocks_all, true_and]

@[simp] theorem State.resetIdlePeaks_close (s : State) : s.resetIdlePeaks.close = s.close :=
  (State.foldl_resetPeak s.close.pendingSet allClocks s).2.2.1
@[simp] theorem State.resetIdlePeaks_tariff (s : State) : s.resetIdlePeaks.tariff = s.tariff :=
  (State.foldl_resetPeak s.close.pendingSet allClocks s).2.2.2.1
@[simp] theorem State.resetIdlePeaks_history (s : State) : s.resetIdlePeaks.history = s.history :=
  (State.foldl_resetPeak s.close.pendingSet allClocks s).2.2.2.2

/-- The pending set a close starts with holds the enabled clocks that some configured point names, the time being
set (R94). -/
theorem State.startingSet_flag (s : State) (k : Fin 4) :
    hasFlag s.startingSet k.val = true ↔
      s.time.calendar.isSome = true ∧ s.clocks[k].enabled = true ∧
        ∃ i : Fin 32, ∃ p ∈ s.points[i], p.config.clock = some k := by
  have key : ∀ (g : Fin 4 → Bool) (l : List (Fin 4)) (b : BitVec 4),
      hasFlag (l.foldl (fun b k => if g k then addFlag b k.val else b) b) k.val =
        (hasFlag b k.val || (decide (k ∈ l) && g k)) := by
    intro g l
    induction l with
    | nil => simp
    | cons a l ih =>
      intro b
      rw [List.foldl_cons, ih]
      by_cases hka : k = a
      · subst hka; cases hg : g k <;> simp [hasFlag_addFlag]
      · have h1 : ¬ a.val = k.val := fun e => hka (Fin.ext e.symm)
        cases hg : g a <;> simp [hasFlag_addFlag, hka, h1]
  have hany : s.points.toList.any (fun p => (p.map (·.onClock k)).getD false) = true ↔
      ∃ i : Fin 32, ∃ p ∈ s.points[i], p.config.clock = some k := by
    rw [List.any_eq_true]
    constructor
    · rintro ⟨x, hx, h⟩
      rw [Vector.mem_toList_iff] at hx
      obtain ⟨i, hi, rfl⟩ := Vector.getElem_of_mem hx
      cases hp : s.points[i] with
      | none => simp [hp] at h
      | some p => exact ⟨⟨i, hi⟩, p, by simp [hp], by simpa [hp, Point.onClock] using h⟩
    · rintro ⟨i, p, hp, h⟩
      refine ⟨s.points[i], Vector.mem_toList_iff.2 (Vector.getElem_mem _), ?_⟩
      have hp : s.points[i] = some p := hp
      rw [hp]; simp [Point.onClock, h]
  unfold State.startingSet
  split
  · rename_i ht
    rw [key (fun k => s.clocks[k].enabled && s.points.toList.any (fun p => (p.map (·.onClock k)).getD false))]
    simp only [allClocks_all, decide_true, Bool.true_and, Bool.or_eq_true, Bool.and_eq_true, hany, ht, true_and]
    simp [hasFlag]
  · rename_i ht
    simp [hasFlag, ht]

theorem State.beginClose_close (s : State) :
    s.beginClose.close = { inFlight := some s.close.devicePeriod, pendingSet := s.startingSet,
                           devicePeriod := s.close.devicePeriod } := rfl

theorem State.closeIdlePoints_close (s : State) : s.closeIdlePoints.close = s.close := (CloseTurnFrame.closePoints ..).close
theorem State.closeIdlePoints_clocks (s : State) : s.closeIdlePoints.clocks = s.clocks := (CloseTurnFrame.closePoints ..).clocks
theorem State.closeIdlePoints_tariff (s : State) : s.closeIdlePoints.tariff = s.tariff := (CloseTurnFrame.closePoints ..).tariff

/-- The points a start of a close leaves: those without an open sub-interval are closed, the contributions of the
clocks that are not pending are 0 (R94, R95). -/
theorem State.startClose_points (s : State) (j : Fin 32) :
    s.startClose.points[j] = s.points[j].map (fun p => idlePeakPoint s.startingSet
      (if p.sub.isNone then s.settledPoint p s.close.devicePeriod else p)) := by
  unfold State.startClose
  rw [State.completeIfEmpty_points, State.resetIdlePeaks_points, State.closeIdlePoints_close,
    State.closeIdlePoints_points, Option.map_map]
  rfl

theorem State.startClose_close (s : State) :
    s.startClose.close =
      if s.startingSet = 0 then { inFlight := none, pendingSet := 0, devicePeriod := s.close.devicePeriod + 1 }
      else { inFlight := some s.close.devicePeriod, pendingSet := s.startingSet, devicePeriod := s.close.devicePeriod } := by
  unfold State.startClose
  rw [State.completeIfEmpty_close, State.resetIdlePeaks_close, State.closeIdlePoints_close]
  rfl

theorem State.startClose_clocks (s : State) (j : Fin 4) :
    s.startClose.clocks[j] =
      if hasFlag s.startingSet j.val = false then { s.clocks[j] with peak := 0, peakStamp := none } else s.clocks[j] := by
  unfold State.startClose
  rw [State.completeIfEmpty_clocks, State.resetIdlePeaks_clocks, State.closeIdlePoints_close, State.closeIdlePoints_clocks]
  rfl

/-! ## The close at a warm start -/

/-- The points a warm start's completion leaves: those of the pending clocks take their share (R110). -/
theorem State.settlePending_points (s : State) (n : BitVec 16) (stamp : Option CalTime) (j : Fin 32) :
    (s.settlePending n stamp).points[j] = s.points[j].map (fun p =>
      if ∃ k : Fin 4, p.config.clock = some k ∧ hasFlag s.close.pendingSet k.val = true then s.sharedPoint n p
      else p) := by
  refine ((State.foldl_settleClock s.close.pendingSet n stamp allClocks (by decide) s).1 j).trans ?_
  congr 1; funext p
  have : (∃ k ∈ allClocks, p.config.clock = some k ∧ hasFlag s.close.pendingSet k.val = true) ↔
      ∃ k : Fin 4, p.config.clock = some k ∧ hasFlag s.close.pendingSet k.val = true :=
    ⟨fun ⟨k, _, h⟩ => ⟨k, h⟩, fun ⟨k, h⟩ => ⟨k, allClocks_all k, h⟩⟩
  simp only [this]

theorem State.settlePending_clocks (s : State) (n : BitVec 16) (stamp : Option CalTime) (j : Fin 4) :
    (s.settlePending n stamp).clocks[j] =
      if hasFlag s.close.pendingSet j.val = true then { s.clocks[j] with peak := 0, peakStamp := none }
      else s.clocks[j] := by
  refine ((State.foldl_settleClock s.close.pendingSet n stamp allClocks (by decide) s).2.1 j).trans ?_
  simp only [allClocks_all, true_and]

theorem State.settlePending_tariff (s : State) (n : BitVec 16) (stamp : Option CalTime) :
    (s.settlePending n stamp).tariff = s.tariff :=
  (State.foldl_settleClock s.close.pendingSet n stamp allClocks (by decide) s).2.2

end Sys2Proof.Machine
end

