-- ==== Sys2Proof/Laws/Broken.lean ====
section
/-! SUPPORT. A warm start that VDD breaks off: what each part of it leaves, and the completion of a close step by
step, said once (R110, R183). -/

-- One declaration after the other: the package as one text then needs few threads.
set_option Elab.async false

namespace Sys2Proof.Machine

/-! ## The owners' own actions -/

theorem State.warmPointsIn_points (s : State) (set : BitVec 32) (i : Fin 32) :
    (s.warmPointsIn set).points[i] =
      s.points[i].map (fun p => if hasFlag set i.val then (s.cutPoint p).warmStart else p) := by
  have e : (s.warmPointsIn set).points[i] =
      if hasFlag set i.val then s.points[i].map (fun p => (s.cutPoint p).warmStart) else s.points[i] := by
    simp [State.warmPointsIn]
  rw [e]
  split <;> simp

theorem State.warmClocksIn_clocks (s : State) (set : BitVec 4) (k : Fin 4) :
    (s.warmClocksIn set).clocks[k] = if hasFlag set k.val then s.clocks[k].warmStart else s.clocks[k] := by
  simp [State.warmClocksIn]

theorem MeterFrame.warmPointsIn (s : State) (set : BitVec 32) : MeterFrame s (s.warmPointsIn set) := rfl
theorem MeterFrame.warmClocksIn (s : State) (set : BitVec 4) : MeterFrame s (s.warmClocksIn set) := rfl

/-! ## The steps of the completion of a close -/

theorem State.mem_duePoints {s : State} {n : BitVec 16} {k : Fin 4} {i : Fin 32} :
    i ∈ s.duePoints n k ↔ ∃ p, s.points[i] = some p ∧ p.dueAt k n = true := by
  simp only [State.duePoints, allPoints, List.mem_filter, List.mem_finRange, true_and]
  cases s.points[i] <;> simp

/-- A point's close leaves what is due at every clock as it was but for the point itself. -/
theorem State.closePoint_due {s : State} {i : Fin 32} {p : Point} (n : BitVec 16) (stamp : Option CalTime) (b : Bool)
    {j : Fin 32} {k : Fin 4} : j ∈ (s.closePoint i p n stamp b).duePoints n k ↔ j ≠ i ∧ j ∈ s.duePoints n k := by
  rw [State.mem_duePoints, State.mem_duePoints]
  by_cases h : i = j
  · subst h
    have e : ((s.settledPoint p n).dueAt k n) = false := by
      have : (s.settledPoint p n).period = n + 1 := rfl
      simp only [Point.dueAt, this, Bool.and_eq_false_imp, decide_eq_false_iff_not]
      intro _ e; bv_omega
    simp only [State.closePoint, State.setPoint_points_same, Option.some.injEq, exists_eq_left', e, ne_eq,
      not_true, false_and, Bool.false_eq_true]
  · simp only [State.closePoint]
    rw [State.setPoint_points_other _ _ _ _ h]
    exact ⟨fun g => ⟨fun e => h e.symm, g⟩, fun g => g.2⟩

theorem State.leaveClose_due {s : State} (n m : BitVec 16) {j : Fin 32} {k l : Fin 4} :
    j ∈ ((s.leaveClose l).completeIfEmpty m).duePoints n k ↔ j ∈ s.duePoints n k := by
  simp only [State.mem_duePoints, State.completeIfEmpty_points, State.leaveClose_points]
  cases s.points[j] with
  | none => simp
  | some p => simp only [Option.map_some, Option.some.injEq, exists_eq_left']; split <;> rfl

/-- The points before all the closes of a completion are on one pending clock each. -/
theorem State.nodup_due (s : State) (n : BitVec 16) : (s.pendingClocks.flatMap (s.duePoints n)).Nodup := by
  rw [List.nodup_flatMap]
  refine ⟨fun k _ => (List.nodup_finRange 32).filter _, (List.Nodup.filter _ (by decide)).imp (fun {a b} hab i ha hb => ?_)⟩
  obtain ⟨p, hp, h1⟩ := State.mem_duePoints.1 ha
  obtain ⟨q, hq, h2⟩ := State.mem_duePoints.1 hb
  rw [hp] at hq; cases hq
  simp only [Point.dueAt, Point.onClock, Bool.and_eq_true, decide_eq_true_eq] at h1 h2
  exact hab (Option.some.inj (h1.1.symm.trans h2.1))

/-- Whatever a point's close keeps while a clock of its is pending, and a clock's leaving keeps once none of its
points is in the closing period, the first steps of a completion keep, however many they are (R110). -/
theorem State.warmCloseFirst_keeps {R : State → Prop} {closing : BitVec 16} {stamp : Option CalTime}
    (point : ∀ (t : State) (i : Fin 32) (p : Point) (k : Fin 4), R t → t.close.inFlight = some closing →
      hasFlag t.close.pendingSet k.val = true → t.points[i] = some p → p.dueAt k closing = true →
      R (t.closePoint i p closing stamp true))
    (clock : ∀ (t : State) (k : Fin 4), R t → t.close.inFlight = some closing →
      hasFlag t.close.pendingSet k.val = true → (∀ (i : Fin 32) (p : Point), t.points[i] = some p →
        p.dueAt k closing = false) → R ((t.leaveClose k).completeIfEmpty closing))
    (s : State) (n : Nat) (hs : R s) (hc : ∀ m, s.close.inFlight = some m → m = closing) :
    R (s.warmCloseFirst n stamp) := by
  have points : ∀ (l : List (Fin 32)) (t : State) (m : Nat), l.Nodup → R t → t.close.inFlight = some closing →
      (∀ i ∈ l, ∃ k : Fin 4, hasFlag t.close.pendingSet k.val = true ∧ i ∈ t.duePoints closing k) →
      R (((l.map WarmCloseStep.point).take m).foldl (fun t x => t.warmCloseStep closing stamp x) t) ∧
      (l.length ≤ m →
        let u := ((l.map WarmCloseStep.point).take m).foldl (fun t x => t.warmCloseStep closing stamp x) t
        u.close = t.close ∧ ∀ (k : Fin 4) (i : Fin 32), i ∈ u.duePoints closing k → i ∉ l ∧ i ∈ t.duePoints closing k) := by
    intro l
    induction l with
    | nil => intro t m _ ht _ _; exact ⟨by simpa using ht, fun _ => by simp⟩
    | cons i l ih =>
      intro t m hl ht hf hd
      cases m with
      | zero => exact ⟨ht, fun h => absurd h (by simp)⟩
      | succ m =>
        obtain ⟨k, hk, hi⟩ := hd i (by simp)
        obtain ⟨p, hp, hdue⟩ := State.mem_duePoints.1 hi
        have e : t.warmCloseStep closing stamp (.point i) = t.closePoint i p closing stamp true := by
          simp only [State.warmCloseStep, hp]
        have h := ih (t.closePoint i p closing stamp true) m (List.nodup_cons.1 hl).2 (point t i p k ht hf hk hp hdue) hf
          (fun j hj => by
            obtain ⟨k, hk, hj'⟩ := hd j (List.mem_cons_of_mem _ hj)
            exact ⟨k, hk, State.closePoint_due closing stamp true |>.2
              ⟨fun e => (List.nodup_cons.1 hl).1 (e ▸ hj), hj'⟩⟩)
        simp only [List.map_cons, List.take_succ_cons, List.foldl_cons, e]
        refine ⟨h.1, fun hm => ?_⟩
        obtain ⟨h1, h2⟩ := h.2 (by simpa using hm)
        refine ⟨h1, fun k j hj => ?_⟩
        obtain ⟨h3, h4⟩ := h2 k j hj
        rw [State.closePoint_due] at h4
        exact ⟨by simp [h3, h4.1], h4.2⟩
  have clocks : ∀ (l : List (Fin 4)) (t : State) (m : Nat), l.Nodup → R t →
      (l ≠ [] → t.close.inFlight = some closing) → (∀ k ∈ l, hasFlag t.close.pendingSet k.val = true) →
      (∀ k ∈ l, ∀ i, i ∉ t.duePoints closing k) →
      R (((l.map WarmCloseStep.clock).take m).foldl (fun t x => t.warmCloseStep closing stamp x) t) := by
    intro l
    induction l with
    | nil => intro t m _ ht _ _ _; simpa using ht
    | cons k l ih =>
      intro t m hl ht hf hk hd
      cases m with
      | zero => exact ht
      | succ m =>
        simp only [List.map_cons, List.take_succ_cons, List.foldl_cons]
        have hnone : ∀ (i : Fin 32) (p : Point), t.points[i] = some p → p.dueAt k closing = false := by
          intro i p hp
          cases e : p.dueAt k closing
          · rfl
          · exact absurd (State.mem_duePoints.2 ⟨p, hp, e⟩) (hd k (by simp) i)
        have hpend : ∀ j ∈ l, hasFlag (t.leaveClose k).close.pendingSet j.val = true := by
          intro j hj
          have hjk : k ≠ j := by rintro rfl; exact (List.nodup_cons.1 hl).1 hj
          rw [State.leaveClose_close, hasFlag_dropFlag, hk j (List.mem_cons_of_mem _ hj)]
          simp [Fin.val_inj, hjk]
        have hclose : l ≠ [] → ((t.leaveClose k).completeIfEmpty closing).close = (t.leaveClose k).close := by
          intro hne
          obtain ⟨j, js, rfl⟩ := List.exists_cons_of_ne_nil hne
          rw [State.completeIfEmpty_close, if_neg]
          intro e
          have := hpend j (by simp)
          rw [e] at this
          simp [hasFlag] at this
        refine ih ((t.leaveClose k).completeIfEmpty closing) m (List.nodup_cons.1 hl).2
          (clock t k ht (hf (by simp)) (hk k (by simp)) hnone) (fun hne => by rw [hclose hne]; exact hf (by simp))
          (fun j hj => by rw [hclose (List.ne_nil_of_mem hj)]; exact hpend j hj) (fun j hj i => ?_)
        rw [State.leaveClose_due]
        exact hd j (List.mem_cons_of_mem _ hj) i
  unfold State.warmCloseFirst
  split
  · rename_i m hm
    cases hc m hm
    have hdue : ∀ i ∈ s.pendingClocks.flatMap (s.duePoints closing), ∃ k : Fin 4,
        hasFlag s.close.pendingSet k.val = true ∧ i ∈ s.duePoints closing k := by
      intro i hi
      obtain ⟨k, hk, hi⟩ := List.mem_flatMap.1 hi
      exact ⟨k, (List.mem_filter.1 hk).2, hi⟩
    have h := points _ s n (s.nodup_due closing) hs hm hdue
    rw [State.warmCloseSteps, List.take_append, List.foldl_append]
    by_cases hn : n ≤ (s.pendingClocks.flatMap (s.duePoints closing)).length
    · rw [List.length_map, Nat.sub_eq_zero_of_le hn]; exact h.1
    · obtain ⟨h1, h2⟩ := h.2 (by omega)
      refine clocks _ _ _ (List.Nodup.filter _ (by decide)) h.1 (fun _ => by rw [h1]; exact hm)
        (fun k hk => by rw [h1]; exact (List.mem_filter.1 hk).2) (fun k hk i hi => ?_)
      obtain ⟨h3, h4⟩ := h2 k i hi
      exact h3 (List.mem_flatMap.2 ⟨k, hk, h4⟩)
  · exact hs

end Sys2Proof.Machine
end

