-- ==== Sys2Proof/Laws/Layouts.lean ====
section
/-! SUPPORT. Layouts of octets: fields that stand one after the other are held by their concatenation, and what the
shared parts of the layouts concatenate to (R190, R192 to R194). -/

-- One declaration after the other: the package as one text then needs few threads.
set_option Elab.async false

namespace Sys2Proof.Statements

open Sys2Proof.Machine

/-- The fields stand one after the other from a place on. -/
def InRow : Nat → List (Nat × Nat × Nat) → Prop
  | _, [] => True
  | n, f :: fs => f.1 = n ∧ InRow (n + f.2.1) fs

/-- The octets of a field. -/
abbrev fieldOctets (f : Nat × Nat × Nat) : List Byte := beBytes f.2.1 f.2.2

theorem beBytes_length (n v : Nat) : (beBytes n v).length = n := by induction n generalizing v <;> simp [beBytes, *]

theorem inRow_append (n : Nat) (a b : List (Nat × Nat × Nat)) :
    InRow n (a ++ b) ↔ InRow n a ∧ InRow (n + (a.map (·.2.1)).sum) b := by
  induction a generalizing n with
  | nil => simp [InRow]
  | cons f a ih => simp [InRow, ih, Nat.add_assoc, and_assoc]

theorem holds_row (fs : List (Nat × Nat × Nat)) (pre : List Byte) (h : InRow pre.length fs) :
    Holds (pre ++ fs.flatMap fieldOctets) fs := by
  induction fs generalizing pre with
  | nil => intro f hf; cases hf
  | cons f fs ih =>
    intro x hx
    rcases List.mem_cons.1 hx with rfl | hx
    · rw [h.1, List.drop_left, List.flatMap_cons, List.take_left' (beBytes_length _ _)]
    · have g := ih (pre ++ beBytes f.2.1 f.2.2) (by rw [List.length_append, beBytes_length]; exact h.2)
      rw [List.flatMap_cons, ← List.append_assoc]
      exact g x hx

/-- Octets that are the concatenation of fields in a row hold them. -/
theorem holds_of_row {os : List Byte} {fs : List (Nat × Nat × Nat)} (h : InRow 0 fs)
    (e : os = fs.flatMap fieldOctets) : Holds os fs := by
  rw [e]; exact holds_row fs [] h

theorem length_of_row {os : List Byte} {fs : List (Nat × Nat × Nat)} (e : os = fs.flatMap fieldOctets) :
    os.length = (fs.map (·.2.1)).sum := by
  rw [e, List.length_flatMap]; congr 1; simp [beBytes_length]

/-! ## Single octets and the parts several layouts share -/

theorem beBytes_one (v : Nat) : beBytes 1 v = [oct v] := by simp [beBytes, oct]
theorem oct_toNat (b : Byte) : oct b.toNat = b := by simp [oct]
theorem octBool_bit (b : Bool) : octBool b = oct (bit b) := by cases b <;> rfl
theorem noneOctet_code {n : Nat} (c : Option (Fin n)) : noneOctet c = oct (noneCode c) := by cases c <;> rfl
theorem stampOctets_code (t : Option CalTime) : stampOctets t = beBytes 4 (stampCode t) := by cases t <;> rfl

theorem residueOctet_code (c : Int) : residueOctet c = oct (residueCode c) := by
  apply BitVec.eq_of_toNat_eq
  simp only [residueOctet, residueCode, oct, BitVec.toNat_ofInt, BitVec.toNat_ofNat]
  omega

theorem configFields_octets (n : Nat) (c : PointConfig) : (configFields n c).flatMap fieldOctets = c.octets := by
  simp [PointConfig.octets, noneOctet_code, octBool_bit, configFields, beBytes_one, fieldOctets]

theorem energyFields_octets (n w : Nat) (e : Energies) :
    (energyFields n w e).flatMap fieldOctets = energyOctets w e := by
  simp [energyFields, energyOctets]

theorem maximumFields_octets (n : Nat) (m : Maximum) : (maximumFields n m).flatMap fieldOctets = m.octets := by
  simp [maximumFields, Maximum.octets, stampOctets_code]

theorem lineFields_octets (n : Nat) (l : ChargeLine) : (lineFields n l).flatMap fieldOctets = l.octets := by
  simp [lineFields, ChargeLine.octets, residueOctet_code, beBytes_one, fieldOctets]

theorem counterFields_octets (n : Nat) (c : PeriodCounters) : (counterFields n c).flatMap fieldOctets = c.octets := by
  simp [counterFields, PeriodCounters.octets]

theorem clockFields_octets (n : Nat) (c : Clock) : (clockFields n c).flatMap fieldOctets = c.octets := by
  simp only [Clock.octets, clockFields, octBool_bit, stampOctets_code, List.flatMap_cons, List.flatMap_nil, beBytes_one,
    fieldOctets, List.append_nil, List.cons_append, List.nil_append]

theorem ratchetFields_octets (l : List Nat) (n : Nat) :
    (l.mapIdx (fun k v => (n + 5 * k, 5, v))).flatMap fieldOctets = (l.map (beBytes 5)).flatten := by
  induction l generalizing n with
  | nil => rfl
  | cons a l ih =>
    rw [List.mapIdx_cons, List.flatMap_cons, List.map_cons, List.flatten_cons]
    congr 1
    rw [← ih (n + 5)]
    congr 2
    funext k v; simp; omega

end Sys2Proof.Statements
end

