-- ==== Sys2Proof/Laws/Records.lean ====
section
/-! SUPPORT. The billing records that the operations of a close append, and in which order (R95, R96, R100, R110,
R126). -/

-- One declaration after the other: the package as one text then needs few threads.
set_option Elab.async false

namespace Sys2Proof.Machine

/-- A record rests on the point, on its clock and on the tariff store alone (R99, R100). -/
theorem State.recordOf_congr {s t : State} (h : t.tariff = s.tariff) (i : Fin 32) {p : Point}
    (g : t.clockOf p = s.clockOf p) (n : BitVec 16) (stamp : Option CalTime) (cut : Bool) :
    t.recordOf i p n stamp cut = s.recordOf i p n stamp cut := by
  simp only [State.recordOf, State.chargesOf, State.excessOf, State.optionOf, h, g]

theorem State.clockOf_congr {s t : State} (h : t.clocks = s.clocks) (p : Point) : t.clockOf p = s.clockOf p := by
  simp only [State.clockOf, h]

/-- The record of the point at an index, if it is configured. -/
def State.recordAt (s : State) (n : BitVec 16) (stamp : Option CalTime) (cut : Bool) (i : Fin 32) :
    Option BillingRecord := s.points[i].map (fun p => s.recordOf i p n stamp cut)

theorem State.recordAt_congr {s t : State} (h : t.tariff = s.tariff) {i : Fin 32} (hp : t.points[i] = s.points[i])
    (g : ∀ p, s.points[i] = some p → t.clockOf p = s.clockOf p) (n : BitVec 16) (stamp : Option CalTime) (cut : Bool) :
    t.recordAt n stamp cut i = s.recordAt n stamp cut i := by
  simp only [State.recordAt, hp]
  cases e : s.points[i] with
  | none => rfl
  | some p => simp only [Option.map_some, State.recordOf_congr h i (g p e)]

/-- Points that are all configured have a record each. -/
theorem State.recordAt_points (s : State) (n : BitVec 16) (stamp : Option CalTime) (cut : Bool) (l : List (Fin 32))
    (hl : ∀ i ∈ l, s.points[i] ≠ none) : (l.filterMap (s.recordAt n stamp cut)).map (·.point) = l := by
  induction l with
  | nil => rfl
  | cons i l ih =>
    obtain ⟨p, hp⟩ := Option.ne_none_iff_exists'.1 (hl i (by simp))
    have e : s.recordAt n stamp cut i = some (s.recordOf i p n stamp cut) := by simp only [State.recordAt, hp, Option.map_some]
    rw [List.filterMap_cons, e]
    simp only [List.map_cons]
    rw [ih (fun j hj => hl j (by simp [hj]))]
    rfl

/-- The points of a condition, in ascending point index. -/
def State.pointsWhere (s : State) (which : Point → Bool) : List (Fin 32) :=
  allPoints.filter (fun i => (s.points[i].map which).getD false)

theorem State.pointsWhere_configured (s : State) (which : Point → Bool) : ∀ i ∈ s.pointsWhere which, s.points[i] ≠ none := by
  intro i hi h
  have := (List.mem_filter.1 hi).2
  simp only [h, Option.map_none, Option.getD_none, Bool.false_eq_true] at this

/-- What `closePoints` appends: a record for each point of the condition, in ascending point index (R95, R96). -/
theorem State.closePoints_history (s : State) (which : Point → Bool) (n : BitVec 16) (stamp : Option CalTime)
    (cut : Bool) : (s.closePoints which n stamp cut).history =
      ((s.pointsWhere which).filterMap (s.recordAt n stamp cut)).foldl History.append s.history := by
  have key : ∀ (l : List (Fin 32)) (t : State), l.Nodup → t.tariff = s.tariff → t.clocks = s.clocks →
      (∀ i ∈ l, t.points[i] = s.points[i]) →
      (l.foldl (State.closeTurn which n stamp cut) t).history =
        ((l.filter (fun i => (s.points[i].map which).getD false)).filterMap (s.recordAt n stamp cut)).foldl
          History.append t.history := by
    intro l
    induction l with
    | nil => intro t _ _ _ _; rfl
    | cons i l ih =>
      intro t hl h1 h2 h3
      rw [List.nodup_cons] at hl
      have hf := CloseTurnFrame.turn which n stamp cut t i
      rw [List.foldl_cons, ih _ hl.2 (hf.tariff.trans h1) (hf.clocks.trans h2) (fun j hj => by
        rw [State.closeTurn_points, if_neg (by rintro rfl; exact hl.1 hj)]; exact h3 j (by simp [hj]))]
      have hi := h3 i (by simp)
      rw [List.filter_cons]
      unfold State.closeTurn
      cases hp : s.points[i] with
      | none => rw [hi, hp]; rfl
      | some p =>
        rw [hi, hp]
        cases hw : which p
        · simp [hw]
        · simp only [hw, if_true, Option.map_some, Option.getD_some, List.filterMap_cons, State.recordAt, hp,
            List.foldl_cons, State.closePoint_history, State.recordOf_congr h1 i (State.clockOf_congr h2 p)]
  rw [State.closePoints_eq]
  exact key allPoints s (List.nodup_finRange 32) rfl rfl (fun _ _ => rfl)

theorem State.settleClock_history (s : State) (k : Fin 4) (n : BitVec 16) (stamp : Option CalTime) (cut : Bool) :
    (s.settleClock k n stamp cut).history =
      ((s.duePoints n k).filterMap (s.recordAt n stamp cut)).foldl History.append s.history := by
  rw [State.settleClock, State.leaveClose_history]
  exact State.closePoints_history ..

/-- What a start of a close appends: a record for each point without an open sub-interval (R95). -/
theorem State.startClose_history (s : State) : s.startClose.history =
    ((s.pointsWhere (fun p => p.sub.isNone)).filterMap
      (s.recordAt s.close.devicePeriod s.time.calendar false)).foldl History.append s.history := by
  unfold State.startClose
  rw [State.completeIfEmpty_history, State.resetIdlePeaks_history]
  exact State.closePoints_history ..

/-! ## The close at a warm start -/

theorem State.duePoints_clock {s : State} {n : BitVec 16} {k : Fin 4} {i : Fin 32} (hi : i ∈ s.duePoints n k) :
    ∃ p, s.points[i] = some p ∧ p.config.clock = some k ∧ p.period = n := by
  obtain ⟨p, hp, hd⟩ := State.mem_duePoints.1 hi
  simp only [Point.dueAt, Point.onClock, Bool.and_eq_true, decide_eq_true_eq] at hd
  exact ⟨p, hp, hd.1, hd.2⟩

/-- What a completion at a warm start appends: clock by clock, in ascending order, a record for each point still in
the closing period (R110). -/
theorem State.settlePending_history (s : State) (n : BitVec 16) (stamp : Option CalTime) :
    (s.settlePending n stamp).history =
      ((s.pendingClocks.flatMap (s.duePoints n)).filterMap (s.recordAt n stamp true)).foldl History.append s.history := by
  have key : ∀ (l : List (Fin 4)) (t : State), l.Nodup → t.tariff = s.tariff →
      (∀ k ∈ l, t.clocks[k] = s.clocks[k]) →
      (∀ (i : Fin 32) (p : Point) (k : Fin 4), k ∈ l → p.config.clock = some k →
        (t.points[i] = some p ↔ s.points[i] = some p)) →
      (l.foldl (fun t k => if hasFlag s.close.pendingSet k.val then t.settleClock k n stamp true else t) t).history =
        (((l.filter (fun k => hasFlag s.close.pendingSet k.val)).flatMap (s.duePoints n)).filterMap
          (s.recordAt n stamp true)).foldl History.append t.history := by
    intro l
    induction l with
    | nil => intro t _ _ _ _; rfl
    | cons k l ih =>
      intro t hl h1 h2 h3
      rw [List.nodup_cons] at hl
      rw [List.foldl_cons, List.filter_cons]
      by_cases hk : hasFlag s.close.pendingSet k.val = true
      · rw [if_pos hk, if_pos hk, ih (t.settleClock k n stamp true) hl.2 ((State.settleClock_tariff ..).trans h1)
          (fun j hj => by
            rw [State.settleClock_clocks, if_neg (by rintro rfl; exact hl.1 hj)]; exact h2 j (by simp [hj]))
          (fun i p j hj hp => by
            rw [State.settleClock_points, ← h3 i p j (by simp [hj]) hp]
            have hjk : j ≠ k := by rintro rfl; exact hl.1 hj
            cases e : t.points[i] with
            | none => simp
            | some q =>
              simp only [Option.map_some, Option.some.injEq, State.sharePoint]
              by_cases hq : q.config.clock = some k
              · have hon : q.onClock k = true := by simp [Point.onClock, hq]
                rw [if_pos hon]
                have a : t.sharedPoint n q ≠ p := by
                  rintro rfl; rw [State.sharedPoint_config, hq] at hp; exact hjk (Option.some.inj hp).symm
                have b : q ≠ p := by rintro rfl; rw [hq] at hp; exact hjk (Option.some.inj hp).symm
                simp only [a, b]
              · have hon : ¬ q.onClock k = true := by simp [Point.onClock, hq]
                rw [if_neg hon])]
        rw [List.flatMap_cons, List.filterMap_append, List.foldl_append, State.settleClock_history]
        have e : t.duePoints n k = s.duePoints n k := by
          refine List.filter_congr (fun i _ => ?_)
          rw [Bool.eq_iff_iff]
          have side : ∀ u : State, (u.points[i].map (fun p => p.dueAt k n)).getD false = true ↔
              ∃ p, u.points[i] = some p ∧ p.dueAt k n = true := by
            intro u; cases u.points[i] <;> simp
          rw [side, side]
          constructor
          · rintro ⟨p, hp, hd⟩
            refine ⟨p, (h3 i p k (by simp) ?_).1 hp, hd⟩
            simp only [Point.dueAt, Point.onClock, Bool.and_eq_true, decide_eq_true_eq] at hd; exact hd.1
          · rintro ⟨p, hp, hd⟩
            refine ⟨p, (h3 i p k (by simp) ?_).2 hp, hd⟩
            simp only [Point.dueAt, Point.onClock, Bool.and_eq_true, decide_eq_true_eq] at hd; exact hd.1
        have e2 : (s.duePoints n k).filterMap (t.recordAt n stamp true) =
            (s.duePoints n k).filterMap (s.recordAt n stamp true) := by
          refine List.filterMap_congr (fun i hi => ?_)
          obtain ⟨p, hp, hc, _⟩ := State.duePoints_clock hi
          refine State.recordAt_congr h1 (by rw [hp]; exact (h3 i p k (by simp) hc).2 hp) (fun q hq => ?_) n stamp true
          rw [hp] at hq; cases hq
          simp only [State.clockOf, hc, Option.map_some, h2 k (by simp)]
        rw [e, e2]
      · rw [if_neg hk, if_neg hk]
        exact ih t hl.2 h1 (fun j hj => h2 j (by simp [hj])) (fun i p j hj => h3 i p j (by simp [hj]))
  exact key allClocks s (by decide) rfl (fun _ _ => rfl) (fun _ _ _ _ _ => Iff.rfl)

/-- What the first steps of a completion append: records of the points they come to (R110, R183). -/
theorem State.warmCloseFirst_history (s : State) (n : BitVec 16) (m : Nat) (stamp : Option CalTime)
    (hn : s.close.inFlight = some n) : (s.warmCloseFirst m stamp).history =
      (((s.pendingClocks.flatMap (s.duePoints n)).take m).filterMap (s.recordAt n stamp true)).foldl History.append
        s.history := by
  have points : ∀ (l : List (Fin 32)) (t : State), l.Nodup → t.tariff = s.tariff → t.clocks = s.clocks →
      (∀ i ∈ l, t.points[i] = s.points[i]) →
      ((l.map WarmCloseStep.point).foldl (fun t x => t.warmCloseStep n stamp x) t).history =
        (l.filterMap (s.recordAt n stamp true)).foldl History.append t.history := by
    intro l
    induction l with
    | nil => intro t _ _ _ _; rfl
    | cons i l ih =>
      intro t hl h1 h2 h3
      rw [List.nodup_cons] at hl
      have hi := h3 i (by simp)
      rw [List.map_cons, List.foldl_cons]
      cases hp : s.points[i] with
      | none =>
        have e1 : t.warmCloseStep n stamp (.point i) = t := by simp only [State.warmCloseStep, hi, hp]
        rw [e1]
        have e : s.recordAt n stamp true i = none := by simp only [State.recordAt, hp, Option.map_none]
        rw [List.filterMap_cons, e]
        exact ih t hl.2 h1 h2 (fun j hj => h3 j (by simp [hj]))
      | some p =>
        have e1 : t.warmCloseStep n stamp (.point i) = t.closePoint i p n stamp true := by
          simp only [State.warmCloseStep, hi, hp]
        rw [e1]
        have e : s.recordAt n stamp true i = some (s.recordOf i p n stamp true) := by
          simp only [State.recordAt, hp, Option.map_some]
        rw [List.filterMap_cons, e]
        simp only [List.foldl_cons]
        rw [ih (t.closePoint i p n stamp true) hl.2 h1 h2 (fun j hj => by
          simp only [State.closePoint]
          rw [State.setPoint_points_other _ _ _ _ (by rintro rfl; exact hl.1 hj)]
          exact h3 j (by simp [hj])), State.closePoint_history, State.recordOf_congr h1 i (State.clockOf_congr h2 p)]
  have clocks : ∀ (l : List (Fin 4)) (t : State),
      ((l.map WarmCloseStep.clock).foldl (fun t x => t.warmCloseStep n stamp x) t).history = t.history := by
    intro l
    induction l with
    | nil => intro t; rfl
    | cons k l ih =>
      intro t
      rw [List.map_cons, List.foldl_cons, ih]
      exact State.completeIfEmpty_history ..
  unfold State.warmCloseFirst
  rw [hn]
  simp only [State.warmCloseSteps]
  rw [List.take_append, List.foldl_append, ← List.map_take, ← List.map_take, clocks]
  exact points _ s ((s.nodup_due n).sublist (List.take_sublist ..)) rfl rfl (fun _ _ => rfl)

theorem State.foldl_points_step (n : BitVec 16) (stamp : Option CalTime) (l : List (Fin 32)) (t : State) :
    CloseTurnFrame t ((l.map WarmCloseStep.point).foldl (fun t x => t.warmCloseStep n stamp x) t) := by
  induction l generalizing t with
  | nil => exact ⟨rfl, rfl, rfl, rfl, rfl⟩
  | cons i l ih =>
    rw [List.map_cons, List.foldl_cons]
    refine CloseTurnFrame.trans ?_ (ih _)
    simp only [State.warmCloseStep]
    split <;> exact ⟨rfl, rfl, rfl, rfl, rfl⟩

theorem pendingSet_zero (b : BitVec 4) : b = 0 ↔ ∀ k : Fin 4, hasFlag b k.val = false := by revert b; decide

/-- The last pending clock to leave completes the close (R96, R105, R110). -/
theorem State.foldl_clocks_step (n : BitVec 16) (stamp : Option CalTime) (l : List (Fin 4)) (hl : l.Nodup) (hne : l ≠ [])
    (t : State) (ht : ∀ k : Fin 4, hasFlag t.close.pendingSet k.val = true ↔ k ∈ l) :
    ∃ v : State, (l.map WarmCloseStep.clock).foldl (fun t x => t.warmCloseStep n stamp x) t = v.completeClose n ∧
      v.tariff = t.tariff := by
  induction l generalizing t with
  | nil => exact absurd rfl hne
  | cons k l ih =>
    rw [List.nodup_cons] at hl
    rw [List.map_cons, List.foldl_cons]
    have hp : ∀ j : Fin 4, hasFlag (t.leaveClose k).close.pendingSet j.val = true ↔ j ∈ l := by
      intro j
      rw [State.leaveClose_close, hasFlag_dropFlag, Bool.and_eq_true, ht j]
      by_cases e : j = k
      · subst e; simpa using hl.1
      · have : ¬ k.val = j.val := fun h => e (Fin.ext h.symm)
        simp [e, this]
    have hstep : t.warmCloseStep n stamp (.clock k) = (t.leaveClose k).completeIfEmpty n := rfl
    rw [hstep]
    by_cases h : l = []
    · subst h
      have hz : (t.leaveClose k).close.pendingSet = 0 := (pendingSet_zero _).2 (fun j => by
        rw [← Bool.not_eq_true, hp j]; simp)
      refine ⟨t.leaveClose k, ?_, rfl⟩
      simp only [List.map_nil, List.foldl_nil, State.completeIfEmpty, hz, if_true]
    · have hz : ¬ (t.leaveClose k).close.pendingSet = 0 := fun e => by
        obtain ⟨j, js, rfl⟩ := List.exists_cons_of_ne_nil h
        have := (hp j).2 (by simp)
        rw [e] at this
        simp [hasFlag] at this
      have e : (t.leaveClose k).completeIfEmpty n = t.leaveClose k := by simp only [State.completeIfEmpty, hz, if_false]
      rw [e]
      obtain ⟨v, h1, h2⟩ := ih hl.2 h (t.leaveClose k) hp
      exact ⟨v, h1, h2⟩

/-- With as many steps as there are points and clocks, the close completes (R105, R110). -/
theorem State.warmCloseFirst_completes (s : State) (n : BitVec 16) (m : Nat) (stamp : Option CalTime)
    (hn : s.close.inFlight = some n) (hp : s.pendingClocks ≠ [])
    (hm : (s.pendingClocks.flatMap (s.duePoints n)).length + s.pendingClocks.length ≤ m) :
    ∃ v : State, s.warmCloseFirst m stamp = v.completeClose n ∧ v.tariff = s.tariff := by
  unfold State.warmCloseFirst
  rw [hn]
  dsimp only
  have hlen : (s.warmCloseSteps n).length ≤ m := by
    rw [State.warmCloseSteps, List.length_append, List.length_map, List.length_map]; exact hm
  rw [List.take_of_length_le hlen, State.warmCloseSteps, List.foldl_append]
  have hf := State.foldl_points_step n stamp (s.pendingClocks.flatMap (s.duePoints n)) s
  generalize ((s.pendingClocks.flatMap (s.duePoints n)).map WarmCloseStep.point).foldl
    (fun t x => t.warmCloseStep n stamp x) s = t at hf ⊢
  obtain ⟨v, h1, h2⟩ := State.foldl_clocks_step n stamp s.pendingClocks (List.Nodup.filter _ (by decide)) hp t (fun k => by
    rw [hf.close]; simp [State.pendingClocks, allClocks_all])
  exact ⟨v, h1, h2.trans hf.tariff⟩

/-! ## What a broken completion leaves alone -/

theorem MeterFrame.warmCloseStep (s : State) (n : BitVec 16) (stamp : Option CalTime) (x : WarmCloseStep) :
    MeterFrame s (s.warmCloseStep n stamp x) := by
  cases x with
  | point i =>
    unfold State.warmCloseStep
    dsimp only
    split
    · exact .closePoint ..
    · exact .refl _
  | clock k => exact (MeterFrame.leaveClose s k).trans (.completeIfEmpty ..)

theorem MeterFrame.warmCloseFirst (s : State) (m : Nat) (stamp : Option CalTime) :
    MeterFrame s (s.warmCloseFirst m stamp) := by
  unfold State.warmCloseFirst
  split
  · exact .foldl (fun t x => .warmCloseStep t _ stamp x) _ s
  · exact .refl _

theorem State.warmCloseStep_time (s : State) (n : BitVec 16) (stamp : Option CalTime) (x : WarmCloseStep) :
    (s.warmCloseStep n stamp x).time = s.time := by
  cases x with
  | point i => unfold State.warmCloseStep; dsimp only; split <;> rfl
  | clock k =>
    show ((s.leaveClose k).completeIfEmpty n).time = s.time
    unfold State.completeIfEmpty
    split
    · rw [State.completeClose_time, State.leaveClose_time]
    · rfl

theorem State.warmCloseFirst_time (s : State) (m : Nat) (stamp : Option CalTime) :
    (s.warmCloseFirst m stamp).time = s.time := by
  unfold State.warmCloseFirst
  split
  · exact foldl_keeps (R := fun t : State => t.time = s.time) _ s rfl (fun t x _ ht =>
      (State.warmCloseStep_time t _ stamp x).trans ht)
  · rfl

end Sys2Proof.Machine
end

