-- ==== Sys2Proof/Laws/Minutes.lean ====
section
/-! SUPPORT. A minute of the time base: what an opening leaves of the points, in which order the clocks take a
minute, what the scheduled close can do, what a time step leaves (R41, R46, R47, R53, R62). -/

-- One declaration after the other: the package as one text then needs few threads.
set_option Elab.async false

namespace Sys2Proof.Machine

/-! ## The opening of sub-intervals -/

/-- A point whose sub-interval opens at a minute if its clock is enabled (R41, R47). -/
def State.openIfEnabled (s : State) (now : CalTime) (p : Point) : Point :=
  match p.config.clock with
  | some k => if s.clocks[k].enabled then p.openSub s.tariff.active s.clocks[k] now else p
  | none => p

theorem State.openIfEnabled_clock (s : State) (now : CalTime) (p : Point) :
    (s.openIfEnabled now p).config = p.config := by
  unfold State.openIfEnabled
  split
  · split <;> rfl
  · rfl

theorem State.openEnabled_points (s : State) (now : CalTime) (i : Fin 32) :
    (s.openEnabled now).points[i] = s.points[i].map (s.openIfEnabled now) := by
  have key : ∀ (l : List (Fin 4)) (t : State), l.Nodup → t.clocks = s.clocks → t.tariff = s.tariff →
      (l.foldl (fun t k => if t.clocks[k].enabled then t.openPointsOn k now else t) t).points[i] =
        t.points[i].map (fun p => if ∃ k ∈ l, p.config.clock = some k then s.openIfEnabled now p else p) := by
    intro l
    induction l with
    | nil => intro t _ _ _; simp
    | cons k l ih =>
      intro t hl h1 h2
      rw [List.nodup_cons] at hl
      rw [List.foldl_cons, ih _ hl.2 (by split <;> exact h1) (by split <;> exact h2)]
      have e : (if t.clocks[k].enabled then t.openPointsOn k now else t).points[i] =
          t.points[i].map (fun p => if p.config.clock = some k then s.openIfEnabled now p else p) := by
        rw [h1]
        split
        · rename_i he
          simp only [State.openPointsOn, State.mapPointsOn_points_get, h1, h2]
          congr 1; funext p
          by_cases hp : p.config.clock = some k
          · have hon : p.onClock k = true := by simp [Point.onClock, hp]
            simp only [hon, if_true, hp, State.openIfEnabled, he]
          · have hon : ¬ p.onClock k = true := by simp [Point.onClock, hp]
            rw [if_neg hon, if_neg hp]
        · rename_i he
          cases t.points[i] with
          | none => rfl
          | some p =>
            simp only [Option.map_some]
            split
            · rename_i hp
              simp only [State.openIfEnabled, hp, he, Bool.false_eq_true, if_false]
            · rfl
      rw [e, Option.map_map]
      congr 1; funext p
      simp only [Function.comp_apply]
      by_cases hp : p.config.clock = some k
      · rw [if_pos hp, if_neg (by
          rintro ⟨j, hj, h⟩
          rw [State.openIfEnabled_clock, hp] at h
          exact hl.1 (Option.some.inj h ▸ hj)), if_pos ⟨k, by simp, hp⟩]
      · rw [if_neg hp]
        have : (∃ j ∈ k :: l, p.config.clock = some j) ↔ ∃ j ∈ l, p.config.clock = some j := by
          constructor
          · rintro ⟨j, hj, h⟩
            rcases List.mem_cons.1 hj with rfl | hj
            · exact absurd h hp
            · exact ⟨j, hj, h⟩
          · rintro ⟨j, hj, h⟩; exact ⟨j, List.mem_cons_of_mem _ hj, h⟩
        simp only [this]
  refine (key allClocks s (by decide) rfl rfl).trans ?_
  congr 1; funext p
  split
  · rfl
  · rename_i h
    cases hp : p.config.clock with
    | none => simp only [State.openIfEnabled, hp]
    | some k => exact absurd ⟨k, allClocks_all k, hp⟩ h

/-- An opening changes the points alone. -/
theorem State.openEnabled_eq (s : State) (now : CalTime) :
    s.openEnabled now = { s with points := (s.openEnabled now).points } := by
  refine foldl_keeps (R := fun t : State => t = { s with points := t.points }) _ s rfl (fun t k _ ht => ?_)
  split
  · have e : t.openPointsOn k now = { t with points := (t.openPointsOn k now).points } := rfl
    rw [e, ht]
  · exact ht

/-! ## The order of the clocks at a minute -/

theorem arrange_nil (due : List (Fin 4)) : arrange [] due = due := rfl

theorem arrange_cons (k : Fin 4) (order due : List (Fin 4)) :
    arrange (k :: order) due = if k ∈ due then k :: arrange order (due.erase k) else arrange order due := rfl

/-- Each due clock takes its boundary once (R62). -/
theorem arrange_perm (order due : List (Fin 4)) : (arrange order due).Perm due := by
  induction order generalizing due with
  | nil => exact .refl _
  | cons k order ih =>
    rw [arrange_cons]
    split
    · rename_i h; exact ((ih _).cons k).trans (List.perm_cons_erase h).symm
    · exact ih _

/-- Where the order names every due clock once, the due clocks are taken in that order (R62; log 4). -/
theorem arrange_sublist (order due : List (Fin 4)) (h : order.Nodup) (hd : due.Nodup) (hall : ∀ k ∈ due, k ∈ order) :
    (arrange order due).Sublist order := by
  induction order generalizing due with
  | nil =>
    cases due with
    | nil => exact .refl _
    | cons k due => exact absurd (hall k (by simp)) (by simp)
  | cons k order ih =>
    rw [List.nodup_cons] at h
    rw [arrange_cons]
    split
    · refine (ih _ h.2 (hd.erase k) (fun j hj => ?_)).cons_cons k
      have hj' := (List.Nodup.mem_erase_iff hd).1 hj
      exact (List.mem_cons.1 (hall j hj'.2)).resolve_left hj'.1
    · rename_i hk
      refine (ih _ h.2 hd (fun j hj => ?_)).cons k
      rcases List.mem_cons.1 (hall j hj) with rfl | hj
      · exact absurd hj hk
      · exact hj

theorem State.mem_dueClocks (s : State) (now : CalTime) (k : Fin 4) :
    k ∈ s.dueClocks now ↔ s.clocks[k].enabled = true ∧ now.minute % s.clocks[k].length = 0 := by
  simp [State.dueClocks, allClocks_all, Clock.boundaryMinute]

theorem State.nodup_dueClocks (s : State) (now : CalTime) : (s.dueClocks now).Nodup := List.Nodup.filter _ (by decide)

/-! ## The scheduled close -/

/-- Everything the scheduled close can do at a time update (R53): nothing, or its month is written and a close
starts. -/
theorem State.scheduledClose_cases (s : State) (now : CalTime) :
    (∃ c : CloseInstant, s.tariff.active.closeInstant = some c ∧
      (c.day < now.day ∨ (now.day = c.day ∧ c.minute ≤ now.hour * 60 + now.minute)) ∧
      s.time.lastClose ≠ some { year := now.year, month := now.month } ∧ s.close.inFlight = none ∧
      s.scheduledClose now = State.startClose
        { s with time := { s.time with lastClose := some { year := now.year, month := now.month } } }) ∨
    (¬ (∃ c : CloseInstant, s.tariff.active.closeInstant = some c ∧
      (c.day < now.day ∨ (now.day = c.day ∧ c.minute ≤ now.hour * 60 + now.minute)) ∧
      s.time.lastClose ≠ some { year := now.year, month := now.month } ∧ s.close.inFlight = none) ∧
      s.scheduledClose now = s) := by
  have reached : ∀ c : CloseInstant, c.reached now = true ↔
      (c.day < now.day ∨ (now.day = c.day ∧ c.minute ≤ now.hour * 60 + now.minute)) := by
    intro c
    rw [CloseInstant.reached, Bool.or_eq_true, Bool.and_eq_true, decide_eq_true_eq, decide_eq_true_eq, decide_eq_true_eq]
    rfl
  unfold State.scheduledClose
  cases hc : s.tariff.active.closeInstant with
  | none => exact .inr ⟨by rintro ⟨c, h, _⟩; simp at h, rfl⟩
  | some c =>
    simp only [reached]
    by_cases h : (c.day < now.day ∨ (now.day = c.day ∧ c.minute ≤ now.hour * 60 + now.minute)) ∧
      s.time.lastClose ≠ some { year := now.year, month := now.month } ∧ s.close.inFlight = none
    · exact .inl ⟨c, rfl, h.1, h.2.1, h.2.2, if_pos h⟩
    · refine .inr ⟨?_, if_neg h⟩
      rintro ⟨c', hc', h'⟩
      cases hc'
      exact h h'

end Sys2Proof.Machine
end

