-- ==== Sys2Proof/Laws/PerInstr.lean ====
section
/-! SUPPORT. One law about every command, proved command by command: the frame a well-formed command carries
passes the length check of R161. -/

-- One declaration after the other: the package as one text then needs few threads.
set_option Elab.async false

namespace Sys2Proof.Laws

/-- The frame of a well-formed command, where it carries one, passes the length check (R161, R190). -/
def FrameFits.Statement (c : Instr) : Prop :=
  c.wf = true → ∀ f : Frame, c.frame? = some f → f.lengthOk = true

theorem FrameFits.mark (order : List (Fin 4)) (address : Byte) (payload : List Byte) : FrameFits.Statement (.mark order address payload) := by
  intro h f hf
  cases hf
  simp only [Instr.wf, decide_eq_true_eq] at h
  simp [Frame.lengthOk, h, kindMark]
theorem FrameFits.selfAdvance (order : List (Fin 4)) : FrameFits.Statement (.selfAdvance order) := fun _ _ hf => nomatch hf
theorem FrameFits.reading (address : Byte) (payload : List Byte) : FrameFits.Statement (.reading address payload) := by
  intro h f hf
  cases hf
  simp only [Instr.wf, decide_eq_true_eq] at h
  simp [Frame.lengthOk, h, kindMark, kindReading]
theorem FrameFits.passThroughFrame (frame : Frame) : FrameFits.Statement (.passThroughFrame frame) := by
  intro h f hf
  cases hf
  simp only [Instr.wf, Bool.and_eq_true] at h
  exact h.1
theorem FrameFits.frameDiscard (fault : DiscardFault) : FrameFits.Statement (.frameDiscard fault) := fun _ _ hf => nomatch hf
theorem FrameFits.truncatedFrame (octets : List Byte) : FrameFits.Statement (.truncatedFrame octets) := fun _ _ hf => nomatch hf
theorem FrameFits.frameSent : FrameFits.Statement (.frameSent) := fun _ _ hf => nomatch hf
theorem FrameFits.unknownRequest (address : Byte) (payload : List Byte) : FrameFits.Statement (.unknownRequest address payload) := by
  intro h f hf
  cases hf
  simp only [Instr.wf, Bool.and_eq_true, decide_eq_true_eq] at h
  simp [Frame.lengthOk, h.1, kindRequest, kindMark, kindReading, kindReply, kindRecord]
theorem FrameFits.ident (request : Request) : FrameFits.Statement (.ident request) := by
  intro h f hf
  cases hf
  exact Machine.Request.frame_lengthOk _ _ h
theorem FrameFits.assignStation (request : Request) : FrameFits.Statement (.assignStation request) := by
  intro h f hf
  cases hf
  exact Machine.Request.frame_lengthOk _ _ h
theorem FrameFits.ackStart (request : Request) : FrameFits.Statement (.ackStart request) := by
  intro h f hf
  cases hf
  exact Machine.Request.frame_lengthOk _ _ h
theorem FrameFits.setPoint (request : Request) : FrameFits.Statement (.setPoint request) := by
  intro h f hf
  cases hf
  exact Machine.Request.frame_lengthOk _ _ h
theorem FrameFits.removePoint (request : Request) : FrameFits.Statement (.removePoint request) := by
  intro h f hf
  cases hf
  exact Machine.Request.frame_lengthOk _ _ h
theorem FrameFits.holdPoint (request : Request) : FrameFits.Statement (.holdPoint request) := by
  intro h f hf
  cases hf
  exact Machine.Request.frame_lengthOk _ _ h
theorem FrameFits.releasePoint (request : Request) : FrameFits.Statement (.releasePoint request) := by
  intro h f hf
  cases hf
  exact Machine.Request.frame_lengthOk _ _ h
theorem FrameFits.setClock (request : Request) : FrameFits.Statement (.setClock request) := by
  intro h f hf
  cases hf
  exact Machine.Request.frame_lengthOk _ _ h
theorem FrameFits.loadTable (request : Request) : FrameFits.Statement (.loadTable request) := by
  intro h f hf
  cases hf
  exact Machine.Request.frame_lengthOk _ _ h
theorem FrameFits.readTable (request : Request) : FrameFits.Statement (.readTable request) := by
  intro h f hf
  cases hf
  exact Machine.Request.frame_lengthOk _ _ h
theorem FrameFits.activateNow (request : Request) : FrameFits.Statement (.activateNow request) := by
  intro h f hf
  cases hf
  exact Machine.Request.frame_lengthOk _ _ (by simp [Instr.wf] at h; exact h.1)
theorem FrameFits.activateAtClose (request : Request) : FrameFits.Statement (.activateAtClose request) := by
  intro h f hf
  cases hf
  have e : request.args = [1] := by simpa [Instr.wf] using h
  exact Machine.Request.frame_lengthOk _ _ (by simp [Request.fits, e])
theorem FrameFits.activateCancel (request : Request) : FrameFits.Statement (.activateCancel request) := by
  intro h f hf
  cases hf
  have e : request.args = [2] := by simpa [Instr.wf] using h
  exact Machine.Request.frame_lengthOk _ _ (by simp [Request.fits, e])
theorem FrameFits.closePeriod (request : Request) : FrameFits.Statement (.closePeriod request) := by
  intro h f hf
  cases hf
  exact Machine.Request.frame_lengthOk _ _ h
theorem FrameFits.readout (request : Request) : FrameFits.Statement (.readout request) := by
  intro h f hf
  cases hf
  exact Machine.Request.frame_lengthOk _ _ h
theorem FrameFits.readoutSearch : FrameFits.Statement (.readoutSearch) := fun _ _ hf => nomatch hf
theorem FrameFits.readoutEmit : FrameFits.Statement (.readoutEmit) := fun _ _ hf => nomatch hf
theorem FrameFits.readoutEnd : FrameFits.Statement (.readoutEnd) := fun _ _ hf => nomatch hf
theorem FrameFits.abortReadout (request : Request) : FrameFits.Statement (.abortReadout request) := by
  intro h f hf
  cases hf
  exact Machine.Request.frame_lengthOk _ _ h
theorem FrameFits.queryPoint (request : Request) : FrameFits.Statement (.queryPoint request) := by
  intro h f hf
  cases hf
  exact Machine.Request.frame_lengthOk _ _ h
theorem FrameFits.queryDevice (request : Request) : FrameFits.Statement (.queryDevice request) := by
  intro h f hf
  cases hf
  exact Machine.Request.frame_lengthOk _ _ h
theorem FrameFits.clearAttention (request : Request) : FrameFits.Statement (.clearAttention request) := by
  intro h f hf
  cases hf
  exact Machine.Request.frame_lengthOk _ _ h
theorem FrameFits.lockClearable (request : Request) : FrameFits.Statement (.lockClearable request) := by
  intro h f hf
  cases hf
  exact Machine.Request.frame_lengthOk _ _ (by simp [Instr.wf] at h; exact h.1)
theorem FrameFits.lockCommission (request : Request) : FrameFits.Statement (.lockCommission request) := by
  intro h f hf
  cases hf
  have e : request.args = [1] := by simpa [Instr.wf] using h
  exact Machine.Request.frame_lengthOk _ _ (by simp [Request.fits, e])
theorem FrameFits.unlock (request : Request) : FrameFits.Statement (.unlock request) := by
  intro h f hf
  cases hf
  exact Machine.Request.frame_lengthOk _ _ h
theorem FrameFits.restart (request : Request) : FrameFits.Statement (.restart request) := by
  intro h f hf
  cases hf
  exact Machine.Request.frame_lengthOk _ _ h
theorem FrameFits.restartWarmStart (b : Option StartBreak) : FrameFits.Statement (.restartWarmStart b) :=
  fun _ _ hf => nomatch hf
theorem FrameFits.supwarn (high : Bool) : FrameFits.Statement (.supwarn high) := fun _ _ hf => nomatch hf
theorem FrameFits.powerUp (b : Option StartBreak) : FrameFits.Statement (.powerUp b) := fun _ _ hf => nomatch hf
theorem FrameFits.resetn (b : Option StartBreak) : FrameFits.Statement (.resetn b) := fun _ _ hf => nomatch hf
theorem FrameFits.resetnRelease : FrameFits.Statement (.resetnRelease) := fun _ _ hf => nomatch hf
theorem FrameFits.strayOctet (octet : Byte) : FrameFits.Statement (.strayOctet octet) := fun _ _ hf => nomatch hf
theorem FrameFits.supplyLoss : FrameFits.Statement (.supplyLoss) := fun _ _ hf => nomatch hf
theorem FrameFits.vbakFailure : FrameFits.Statement (.vbakFailure) := fun _ _ hf => nomatch hf

end Sys2Proof.Laws
end

