-- ==== Sys2Proof/Laws/Turns.lean ====
section
/-! SUPPORT. What a command does to the part outside its port and readout unit, said once: every command is at
most one turn, between two moves of the loop. -/

-- One declaration after the other: the package as one text then needs few threads.
set_option Elab.async false

namespace Sys2Proof.Machine

/-- Two states agree on everything but the port, the readout unit, the attention unit, the count of
unused-point readings and the free-value counter. -/
def LinkFrame (s t : State) : Prop :=
  t = { s with port := t.port, readout := t.readout, attention := t.attention, freeIndex := t.freeIndex,
               unusedReadings := t.unusedReadings }

theorem LinkFrame.refl (s : State) : LinkFrame s s := rfl

theorem LinkFrame.trans {s t u : State} (h : LinkFrame s t) (g : LinkFrame t u) : LinkFrame s u := by
  rw [LinkFrame] at *; rw [g, h]

theorem LoopFrame.link {s t : State} (h : LoopFrame s t) : LinkFrame s t := by
  rw [LoopFrame] at h; rw [LinkFrame, h]

theorem LinkFrame.pending {s t : State} (h : LinkFrame s t) : t.pending = s.pending := by rw [LinkFrame] at h; rw [h]
theorem LinkFrame.lineIn {s t : State} (h : LinkFrame s t) : t.lineIn = s.lineIn := by rw [LinkFrame] at h; rw [h]
theorem LinkFrame.supply {s t : State} (h : LinkFrame s t) : t.supply = s.supply := by rw [LinkFrame] at h; rw [h]
theorem LinkFrame.decoder {s t : State} (h : LinkFrame s t) : t.decoder = s.decoder := by rw [LinkFrame] at h; rw [h]
theorem LinkFrame.time {s t : State} (h : LinkFrame s t) : t.time = s.time := by rw [LinkFrame] at h; rw [h]
theorem LinkFrame.clocks {s t : State} (h : LinkFrame s t) : t.clocks = s.clocks := by rw [LinkFrame] at h; rw [h]
theorem LinkFrame.points {s t : State} (h : LinkFrame s t) : t.points = s.points := by rw [LinkFrame] at h; rw [h]
theorem LinkFrame.tariff {s t : State} (h : LinkFrame s t) : t.tariff = s.tariff := by rw [LinkFrame] at h; rw [h]
theorem LinkFrame.close {s t : State} (h : LinkFrame s t) : t.close = s.close := by rw [LinkFrame] at h; rw [h]
theorem LinkFrame.history {s t : State} (h : LinkFrame s t) : t.history = s.history := by rw [LinkFrame] at h; rw [h]

/-! ## Arguments in range -/

theorem finOf_val {n v : Nat} {i : Fin n} (h : finOf n v = some i) : i.val = v := by
  unfold finOf at h
  split at h <;> cases h
  rfl

/-- A record SET POINT takes is in range (R1, R12). -/
theorem parseConfig_range {os : List Byte} {c : PointConfig} (h : parseConfig os = some c) :
    (50 ≤ c.warnPercent ∧ c.warnPercent ≤ 99) ∧ (1 ≤ c.lossLimit ∧ c.lossLimit ≤ 15) ∧ 1 ≤ c.plausibility ∧
      c.plausibility ≤ max32 ∧ c.contract ≤ max32 := by
  have hf : ∀ (k : Nat) (os : List Byte), field os k 4 ≤ max32 := by
    intro k os
    have key : ∀ (l : List Byte) (n a : Nat), l.length ≤ n →
        l.foldl (fun a o => a * 256 + o.toNat) a < (a + 1) * 256 ^ n := by
      intro l
      induction l with
      | nil => intro n a _; simpa using Nat.lt_of_lt_of_le (Nat.lt_succ_self a) (Nat.le_mul_of_pos_right _ (by positivity))
      | cons o l ih =>
        intro n a hl
        cases n with
        | zero => simp at hl
        | succ n =>
          have h1 := ih n (a * 256 + o.toNat) (by simpa using hl)
          have h2 : (a * 256 + o.toNat + 1) * 256 ^ n ≤ (a + 1) * 256 ^ (n + 1) := by
            rw [Nat.pow_succ, Nat.mul_comm (256 ^ n) 256, ← Nat.mul_assoc]
            exact Nat.mul_le_mul_right _ (by have := o.isLt; omega)
          exact Nat.lt_of_lt_of_le h1 h2
    have := key ((os.drop k).take 4) 4 0 (by simp)
    simp only [field, beNat, max32]
    omega
  simp only [parseConfig, ensure, Option.bind_eq_bind, Option.bind_eq_some_iff, Option.pure_def] at h
  obtain ⟨_, _, _, _, _, _, _, _, _, he, hc⟩ := h
  cases hc
  split at he <;> cases he
  rename_i hb
  simp only [Bool.and_eq_true, decide_eq_true_eq] at hb
  exact ⟨hb.1.1.1, hb.1.1.2, hb.1.2, hf 9 os, hf 3 os⟩

/-- The settings SET CLOCK takes are valid (R55, R56, R57). -/
theorem parseClock_range {os : List Byte} {a : ClockArgs} (h : parseClock os = some a) :
    validTiming a.length a.window = true ∧ a.holdLength ≤ 15 := by
  simp only [parseClock, ensure, Option.bind_eq_bind, Option.bind_eq_some_iff, Option.pure_def] at h
  obtain ⟨_, _, _, _, _, he, hc⟩ := h
  cases hc
  split at he <;> cases he
  rename_i hb
  simpa using hb

/-! ## Turns -/

/-- What one command can do to the part outside port, readout, attention and the two counts. -/
inductive Turn : State → State → Prop where
  | still (s : State) : Turn s s
  | reading (s : State) (i : Fin 32) (p : Point) (d : ReadingData) : s.points[i] = some p →
      Turn s (s.setPoint i (some (p.takeReading d).1))
  | mark (s : State) (order : List (Fin 4)) (t : CalTime) : s.live = true → t.valid = true →
      Turn s (s.takeTime order t)
  | invalidMark (s : State) : Turn s { s with time := { s.time with invalid := bump s.time.invalid } }
  | advance (s : State) (order : List (Fin 4)) (c : CalTime) : s.live = true → s.time.timer ≠ .stopped →
      s.time.calendar = some c → Turn s (s.selfAdvance order c)
  | configure (s : State) (i : Fin 32) (c : PointConfig) : s.live = true → s.anyLock = false →
      s.points[i] = none → (∃ os, parseConfig os = some c) → Turn s (s.setPoint i (some (s.configure c)))
  | reconfigure (s : State) (i : Fin 32) (p : Point) (c : PointConfig) : s.live = true → s.anyLock = false →
      s.points[i] = some p → s.closePending p = false → (∃ os, parseConfig os = some c) →
      Turn s (s.setPoint i (some (s.reconfigure p c)))
  | remove (s : State) (i : Fin 32) (p : Point) : s.anyLock = false → s.points[i] = some p →
      s.closePending p = false → Turn s (s.setPoint i none)
  | hold (s : State) (i : Fin 32) (p : Point) : s.points[i] = some p → Turn s (s.setPoint i (some p.hold))
  | release (s : State) (i : Fin 32) (p : Point) : s.points[i] = some p → Turn s (s.setPoint i (some p.release))
  | clock (s : State) (a : ClockArgs) : s.live = true → s.anyLock = false → (∃ os, parseClock os = some a) →
      s.clocks[a.clock].timingInUse a = false → Turn s (s.applyClock a)
  | load (s : State) (t : Table) : s.anyLock = false →
      (∃ args sel index contents, checkForm args = .form sel index contents ∧ parseContents sel index contents = some t) →
      Turn s { s with tariff := { s.tariff with pending := s.tariff.pending.put t } }
  | activate (s : State) (m : ActivateMode) : s.anyLock = false → ¬ (m = .now ∧ s.close.inFlight.isSome = true) →
      Turn s { s with tariff := s.tariff.activate m }
  | close (s : State) : s.live = true → s.close.inFlight = none → Turn s s.startClose
  | clearStatus (s : State) (i : Fin 32) (p : Point) : s.points[i] = some p →
      Turn s (s.setPoint i (some { p with status := 0 }))
  | clearBits (s : State) (set : BitVec 32) : Turn s (s.clearPoints set)
  | decoder (s : State) (d : Decoder) :
      (d.commissioning = s.decoder.commissioning ∨ (d.commissioning = true ∧ s.tariff.atClose = false)) →
      Turn s { s with decoder := d }
  | pins (s : State) (p : Supply) : p.vdd = s.supply.vdd → Turn s { s with supply := p }
  | warm (s : State) (p : Supply) : p = s.supply ∨ p.vdd = true →
      Turn s ({ s with supply := p } : State).warmStart
  | broken (s : State) (p : Supply) (b : StartBreak) :
      Turn s (({ s with supply := p } : State).warmStartPart b).loseSupply
  | loss (s : State) : s.supply.vdd = true → Turn s s.loseSupply
  | cold (s : State) (v r : Bool) : s.supply.vdd = false → Turn s (s.coldDomain v r)

/-- A warm start, whole or broken off, is one turn. -/
theorem Turn.takeWarmStart (s : State) (p : Supply) (h : p = s.supply ∨ p.vdd = true) (broken : Option StartBreak) :
    Turn s (({ s with supply := p } : State).takeWarmStart broken) := by
  cases broken with
  | none => exact .warm s p h
  | some b => exact .broken s p b

/-- A move of the loop, a turn, a move of the loop. -/
def Moved (s t : State) : Prop := ∃ u v, LinkFrame s u ∧ Turn u v ∧ LinkFrame v t

theorem Moved.link {s t : State} (h : LinkFrame s t) : Moved s t := ⟨s, s, .refl s, .still s, h⟩

theorem Turn.moved {s t u : State} (h : Turn s t) (g : LinkFrame t u) : Moved s u := ⟨s, t, .refl s, h, g⟩

theorem Moved.decoder (s : State) (d : Decoder)
    (h : d.commissioning = s.decoder.commissioning ∨ (d.commissioning = true ∧ s.tariff.atClose = false)) :
    Moved s { s with decoder := d } := (Turn.decoder s d h).moved (.refl _)

theorem Moved.pins (s : State) (p : Supply) (h : p.vdd = s.supply.vdd) : Moved s { s with supply := p } :=
  (Turn.pins s p h).moved (.refl _)

theorem Moved.link_after {s t u : State} (h : Moved s t) (g : LinkFrame t u) : Moved s u := by
  obtain ⟨v, w, h1, h2, h3⟩ := h
  exact ⟨v, w, h1, h2, h3.trans g⟩

theorem Moved.either {s t u : State} {c : Prop} [Decidable c] (h : Moved s t) (g : Moved s u) :
    Moved s (if c then t else u) := by
  split
  · exact h
  · exact g

theorem Moved.after {s t u : State} (h : LinkFrame s t) (g : Moved t u) : Moved s u := by
  obtain ⟨v, w, h1, h2, h3⟩ := g
  exact ⟨v, w, h.trans h1, h2, h3⟩

/-! ## Requests -/

theorem State.receive_moved {s : State} {f : Frame} {take : State → State}
    (h : ∀ u : State, u.live = true → Moved u (take u)) : Moved s (s.receive f take) := by
  rcases s.receive_cases f take with ⟨_, e⟩ | ⟨_, _, e⟩ | ⟨hl, _, e⟩ <;> rw [e]
  · exact .link (.refl s)
  · exact .link rfl
  · exact .after (LoopFrame.huntFramer s).link (h s.huntFramer hl)

/-- A request that is given to its rule moves as its rule does. -/
theorem State.takeRequest_moved {s : State} {k : RequestKind} {r : Request} {b : Bool} {rule : State → Answer}
    (h : ∀ u : State, u.live = true → Moved u (rule u).final) : Moved s (s.takeRequest k r b rule) := by
  refine State.receive_moved (fun u hl => ?_)
  split
  · split
    · split
      · obtain ⟨v, w, h1, h2, h3⟩ := h u hl
        exact ⟨v, w, h1, h2, h3.trans (LoopFrame.reply _ _ _).link⟩
      · exact .link (LoopFrame.reply (Answer.refusal u .length) _ _).link
    · exact .link (LoopFrame.requestOverrun u).link
  · exact .link (LoopFrame.offer u _).link

theorem State.request_moved {s : State} {k : RequestKind} {r : Request} {rule : State → Answer}
    (h : ∀ u : State, u.live = true → Moved u (rule u).final) : Moved s (s.request k r rule) :=
  State.takeRequest_moved h

theorem Answer.refusal_moved (s : State) (c : ReplyCode) : Moved s (Answer.refusal s c).final := .link (.refl s)

theorem State.setPointRule_moved (u : State) (hl : u.live = true) (args : List Byte) :
    Moved u (u.setPointRule args).final := by
  unfold State.setPointRule
  split
  · rename_i i c hi hc
    split
    · exact Answer.refusal_moved u _
    · rename_i hk
      have hk : u.anyLock = false := by simpa using hk
      split
      · rename_i hp; exact (Turn.configure u i c hl hk hp ⟨_, hc⟩).moved rfl
      · rename_i p hp
        split
        · exact Answer.refusal_moved u _
        · rename_i hb; exact (Turn.reconfigure u i p c hl hk hp (by simpa using hb) ⟨_, hc⟩).moved rfl
  · exact Answer.refusal_moved u _

theorem State.removePointRule_moved (u : State) (args : List Byte) : Moved u (u.removePointRule args).final := by
  unfold State.removePointRule
  split
  · rename_i i hi
    split
    · exact Answer.refusal_moved u _
    · rename_i hk
      split
      · exact Answer.refusal_moved u _
      · rename_i p hp
        split
        · exact Answer.refusal_moved u _
        · rename_i hb; exact (Turn.remove u i p (by simpa using hk) hp (by simpa using hb)).moved rfl
  · exact Answer.refusal_moved u _

theorem State.holdRule_moved (u : State) (args : List Byte) (f : Point → Point)
    (h : ∀ (i : Fin 32) (p : Point), u.points[i] = some p → Turn u (u.setPoint i (some (f p)))) :
    Moved u (u.holdRule args f).final := by
  unfold State.holdRule
  split
  · split
    · exact Answer.refusal_moved u _
    · split
      · exact Answer.refusal_moved u _
      · rename_i p hp; exact (h _ p hp).moved rfl
  · exact Answer.refusal_moved u _

theorem State.setClockRule_moved (u : State) (hl : u.live = true) (args : List Byte) :
    Moved u (u.setClockRule args).final := by
  unfold State.setClockRule
  split
  · exact Answer.refusal_moved u _
  · rename_i a ha
    split
    · exact Answer.refusal_moved u _
    · rename_i hk
      split
      · exact Answer.refusal_moved u _
      · rename_i ht; exact (Turn.clock u a hl (by simpa using hk) ⟨_, ha⟩ (by simpa using ht)).moved rfl

theorem State.loadTableRule_moved (u : State) (args : List Byte) : Moved u (u.loadTableRule args).final := by
  unfold State.loadTableRule
  split
  · exact Answer.refusal_moved u _
  · exact Answer.refusal_moved u _
  · rename_i hf
    split
    · exact Answer.refusal_moved u _
    · rename_i t ht
      split
      · exact Answer.refusal_moved u _
      · rename_i hk; exact (Turn.load u t (by simpa using hk) ⟨args, _, _, _, hf, ht⟩).moved rfl

theorem State.readTableRule_moved (u : State) (args : List Byte) : Moved u (u.readTableRule args).final := by
  unfold State.readTableRule
  split
  · dsimp only
    split
    · exact Answer.refusal_moved u _
    · exact .link (.refl u)
  · exact Answer.refusal_moved u _

theorem State.activateRule_moved (u : State) (args : List Byte) : Moved u (u.activateRule args).final := by
  unfold State.activateRule
  split
  · exact Answer.refusal_moved u _
  · rename_i m _
    split
    · exact Answer.refusal_moved u _
    · rename_i hk
      split
      · exact Answer.refusal_moved u _
      · rename_i hm; exact (Turn.activate u m (by simpa using hk) hm).moved rfl

theorem State.closePeriodRule_moved (u : State) (hl : u.live = true) : Moved u u.closePeriodRule.final := by
  unfold State.closePeriodRule
  split
  · exact Answer.refusal_moved u _
  · rename_i h; exact (Turn.close u hl h).moved rfl

theorem State.readoutRule_moved (u : State) (tag : Byte) (args : List Byte) :
    Moved u (u.readoutRule tag args).final := by
  unfold State.readoutRule
  split
  · exact Answer.refusal_moved u _
  · split
    · exact .link rfl
    · exact Answer.refusal_moved u _

theorem LinkFrame.abortReadout (u : State) : LinkFrame u u.abortReadout := by
  unfold State.abortReadout
  split <;> rfl

theorem State.queryPointRule_moved (u : State) (args : List Byte) : Moved u (u.queryPointRule args).final := by
  simp only [State.queryPointRule]
  split
  · exact Answer.refusal_moved u _
  · split
    · split
      · exact Answer.refusal_moved u _
      · rename_i p hp
        dsimp only
        split
        · exact (Turn.clearStatus u _ p hp).moved rfl
        · exact .link (.refl u)
    · exact Answer.refusal_moved u _

theorem State.queryDeviceRule_moved (u : State) (args : List Byte) : Moved u (u.queryDeviceRule args).final := by
  unfold State.queryDeviceRule
  split
  · exact Answer.refusal_moved u _
  · dsimp only
    split
    · exact .link rfl
    · exact .link (.refl u)

theorem State.clearAttentionRule_moved (u : State) (args : List Byte) :
    Moved u (u.clearAttentionRule args).final := by
  unfold State.clearAttentionRule
  split
  · exact Answer.refusal_moved u _
  · rename_i a _; exact (Turn.clearBits u a.points).moved rfl

theorem State.lockRule_moved (u : State) (args : List Byte) : Moved u (u.lockRule args).final := by
  unfold State.lockRule
  split
  · exact Answer.refusal_moved u _
  · exact Moved.decoder u _ (.inl rfl)
  · split
    · exact Answer.refusal_moved u _
    · rename_i h; exact Moved.decoder u _ (.inr ⟨rfl, by simpa using h⟩)

theorem State.unlockRule_moved (u : State) : Moved u u.unlockRule.final := by
  unfold State.unlockRule
  split
  · exact Answer.refusal_moved u _
  · exact Moved.decoder u _ (.inl rfl)

theorem State.assignRule_moved (u : State) (args : List Byte) : Moved u (u.assignRule args).final := by
  unfold State.assignRule
  split
  · exact Moved.decoder u _ (.inl rfl)
  · exact Answer.refusal_moved u _

/-! ## Frames and the other commands -/

theorem State.takeReadingAt_moved (u : State) (i : Fin 32) (f : Frame) : Moved u (u.takeReadingAt i f) := by
  unfold State.takeReadingAt
  split
  · exact .link (LinkFrame.trans (t := { u with unusedReadings := bump u.unusedReadings }) rfl (LoopFrame.offer _ _).link)
  · rename_i p hp
    dsimp only
    split
    · exact (Turn.reading u i p _ hp).moved (LoopFrame.offer _ _).link
    · exact (Turn.reading u i p _ hp).moved (.refl _)

theorem LinkFrame.searchStep (s : State) (j : ReadoutJob) : LinkFrame s (s.searchStep j) := by
  simp only [State.searchStep]
  split
  · split
    · rfl
    · exact (LoopFrame.readoutMoveOn s _).link
  · rfl

theorem LoopFrame.raiseHoldover (s : State) (b : TimeState) : LoopFrame s (s.raiseHoldover b) := by
  have h : LoopFrame s (if b = .locked then s.raiseDevice .holdover else s) := by
    split
    · exact .raiseDevice s _
    · exact .refl s
  simp only [State.raiseHoldover]
  split
  · exact h.trans (.raiseDevice _ _)
  · exact h

theorem LoopFrame.completeStart (s : State) :
    LoopFrame { s with supply := { s.supply with retention := true } } s.completeStart := by
  unfold State.completeStart
  dsimp only
  split
  · exact .takeWarning _
  · rfl

theorem LinkFrame.coldStart (s : State) :
    LinkFrame (s.coldDomain true true) ({ s with supply := { s.supply with vdd := true } } : State).coldStart :=
  (LoopFrame.completeStart (s.coldDomain true true)).link

/-- Everything a command can do (all 42 rows): at most one turn, between two moves of the loop. -/
theorem exec_moved {c : Instr} {s t : State} (h : exec c s = .next t) : Moved s t := by
  cases c <;> simp only [exec] at h
  case mark order a p =>
    simp only [execMark] at h
    cases h
    refine State.receive_moved (fun u hl => ?_)
    simp only [State.takeMark]
    split
    · rename_i hv; exact (Turn.mark u order _ hl hv).moved (LoopFrame.offer _ _).link
    · exact (Turn.invalidMark u).moved (LoopFrame.offer _ _).link
  case selfAdvance order =>
    simp only [execSelfAdvance] at h
    cases h
    split
    · rename_i hl
      split
      · rename_i c hc; exact (Turn.advance s order c hl.1 hl.2 hc).moved (.refl _)
      · exact .link (.refl s)
    · exact .link (.refl s)
  case reading a p =>
    simp only [execReading] at h
    cases h
    refine State.receive_moved (fun u _ => ?_)
    unfold State.takeReadingFrame
    split
    · exact u.takeReadingAt_moved _ _
    · exact .link (LoopFrame.offer u _).link
  case passThroughFrame f =>
    simp only [execPassThroughFrame] at h
    cases h
    refine State.receive_moved (fun u _ => ?_)
    split
    · exact .link (LoopFrame.offer u _).link
    · exact .link (.refl u)
  case frameDiscard f => simp only [execFrameDiscard] at h; cases h; split <;> exact .link rfl
  case truncatedFrame os =>
    simp only [execTruncatedFrame] at h
    cases h
    split
    · split <;> exact .link rfl
    · exact .link rfl
  case frameSent =>
    simp only [execFrameSent] at h
    cases h
    split
    · exact .link rfl
    · split
      · exact (Turn.warm s s.supply (.inl rfl)).moved (.refl _)
      · exact .link (LinkFrame.trans (LoopFrame.withPort s _).link (LoopFrame.outputChoice _).link)
  case unknownRequest a p =>
    simp only [execUnknownRequest] at h
    cases h
    refine Moved.either (.link (.refl s)) (State.receive_moved (fun u _ => ?_))
    split
    · split
      · unfold State.answerUnknown
        split
        · exact .link (LoopFrame.reply (Answer.refusal u .unknown) _ _).link
        · exact .link (LoopFrame.reply (Answer.refusal u .length) _ _).link
      · exact .link (LoopFrame.requestOverrun u).link
    · exact .link (LoopFrame.offer u _).link
  case ident r => simp only [execIdent] at h; cases h; exact State.request_moved (fun u _ => .link (.refl u))
  case assignStation r =>
    simp only [execAssignStation] at h; cases h; exact State.takeRequest_moved (fun u _ => u.assignRule_moved _)
  case ackStart r =>
    simp only [execAckStart] at h
    cases h
    exact State.request_moved (fun u _ => Moved.decoder u _ (.inl rfl))
  case setPoint r =>
    simp only [execSetPoint] at h; cases h; exact State.request_moved (fun u hl => u.setPointRule_moved hl _)
  case removePoint r =>
    simp only [execRemovePoint] at h; cases h; exact State.request_moved (fun u _ => u.removePointRule_moved _)
  case holdPoint r =>
    simp only [execHoldPoint] at h
    cases h
    exact State.request_moved (fun u _ => u.holdRule_moved _ _ (fun i p hp => .hold u i p hp))
  case releasePoint r =>
    simp only [execReleasePoint] at h
    cases h
    exact State.request_moved (fun u _ => u.holdRule_moved _ _ (fun i p hp => .release u i p hp))
  case setClock r =>
    simp only [execSetClock] at h; cases h; exact State.request_moved (fun u hl => u.setClockRule_moved hl _)
  case loadTable r =>
    simp only [execLoadTable] at h; cases h; exact State.request_moved (fun u _ => u.loadTableRule_moved _)
  case readTable r =>
    simp only [execReadTable] at h; cases h; exact State.request_moved (fun u _ => u.readTableRule_moved _)
  case activateNow r =>
    simp only [execActivateNow] at h; cases h; exact State.request_moved (fun u _ => u.activateRule_moved _)
  case activateAtClose r =>
    simp only [execActivateAtClose] at h; cases h; exact State.request_moved (fun u _ => u.activateRule_moved _)
  case activateCancel r =>
    simp only [execActivateCancel] at h; cases h; exact State.request_moved (fun u _ => u.activateRule_moved _)
  case closePeriod r =>
    simp only [execClosePeriod] at h; cases h; exact State.request_moved (fun u hl => u.closePeriodRule_moved hl)
  case readout r =>
    simp only [execReadout] at h; cases h; exact State.request_moved (fun u _ => u.readoutRule_moved _ _)
  case readoutSearch =>
    simp only [execReadoutSearch] at h
    cases h
    split
    · split
      · exact .link (.searchStep s _)
      · exact .link (.refl s)
    · exact .link (.refl s)
  case readoutEmit =>
    simp only [execReadoutEmit] at h
    cases h
    split
    · split
      · split
        · exact .link (.refl s)
        · exact .link (LinkFrame.trans (LoopFrame.emitStep s _ _).link (LoopFrame.outputChoice _).link)
      · exact .link (.refl s)
    · exact .link (.refl s)
  case readoutEnd =>
    simp only [execReadoutEnd] at h
    cases h
    split
    · split
      · split
        · exact .link (LinkFrame.trans (LoopFrame.queueReadoutEnd s _ _).link (LoopFrame.outputChoice _).link)
        · exact .link (.refl s)
      · exact .link (.refl s)
    · exact .link (.refl s)
  case abortReadout r =>
    simp only [execAbortReadout] at h; cases h; exact State.request_moved (fun u _ => .link (.abortReadout u))
  case queryPoint r =>
    simp only [execQueryPoint] at h; cases h; exact State.request_moved (fun u _ => u.queryPointRule_moved _)
  case queryDevice r =>
    simp only [execQueryDevice] at h; cases h; exact State.request_moved (fun u _ => u.queryDeviceRule_moved _)
  case clearAttention r =>
    simp only [execClearAttention] at h; cases h; exact State.request_moved (fun u _ => u.clearAttentionRule_moved _)
  case lockClearable r =>
    simp only [execLockClearable] at h; cases h; exact State.request_moved (fun u _ => u.lockRule_moved _)
  case lockCommission r =>
    simp only [execLockCommission] at h; cases h; exact State.request_moved (fun u _ => u.lockRule_moved _)
  case unlock r =>
    simp only [execUnlock] at h; cases h; exact State.request_moved (fun u _ => u.unlockRule_moved)
  case restart r =>
    simp only [execRestart] at h
    cases h
    exact State.request_moved (fun u _ => Moved.decoder u _ (.inl rfl))
  case restartWarmStart b =>
    simp only [execRestartWarmStart] at h
    cases h
    split
    · exact (Turn.takeWarmStart s s.supply (.inl rfl) b).moved (.refl _)
    · exact .link (.refl s)
  case supwarn b =>
    simp only [execSupwarn] at h
    cases h
    split
    · exact (Moved.pins s { s.supply with supwarn := b } rfl).link_after (LoopFrame.takeWarning _).link
    · exact Moved.pins s { s.supply with supwarn := b } rfl
  case powerUp b =>
    simp only [execPowerUp] at h
    cases h
    split
    · exact .link (.refl s)
    · rename_i hv
      split
      · exact (Turn.takeWarmStart s { s.supply with vdd := true } (.inr rfl) b).moved (.refl _)
      · cases b
        · exact (Turn.cold s true true (by simpa using hv)).moved (LinkFrame.coldStart s)
        · exact (Turn.cold s false false (by simpa using hv)).moved (.refl _)
  case resetn b =>
    simp only [execResetn] at h
    cases h
    split
    · exact .link (.refl s)
    · split
      · rename_i hv; exact (Turn.takeWarmStart s { s.supply with resetnLow := true } (.inr hv) b).moved (.refl _)
      · exact Moved.pins s { s.supply with resetnLow := true } rfl
  case resetnRelease =>
    simp only [execResetnRelease] at h
    cases h
    split
    · exact (Moved.pins s { s.supply with resetnLow := false } rfl).link_after (LoopFrame.huntFramer _).link
    · exact .link (.refl s)
  case strayOctet o => simp only [execStrayOctet] at h; cases h; split <;> exact .link rfl
  case supplyLoss =>
    simp only [execSupplyLoss] at h
    cases h
    split
    · rename_i hv; exact (Turn.loss s hv).moved (.refl _)
    · exact .link (.refl s)
  case vbakFailure =>
    simp only [execVbakFailure] at h
    cases h
    split
    · exact .link (.refl s)
    · rename_i hv; exact (Turn.cold s false false (by simpa using hv)).moved (.refl _)

/-- A step: its command's turn, after the command or the octet has been taken from what waits. -/
theorem step_moved {s t : State} (h : step s = .next t) :
    ∃ (pending : List Instr) (line : List Byte), Moved { s with pending := pending, lineIn := line } t := by
  unfold step at h
  split at h
  · exact ⟨_, s.lineIn, exec_moved h⟩
  · rename_i hp
    have key : ∃ line : List Byte, LinkFrame { s with lineIn := line } s.takeOctet.1 := by
      unfold State.takeOctet
      split
      · rename_i hl; exact ⟨s.lineIn, rfl⟩
      · dsimp only
        rename_i o rest _
        refine ⟨rest, ?_⟩
        split
        · split <;> rfl
        · rfl
    obtain ⟨line, hk⟩ := key
    split at h
    · rename_i u hu
      cases h
      rw [hu] at hk
      exact ⟨s.pending, line, .link hk⟩
    · rename_i u c hu
      rw [hu] at hk
      exact ⟨s.pending, line, .after hk (exec_moved h)⟩

end Sys2Proof.Machine
end

