-- ==== Sys2Proof/Laws/Points.lean ====
section
/-! SUPPORT. What every change of a point context keeps: a law of single points that each of their changes keeps
is kept at all points by every turn. -/

-- One declaration after the other: the package as one text then needs few threads.
set_option Elab.async false

namespace Sys2Proof.Machine

/-- A property of one point that every change a part makes to a point keeps. -/
structure PointLaw (R : Point → Prop) : Prop where
  fresh          : ∀ (os : List Byte) (c : PointConfig) (n : BitVec 16), parseConfig os = some c → R (Point.fresh c n)
  config         : ∀ (p : Point) (os : List Byte) (c : PointConfig), parseConfig os = some c → R p →
    R { p with config := c }
  raiseStatus    : ∀ (p : Point) (f : StatusFlag), R p → R (p.raiseStatus f)
  raisePeriod    : ∀ (p : Point) (f : PeriodFlag), R p → R (p.raisePeriod f)
  clearStatus    : ∀ p : Point, R p → R { p with status := 0 }
  clearAttention : ∀ p : Point, R p → R { p with attention := false }
  operator       : ∀ (p : Point) (b : Bool), R p → R { p with operator := b }
  conflict       : ∀ (p : Point) (b : Bool), R p → R { p with conflict := b }
  markHeld       : ∀ p : Point, R p → R p.markHeld
  ring           : ∀ p : Point, R p → R { p with ring := [] }
  contribution   : ∀ (p : Point) (n : Nat), R p → R { p with contribution := n }
  openSub        : ∀ (p : Point) (set : TariffSet) (c : Clock) (now : CalTime), R p → R (p.openSub set c now)
  cutSub         : ∀ (p : Point) (o : Option PenaltyOption) (w : Nat), R p → R (p.cutSub o w)
  boundary       : ∀ (p : Point) (o : Option PenaltyOption) (c : Clock) (now : CalTime), R p → R (p.boundary o c now)
  reading        : ∀ (p : Point) (d : ReadingData), R p → R (p.takeReading d).1
  warmStart      : ∀ p : Point, R p → R p.warmStart
  settled        : ∀ (s : State) (p : Point) (n : BitVec 16), R p → R (s.settledPoint p n)

/-- Every configured point has the property. -/
def State.AllPoints (R : Point → Prop) (s : State) : Prop := ∀ (i : Fin 32) (p : Point), s.points[i] = some p → R p

variable {R : Point → Prop} {s t : State}

theorem State.AllPoints.same (h : s.AllPoints R) (e : t.points = s.points) : t.AllPoints R := fun i p hp => by
  rw [e] at hp; exact h i p hp

theorem State.AllPoints.mapped (h : s.AllPoints R) {f : Point → Point}
    (e : ∀ i : Fin 32, t.points[i] = s.points[i].map f) (hf : ∀ p, R p → R (f p)) : t.AllPoints R := fun i p hp => by
  rw [e, Option.map_eq_some_iff] at hp
  obtain ⟨q, hq, rfl⟩ := hp
  exact hf q (h i q hq)

theorem State.AllPoints.setPoint (h : s.AllPoints R) (i : Fin 32) (p : Point) (hp : R p) :
    (s.setPoint i (some p)).AllPoints R := fun j q hq => by
  by_cases hij : i = j
  · subst hij; rw [State.setPoint_points_same] at hq; cases hq; exact hp
  · rw [State.setPoint_points_other _ _ _ _ hij] at hq; exact h j q hq

theorem State.AllPoints.dropPoint (h : s.AllPoints R) (i : Fin 32) : (s.setPoint i none).AllPoints R := fun j q hq => by
  by_cases hij : i = j
  · subst hij; rw [State.setPoint_points_same] at hq; cases hq
  · rw [State.setPoint_points_other _ _ _ _ hij] at hq; exact h j q hq

theorem State.AllPoints.mapPoints (h : s.AllPoints R) {f : Point → Point} (hf : ∀ p, R p → R (f p)) :
    (s.mapPoints f).AllPoints R := h.mapped (s.mapPoints_points_get f) hf

theorem State.AllPoints.mapPointsOn (h : s.AllPoints R) {k : Fin 4} {f : Point → Point} (hf : ∀ p, R p → R (f p)) :
    (s.mapPointsOn k f).AllPoints R := h.mapped (s.mapPointsOn_points_get k f) (fun p hp => by split <;> simp_all)

variable (hR : PointLaw R)
include hR

theorem PointLaw.cutPoint {p : Point} (h : R p) : R (s.cutPoint p) := by
  unfold State.cutPoint; split
  · exact hR.cutSub p _ _ h
  · exact h

theorem PointLaw.addConflict {p : Point} (h : R p) : R p.addConflict := hR.markHeld _ (hR.conflict p true h)

theorem PointLaw.takeUpClock {p : Point} (h : R p) : R (s.takeUpClock p) := by
  unfold State.takeUpClock
  split
  · exact hR.conflict p false h
  · split
    · split
      · exact hR.openSub _ _ _ _ (hR.conflict p false h)
      · exact hR.conflict p false h
    · exact hR.addConflict h

theorem PointLaw.sharedPoint (n : BitVec 16) {p : Point} (h : R p) : R (s.sharedPoint n p) := by
  unfold State.sharedPoint
  refine hR.contribution _ 0 ?_
  split
  · exact hR.settled s p n h
  · exact h

theorem PointLaw.sharePoint (k : Fin 4) (n : BitVec 16) {p : Point} (h : R p) : R (s.sharePoint k n p) := by
  unfold State.sharePoint
  split
  · exact hR.sharedPoint n h
  · exact h

theorem State.AllPoints.clockShare (h : s.AllPoints R) (k : Fin 4) (stamp : Option CalTime) :
    (s.clockShare k stamp).AllPoints R := by
  rcases s.clockShare_cases k stamp with ⟨_, e⟩ | ⟨n, _, _, e⟩ <;> rw [e]
  · exact h
  · refine State.AllPoints.same ?_ (State.completeIfEmpty_points _ _)
    exact h.mapped (s.settleClock_points k n stamp false) (fun p => hR.sharePoint k n)

theorem State.AllPoints.startClose (h : s.AllPoints R) : s.startClose.AllPoints R := by
  refine h.mapped s.startClose_points (fun p hp => ?_)
  have h1 : R (if p.sub.isNone then s.settledPoint p s.close.devicePeriod else p) := by
    split
    · exact hR.settled s p _ hp
    · exact hp
  generalize (if p.sub.isNone then s.settledPoint p s.close.devicePeriod else p) = q at h1
  unfold idlePeakPoint
  split
  · exact hR.contribution q 0 h1
  · exact h1

theorem State.AllPoints.openPointsOn (h : s.AllPoints R) (k : Fin 4) (now : CalTime) :
    (s.openPointsOn k now).AllPoints R := h.mapPointsOn (fun p => hR.openSub p _ _ _)

theorem State.AllPoints.openEnabled (h : s.AllPoints R) (now : CalTime) : (s.openEnabled now).AllPoints R :=
  foldl_keeps (R := fun t : State => t.AllPoints R) _ s h (fun t k _ ht => by
    split
    · exact ht.openPointsOn hR k now
    · exact ht)

theorem State.AllPoints.evaluateClock (h : s.AllPoints R) (k : Fin 4) (now : CalTime) (b : Bool) :
    (s.evaluateClock k now b).AllPoints R := by
  have h1 : (if b then s.mapPointsOn k (fun p => p.raisePeriod .timeHoldover) else s).AllPoints R := by
    split
    · exact h.mapPointsOn (fun p => hR.raisePeriod p _)
    · exact h
  simp only [State.evaluateClock]
  generalize (if b then s.mapPointsOn k (fun p => p.raisePeriod .timeHoldover) else s) = u at h1
  have h2 := h1.mapPointsOn (k := k) (fun p => hR.boundary p (u.optionOf p) u.clocks[k] now)
  generalize u.mapPointsOn k (fun p => p.boundary (u.optionOf p) u.clocks[k] now) = v at h2
  simp only [State.comparePeak]
  split
  · exact State.AllPoints.mapPointsOn (State.AllPoints.same h2 rfl) (fun p => hR.contribution p _)
  · exact h2

theorem State.AllPoints.boundary (h : s.AllPoints R) (k : Fin 4) (now : CalTime) (b : Bool) :
    (s.boundary k now b).AllPoints R := by
  unfold State.boundary
  exact State.AllPoints.same (((h.evaluateClock hR k now b).clockShare hR k (some now)).openPointsOn hR k now) rfl

theorem State.AllPoints.scheduledClose (h : s.AllPoints R) (now : CalTime) : (s.scheduledClose now).AllPoints R := by
  simp only [State.scheduledClose]
  split
  · split
    · exact State.AllPoints.startClose hR (State.AllPoints.same h rfl)
    · exact h
  · exact h

theorem State.AllPoints.minuteAdvance (h : s.AllPoints R) (order : List (Fin 4)) (now : CalTime) (b : Bool) :
    (s.minuteAdvance order now b).AllPoints R := by
  unfold State.minuteAdvance State.handMinute
  exact foldl_keeps (R := fun t : State => t.AllPoints R) _ _ (h.scheduledClose hR now)
    (fun t k _ ht => ht.boundary hR k now b)

theorem State.AllPoints.takeTime (h : s.AllPoints R) (order : List (Fin 4)) (t : CalTime) :
    (s.takeTime order t).AllPoints R := by
  have hlock : (s.lockAt t).AllPoints R := h.same rfl
  unfold State.takeTime
  split
  · exact (hlock.openEnabled hR t).scheduledClose hR t
  · split
    · exact hlock.minuteAdvance hR order t false
    · split
      · split
        · exact h.same rfl
        · exact hlock
      · unfold State.stepTo
        have h1 : s.cutAll.AllPoints R := h.mapPoints (fun p hp => hR.ring _ (hR.cutPoint hp))
        generalize s.cutAll = u at h1
        have h2 : (u.lockAt t).AllPoints R := h1.same rfl
        have h3 := h2.openEnabled hR t
        generalize (u.lockAt t).openEnabled t = v at h3
        have h4 := h3.mapPoints (fun p => hR.raisePeriod p .timeStep)
        dsimp only
        generalize v.mapPoints (fun p => p.raisePeriod .timeStep) = w at h4
        have h5 : w.countStep.AllPoints R := h4.same rfl
        exact h5.scheduledClose hR t

theorem State.AllPoints.applyClock (h : s.AllPoints R) (a : ClockArgs) : (s.applyClock a).AllPoints R := by
  simp only [State.applyClock]
  have h1 : (s.setClock a.clock { s.clocks[a.clock] with
      length := a.length, window := a.window, holdLength := a.holdLength }).AllPoints R := h.same rfl
  generalize s.setClock a.clock { s.clocks[a.clock] with
      length := a.length, window := a.window, holdLength := a.holdLength } = u at h1
  split
  · split
    · exact h1
    · unfold State.disableClock State.cutClock
      refine State.AllPoints.clockShare hR ?_ _ _
      exact State.AllPoints.mapPointsOn (State.AllPoints.same h1 rfl)
        (fun p hp => hR.addConflict (hR.ring _ (hR.cutPoint hp)))
  · split
    · have h2 : ((u.setClock a.clock { u.clocks[a.clock] with enabled := true }).mapPointsOn a.clock
          (fun p => { p with conflict := false })).AllPoints R :=
        State.AllPoints.mapPointsOn (State.AllPoints.same h1 rfl) (fun p => hR.conflict p false)
      simp only [State.enableClock]
      split
      · exact h2.openPointsOn hR _ _
      · exact h2
    · exact h1

theorem State.AllPoints.warmStart (h : s.AllPoints R) : s.warmStart.AllPoints R := by
  have h1 : s.warmPoints.AllPoints R := h.mapPoints (fun p hp => hR.warmStart _ (hR.cutPoint hp))
  simp only [State.warmStart]
  generalize s.warmPoints = u at h1
  have h2 : ({ u with clocks := u.clocks.map Clock.warmStart, time := u.time.warmStart } : State).AllPoints R :=
    h1.same rfl
  generalize ({ u with clocks := u.clocks.map Clock.warmStart, time := u.time.warmStart } : State) = v at h2
  have h3 : (v.warmClose s.time.calendar).AllPoints R := by
    unfold State.warmClose
    split
    · refine State.AllPoints.same ?_ (State.completeClose_points _ _)
      refine h2.mapped (v.settlePending_points _ _) (fun p hp => ?_)
      split
      · exact hR.sharedPoint _ hp
      · exact hp
    · exact h2
  generalize v.warmClose s.time.calendar = w at h3
  have h4 : w.restartReadout.AllPoints R := h3.same (LoopFrame.restartReadout w).points
  generalize w.restartReadout = x at h4
  exact State.AllPoints.same h4 (LoopFrame.completeStart _).points

theorem State.AllPoints.warmStartPart (h : s.AllPoints R) (b : StartBreak) : (s.warmStartPart b).AllPoints R := by
  have h1 : ((s.warmPointsIn b.points).warmClocksIn b.clocks).AllPoints R := by
    refine State.AllPoints.same (s := s.warmPointsIn b.points) (fun i p hp => ?_) rfl
    rw [State.warmPointsIn_points, Option.map_eq_some_iff] at hp
    obtain ⟨q, hq, rfl⟩ := hp
    split
    · exact hR.warmStart _ (hR.cutPoint (h i q hq))
    · exact h i q hq
  simp only [State.warmStartPart]
  generalize (s.warmPointsIn b.points).warmClocksIn b.clocks = u at h1
  have h2 : (if b.points = BitVec.allOnes 32 then u.warmCloseFirst b.closes s.time.calendar else u).AllPoints R := by
    split
    · cases hf : u.close.inFlight with
      | none => rw [State.warmCloseFirst, hf]; exact h1
      | some n =>
        refine State.warmCloseFirst_keeps (R := State.AllPoints R) (closing := n) ?_ ?_ u _ h1 (by simp [hf])
        · exact fun t i p _ ht _ _ hp _ => State.AllPoints.setPoint (State.AllPoints.same ht rfl) i _
            (hR.settled t p n (ht i p hp))
        · intro t k ht _ _ _
          refine State.AllPoints.same ?_ (State.completeIfEmpty_points _ _)
          refine ht.mapped (State.leaveClose_points t k) (fun p hp => ?_)
          split
          · exact hR.contribution p 0 hp
          · exact hp
    · exact h1
  split
  · exact h2.same (LoopFrame.restartReadout _).points
  · exact h2

/-- Every turn keeps a law of single points at all points. -/
theorem Turn.allPoints (h : Turn s t) (hs : s.AllPoints R) : t.AllPoints R := by
  cases h
  case still => exact hs
  case reading i p d hp => exact hs.setPoint i _ (hR.reading p d (hs i p hp))
  case mark order c hl hv => exact hs.takeTime hR order c
  case invalidMark => exact hs.same rfl
  case advance order c hl ht hc =>
    unfold State.selfAdvance
    refine State.AllPoints.minuteAdvance hR ?_ _ _ _
    exact State.AllPoints.same (s := s.holdoverAt c.next) (hs.same rfl) (LoopFrame.raiseHoldover _ _).points
  case configure i c hl hk hp hc =>
    obtain ⟨os, hc⟩ := hc
    exact hs.setPoint i _ (hR.takeUpClock (hR.fresh os c _ hc))
  case reconfigure i p c hl hk hp hb hc =>
    obtain ⟨os, hc⟩ := hc
    refine hs.setPoint i _ ?_
    have h0 := hs i p hp
    have h1 : R (if c.clock = p.config.clock then { p with config := c }
        else s.takeUpClock { s.cutPoint p with config := c, ring := [], contribution := 0 }) := by
      split
      · exact hR.config p os c hc h0
      · exact hR.takeUpClock (hR.contribution _ 0 (hR.ring _ (hR.config _ os c hc (hR.cutPoint h0))))
    simp only [State.reconfigure]
    split
    · exact hR.raiseStatus _ _ h1
    · exact h1
  case remove i p _ _ _ => exact hs.dropPoint i
  case hold i p hp =>
    refine hs.setPoint i _ ?_
    unfold Point.hold
    split
    · exact hs i p hp
    · exact hR.markHeld _ (hR.operator p true (hs i p hp))
  case release i p hp => exact hs.setPoint i _ (hR.operator p false (hs i p hp))
  case clock a _ _ _ _ => exact hs.applyClock hR a
  case load => exact hs.same rfl
  case activate => exact hs.same rfl
  case close => exact hs.startClose hR
  case clearStatus i p hp => exact hs.setPoint i _ (hR.clearStatus p (hs i p hp))
  case clearBits set =>
    intro i p hp
    have e : (s.clearPoints set).points[i] =
        if hasFlag set i.val then s.points[i].map (fun p => { p with attention := false }) else s.points[i] := by
      simp [State.clearPoints]
    rw [e] at hp
    split at hp
    · rw [Option.map_eq_some_iff] at hp
      obtain ⟨q, hq, rfl⟩ := hp
      exact hR.clearAttention q (hs i q hq)
    · exact hs i p hp
  case decoder => exact hs.same rfl
  case pins => exact hs.same rfl
  case warm p _ => exact State.AllPoints.warmStart hR (State.AllPoints.same hs rfl)
  case broken p b =>
    have h1 := State.AllPoints.warmStartPart hR (State.AllPoints.same (t := { s with supply := p }) hs rfl) b
    exact State.AllPoints.same h1 rfl
  case loss => exact hs.same rfl
  case cold v r _ =>
    intro i p hp
    have e : (s.coldDomain v r).points[i] = none := by simp [State.coldDomain, State.reset]
    rw [e] at hp; cases hp

/-- A step keeps it too. -/
theorem step_allPoints (h : step s = .next t) (hs : s.AllPoints R) : t.AllPoints R := by
  obtain ⟨q, l, u, v, h1, h2, h3⟩ := step_moved h
  exact (h2.allPoints hR (State.AllPoints.same (State.AllPoints.same hs rfl) h1.points)).same h3.points

end Sys2Proof.Machine
end

