-- ==== Sys2Proof/Laws/Restarts.lean ====
section
/-! SUPPORT. What the first steps of the completion of a close leave at points, clocks and close unit (R110, R183),
and that the pins take no part in a start that is broken off. -/

namespace Sys2Proof.Machine

/-! ## The steps of points, then those of clocks -/

theorem State.foldl_points_step_points (n : BitVec 16) (stamp : Option CalTime) (l : List (Fin 32)) (hl : l.Nodup)
    (t : State) (i : Fin 32) :
    ((l.map WarmCloseStep.point).foldl (fun t x => t.warmCloseStep n stamp x) t).points[i] =
      if i ∈ l then t.points[i].map (fun p => t.settledPoint p n) else t.points[i] := by
  induction l generalizing t with
  | nil => simp
  | cons j l ih =>
    rw [List.nodup_cons] at hl
    rw [List.map_cons, List.foldl_cons, ih hl.2]
    cases hp : t.points[j] with
    | none =>
      have e : t.warmCloseStep n stamp (.point j) = t := by simp only [State.warmCloseStep, hp]
      rw [e]
      by_cases hij : i = j
      · subst hij
        rw [if_neg hl.1, if_pos (by simp), hp]; rfl
      · simp [List.mem_cons, hij]
    | some p =>
      have e : t.warmCloseStep n stamp (.point j) = t.closePoint j p n stamp true := by
        simp only [State.warmCloseStep, hp]
      rw [e]
      have hc : ∀ q, (t.closePoint j p n stamp true).settledPoint q n = t.settledPoint q n :=
        fun q => State.settledPoint_congr rfl q n
      simp only [hc]
      by_cases hij : i = j
      · subst hij
        rw [if_neg hl.1, if_pos (by simp), hp]
        simp only [State.closePoint, State.setPoint_points_same, Option.map_some]
      · have : (t.closePoint j p n stamp true).points[i] = t.points[i] := by
          simp only [State.closePoint]
          rw [State.setPoint_points_other _ _ _ _ (fun h => hij h.symm)]
        rw [this]
        simp [List.mem_cons, hij]

theorem State.foldl_clocks_step_parts (n : BitVec 16) (stamp : Option CalTime) (l : List (Fin 4)) (hl : l.Nodup)
    (t : State) :
    let v := (l.map WarmCloseStep.clock).foldl (fun t x => t.warmCloseStep n stamp x) t
    (∀ i : Fin 32, v.points[i] = t.points[i].map (fun p =>
      { p with contribution := if ∃ k ∈ l, p.config.clock = some k then 0 else p.contribution })) ∧
    (∀ k : Fin 4, v.clocks[k] = if k ∈ l then { t.clocks[k] with peak := 0, peakStamp := none } else t.clocks[k]) := by
  induction l generalizing t with
  | nil => exact ⟨fun i => by simp, fun k => by simp⟩
  | cons j l ih =>
    rw [List.nodup_cons] at hl
    intro v
    have hv : v = (l.map WarmCloseStep.clock).foldl (fun t x => t.warmCloseStep n stamp x)
        ((t.leaveClose j).completeIfEmpty n) := rfl
    obtain ⟨h1, h2⟩ := ih hl.2 ((t.leaveClose j).completeIfEmpty n)
    rw [← hv] at h1 h2
    refine ⟨fun i => ?_, fun k => ?_⟩
    · rw [h1, State.completeIfEmpty_points, State.leaveClose_points, Option.map_map]
      congr 1; funext p
      simp only [Function.comp, Point.onClock, decide_eq_true_eq]
      by_cases hp : p.config.clock = some j
      · rw [if_pos hp]
        have e2 : ∃ k ∈ j :: l, p.config.clock = some k := ⟨j, by simp, hp⟩
        simp only [if_pos e2]; simp
      · rw [if_neg hp]
        have : (∃ k ∈ l, p.config.clock = some k) ↔ ∃ k ∈ j :: l, p.config.clock = some k := by
          constructor
          · rintro ⟨k, hk, h⟩; exact ⟨k, by simp [hk], h⟩
          · rintro ⟨k, hk, h⟩
            rcases List.mem_cons.1 hk with rfl | hk
            · exact absurd h hp
            · exact ⟨k, hk, h⟩
        simp only [this]
    · rw [h2, State.completeIfEmpty_clocks, State.leaveClose_clocks]
      by_cases hk : k = j
      · subst hk; simp [hl.1]
      · have : ¬ j = k := fun h => hk h.symm
        simp [hk, this]

/-- While a pending clock is left, the steps of others drop them from the pending set and complete nothing. -/
theorem State.foldl_clocks_step_close (n : BitVec 16) (stamp : Option CalTime) (l : List (Fin 4)) (hl : l.Nodup)
    (t : State) (j : Fin 4) (hj : j ∉ l) (hp : hasFlag t.close.pendingSet j.val = true) :
    let v := (l.map WarmCloseStep.clock).foldl (fun t x => t.warmCloseStep n stamp x) t
    v.tariff = t.tariff ∧ v.close.inFlight = t.close.inFlight ∧ v.close.devicePeriod = t.close.devicePeriod ∧
      ∀ i : Fin 4, hasFlag v.close.pendingSet i.val = (hasFlag t.close.pendingSet i.val && decide (i ∉ l)) := by
  induction l generalizing t with
  | nil => exact ⟨rfl, rfl, rfl, fun i => by simp⟩
  | cons k l ih =>
    rw [List.nodup_cons] at hl
    have hjk : ¬ k = j := fun h => hj (by simp [h])
    have hpend : hasFlag (t.leaveClose k).close.pendingSet j.val = true := by
      rw [State.leaveClose_close, hasFlag_dropFlag, hp]
      simp [Fin.val_inj, hjk]
    have hz : ¬ (t.leaveClose k).close.pendingSet = 0 := by
      intro e; rw [e] at hpend; simp [hasFlag] at hpend
    have e : (t.leaveClose k).completeIfEmpty n = t.leaveClose k := by simp only [State.completeIfEmpty, hz, if_false]
    obtain ⟨h1, h2, h3, h4⟩ := ih hl.2 (t.leaveClose k) (fun h => hj (by simp [h])) hpend
    intro v
    have hv : v = (l.map WarmCloseStep.clock).foldl (fun t x => t.warmCloseStep n stamp x) (t.leaveClose k) := by
      show ((l.map WarmCloseStep.clock).foldl _ ((t.leaveClose k).completeIfEmpty n)) = _
      rw [e]
    rw [hv]
    refine ⟨h1, h2, h3, fun i => ?_⟩
    rw [h4, State.leaveClose_close, hasFlag_dropFlag]
    by_cases hik : i = k
    · subst hik; simp
    · have : ¬ k.val = i.val := fun h => hik (Fin.ext h.symm)
      simp [hik, this]

/-- What the first steps of a completion leave: the points whose turn came closed, the clocks whose turn came out of
the pending set with their peaks and contributions reset, and the close complete once every clock is out. -/
theorem State.warmCloseFirst_spec (s : State) (n : BitVec 16) (m : Nat) (stamp : Option CalTime)
    (hn : s.close.inFlight = some n) :
    let due := s.pendingClocks.flatMap (s.duePoints n)
    let left := s.pendingClocks.take (m - due.length)
    let c := s.warmCloseFirst m stamp
    (∀ (i : Fin 32) (p : Point), s.points[i] = some p →
      (i ∈ due.take m → c.points[i] = some (s.settledPoint p n)) ∧
      (i ∉ due.take m → c.points[i] = some
        { p with contribution := if ∃ k ∈ left, p.config.clock = some k then 0 else p.contribution })) ∧
    (∀ i : Fin 32, s.points[i] = none → c.points[i] = none) ∧
    (∀ k : Fin 4, c.clocks[k] =
      if k ∈ left then { s.clocks[k] with peak := 0, peakStamp := none } else s.clocks[k]) ∧
    (left ≠ s.pendingClocks → c.tariff = s.tariff ∧ c.close.inFlight = some n ∧
      c.close.devicePeriod = s.close.devicePeriod ∧
      ∀ i : Fin 4, hasFlag c.close.pendingSet i.val = (hasFlag s.close.pendingSet i.val && decide (i ∉ left))) ∧
    (left = s.pendingClocks → left ≠ [] → ∃ v : State, c = v.completeClose n ∧ v.tariff = s.tariff) := by
  intro due left c
  have hnd : s.pendingClocks.Nodup := List.Nodup.filter _ (by decide)
  have hc : c = (left.map WarmCloseStep.clock).foldl (fun t x => t.warmCloseStep n stamp x)
      (((due.take m).map WarmCloseStep.point).foldl (fun t x => t.warmCloseStep n stamp x) s) := by
    show s.warmCloseFirst m stamp = _
    unfold State.warmCloseFirst
    rw [hn]
    simp only [State.warmCloseSteps]
    rw [List.take_append, List.foldl_append, List.length_map, ← List.map_take, ← List.map_take]
  have hln : left.Nodup := hnd.sublist (List.take_sublist ..)
  have hl2 : left.length = min (m - due.length) s.pendingClocks.length := List.length_take
  have hdn : (due.take m).Nodup := (s.nodup_due n).sublist (List.take_sublist ..)
  have hf := State.foldl_points_step n stamp (due.take m) s
  have hp := State.foldl_points_step_points n stamp (due.take m) hdn s
  generalize ht : ((due.take m).map WarmCloseStep.point).foldl (fun t x => t.warmCloseStep n stamp x) s = t at *
  obtain ⟨g1, g2⟩ := State.foldl_clocks_step_parts n stamp left hln t
  rw [← hc] at g1 g2
  refine ⟨fun i p hi => ⟨fun h => ?_, fun h => ?_⟩, fun i hi => ?_, fun k => ?_, fun h => ?_, fun h h' => ?_⟩
  · rw [g1, hp, if_pos h, hi]
    simp only [Option.map_some]
    have : (s.settledPoint p n).contribution = 0 := rfl
    simp only [this, ite_self]
    rw [← this]
  · rw [g1, hp, if_neg h, hi]; rfl
  · rw [g1, hp, hi]; split <;> rfl
  · rw [g2, hf.clocks]
  · have : ∃ j, j ∈ s.pendingClocks ∧ j ∉ left := by
      by_contra hcon
      push Not at hcon
      apply h
      have hle : s.pendingClocks.length ≤ left.length := (hnd.subperm hcon).length_le
      show s.pendingClocks.take _ = _
      rw [List.take_of_length_le]
      omega
    obtain ⟨j, hj, hjl⟩ := this
    have hpend : hasFlag t.close.pendingSet j.val = true := by rw [hf.close]; exact (List.mem_filter.1 hj).2
    obtain ⟨k1, k2, k3, k4⟩ := State.foldl_clocks_step_close n stamp left hln t j hjl hpend
    rw [← hc] at k1 k2 k3 k4
    exact ⟨k1.trans hf.tariff, by rw [k2, hf.close, hn], by rw [k3, hf.close], fun i => by rw [k4, hf.close]⟩
  · have hne : s.pendingClocks ≠ [] := h ▸ h'
    refine State.warmCloseFirst_completes s n m stamp hn hne ?_
    rw [h] at hl2
    have := List.length_pos_iff.2 hne
    show due.length + _ ≤ m
    omega

/-! ## The pins -/

theorem State.warmCloseStep_withSupply (s : State) (x : Supply) (n : BitVec 16) (stamp : Option CalTime)
    (w : WarmCloseStep) :
    ({ s with supply := x } : State).warmCloseStep n stamp w = { s.warmCloseStep n stamp w with supply := x } := by
  cases w with
  | point i =>
    simp only [State.warmCloseStep]
    cases s.points[i] <;> rfl
  | clock k =>
    show ({ s.leaveClose k with supply := x } : State).completeIfEmpty n =
      { (s.leaveClose k).completeIfEmpty n with supply := x }
    unfold State.completeIfEmpty
    show (if (s.leaveClose k).close.pendingSet = 0 then _ else _) = _
    split
    · have hcc : ∀ v : State, ({ v with supply := x } : State).completeClose n =
          { v.completeClose n with supply := x } := by
        intro v
        cases h : v.tariff.atClose <;> simp [State.completeClose, State.raiseDevice, h]
      exact hcc _
    · rfl

theorem State.warmCloseFirst_withSupply (s : State) (x : Supply) (m : Nat) (stamp : Option CalTime) :
    ({ s with supply := x } : State).warmCloseFirst m stamp = { s.warmCloseFirst m stamp with supply := x } := by
  have fold : ∀ (n : BitVec 16) (l : List WarmCloseStep) (t : State),
      l.foldl (fun t w => t.warmCloseStep n stamp w) { t with supply := x } =
        { l.foldl (fun t w => t.warmCloseStep n stamp w) t with supply := x } := by
    intro n l
    induction l with
    | nil => intro t; rfl
    | cons w l ih => intro t; rw [List.foldl_cons, List.foldl_cons, State.warmCloseStep_withSupply, ih]
  unfold State.warmCloseFirst
  show (match s.close.inFlight with | some closing => _ | none => _) = _
  cases s.close.inFlight with
  | none => rfl
  | some n => exact fold n _ s

/-- What a start that is broken off leaves does not depend on the pins it began with. -/
theorem State.warmStartPart_withSupply (s : State) (x : Supply) (b : StartBreak) :
    ({ s with supply := x } : State).warmStartPart b = { s.warmStartPart b with supply := x } := by
  unfold State.warmStartPart
  have h1 : (({ s with supply := x } : State).warmPointsIn b.points).warmClocksIn b.clocks =
    { (s.warmPointsIn b.points).warmClocksIn b.clocks with supply := x } := rfl
  rw [h1]
  generalize (s.warmPointsIn b.points).warmClocksIn b.clocks = u
  dsimp only
  have h2 : (if b.points = BitVec.allOnes 32 then
      ({ u with supply := x } : State).warmCloseFirst b.closes s.time.calendar else { u with supply := x }) =
      { (if b.points = BitVec.allOnes 32 then u.warmCloseFirst b.closes s.time.calendar else u) with supply := x } := by
    split
    · exact State.warmCloseFirst_withSupply ..
    · rfl
  rw [h2]
  generalize (if b.points = BitVec.allOnes 32 then u.warmCloseFirst b.closes s.time.calendar else u) = v
  split
  · unfold State.restartReadout
    show (match v.readout.phase with | .idle => _ | _ => _) = _
    cases v.readout.phase <;> rfl
  · rfl

end Sys2Proof.Machine
end

