-- ==== Sys2Proof/Laws/Shapes.lean ====
section
/-! SUPPORT. Which fields of a point a READING, a cut, the close of a sub-interval and a boundary can change, and
what they leave of the hold marks, the ring, the open sub-interval and the period number. -/

-- One declaration after the other: the package as one text then needs few threads.
set_option Elab.async false

namespace Sys2Proof.Machine

/-! ## Readings -/

/-- Two points agree on everything a READING cannot change (R19 to R32). -/
def ReadingFrame (p q : Point) : Prop :=
  q = { p with baselines := q.baselines, lastSeq := q.lastSeq, sub := q.sub, totals := q.totals,
               unattributed := q.unattributed, missingCount := q.missingCount, life := q.life, status := q.status,
               attention := q.attention }

theorem ReadingFrame.trans {p q r : Point} (h : ReadingFrame p q) (g : ReadingFrame q r) : ReadingFrame p r := by
  rw [ReadingFrame] at *; rw [g, h]

theorem Point.measure_frame (p : Point) (d : ReadingData) :
    ReadingFrame p (p.measure d).1 ∧ (p.measure d).1.sub.isSome = p.sub.isSome := by
  unfold Point.measure
  split
  · exact ⟨rfl, rfl⟩
  · dsimp only
    split
    · exact ⟨rfl, by simp [Point.takeFrame, Point.recover]⟩
    · split
      · exact ⟨rfl, by simp [Point.takeFrame, Point.discontinue, Point.raiseStatus]⟩
      · unfold Point.accept
        split <;> exact ⟨rfl, by simp [Point.takeFrame, *]⟩

/-- A READING changes the frame's own fields only, and neither opens nor closes a sub-interval (R19). -/
theorem Point.takeReading_frame (p : Point) (d : ReadingData) :
    ReadingFrame p (p.takeReading d).1 ∧ (p.takeReading d).1.sub.isSome = p.sub.isSome := by
  unfold Point.takeReading
  split
  · exact ⟨rfl, rfl⟩
  · split
    · exact ⟨rfl, rfl⟩
    · exact ⟨rfl, rfl⟩
    · exact ⟨ReadingFrame.trans (q := { p with lastSeq := some d.sequence }) rfl (Point.measure_frame _ d).1,
        (Point.measure_frame _ d).2⟩
    · rename_i lost _
      exact ⟨ReadingFrame.trans (q := Point.noteGap { p with lastSeq := some d.sequence } lost) rfl
        (Point.measure_frame _ d).1, (Point.measure_frame _ d).2.trans (by simp [Point.noteGap])⟩

theorem Point.takeReading_config (p : Point) (d : ReadingData) : (p.takeReading d).1.config = p.config := by
  rw [(p.takeReading_frame d).1]
theorem Point.takeReading_contribution (p : Point) (d : ReadingData) :
    (p.takeReading d).1.contribution = p.contribution := by rw [(p.takeReading_frame d).1]
theorem Point.takeReading_period (p : Point) (d : ReadingData) : (p.takeReading d).1.period = p.period := by
  rw [(p.takeReading_frame d).1]

/-! ## Cuts, closes of sub-intervals, boundaries -/

/-- Two points agree on everything the close of a sub-interval and the evaluation of a window cannot change (R63 to
R73, R83). -/
def WindowFrame (p q : Point) : Prop :=
  q = { p with sub := q.sub, ring := q.ring, present := q.present, maxD := q.maxD, maxAll := q.maxAll,
               attributed := q.attributed, excessSum := q.excessSum, missingCount := q.missingCount,
               counters := q.counters, periodFlags := q.periodFlags, status := q.status, attention := q.attention }

theorem WindowFrame.trans {p q r : Point} (h : WindowFrame p q) (g : WindowFrame q r) : WindowFrame p r := by
  rw [WindowFrame] at *; rw [g, h]

theorem WindowFrame.config {p q : Point} (h : WindowFrame p q) : q.config = p.config := by
  rw [WindowFrame] at h; rw [h]
theorem WindowFrame.contribution {p q : Point} (h : WindowFrame p q) : q.contribution = p.contribution := by
  rw [WindowFrame] at h; rw [h]
theorem WindowFrame.period {p q : Point} (h : WindowFrame p q) : q.period = p.period := by
  rw [WindowFrame] at h; rw [h]
theorem WindowFrame.operator {p q : Point} (h : WindowFrame p q) : q.operator = p.operator := by
  rw [WindowFrame] at h; rw [h]
theorem WindowFrame.conflict {p q : Point} (h : WindowFrame p q) : q.conflict = p.conflict := by
  rw [WindowFrame] at h; rw [h]

theorem Point.raisePeriod_keeps (p : Point) (f : PeriodFlag) (i : Nat) (h : hasFlag p.periodFlags i = true) :
    hasFlag (p.raisePeriod f).periodFlags i = true := by
  simp [Point.raisePeriod, hasFlag_addFlag, h]

/-- After a cut close no sub-interval is open, the ring holds at most W or as many entries as before, the period
flags have only grown, and a point with no open sub-interval is as it was (R68). -/
theorem Point.cutSub_frame (p : Point) (o : Option PenaltyOption) (w : Nat) :
    WindowFrame p (p.cutSub o w) ∧ (p.cutSub o w).sub = none ∧ (p.cutSub o w).ring.length ≤ max w p.ring.length ∧
      (∀ i, hasFlag p.periodFlags i = true → hasFlag (p.cutSub o w).periodFlags i = true) ∧
      (p.sub = none → p.cutSub o w = p) := by
  unfold Point.cutSub
  split
  · rename_i h; exact ⟨rfl, h, Nat.le_max_right _ _, fun _ => id, fun _ => rfl⟩
  · refine ⟨rfl, rfl, by simp [Point.raisePeriod, Point.bookSub, pushRing],
      fun i => Point.raisePeriod_keeps (p.bookSub o w _) _ i, by intro h; simp_all⟩

/-- A point cut under its own clock and option (R68). -/
theorem State.cutPoint_frame (s : State) (p : Point) : WindowFrame p (s.cutPoint p) := by
  unfold State.cutPoint
  split
  · exact (p.cutSub_frame _ _).1
  · rfl

theorem Point.countMissing_frame (p : Point) : WindowFrame p p.countMissing ∧ p.countMissing.periodFlags = p.periodFlags := by
  simp only [Point.countMissing]
  split <;> exact ⟨rfl, rfl⟩

/-- After the close at a boundary no sub-interval is open, and a ring of at most W entries still is one (R64, R65).
-/
theorem Point.closeSub_frame (p : Point) (o : Option PenaltyOption) (w : Nat) :
    WindowFrame p (p.closeSub o w) ∧ (p.closeSub o w).sub = none ∧ (p.closeSub o w).periodFlags = p.periodFlags ∧
      (p.ring.length ≤ w → (p.closeSub o w).ring.length ≤ w) := by
  unfold Point.closeSub
  split
  · rename_i h; exact ⟨rfl, h, rfl, id⟩
  · split
    · exact ⟨rfl, rfl, rfl, fun _ => by simp [Point.bookSub, pushRing]⟩
    · exact ⟨WindowFrame.trans p.countMissing_frame.1 rfl, rfl, p.countMissing_frame.2,
        fun _ => by simp [Point.bookSub, pushRing]⟩

theorem Point.checkContract_frame (p : Point) (demand : Nat) :
    WindowFrame p (p.checkContract demand) ∧ (p.checkContract demand).sub = p.sub ∧
      (p.checkContract demand).ring = p.ring ∧ (p.checkContract demand).periodFlags = p.periodFlags := by
  unfold Point.checkContract
  split
  · exact ⟨rfl, rfl, rfl, rfl⟩
  · split
    · exact ⟨rfl, rfl, rfl, rfl⟩
    · split <;> exact ⟨rfl, rfl, rfl, rfl⟩

/-- The evaluation of a window leaves sub-interval, ring and period flags as they were (R69 to R73). -/
theorem Point.evaluate_frame (p : Point) (c : Clock) (now : CalTime) :
    WindowFrame p (p.evaluate c now) ∧ (p.evaluate c now).sub = p.sub ∧ (p.evaluate c now).ring = p.ring ∧
      (p.evaluate c now).periodFlags = p.periodFlags := by
  simp only [Point.evaluate]
  split
  · split
    · have h0 : WindowFrame p (({ p with present := some { demand := p.windowDemand c, eligible := true, stamp := now } } :
          Point).raiseMaxima p.windowRate (p.windowDemand c) now) := rfl
      rename_i he
      rw [he]
      obtain ⟨h1, h2, h3, h4⟩ := Point.checkContract_frame
        (({ p with present := some { demand := p.windowDemand c, eligible := true, stamp := now } } :
          Point).raiseMaxima p.windowRate (p.windowDemand c) now) (p.windowDemand c)
      exact ⟨h0.trans h1, h2, h3, h4⟩
    · exact ⟨rfl, rfl, rfl, rfl⟩
  · exact ⟨rfl, rfl, rfl, rfl⟩

/-- Steps 1 to 3 of a boundary for one point (R63). -/
theorem Point.boundary_frame (p : Point) (o : Option PenaltyOption) (c : Clock) (now : CalTime) :
    WindowFrame p (p.boundary o c now) ∧ (p.boundary o c now).sub = none ∧
      (p.boundary o c now).periodFlags = p.periodFlags ∧
      (p.ring.length ≤ c.window → (p.boundary o c now).ring.length ≤ c.window) := by
  obtain ⟨h1, h2, h3, h4⟩ := p.closeSub_frame o c.window
  obtain ⟨g1, g2, g3, g4⟩ := (p.closeSub o c.window).evaluate_frame c now
  exact ⟨h1.trans g1, g2.trans h2, g4.trans h3, fun h => by rw [Point.boundary, g3]; exact h4 h⟩

/-! ## Taking up a clock -/

theorem State.takeUpClock_config (s : State) (p : Point) : (s.takeUpClock p).config = p.config := by
  unfold State.takeUpClock
  split
  · rfl
  · split
    · split <;> rfl
    · rfl

theorem State.takeUpClock_contribution (s : State) (p : Point) : (s.takeUpClock p).contribution = p.contribution := by
  unfold State.takeUpClock
  split
  · rfl
  · split
    · split <;> rfl
    · rfl

end Sys2Proof.Machine
end

