-- ==== Sys2Proof/Laws/Settings.lean ====
section
/-! SUPPORT. The settings the metering operations keep: each clock's enable, L, W and H, the points' configuration
records, and the tariff store while no activation is marked; and what a warm start leaves, whole or broken off. -/

-- One declaration after the other: the package as one text then needs few threads.
set_option Elab.async false

namespace Sys2Proof.Machine

/-- The enable, L, W and H of a clock are kept, and the hold counter has not grown. -/
def Clock.SameSettings (c d : Clock) : Prop :=
  d.enabled = c.enabled ∧ d.length = c.length ∧ d.window = c.window ∧ d.holdLength = c.holdLength ∧ d.hold ≤ c.hold

theorem Clock.SameSettings.refl (c : Clock) : c.SameSettings c := ⟨rfl, rfl, rfl, rfl, le_refl _⟩

theorem Clock.SameSettings.trans {c d e : Clock} (h : c.SameSettings d) (g : d.SameSettings e) : c.SameSettings e :=
  ⟨g.1.trans h.1, g.2.1.trans h.2.1, g.2.2.1.trans h.2.2.1, g.2.2.2.1.trans h.2.2.2.1,
    le_trans g.2.2.2.2 h.2.2.2.2⟩

/-- The clocks' settings and the points' records are kept, and the tariff store too while no activation is marked.
-/
structure SettingsKept (s t : State) : Prop where
  clocks  : ∀ k : Fin 4, s.clocks[k].SameSettings t.clocks[k]
  tariff  : s.tariff.atClose = false → t.tariff = s.tariff
  records : ∀ i : Fin 32, t.points[i].map (·.config) = s.points[i].map (·.config)

namespace SettingsKept

theorem refl (s : State) : SettingsKept s s := ⟨fun _ => .refl _, fun _ => rfl, fun _ => rfl⟩

theorem trans {s t u : State} (h : SettingsKept s t) (g : SettingsKept t u) : SettingsKept s u :=
  ⟨fun k => (h.clocks k).trans (g.clocks k),
    fun a => by have e := h.tariff a; rw [← e] at a; exact (g.tariff a).trans e,
    fun i => (g.records i).trans (h.records i)⟩

theorem same {s t : State} (h1 : t.clocks = s.clocks) (h2 : t.tariff = s.tariff) (h3 : t.points = s.points) :
    SettingsKept s t :=
  ⟨fun k => by rw [h1]; exact .refl _, fun _ => h2, fun i => by rw [h3]⟩

theorem link {s t : State} (h : LinkFrame s t) : SettingsKept s t := .same h.clocks h.tariff h.points

theorem points {s t : State} (h1 : t.clocks = s.clocks) (h2 : t.tariff = s.tariff) (f : Point → Point)
    (h3 : ∀ i : Fin 32, t.points[i] = s.points[i].map f) (hf : ∀ p, (f p).config = p.config) : SettingsKept s t :=
  ⟨fun k => by rw [h1]; exact .refl _, fun _ => h2,
    fun i => by rw [h3, Option.map_map]; congr 1; funext p; exact hf p⟩

theorem foldl {β : Type} {f : State → β → State} (h : ∀ t b, SettingsKept t (f t b)) (l : List β) (s : State) :
    SettingsKept s (l.foldl f s) := foldl_keeps l s (.refl s) (fun t b _ ht => ht.trans (h t b))

theorem mapPoints (s : State) (f : Point → Point) (hf : ∀ p, (f p).config = p.config) :
    SettingsKept s (s.mapPoints f) := .points rfl rfl f (s.mapPoints_points_get f) hf

theorem mapPointsOn (s : State) (k : Fin 4) (f : Point → Point) (hf : ∀ p, (f p).config = p.config) :
    SettingsKept s (s.mapPointsOn k f) :=
  .points rfl rfl (fun p => if p.onClock k then f p else p) (s.mapPointsOn_points_get k f) (fun p => by
    show (if p.onClock k = true then f p else p).config = _
    split
    · exact hf p
    · rfl)

theorem setClock (s : State) (k : Fin 4) (c : Clock) (h : s.clocks[k].SameSettings c) :
    SettingsKept s (s.setClock k c) :=
  ⟨fun j => by
    by_cases e : k = j
    · subst e; rw [State.setClock_clocks_same]; exact h
    · rw [State.setClock_clocks_other _ _ _ _ e]; exact .refl _, fun _ => rfl, fun _ => rfl⟩

/-- A configured point changed with its record kept. -/
theorem setPoint (s : State) (i : Fin 32) (p q : Point) (h : s.points[i] = some p) (e : q.config = p.config) :
    SettingsKept s (s.setPoint i (some q)) :=
  ⟨fun _ => .refl _, fun _ => rfl, fun j => by
    by_cases hij : i = j
    · subst hij; rw [State.setPoint_points_same, h]; simp [e]
    · rw [State.setPoint_points_other _ _ _ _ hij]⟩

/-! ## Closes -/

theorem closePoints (s : State) (w : Point → Bool) (n : BitVec 16) (t : Option CalTime) (b : Bool) :
    SettingsKept s (s.closePoints w n t b) :=
  .points (CloseTurnFrame.closePoints s w n t b).clocks (CloseTurnFrame.closePoints s w n t b).tariff
    (fun p => if w p then s.settledPoint p n else p) (s.closePoints_points w n t b) (fun p => by
      show (if w p = true then s.settledPoint p n else p).config = _
      split <;> rfl)

theorem resetPeak (s : State) (k : Fin 4) : SettingsKept s (s.resetPeak k) :=
  SettingsKept.trans (t := s.setClock k { s.clocks[k] with peak := 0, peakStamp := none })
    (.setClock s k _ ⟨rfl, rfl, rfl, rfl, le_refl _⟩)
    (.mapPointsOn _ k (fun p => { p with contribution := 0 }) (fun _ => rfl))

theorem leaveClose (s : State) (k : Fin 4) : SettingsKept s (s.leaveClose k) :=
  (SettingsKept.resetPeak s k).trans (.same rfl rfl rfl)

theorem completeClose (s : State) (n : BitVec 16) : SettingsKept s (s.completeClose n) :=
  ⟨fun k => by rw [State.completeClose_clocks]; exact .refl _,
    fun h => by rw [State.completeClose_tariff, h]; rfl,
    fun i => by rw [State.completeClose_points]⟩

theorem completeIfEmpty (s : State) (n : BitVec 16) : SettingsKept s (s.completeIfEmpty n) := by
  unfold State.completeIfEmpty
  split
  · exact .completeClose s n
  · exact .refl s

theorem settleClock (s : State) (k : Fin 4) (n : BitVec 16) (t : Option CalTime) (b : Bool) :
    SettingsKept s (s.settleClock k n t b) := (SettingsKept.closePoints s _ n t b).trans (.leaveClose _ k)

theorem clockShare (s : State) (k : Fin 4) (t : Option CalTime) : SettingsKept s (s.clockShare k t) := by
  rcases s.clockShare_cases k t with ⟨_, e⟩ | ⟨n, _, _, e⟩ <;> rw [e]
  · exact .refl s
  · exact (SettingsKept.settleClock ..).trans (.completeIfEmpty ..)

theorem startClose (s : State) : SettingsKept s s.startClose := by
  have h1 : SettingsKept s s.beginClose := .same rfl rfl rfl
  have h2 : SettingsKept s.beginClose s.beginClose.closeIdlePoints := .closePoints ..
  have h3 : ∀ u : State, SettingsKept u u.resetIdlePeaks := fun u => SettingsKept.foldl (fun t k => by
    split
    · exact .refl t
    · exact .resetPeak t k) _ u
  exact ((h1.trans h2).trans (h3 _)).trans (.completeIfEmpty ..)

theorem warmClose (s : State) (c : Option CalTime) : SettingsKept s (s.warmClose c) := by
  unfold State.warmClose
  split
  · refine SettingsKept.trans (SettingsKept.foldl (fun t k => ?_) _ _) (.completeClose ..)
    split
    · exact .settleClock ..
    · exact .refl t
  · exact .refl s

/-! ## Boundaries and time updates -/

theorem openPointsOn (s : State) (k : Fin 4) (now : CalTime) : SettingsKept s (s.openPointsOn k now) :=
  .mapPointsOn _ _ _ (fun _ => rfl)

theorem openEnabled (s : State) (now : CalTime) : SettingsKept s (s.openEnabled now) :=
  SettingsKept.foldl (fun t k => by
    split
    · exact .openPointsOn ..
    · exact .refl t) _ s

theorem comparePeak (s : State) (k : Fin 4) (now : CalTime) : SettingsKept s (s.comparePeak k now) := by
  simp only [State.comparePeak]
  split
  · exact SettingsKept.trans
      (t := s.setClock k { s.clocks[k] with peak := s.coincidentSum k, peakStamp := some now })
      (.setClock s k _ ⟨rfl, rfl, rfl, rfl, le_refl _⟩)
      (.mapPointsOn _ k (fun p => { p with contribution := p.eligibleDemand s.clocks[k] }) (fun _ => rfl))
  · exact .refl s

theorem evaluateClock (s : State) (k : Fin 4) (now : CalTime) (b : Bool) :
    SettingsKept s (s.evaluateClock k now b) := by
  simp only [State.evaluateClock]
  have h1 : SettingsKept s (if b then s.mapPointsOn k (fun p => p.raisePeriod .timeHoldover) else s) := by
    split
    · exact .mapPointsOn _ _ _ (fun _ => rfl)
    · exact .refl s
  exact (h1.trans (.mapPointsOn _ _ _ (fun p => (p.boundary_frame _ _ _).1.config))).trans (.comparePeak ..)

theorem boundary (s : State) (k : Fin 4) (now : CalTime) (b : Bool) : SettingsKept s (s.boundary k now b) :=
  (((SettingsKept.evaluateClock s k now b).trans (.clockShare ..)).trans (.openPointsOn ..)).trans
    (.setClock _ k _ ⟨rfl, rfl, rfl, rfl, Nat.sub_le ..⟩)

theorem scheduledClose (s : State) (now : CalTime) : SettingsKept s (s.scheduledClose now) := by
  simp only [State.scheduledClose]
  split
  · split
    · have h : SettingsKept s
          { s with time := { s.time with lastClose := some { year := now.year, month := now.month } } } :=
        .same rfl rfl rfl
      generalize ({ s with time := { s.time with lastClose := some { year := now.year, month := now.month } } } : State) = u at *
      exact h.trans (.startClose u)
    · exact .refl s
  · exact .refl s

theorem minuteAdvance (s : State) (order : List (Fin 4)) (now : CalTime) (b : Bool) :
    SettingsKept s (s.minuteAdvance order now b) :=
  (SettingsKept.scheduledClose s now).trans (SettingsKept.foldl (fun t k => .boundary t k now b) _ _)

theorem lockAt (s : State) (t : CalTime) : SettingsKept s (s.lockAt t) := .same rfl rfl rfl

theorem countStep (s : State) : SettingsKept s s.countStep := .same rfl rfl rfl

theorem stepTo (s : State) (t : CalTime) : SettingsKept s (s.stepTo t) := by
  unfold State.stepTo
  have h1 : SettingsKept s s.cutAll := .mapPoints _ _ (fun p => (s.cutPoint_frame p).config)
  have h2 := (h1.trans (.lockAt _ t)).trans (.openEnabled _ t)
  generalize (s.cutAll.lockAt t).openEnabled t = o at *
  dsimp only
  have h3 := h2.trans (.mapPoints _ (fun p => p.raisePeriod .timeStep) (fun _ => rfl))
  generalize o.mapPoints (fun p => p.raisePeriod .timeStep) = w at *
  exact (h3.trans (.countStep _)).trans (.scheduledClose ..)

theorem takeTime (s : State) (order : List (Fin 4)) (t : CalTime) : SettingsKept s (s.takeTime order t) := by
  unfold State.takeTime
  split
  · exact ((SettingsKept.lockAt s t).trans (.openEnabled ..)).trans (.scheduledClose ..)
  · split
    · exact (SettingsKept.lockAt s t).trans (.minuteAdvance ..)
    · split
      · split
        · exact .same rfl rfl rfl
        · exact .lockAt s t
      · exact .stepTo s t

theorem selfAdvance (s : State) (order : List (Fin 4)) (c : CalTime) : SettingsKept s (s.selfAdvance order c) := by
  unfold State.selfAdvance
  have h1 : SettingsKept s (s.holdoverAt c.next) := .same rfl rfl rfl
  exact (h1.trans (.link (LoopFrame.raiseHoldover ..).link)).trans (.minuteAdvance ..)

end SettingsKept

/-! ## The warm start -/

/-- A state at a warm start after the cut closes and the blocks' own values, before a close in flight completes
(R186). -/
def State.warmBlocks (s : State) : State :=
  { s.warmPoints with clocks := s.warmPoints.clocks.map Clock.warmStart, time := s.warmPoints.time.warmStart }

theorem State.warmStart_eq (s : State) :
    s.warmStart = State.completeStart { (s.warmBlocks.warmClose s.time.calendar).restartReadout with
      port := (s.warmBlocks.warmClose s.time.calendar).restartReadout.port.warmStart
      decoder := (s.warmBlocks.warmClose s.time.calendar).restartReadout.decoder.warmStart } := rfl

theorem State.warmBlocks_points (s : State) (i : Fin 32) :
    s.warmBlocks.points[i] = s.points[i].map (fun p => (s.cutPoint p).warmStart) := s.mapPoints_points_get _ i

theorem State.warmBlocks_clocks (s : State) (k : Fin 4) : s.warmBlocks.clocks[k] = s.clocks[k].warmStart := by
  simp [State.warmBlocks, State.warmPoints]

/-- Two states have the same metering state: points, clocks, tariff, close unit, history and time. -/
structure SameMeter (s t : State) : Prop where
  points  : t.points = s.points
  clocks  : t.clocks = s.clocks
  tariff  : t.tariff = s.tariff
  close   : t.close = s.close
  history : t.history = s.history
  time    : t.time = s.time

/-- The metering state a warm start leaves is that of the close it completes (R186). -/
theorem State.warmStart_meter (s : State) : SameMeter (s.warmBlocks.warmClose s.time.calendar) s.warmStart := by
  rw [State.warmStart_eq]
  generalize s.warmBlocks.warmClose s.time.calendar = w
  have h5 := LoopFrame.restartReadout w
  generalize w.restartReadout = x at *
  have h6 := LoopFrame.completeStart ({ x with port := x.port.warmStart, decoder := x.decoder.warmStart } : State)
  exact ⟨h6.points.trans h5.points, h6.clocks.trans h5.clocks, h6.tariff.trans h5.tariff, h6.close.trans h5.close,
    h6.history.trans h5.history, h6.time.trans h5.time⟩

/-- The locks and the supply's VDD after a warm start (R175, R186). -/
theorem State.warmStart_locks (s : State) :
    s.warmStart.decoder.commissioning = s.decoder.commissioning ∧
      s.warmStart.decoder.clearable = s.decoder.clearable ∧ s.warmStart.supply.vdd = s.supply.vdd := by
  have hd := (MeterFrame.warmClose s.warmBlocks s.time.calendar).decoder
  have hv := (MeterFrame.warmClose s.warmBlocks s.time.calendar).supply
  rw [State.warmStart_eq]
  generalize s.warmBlocks.warmClose s.time.calendar = w at *
  have h5 := LoopFrame.restartReadout w
  generalize w.restartReadout = x at *
  have h6 := LoopFrame.completeStart ({ x with port := x.port.warmStart, decoder := x.decoder.warmStart } : State)
  have e : x.decoder = s.decoder := h5.decoder.trans hd
  refine ⟨?_, ?_, ?_⟩
  · rw [h6.decoder, ← e]; rfl
  · rw [h6.decoder, ← e]; rfl
  · rw [h6.supply]; show x.supply.vdd = _; rw [h5.supply, hv]; rfl

/-- A warm start keeps the points' records, the clocks' settings and, with no activation marked, the tariff store;
the calendar time is absent after it, and each hold counter at H or below (R37, R55, R186). -/
theorem State.warmStart_settings (s : State) :
    (s.tariff.atClose = false → s.warmStart.tariff = s.tariff) ∧
    (∀ i : Fin 32, s.warmStart.points[i].map (·.config) = s.points[i].map (·.config)) ∧
    (∀ k : Fin 4, s.clocks[k].warmStart.SameSettings s.warmStart.clocks[k]) ∧
    s.warmStart.time = { s.time.warmStart with lastClose := s.warmStart.time.lastClose } := by
  have h := s.warmStart_meter
  have h3 := SettingsKept.warmClose s.warmBlocks s.time.calendar
  have h4 := (MeterFrame.warmClose s.warmBlocks s.time.calendar).time
  generalize s.warmBlocks.warmClose s.time.calendar = w at *
  refine ⟨fun a => ?_, fun i => ?_, fun k => ?_, ?_⟩
  · rw [h.tariff, h3.tariff a]; rfl
  · rw [h.points, h3.records, State.warmBlocks_points, Option.map_map]
    congr 1; funext p
    exact (s.cutPoint_frame p).config
  · rw [← State.warmBlocks_clocks, h.clocks]; exact h3.clocks k
  · rw [h.time]; exact h4

/-! ## A warm start that VDD breaks off -/

theorem SettingsKept.warmCloseStep (s : State) (n : BitVec 16) (stamp : Option CalTime) (x : WarmCloseStep) :
    SettingsKept s (s.warmCloseStep n stamp x) := by
  cases x with
  | point i =>
    unfold State.warmCloseStep
    dsimp only
    split
    · rename_i p hp
      have h : SettingsKept s { s with history := s.history.append (s.recordOf i p n stamp true) } := .same rfl rfl rfl
      exact h.trans (SettingsKept.setPoint _ i p _ hp rfl)
    · exact .refl _
  | clock k => exact (SettingsKept.leaveClose s k).trans (.completeIfEmpty ..)

theorem SettingsKept.warmCloseFirst (s : State) (m : Nat) (stamp : Option CalTime) :
    SettingsKept s (s.warmCloseFirst m stamp) := by
  unfold State.warmCloseFirst
  split
  · exact SettingsKept.foldl (fun t x => .warmCloseStep t _ stamp x) _ s
  · exact .refl _

/-- A state at a broken start after the owners' own actions, as far as they went (R183). -/
def State.partBlocks (s : State) (b : StartBreak) : State := (s.warmPointsIn b.points).warmClocksIn b.clocks

/-- The same with the steps of the completion of a close that were made (R183). -/
def State.partClosed (s : State) (b : StartBreak) : State :=
  if b.points = BitVec.allOnes 32 then (s.partBlocks b).warmCloseFirst b.closes s.time.calendar else s.partBlocks b

theorem State.warmStartPart_eq (s : State) (b : StartBreak) :
    s.warmStartPart b = if b.readout then (s.partClosed b).restartReadout else s.partClosed b := rfl

theorem MeterFrame.partClosed (s : State) (b : StartBreak) : MeterFrame s (s.partClosed b) := by
  refine MeterFrame.trans (t := s.partBlocks b) rfl ?_
  unfold State.partClosed
  split
  · exact .warmCloseFirst ..
  · exact .refl _

theorem State.partClosed_time (s : State) (b : StartBreak) : (s.partClosed b).time = s.time := by
  unfold State.partClosed
  split
  · exact State.warmCloseFirst_time ..
  · rfl

/-- Beyond the close, a broken start can have ended the readout (R183). -/
theorem LoopFrame.warmStartPart (s : State) (b : StartBreak) : LoopFrame (s.partClosed b) (s.warmStartPart b) := by
  rw [State.warmStartPart_eq]
  split
  · exact .restartReadout _
  · rfl

/-- A broken warm start keeps the settings, as a whole one does, and each hold counter is H or what it was (R55,
R183). -/
theorem State.warmStartPart_settings (s : State) (b : StartBreak) :
    (s.tariff.atClose = false → (s.warmStartPart b).tariff = s.tariff) ∧
    (∀ i : Fin 32, (s.warmStartPart b).points[i].map (·.config) = s.points[i].map (·.config)) ∧
    (∀ k : Fin 4, (if hasFlag b.clocks k.val then s.clocks[k].warmStart else s.clocks[k]).SameSettings
      (s.warmStartPart b).clocks[k]) ∧
    (s.warmStartPart b).time = s.time := by
  have hl := LoopFrame.warmStartPart s b
  have hk : SettingsKept (s.partBlocks b) (s.partClosed b) := by
    unfold State.partClosed
    split
    · exact .warmCloseFirst ..
    · exact .refl _
  have ht := s.partClosed_time b
  generalize s.partClosed b = c at *
  refine ⟨fun a => ?_, fun i => ?_, fun k => ?_, hl.time.trans ht⟩
  · rw [hl.tariff]; exact hk.tariff a
  · rw [hl.points, hk.records]
    refine (congrArg (Option.map (·.config)) (s.warmPointsIn_points b.points i)).trans ?_
    rw [Option.map_map]
    congr 1; funext p
    simp only [Function.comp_apply]
    split
    · exact (s.cutPoint_frame p).config
    · rfl
  · rw [hl.clocks]
    have e := (s.warmPointsIn b.points).warmClocksIn_clocks b.clocks k
    have h := hk.clocks k
    rw [show (s.partBlocks b).clocks[k] = _ from e] at h
    exact h

end Sys2Proof.Machine
end

