-- ==== Sys2Proof/Laws/Store.lean ====
section
/-! SUPPORT. What an age-out and an append leave of the history store. -/

-- One declaration after the other: the package as one text then needs few threads.
set_option Elab.async false

namespace Sys2Proof.Machine

/-- The slot that j appends have followed, as a number. -/
theorem History.slotBack_val (h : History) (j : Nat) (hj : j < 384) :
    (h.slotBack j).val = (h.writeIndex.val + 767 - j) % 384 := by
  have := h.writeIndex.isLt
  have e : (h.slotBack j) = h.writeIndex - 1 - Fin.ofNat 384 j := rfl
  rw [e, Fin.sub_def, Fin.sub_def]
  simp only [Fin.val_ofNat]
  have : ((1 : Fin 384) : Nat) = 1 := rfl
  rw [this, Nat.mod_eq_of_lt hj]
  omega

/-- The first number of a range that satisfies a test. -/
theorem find_range (p : Nat → Bool) (n j : Nat) (h : (List.range n).find? p = some j) :
    j < n ∧ ∀ i < j, p i = false := by
  rw [List.find?_range_eq_some] at h
  refine ⟨by simpa using h.2.1, fun i hi => by simpa using h.2.2 i hi⟩

/-- What an age-out leaves: slots, index and counter as they were, and no more valid records than before, none of
them of the given point and period (R127). -/
theorem History.ageOut_cases (h : History) (p : Fin 32) (q : BitVec 16) :
    let a := h.ageOut p q
    a.slots = h.slots ∧ a.writeIndex = h.writeIndex ∧ a.sequence = h.sequence ∧ a.valid ≤ h.valid ∧
     ∀ j < a.valid, h.holdsRecordOf (h.slotBack j) p q = false := by
  intro a
  have ha : a = h.ageOut p q := rfl
  unfold History.ageOut at ha
  split at ha
  · rename_i j hj
    rw [ha]
    have := find_range _ _ _ hj
    exact ⟨rfl, rfl, rfl, this.1.le, fun i hi => this.2 i hi⟩
  · rename_i hn
    rw [ha]
    rw [List.find?_eq_none] at hn
    exact ⟨rfl, rfl, rfl, le_refl _, fun j hj => by simpa using hn j (by simpa using hj)⟩

theorem History.holdsRecordOf_iff (h : History) (slot : Fin 384) (p : Fin 32) (q : BitVec 16) :
    h.holdsRecordOf slot p q = true ↔ h.keyAt slot = some (p, q) := by
  unfold History.holdsRecordOf History.keyAt
  cases h.slots[slot] <;> simp

/-- How many records are valid after an append: those before the first that the age-out finds, or all of them, and
the new one, up to 384 (R126, R127). -/
theorem History.append_valid (h : History) (r : BillingRecord) (n : Nat) (hn : n ≤ h.valid)
    (hj : ∀ j < n, h.keyAt (h.slotBack j) ≠ some (r.point, r.period))
    (he : n = h.valid ∨ h.keyAt (h.slotBack n) = some (r.point, r.period)) :
    (h.append r).valid = if n < 384 then n + 1 else n := by
  have e : (h.ageOut r.point r.period).valid = n := by
    unfold History.ageOut
    split
    · rename_i m hm
      obtain ⟨h1, h2⟩ := find_range _ _ _ hm
      have h3 := (History.holdsRecordOf_iff h _ _ _).1 (List.find?_some (p := fun j => h.holdsRecordOf (h.slotBack j) r.point r.period) hm)
      dsimp only
      rcases Nat.lt_trichotomy m n with hlt | heq | hgt
      · exact absurd h3 (hj m hlt)
      · exact heq
      · rcases he with he | he
        · omega
        · have := h2 n hgt
          rw [(History.holdsRecordOf_iff ..).2 he] at this
          exact absurd this (by simp)
    · rename_i hnone
      rcases he with he | he
      · exact he.symm
      · rcases Nat.lt_or_ge n h.valid with hlt | hge
        · have := List.find?_eq_none.1 hnone n (by simpa using hlt)
          exact absurd ((History.holdsRecordOf_iff ..).2 he) (by simpa using this)
        · omega
  simp only [History.append, e]

/-- An append keeps the store in order (R125, R126, R127). -/
theorem History.append_ordered (h : History) (r : BillingRecord) (ho : h.Ordered) : (h.append r).Ordered := by
  obtain ⟨h1, h2, h3⟩ := ho
  obtain ⟨-, -, -, a4, a5⟩ := History.ageOut_cases h r.point r.period
  have e : h.append r =
      { slots := h.slots.set h.writeIndex (some { r with sequence := h.sequence })
        writeIndex := h.writeIndex + 1
        valid := if (h.ageOut r.point r.period).valid < 384 then (h.ageOut r.point r.period).valid + 1
          else (h.ageOut r.point r.period).valid
        sequence := h.sequence + 1 } := rfl
  generalize (h.ageOut r.point r.period).valid = v at *
  have hw := h.writeIndex.isLt
  have hv : (h.append r).valid ≤ 384 := by rw [e]; dsimp only; split <;> omega
  have hv2 : ∀ j, j + 1 < (h.append r).valid → j < v ∧ j < 383 := by
    intro j hj; rw [e] at hj; dsimp only at hj; split at hj <;> omega
  have hs0 : (h.append r).slotBack 0 = h.writeIndex := by
    apply Fin.ext
    rw [History.slotBack_val _ _ (by omega)]
    rw [e]; dsimp only
    rw [Fin.val_add]; simp; omega
  have hs : ∀ j, j < 383 → (h.append r).slotBack (j+1) = h.slotBack j := by
    intro j hj
    apply Fin.ext
    rw [History.slotBack_val _ _ (by omega), History.slotBack_val _ _ (by omega)]
    rw [e]; dsimp only
    rw [Fin.val_add]; have : ((1 : Fin 384) : Nat) = 1 := rfl
    rw [this]; omega
  have g0 : (h.append r).slots[h.writeIndex] = some { r with sequence := h.sequence } := by
    rw [e]; simp
  have g : ∀ j, j < 383 → (h.append r).slots[h.slotBack j] = h.slots[h.slotBack j] := by
    intro j hj
    have : (h.slotBack j).val ≠ h.writeIndex.val := by rw [History.slotBack_val _ _ (by omega)]; omega
    rw [e]
    simp only [Fin.getElem_fin, Vector.getElem_set]
    rw [if_neg (fun hh => this hh.symm)]
  have hseq : (h.append r).sequence = h.sequence + 1 := by rw [e]
  have shift : ∀ j : Nat, (h.sequence + 1 - 1 - BitVec.ofNat 32 (j+1)) = h.sequence - 1 - BitVec.ofNat 32 j := by
    intro j
    have : BitVec.ofNat 32 (j+1) = BitVec.ofNat 32 j + 1 := by
      apply BitVec.eq_of_toNat_eq; simp [BitVec.toNat_add]
    rw [this]; bv_omega
  have k0 : (h.append r).keyAt h.writeIndex = some (r.point, r.period) := by
    unfold History.keyAt; rw [g0]; rfl
  have kj : ∀ j, j < 383 → (h.append r).keyAt (h.slotBack j) = h.keyAt (h.slotBack j) := by
    intro j hj; unfold History.keyAt; rw [g j hj]
  refine ⟨hv, ?_, ?_⟩
  · rintro ⟨j, hj⟩ hjv
    dsimp only at hjv ⊢
    cases j with
    | zero =>
      have e0 := congrArg (fun x : Fin 384 => (h.append r).slots[x]) hs0
      beta_reduce at e0
      rw [e0, g0, hseq]; simp
    | succ j =>
      obtain ⟨b1, b2⟩ := hv2 j hjv
      have e0 := congrArg (fun x : Fin 384 => (h.append r).slots[x]) (hs j b2)
      beta_reduce at e0
      rw [e0, g j b2, hseq, shift]
      exact h2 ⟨j, by omega⟩ (by simp only; omega)
  · rintro ⟨j, hj⟩ ⟨k, hk⟩ hjk hkv
    dsimp only at hjk hkv ⊢
    cases k with
    | zero => omega
    | succ k =>
      obtain ⟨b1, b2⟩ := hv2 k hkv
      rw [hs k b2, kj k b2]
      cases j with
      | zero =>
        rw [hs0, k0]
        intro hh
        have := a5 k b1
        unfold History.holdsRecordOf at this
        unfold History.keyAt at hh
        split at this
        · rename_i rec hrec
          rw [hrec] at hh
          simp at hh
          obtain ⟨x, y⟩ := hh
          simp [x, y] at this
        · rename_i hrec; rw [hrec] at hh; cases hh
      | succ j =>
        rw [hs j (by omega), kj j (by omega)]
        exact h3 ⟨j, by omega⟩ ⟨k, by omega⟩ (by simp only; omega) (by simp only; omega)

end Sys2Proof.Machine
end

