-- ==== Sys2Proof/Laws/Tables.lean ====
section
/-! SUPPORT. What the contents check of LOAD TABLE says of a table (R147), and that a tariff set stays valid as a
table that passed the checks is put into it. -/

namespace Sys2Proof.Machine

/-- A list that rises step by step rises between any two places. -/
theorem rising_iff_pairwise {α : Type} (lt : α → α → Bool) (R : α → α → Prop) (trans : ∀ a b c, R a b → R b c → R a c)
    (h : ∀ a b, lt a b = true ↔ R a b) (l : List α) : rising lt l = true ↔ l.Pairwise R := by
  induction l with
  | nil => simp [rising]
  | cons a l ih =>
    cases l with
    | nil => simp [rising]
    | cons b l =>
      rw [rising, Bool.and_eq_true, ih, h, List.pairwise_cons (a := a)]
      constructor
      · rintro ⟨h1, h2⟩
        refine ⟨fun x hx => ?_, h2⟩
        rcases List.mem_cons.1 hx with rfl | hx
        · exact h1
        · exact trans _ _ _ h1 ((List.pairwise_cons.1 h2).1 x hx)
      · rintro ⟨h1, h2⟩; exact ⟨h1 b (by simp), h2⟩

theorem distinct_iff_nodup (l : List Holiday) : distinct l = true ↔ l.Nodup := by
  induction l with
  | nil => simp [distinct]
  | cons a l ih => simp [distinct, ih]

/-- What a parse of a list of entries gives: as many as there were, each the parse of one. -/
theorem allSome_spec {α β : Type} (f : α → Option β) (l : List α) (r : List β) (hr : allSome (l.map f) = some r) :
    r.length = l.length ∧ ∀ b ∈ r, ∃ a ∈ l, f a = some b := by
  induction l generalizing r with
  | nil => simp [allSome] at hr; subst hr; simp
  | cons a l ih =>
    simp only [List.map_cons] at hr
    cases hf : f a with
    | none => simp [hf, allSome] at hr
    | some b =>
      simp only [hf, allSome, Option.map_eq_some_iff] at hr
      obtain ⟨r', h1, rfl⟩ := hr
      obtain ⟨h2, h3⟩ := ih r' h1
      refine ⟨by simp [h2], fun x hx => ?_⟩
      rcases List.mem_cons.1 hx with rfl | hx
      · exact ⟨a, by simp, hf⟩
      · obtain ⟨y, hy, h⟩ := h3 x hx
        exact ⟨y, by simp [hy], h⟩

/-- The form check that passes: the index is below the selector's count, and a list has at most the selector's
entries (R146). -/
theorem checkForm_spec {args : List Byte} {kind : Selector} {n : Nat} {contents : List Byte}
    (h : checkForm args = .form kind n contents) :
    n < kind.indexes ∧ ∀ most size, kind.listForm = some (most, size) → contents.length ≤ most * size := by
  unfold checkForm at h
  split at h
  · split at h
    · cases h
    · split at h
      · rename_i m z hf
        split at h
        · cases h
        · split_ifs at h with h1 h2
          cases h
          refine ⟨by omega, fun m' z' e => ?_⟩
          rw [hf] at e; cases e
          rw [not_not.1 h2]; exact Nat.mul_le_mul_right _ (by omega)
      · rename_i hf
        split_ifs at h
        cases h
        refine ⟨by omega, fun m z e => ?_⟩
        rw [hf] at e; cases e
  · cases h

/-- What a set of a replaced entry holds at each place. -/
theorem forall_vector_set {α : Type} {n : Nat} {P : α → Prop} (v : Vector α n) (i : Fin n) (x : α)
    (h : ∀ j : Fin n, P v[j]) (hx : P x) : ∀ j : Fin n, P (v.set i x)[j] := by
  intro j
  simp only [Fin.getElem_fin, Vector.getElem_set]
  split
  · exact hx
  · exact h j

/-- A tariff set with a table put into it that passed both checks of LOAD TABLE is valid as before (R144, R147). -/
theorem TariffSet.put_inRange {set : TariffSet} (hs : set.InRange) {args : List Byte} {kind : Selector} {n : Nat}
    {contents : List Byte} {t : Table} (hf : checkForm args = .form kind n contents)
    (h : parseContents kind n contents = some t) : (set.put t).InRange := by
  obtain ⟨a, b, c, d, e, f⟩ := hs
  have hl := (checkForm_spec hf).2
  have glen : ∀ {α : Type} (k : Nat) (f : List Byte → Option α) (r : List α),
      allSome ((groupsOf k contents).map f) = some r → r.length = contents.length / k := fun k f r hr => by
    rw [(allSome_spec _ _ _ hr).1]; simp [groupsOf]
  clear hf
  cases kind <;>
    simp only [Selector.listForm, Option.some.injEq, Prod.mk.injEq, reduceCtorEq, false_implies, implies_true,
      and_imp] at hl <;>
    simp only [parseContents, ensure, Option.bind_eq_bind, Option.bind_eq_some_iff, Option.map_eq_some_iff,
      Option.pure_def, Option.some.injEq] at h
  case seasons =>
    obtain ⟨l, h1, u, h2, rfl⟩ := h
    split at h2 <;> cases h2
    rename_i hr
    have := glen _ _ _ h1
    have hl := hl 4 2 rfl rfl
    refine ⟨⟨by show l.length ≤ 4; omega, fun e he => ?_, (rising_iff_pairwise seasonBefore MonthDay.before
      (by intro a b c; simp only [MonthDay.before]; omega) (by intro a b; simp [seasonBefore, MonthDay.before]) l).1 hr⟩,
      b, c, d, e, f⟩
    obtain ⟨o, _, ho⟩ := (allSome_spec _ _ _ h1).2 e he
    unfold parseSeason at ho; simp only at ho; split at ho <;> cases ho
    rename_i g; exact ⟨⟨g.1, g.2.1⟩, g.2.2.1, g.2.2.2⟩
  case weekdays => obtain ⟨l, h1, v, h2, rfl⟩ := h; exact ⟨a, b, c, d, e, f⟩
  case holidays =>
    obtain ⟨l, h1, u, h2, rfl⟩ := h
    split at h2 <;> cases h2
    rename_i hr
    have := glen _ _ _ h1
    have hl := hl 24 3 rfl rfl
    refine ⟨a, ⟨by show l.length ≤ 24; omega, fun e he => ?_, (distinct_iff_nodup l).1 hr⟩, c, d, e, f⟩
    obtain ⟨o, _, ho⟩ := (allSome_spec _ _ _ h1).2 e he
    unfold parseHoliday at ho; simp only at ho
    split at ho
    · split at ho <;> cases ho
      rename_i g; exact ⟨⟨g.1, g.2.1⟩, g.2.2.1, fun _ => g.2.2.2, by intro y hy; cases hy⟩
    · split at ho <;> cases ho
      rename_i g
      exact ⟨⟨g.2.1, g.2.2.1⟩, g.2.2.2.1, fun h => (by cases h), fun y hy => by cases hy; exact ⟨by omega, g.2.2.2.2⟩⟩
  case profileMap => obtain ⟨l, h1, v, h2, rfl⟩ := h; exact ⟨a, b, c, d, e, f⟩
  case profile =>
    obtain ⟨i, hi, l, h1, u, h2, rfl⟩ := h
    split at h2 <;> cases h2
    rename_i hr
    have := glen _ _ _ h1
    have hl := hl 8 3 rfl rfl
    refine ⟨a, b, forall_vector_set _ i _ c ⟨by omega, fun e he => ?_, (rising_iff_pairwise _
      (fun a b : SwitchPoint => a.minute < b.minute) (by intro a b c; omega) (by intro a b; simp) l).1 hr⟩, d, e, f⟩
    obtain ⟨o, _, ho⟩ := (allSome_spec _ _ _ h1).2 e he
    simp only [parseSwitch, ensure, Option.bind_eq_bind, Option.bind_eq_some_iff] at ho
    obtain ⟨rt, hrt, u, hu, hb⟩ := ho
    split at hu <;> cases hu
    rename_i g
    cases hb
    simpa using g
  case closeInstant =>
    obtain ⟨x, hx, rfl⟩ := h
    refine ⟨a, b, c, ?_, e, f⟩
    unfold parseInstant at hx; simp only at hx
    split at hx
    · cases hx; intro y hy; cases hy
    · split at hx <;> cases hx
      rename_i g; intro y hy; cases hy; exact ⟨⟨g.1, g.2.1⟩, g.2.2⟩
  case schedule =>
    obtain ⟨i, hi, sc, hsc, rfl⟩ := h
    refine ⟨a, b, c, d, forall_vector_set _ i _ e ?_, f⟩
    unfold parseSchedule at hsc; simp only at hsc
    split at hsc <;> cases hsc
    rename_i g
    change _ ≤ 99999999 ∧ _ ≤ 99999999 ∧ _ ≤ 99999999 ∧ _ ≤ 99999999 ∧ _ ≤ 99999999 ∧ _ ≤ 99999999 ∧ _ at g
    obtain ⟨g0, g1, g2, g3, g4, g5, g6, g7, g8⟩ := g
    refine ⟨fun r => ?_, g4, g5, g6, g7, g8⟩
    match r with
    | 0 => exact g0
    | 1 => exact g1
    | 2 => exact g2
    | 3 => exact g3
  case option =>
    obtain ⟨i, hi, o, ho, rfl⟩ := h
    refine ⟨a, b, c, d, e, forall_vector_set _ i _ f ?_⟩
    unfold parseOption at ho; simp only at ho
    split at ho <;> cases ho
    rename_i g; exact g.1

end Sys2Proof.Machine
end

