-- ==== Sys2Proof/Laws/Windows.lean ====
section
/-! SUPPORT. What a boundary does to one point, operation by operation, and steps 1 to 4 of a clock's boundary as a
whole (R63 to R74). -/

-- One declaration after the other: the package as one text then needs few threads.
set_option Elab.async false

namespace Sys2Proof.Machine

/-! ## Status flags that rise -/

/-- From p to q the status flags of a set have risen, and the attention bit with those under the mask (R10). -/
structure StatusRaised (p q : Point) (flags : Nat → Prop) : Prop where
  config : q.config = p.config
  status : ∀ b, q.status.getLsbD b = true ↔ p.status.getLsbD b = true ∨ flags b
  attention : q.attention = true ↔ p.attention = true ∨
    ∃ b : Nat, q.status.getLsbD b = true ∧ p.status.getLsbD b = false ∧ p.config.attentionMask.getLsbD b = true

namespace StatusRaised

theorem same {p q : Point} (h1 : q.config = p.config) (h2 : q.status = p.status) (h3 : q.attention = p.attention) :
    StatusRaised p q (fun _ => False) := by
  refine ⟨h1, fun b => by rw [h2]; simp, ?_⟩
  rw [h2, h3]
  constructor
  · exact .inl
  · rintro (h | ⟨b, h1, h2, _⟩)
    · exact h
    · rw [h1] at h2; cases h2

theorem raise (p : Point) (f : StatusFlag) : StatusRaised p (p.raiseStatus f) (fun b => b = f.place) := by
  have hf : f.place < 6 := by cases f <;> decide
  have e : ∀ b, (p.raiseStatus f).status.getLsbD b = true ↔ p.status.getLsbD b = true ∨ b = f.place := by
    intro b
    simp only [Point.raiseStatus, addFlag, BitVec.getLsbD_or, BitVec.getLsbD_twoPow, Bool.or_eq_true, Bool.and_eq_true,
      decide_eq_true_eq]
    constructor
    · rintro (h | h)
      · exact .inl h
      · exact .inr h.2.symm
    · rintro (h | h)
      · exact .inl h
      · exact .inr ⟨hf, h.symm⟩
  refine ⟨rfl, e, ?_⟩
  simp only [e]
  simp only [Point.raiseStatus, hasFlag, Bool.or_eq_true, Bool.and_eq_true, Bool.not_eq_true']
  constructor
  · rintro (h | ⟨h1, h2⟩)
    · exact .inl h
    · exact .inr ⟨f.place, .inr rfl, h1, h2⟩
  · rintro (h | ⟨b, h1 | h1, h2, h3⟩)
    · exact .inl h
    · rw [h1] at h2; cases h2
    · subst h1; exact .inr ⟨h2, h3⟩

theorem trans {p q r : Point} {A B : Nat → Prop} (h : StatusRaised p q A) (g : StatusRaised q r B) :
    StatusRaised p r (fun b => A b ∨ B b) := by
  refine ⟨g.config.trans h.config, fun b => by rw [g.status, h.status]; tauto, ?_⟩
  rw [g.attention, h.attention, h.config]
  constructor
  · rintro ((h1 | ⟨b, h1, h2, h3⟩) | ⟨b, h1, h2, h3⟩)
    · exact .inl h1
    · exact .inr ⟨b, (g.status b).2 (.inl h1), h2, h3⟩
    · refine .inr ⟨b, h1, ?_, h3⟩
      rw [← Bool.not_eq_true] at h2 ⊢
      exact fun h' => h2 ((h.status b).2 (.inl h'))
  · rintro (h1 | ⟨b, h1, h2, h3⟩)
    · exact .inl (.inl h1)
    · cases hq : q.status.getLsbD b
      · exact .inr ⟨b, h1, hq, h3⟩
      · exact .inl (.inr ⟨b, hq, h2, h3⟩)

theorem congr {p q : Point} {A B : Nat → Prop} (h : StatusRaised p q A) (e : ∀ b, A b ↔ B b) : StatusRaised p q B :=
  ⟨h.config, fun b => by rw [h.status, e], h.attention⟩

end StatusRaised

/-! ## One point -/

theorem Point.bookSub_eq (p : Point) (o : Option PenaltyOption) (w : Nat) (b : SubInterval) :
    p.bookSub o w b = { p with
      sub := none
      counters := { p.counters with gap := (p.bookSub o w b).counters.gap }
      excessSum := Machine.satAdd max64 p.excessSum (subIntervalExcess o b.energy)
      attributed := Machine.satAdd max64 p.attributed b.energy.ai
      ring := pushRing w { ai := b.energy.ai, quality := b.quality, ratePeriod := b.ratePeriod } p.ring } := by
  cases h : hasFlag b.quality QualityFlag.gap.place
  · simp only [Point.bookSub, h, Bool.false_eq_true, if_false]
  · simp only [Point.bookSub, h, if_true]

/-- The status flags a close of a sub-interval raises: LOSS, as the missing count comes equal to the limit (R5). -/
theorem Point.closeSub_status (p : Point) (o : Option PenaltyOption) (w : Nat) :
    StatusRaised p (p.closeSub o w) (fun n => n = 0 ∧
      ∃ b ∈ p.sub, b.accepted = false ∧ Machine.satAdd max8 p.missingCount 1 = p.config.lossLimit) := by
  cases hb : p.sub with
  | none =>
    have e : p.closeSub o w = p := by unfold Point.closeSub; rw [hb]
    rw [e]
    exact (StatusRaised.same rfl rfl rfl).congr (fun b => by simp)
  | some b =>
    unfold Point.closeSub
    rw [hb]
    dsimp only
    have book : ∀ (q : Point) (c : SubInterval), StatusRaised q (q.bookSub o w c) (fun _ => False) :=
      fun q c => .same rfl rfl rfl
    split
    · rename_i ha
      exact (book ..).congr (fun n => by simp [ha])
    · rename_i ha
      simp only [Bool.not_eq_true] at ha
      have counted : StatusRaised p p.countMissing (fun n => n = 0 ∧
          Machine.satAdd max8 p.missingCount 1 = p.config.lossLimit) := by
        have h0 : StatusRaised p { p with
            missingCount := Machine.satAdd max8 p.missingCount 1
            counters := { p.counters with missing := bump p.counters.missing } } (fun _ => False) := .same rfl rfl rfl
        unfold Point.countMissing
        dsimp only
        split
        · rename_i h
          exact (h0.trans (.raise _ .loss)).congr (fun n => by simp [h, StatusFlag.place])
        · rename_i h
          exact h0.congr (fun n => by simp [h])
      exact (counted.trans (book ..)).congr (fun n => by simp [ha])

/-- The status flags the contract check raises: EXCEED at the contract or above, WARN at the warning level (R72). -/
theorem Point.checkContract_status (p : Point) (d : Nat) : StatusRaised p (p.checkContract d) (fun n =>
    (n = 1 ∧ p.config.contract ≠ 0 ∧ p.config.contract ≤ d) ∨
    (n = 2 ∧ p.config.contract ≠ 0 ∧ d < p.config.contract ∧
      p.config.contract * p.config.warnPercent / 100 ≤ d)) := by
  unfold Point.checkContract
  split
  · rename_i h; exact (StatusRaised.same rfl rfl rfl).congr (fun n => by simp [h])
  · rename_i h
    split
    · rename_i h2
      have h0 : StatusRaised p { p with counters := { p.counters with exceedances := bump p.counters.exceedances } }
        (fun _ => False) := .same rfl rfl rfl
      exact (h0.trans (.raise _ .exceed)).congr (fun n => by
        have : ¬ d < p.config.contract := by omega
        simp [h, h2, this, StatusFlag.place])
    · rename_i h2
      have h2' : d < p.config.contract := by omega
      split
      · rename_i h3
        exact (StatusRaised.raise _ .warn).congr (fun n => by simp [h, h2, h2', h3, StatusFlag.place])
      · rename_i h3
        exact (StatusRaised.same rfl rfl rfl).congr (fun n => by simp [h2, h3])

/-- The contract check changes the exceedance counter, the status flags and the attention bit alone (R72). -/
theorem Point.checkContract_eq (p : Point) (d : Nat) : p.checkContract d = { p with
    counters := { p.counters with exceedances :=
      if p.config.contract ≠ 0 ∧ p.config.contract ≤ d then bump p.counters.exceedances else p.counters.exceedances }
    status := (p.checkContract d).status
    attention := (p.checkContract d).attention } := by
  unfold Point.checkContract
  split
  · rename_i h; simp [h]
  · rename_i h
    split
    · rename_i h2; simp only [h, h2, ne_eq, not_false_eq_true, and_self, if_true]; rfl
    · rename_i h2
      simp only [h2, and_false, if_false]
      split <;> rfl

/-- Everything steps 2 and 3 of a boundary can do to a point (R69 to R73): nothing without a full window; with one
that is not eligible, the present demand and the count; with an eligible one, the present demand, the maxima and the
contract check. -/
theorem Point.evaluate_cases (p : Point) (c : Clock) (now : CalTime) :
    (p.ring.length ≠ c.window ∧ p.evaluate c now = p) ∨
    (p.ring.length = c.window ∧ p.windowEligible c = false ∧ p.evaluate c now = { p with
      present := some { demand := p.windowDemand c, eligible := false, stamp := now }
      counters := { p.counters with ineligible := bump p.counters.ineligible } }) ∨
    (p.ring.length = c.window ∧ p.windowEligible c = true ∧ p.evaluate c now =
      (Point.raiseMaxima { p with present := some { demand := p.windowDemand c, eligible := true, stamp := now } }
        p.windowRate (p.windowDemand c) now).checkContract (p.windowDemand c)) := by
  unfold Point.evaluate Point.windowFull
  by_cases h : p.ring.length = c.window
  · cases he : p.windowEligible c
    · exact .inr (.inl ⟨h, rfl, by simp [h]⟩)
    · exact .inr (.inr ⟨h, rfl, by simp [h]⟩)
  · exact .inl ⟨h, by simp [h]⟩

/-! ## Steps 1 to 4 of a clock's boundary -/

/-- A point of the clock after steps 1 to 3 of its boundary, TIME_HOLDOVER raised first at a self-advance (R46,
R63). -/
def State.stepped (s : State) (k : Fin 4) (now : CalTime) (selfAdvance : Bool) (p : Point) : Point :=
  (if selfAdvance then p.raisePeriod .timeHoldover else p).boundary (s.optionOf p) s.clocks[k] now

/-- The state after steps 1 to 3 at every point of the clock. -/
def State.steppedAll (s : State) (k : Fin 4) (now : CalTime) (selfAdvance : Bool) : State :=
  s.mapPointsOn k (s.stepped k now selfAdvance)

theorem State.evaluateClock_eq (s : State) (k : Fin 4) (now : CalTime) (selfAdvance : Bool) :
    s.evaluateClock k now selfAdvance = (s.steppedAll k now selfAdvance).comparePeak k now := by
  cases selfAdvance
  · rfl
  · have e : ((s.mapPointsOn k (fun p => p.raisePeriod .timeHoldover)).mapPointsOn k (fun p =>
        p.boundary ((s.mapPointsOn k (fun p => p.raisePeriod .timeHoldover)).optionOf p)
          (s.mapPointsOn k (fun p => p.raisePeriod .timeHoldover)).clocks[k] now)) = s.steppedAll k now true := by
      have hp : ((s.mapPointsOn k (fun p => p.raisePeriod .timeHoldover)).mapPointsOn k (fun p =>
          p.boundary ((s.mapPointsOn k (fun p => p.raisePeriod .timeHoldover)).optionOf p)
            (s.mapPointsOn k (fun p => p.raisePeriod .timeHoldover)).clocks[k] now)).points =
          (s.steppedAll k now true).points := by
        apply Vector.ext
        intro i hi
        have h1 := State.mapPointsOn_points_get (s.mapPointsOn k (fun p => p.raisePeriod .timeHoldover)) k (fun p =>
          p.boundary ((s.mapPointsOn k (fun p => p.raisePeriod .timeHoldover)).optionOf p)
            (s.mapPointsOn k (fun p => p.raisePeriod .timeHoldover)).clocks[k] now) ⟨i, hi⟩
        have h2 := State.mapPointsOn_points_get s k (fun p => p.raisePeriod .timeHoldover) ⟨i, hi⟩
        have h3 := State.mapPointsOn_points_get s k (s.stepped k now true) ⟨i, hi⟩
        refine h1.trans (Eq.trans ?_ h3.symm)
        rw [h2, Option.map_map]
        congr 1; funext p
        simp only [Function.comp_apply]
        by_cases h : p.onClock k = true
        · have h' : (p.raisePeriod .timeHoldover).onClock k = true := h
          rw [if_pos h, if_pos h', if_pos h]
          rfl
        · rw [if_neg h, if_neg h, if_neg h]
      have h1 : ∀ t u : State, t = { s with points := t.points } → u = { s with points := u.points } →
          t.points = u.points → t = u := by
        intro t u ht hu h; rw [ht, hu, h]
      exact h1 _ _ rfl rfl hp
    exact congrArg (fun t : State => t.comparePeak k now) e

end Sys2Proof.Machine
end

