-- ==== Sys2Proof/Tests/Slice0.lean ====
section
/-! SUPPORT. The writer's own tests: one ill-formed term for each check of WellFormed, values from the spec's
worked examples, and a witness for the hypotheses of each clause of the statements. -/

-- One declaration after the other: the package as one text then needs few threads.
set_option Elab.async false

namespace Sys2Proof.Tests

open Sys2Proof.Machine Sys2Proof.Statements

/-! ## Small states -/

/-- A part just after a cold start that has taken station 0. -/
def part : State := { State.reset with decoder := { Decoder.cold with station := some 0 } }

/-- A request to station 0 with tag 7. -/
def req (args : List Byte) : Request := { address := 0, tag := 7, args := args }

/-- A record: clock 0, schedule 0, no option, no contract demand, loss limit 2. -/
def record : PointConfig :=
  { clock := some 0, schedule := 0, option := none, contract := 0, warnPercent := 90, lossLimit := 2,
    plausibility := 200000, attentionMask := 9, forward := true }

/-- An open sub-interval with nothing in it. -/
def blank : SubInterval :=
  { energy := { ai := 0, ae := 0, rl := 0, rc := 0 }, ratePeriod := 0, quality := 0, accepted := false }

/-- The part with a point at index 31. -/
def withPoint (s : State) (p : Point) : State := { s with points := s.points.set 31 (some p) }

/-- A clock of L = 5, W = 3, H = 3, enabled. -/
def running : Clock :=
  { enabled := true, length := 5, window := 3, holdLength := 3, hold := 0, peak := 0, peakStamp := none }

/-- 2031-04-18 10:30. -/
def noon : CalTime := { year := 2031, month := 4, day := 18, hour := 10, minute := 30 }

/-- The part with the time set and clock 0 running. -/
def metering : State :=
  { part with
    time := { TimeBase.cold with calendar := some noon, state := .locked, timer := .running65 }
    clocks := part.clocks.set 0 running }

/-- The same part with a measuring point at index 31. -/
def measuring : State := withPoint metering { freshPoint record 0 with sub := some blank }

/-- The same part in the close of period 0, clock 0 pending. -/
def closing : State :=
  { measuring with close := { inFlight := some 0, pendingSet := 1, devicePeriod := 0 } }

/-- A REPLY frame. -/
def aReply : Frame := { kind := 0x31, address := 1, payload := [1, 2, 3, 4, 5] }

/-- A frame that waits to be sent. -/
def queued : QueuedFrame := { frame := aReply, restartReply := false }

/-- The part with its transmitter sending. -/
def sending (s : State) (q : QueuedFrame) : State := { s with port := { s.port with transmitter := .sending q } }

/-- A readout of period 0 for every point. -/
def job : ReadoutJob :=
  { tag := 7, mask := 0xFFFFFFFF, first := 0, count := 2, stopOnMissing := false, continueOnOvertake := false,
    current := 0, begun := 1, sent := 0, missingPeriods := 0, missingPoints := 0, overtaken := 0 }

/-- A run from slot 0, sequence 0. -/
def aRun : Run := { firstSlot := 0, firstSeq := 0, length := 1, offset := 0, found := 0, waiting := false }

/-- The part after the close of period 0 of its one point: the store holds one record. -/
def stored : State := metering.closePoint 31 (freshPoint record 0) 0 none false

/-- The part with its readout in a phase. -/
def reading (s : State) (p : Phase) : State := { s with readout := { s.readout with phase := p } }

/-! ## WellFormed: each check refuses an ill-formed term -/

theorem test_wf_mark_length : (Instr.mark [] 0 [1, 2, 3]).wf = false := by decide
theorem test_wf_reading_length : (Instr.reading 0 (List.replicate 19 0)).wf = false := by decide
theorem test_wf_pass_through_record_length :
    (Instr.passThroughFrame { kind := 0x32, address := 0, payload := [] }).wf = false := by decide
theorem test_wf_pass_through_no_mark :
    (Instr.passThroughFrame { kind := 0x10, address := 0, payload := List.replicate 9 0 }).wf = false := by decide
theorem test_wf_truncated_length : (Instr.truncatedFrame (List.replicate 256 0)).wf = false := by decide +kernel
theorem test_wf_unknown_known_kind : (Instr.unknownRequest 0 [7, 0x10]).wf = false := by decide
theorem test_wf_unknown_length : (Instr.unknownRequest 0 (List.replicate 251 0)).wf = false := by decide +kernel
theorem test_wf_request_length : (Instr.setPoint (req (List.replicate 249 0))).wf = false := by decide +kernel
theorem test_wf_activate_now_argument : (Instr.activateNow (req [1])).wf = false := by decide
theorem test_wf_activate_at_close_argument : (Instr.activateAtClose (req [0])).wf = false := by decide
theorem test_wf_activate_cancel_argument : (Instr.activateCancel (req [0])).wf = false := by decide
theorem test_wf_lock_clearable_argument : (Instr.lockClearable (req [1])).wf = false := by decide
theorem test_wf_lock_commission_argument : (Instr.lockCommission (req [0])).wf = false := by decide
theorem test_wf_stray_sync : (Instr.strayOctet 0xC5).wf = false := by decide
theorem test_wf_stray_fill : (Instr.strayOctet 0).wf = false := by decide
theorem test_wf_close_before_cuts :
    (Instr.powerUp (some { points := 1, clocks := 0, readout := false, closes := 1 })).wf = false ∧
    (Instr.resetn (some { points := 1, clocks := 0, readout := false, closes := 1 })).wf = false ∧
    (Instr.restartWarmStart (some { points := 1, clocks := 0, readout := false, closes := 1 })).wf = false := by
  decide

/-! ## Values of the spec -/

/-- R160's CRC: the check value of CRC-16/CCITT-FALSE over the digits 1 to 9 (13, R190). -/
theorem test_crc_check_value :
    crc16 [0x31, 0x32, 0x33, 0x34, 0x35, 0x36, 0x37, 0x38, 0x39] = 0x29B1 := by decide +kernel

/-- 03, section 3.10: 2031-01-01 is weekday 2, April 1 weekday 1, April 18 weekday 4, February 10 weekday 0. -/
theorem test_weekdays : weekday 2031 1 1 = 2 ∧ weekday 2031 4 1 = 1 ∧ weekday 2031 4 18 = 4 ∧
    weekday 2031 2 10 = 0 := by decide +kernel

/-- 03, section 3.10: the tables of the example. -/
def exampleSet : TariffSet :=
  { TariffSet.neverLoaded with
    seasons := [{ month := 4, day := 1 }, { month := 10, day := 1 }]
    weekdays := #v[0, 0, 0, 0, 0, 1, 2]
    holidays := [{ month := 12, day := 25, year := none }, { month := 4, day := 18, year := some 2031 }]
    profileMap := #v[0, 1, 2, 2, 3, 2, 2, 2, 0, 0, 0, 0, 0, 0, 0, 0]
    profiles := #v[[{ minute := 0, ratePeriod := 2 }, { minute := 420, ratePeriod := 0 },
        { minute := 1140, ratePeriod := 1 }, { minute := 1380, ratePeriod := 2 }],
      [{ minute := 480, ratePeriod := 1 }, { minute := 1200, ratePeriod := 2 }], [{ minute := 0, ratePeriod := 2 }],
      [{ minute := 360, ratePeriod := 0 }, { minute := 1320, ratePeriod := 2 }], [], [], [], []] }

/-- 03, section 3.10: the rate period at six of its instants. -/
theorem test_rate_periods :
    ratePeriodAt exampleSet noon = 2 ∧ ratePeriodAt exampleSet { noon with day := 19 } = 1 ∧
    ratePeriodAt exampleSet { noon with day := 19, hour := 6, minute := 0 } = 2 ∧
    ratePeriodAt exampleSet { year := 2031, month := 2, day := 10, hour := 3, minute := 0 } = 2 ∧
    ratePeriodAt exampleSet { year := 2031, month := 2, day := 10, hour := 6, minute := 0 } = 0 ∧
    ratePeriodAt exampleSet { year := 2031, month := 12, day := 25, hour := 12, minute := 0 } = 2 := by
  decide +kernel

/-- 05, section 5.7: sub-interval B adds 17,000 varh and C adds 2,000; the ratio of the totals is 407 under ADD
and 381 without an option. -/
theorem test_excess_and_ratio :
    subIntervalExcess (some { threshold := 400, leading := true, subinterval := true })
      { ai := 420000, ae := 0, rl := 160000, rc := 25000 } = 17000 ∧
    subIntervalExcess (some { threshold := 400, leading := true, subinterval := true })
      { ai := 30001, ae := 0, rl := 5000, rc := 9000 } = 2000 ∧
    reactiveRatio (some { threshold := 400, leading := true, subinterval := true })
      { ai := 1640001, ae := 0, rl := 625000, rc := 44000 } = 407 ∧
    reactiveRatio none { ai := 1640001, ae := 0, rl := 625000, rc := 44000 } = 381 := by decide

/-- 07, section 7.6: U1 = 500,652,718 with c = −23 is billed 500,652,700 with c′ = −5. -/
theorem test_tou_rounding :
    chargeLine 500652718700 (-23) =
      { unrounded := 500652718, carriedIn := -23, billed := 500652700, carriedOut := -5 } := by decide

/-- 02, section 2.9: the frame at 08:02, its repetition, and the gap at 08:04 across the register's wrap. -/
theorem test_readings_of_the_worked_sequence :
    let p : Point := { freshPoint record 0 with
      baselines := some { ai := 4294900000, ae := 12000, rl := 310000, rc := 8000 }
      lastSeq := some 40
      sub := some blank }
    let f (n : Byte) (ai rl : BitVec 32) : ReadingData :=
      { sequence := n, feRestart := false, registers := { ai := ai, ae := 12000, rl := rl, rc := 8000 } }
    let q := (p.takeReading (f 41 4294950000 330000)).1
    let r := (q.takeReading (f 43 32704 351000)).1
    q.sub.map (·.energy.ai) = some 50000 ∧ (q.takeReading (f 41 4294950000 330000)).2 = .duplicate ∧
    r.sub.map (·.energy) = some { ai := 100000, ae := 0, rl := 41000, rc := 0 } ∧
    r.sub.map (·.quality) = some 1 ∧ r.life.lost = 1 ∧ r.totals.ai = 100000 := by decide +kernel

/-- 04, section 4.9, at 10:30: the ring 255; 262.5; 250 gives 3,070,000 W in rate period 0, which raises maxAll
from 2,970,000 and WARN against a contract of 3,500,000 at 85 percent. -/
theorem test_boundary_of_the_worked_sequence :
    let e (ai : Nat) : RingEntry := { ai := ai, quality := 0, ratePeriod := 0 }
    let p : Point := { freshPoint { record with contract := 3500000, warnPercent := 85 } 0 with
      sub := some { blank with energy := { ai := 255000, ae := 0, rl := 0, rc := 0 }, accepted := true }
      ring := [e 262500, e 250000, e 230000]
      maxAll := { value := 2970000, stamp := some noon } }
    let q := p.boundary none running noon
    q.maxAll.value = 3070000 ∧ q.ring.map (·.ai) = [255000, 262500, 250000] ∧
    hasFlag q.status StatusFlag.warn.place = true ∧ hasFlag q.status StatusFlag.exceed.place = false := by
  decide +kernel

/-- 12, R186: the ring and last sequence of a point go at a warm start, and its sub-interval's Ai is attributed. -/
theorem test_warm_start_cuts :
    let p : Point := { freshPoint record 0 with
      lastSeq := some 9
      sub := some { blank with energy := { ai := 71250, ae := 0, rl := 0, rc := 0 } } }
    ((withPoint metering p).warmStart.points[31].map (fun q => (q.attributed, q.ring, q.lastSeq, q.counters.outages)))
      = some (71250, [], none, 1) := by decide +kernel

/-- 12, R183: VDD falls during a warm start that has restarted point 31 and no clock: the outage is counted, the
hold counter is not loaded, and the mark stands for the next power-up. -/
theorem test_broken_warm_start :
    (match exec (.powerUp (some { points := 0x80000000, clocks := 0, readout := false, closes := 0 }))
        { measuring with supply := { measuring.supply with vdd := false } } with
     | .next t => (t.points[31].map (·.counters.outages), t.clocks[0].hold, t.supply.vdd, t.supply.retention)
     | _ => (none, 99, true, false)) = (some 1, 0, false, true) := by decide +kernel

/-- 11, R164: an ASSIGN STATION addressed 0xFF gives an unassigned part its station. -/
theorem test_assign_station :
    (match exec (.assignStation { address := 0xFF, tag := 1, args := [7] }) State.reset with
     | .next t => t.decoder.station
     | _ => none) = some 7 := by decide +kernel

/-- 10, R167: a fifth frame overruns the pass-through buffer. -/
theorem test_forward_overrun :
    (((sending { part with port := { part.port with buffer := [aReply, aReply, aReply, aReply] } } queued).offer
      aReply).port.counters.forwardOverruns) = 1 := by decide +kernel

/-- The state after reset is a safe one in the parts a small evaluation can read. -/
theorem test_reset_within : State.reset.PortWithin ∧ State.reset.TimeConsistent ∧ State.reset.LockExcludesMark := by
  decide +kernel

/-! ## Witnesses

For each statement with hypotheses, a state and operands that meet the hypotheses of each of its clauses
together. A statement whose clauses share their first hypotheses has them in each line. -/

/-- A live part with a full insert queue. -/
def full : State :=
  { part with port := { part.port with queue := List.replicate 8 queued, transmitter := .sending queued } }

/-- A live part with one free place in the insert queue. -/
def nearlyFull : State :=
  { part with port := { part.port with queue := List.replicate 7 queued, transmitter := .sending queued } }

/-- A part that RESETN holds. -/
def held : State := { part with supply := { part.supply with resetnLow := true } }

/-- A part without its supply. -/
def dark : State := { part with supply := { part.supply with vdd := false } }

/-- A part with the clearable lock set, and one with the commissioning lock set. -/
def locked (s : State) (clearable commissioning : Bool) : State :=
  { s with decoder := { s.decoder with clearable := clearable, commissioning := commissioning } }

theorem witness_StepRunsFrontCommand :
    ({ part with pending := [.powerUp none, .resetn none] } : State).pending = .powerUp none :: [.resetn none] := rfl

theorem witness_EmptyQueueTakesOneOctet :
    (part.pending = [] ∧ part.lineIn = []) ∧
    (({ held with lineIn := [0xC5] } : State).pending = [] ∧ ¬ Live { held with lineIn := [0xC5] }) ∧
    (({ part with lineIn := [0xC5] } : State).pending = [] ∧ Live { part with lineIn := [0xC5] } ∧
      part.port.framer.step 0xC5 = (.header [], none)) ∧
    (({ part with lineIn := [1] } : State).pending = [] ∧ Live { part with lineIn := [1] } ∧
      part.port.framer.step 1 = (.hunt, some (.stray 1))) := by decide +kernel

theorem witness_FrameCommandsReadBack :
    ((Instr.passThroughFrame aReply).wf = true ∧ (Instr.passThroughFrame aReply).frame? = some aReply ∧
      aReply.kind ≠ 0x20 ∧ aReply.kind ≠ 0x30) ∧
    ((Instr.setPoint (req (List.replicate 16 0))).wf = true ∧
      (Instr.setPoint (req (List.replicate 16 0))).frame? ≠ none) := by decide +kernel

theorem witness_FramerReadsBackEveryFrame :
    ({ kind := 0x30, address := 0, payload := List.replicate 250 0 } : Frame).lengthOk = true ∧
    ({ kind := 0x55, address := 0, payload := [] } : Frame).lengthOk = true := by decide +kernel

theorem witness_FramerChecksCrcThenLength :
    ({ kind := 0, address := 0, payload := List.replicate 250 0 } : Frame).payload.length ≤ 250 ∧
    250 < (251 : Byte).toNat ∧ (0xC4 : Byte) ≠ 0xC5 := by decide +kernel

theorem witness_DiscardsAndStraysCounted :
    Live part ∧ part.port.framer.feed [0xC5, 0x10] = some (.header [0x10]) ∧
    part.port.framer = .hunt ∧ (0xC4 : Byte) ≠ 0xC5 ∧ (0xC4 : Byte) ≠ 0 := by decide +kernel

theorem witness_FramesForOthersPassUnchanged :
    (Live part ∧ aReply.lengthOk = true ∧ aReply.kind ≠ 0x10 ∧ aReply.kind ≠ 0x20 ∧ aReply.kind ≠ 0x30) ∧
    ((List.replicate 20 (0 : Byte)).length = 20 ∧ ∀ n ∈ part.decoder.station, (32 : Byte).toNat / 32 ≠ n.val) ∧
    ((req []).args.length ≤ 248 ∧ ¬ AddressedTo part 1 ∧
      ¬ (RequestKind.assignStation = .assignStation ∧ (1 : Byte) = 0xFF ∧ part.decoder.station = none)) ∧
    (([7, 0xFF] : List Byte).length ≤ 250 ∧ unknownPayload [7, 0xFF] = true ∧ ¬ AddressedTo part 1) := by decide +kernel

theorem witness_OfferJoinsOrCountsOverrun :
    ((sending part queued).port.buffer.length < 4 ∧ (sending part queued).port.transmitter = .sending queued) ∧
    (Live part ∧ part.port.buffer = [] ∧ part.port.queue = [] ∧ part.port.transmitter = .free) ∧
    4 ≤ (List.replicate 4 aReply).length := by decide +kernel

/-- The transmitter sending, with a frame in the buffer and one in the queue. -/
def both (streak : Nat) : State :=
  { part with port := { part.port with
    buffer := [aReply], queue := [queued], transmitter := .sending queued, streak := streak } }

theorem witness_FrameSentChoosesNextFrame :
    (Live (sending part queued) ∧ queued.restartReply = false ∧ (sending part queued).port.buffer = [] ∧
      (sending part queued).port.queue = []) ∧
    (Live (both 3) ∧ (both 3).port.transmitter = .sending queued ∧ (both 3).port.buffer = aReply :: [] ∧
      ((both 3).port.queue = [] ∨ (both 3).port.streak < 4)) ∧
    (Live (both 4) ∧ (both 4).port.queue = queued :: [] ∧ ((both 4).port.buffer = [] ∨ 4 ≤ (both 4).port.streak) ∧
      (both 4).readout.phase = .idle) := by decide +kernel

/-- The part with one stored record, its transmitter sending and a number of frames in its insert queue. -/
def inserting (n : Nat) : State :=
  { stored with port := { stored.port with queue := List.replicate n queued, transmitter := .sending queued } }

/-- A departure with a waiting step that finds 3 places or does not, and with a READOUT END that found the queue
full or did not. -/
theorem witness_DepartureTakesWaitingStep :
    Live (inserting 6) ∧ (inserting 6).port.transmitter = .sending queued ∧ (inserting 6).port.buffer = [] ∧
    ((inserting 6).port.queue = queued :: List.replicate 5 queued ∧ (List.replicate 5 queued).length ≤ 5 ∧
      ({ aRun with waiting := true } : Run).waiting = true) ∧
    ((inserting 7).port.queue = queued :: List.replicate 6 queued ∧ 6 ≤ (List.replicate 6 queued).length) ∧
    ((inserting 8).port.queue = queued :: List.replicate 7 queued ∧ (List.replicate 7 queued).length = 7) ∧
    (reading (inserting 6) (.emit job { aRun with waiting := true })).readout.phase =
      .emit job { aRun with waiting := true } := by decide +kernel

theorem witness_ReplyQueuedWithItsEnvelope :
    (part.decoder.station = some 0 ∧ (0 : Byte) = oct (0 : Fin 8).val) ∧
    (sending part queued).port.transmitter = .sending queued ∧
    (Live part ∧ part.port.transmitter = .free ∧ part.port.buffer = [] ∧ part.port.queue = [] ∧
      part.readout.phase = .idle) ∧
    (Live (reading stored (.emit job { aRun with waiting := true })) ∧
      (reading stored (.emit job { aRun with waiting := true })).readout.phase = .emit job { aRun with waiting := true } ∧
      stored.port.transmitter = .free ∧ stored.port.buffer = [] ∧ stored.port.queue = []) := by decide +kernel

theorem witness_FullQueueDropsRequest :
    Live full ∧ full.port.queue.length = 8 ∧ (req []).args.length ≤ 248 ∧ AddressedTo full 0 ∧
    unknownPayload [7] = true ∧
    (Live { full with decoder := Decoder.cold } ∧ ({ full with decoder := Decoder.cold } : State).port.queue.length = 8 ∧
      ({ full with decoder := Decoder.cold } : State).decoder.station = none) := by decide +kernel

theorem witness_UnknownRequestAnswered :
    (Live nearlyFull ∧ AddressedTo nearlyFull 0 ∧ nearlyFull.port.queue.length < 8) ∧
    ([7] : List Byte).length < 2 ∧ RequestKind.ofCode 0xFF = none := by decide +kernel

theorem witness_HeldPartTakesNothing :
    ¬ Live held ∧ ¬ Live dark ∧ (Instr.mark [] 0 []).frame? ≠ none := by decide +kernel

/-- A live part is ready for a request, up to seven frames in its queue. -/
theorem witness_Ready : Ready part (req []) ∧ Ready nearlyFull (req []) ∧ Ready measuring (req []) ∧
    Ready closing (req []) := by decide +kernel

theorem witness_WrongLengthOrRangeAnswered :
    (RequestKind.setPoint.argLength = some 16 ∧ ([1] : List Byte).length ≠ 16) ∧ checkForm [0] = .length ∧
    checkForm [9, 0] = .range ∧
    (checkForm [1, 0, 3, 0, 0, 0, 0, 0, 0] = .form .weekdays 0 [3, 0, 0, 0, 0, 0, 0] ∧
      parseContents .weekdays 0 [3, 0, 0, 0, 0, 0, 0] = none) ∧
    3 < (4 : Byte).toNat ∧ 31 < (32 : Byte).toNat ∧
    validTiming 7 1 = false ∧ 15 < (16 : Byte).toNat ∧ 7 < (8 : Byte).toNat := by decide +kernel

/-- Records at the ends of their ranges, and one octet past them. -/
theorem witness_RecordRanges :
    RecordInRange [3, 7, 3, 0, 0, 0, 0, 50, 1, 0, 0, 0, 1, 63, 1] ∧
    RecordInRange [255, 0, 255, 255, 255, 255, 255, 99, 15, 255, 255, 255, 255, 0, 0] ∧
    ¬ RecordInRange [4, 7, 3, 0, 0, 0, 0, 50, 1, 0, 0, 0, 1, 63, 1] ∧
    ¬ RecordInRange [3, 7, 3, 0, 0, 0, 0, 49, 1, 0, 0, 0, 1, 63, 1] ∧
    ¬ RecordInRange [3, 7, 3, 0, 0, 0, 0, 50, 16, 0, 0, 0, 1, 63, 1] ∧
    ¬ RecordInRange [3, 7, 3, 0, 0, 0, 0, 50, 1, 0, 0, 0, 0, 63, 1] := by
  refine ⟨?_, ?_, ?_, ?_, ?_, ?_⟩ <;> (unfold RecordInRange; decide +kernel)

/-- LOAD TABLE's form check: no selector, an index and an entry count past the largest, lengths that are not called
for, and a form that is right. -/
theorem witness_TableForms :
    tableForm (8 : Byte).toNat = none ∧
    (tableForm (7 : Byte).toNat = some (4, none, 3) ∧ 4 ≤ (4 : Byte).toNat ∧ (3 : Byte).toNat < 4 ∧
      ([0, 0] : List Byte).length ≠ 3) ∧
    (tableForm (0 : Byte).toNat = some (1, some 4, 2) ∧ 1 ≤ (1 : Byte).toNat ∧ 4 < (5 : Byte).toNat ∧
      (4 : Byte).toNat ≤ 4 ∧ ([1, 1] : List Byte).length ≠ (4 : Byte).toNat * 2) ∧
    FormRight 1 0 [3, 0, 0, 0, 0, 0, 0] ∧ FormRight 0 0 [1, 2, 29] :=
  ⟨by decide, by decide, by decide, .inl ⟨1, 7, by decide⟩, .inr ⟨1, 4, 2, 1, [2, 29], by decide⟩⟩

/-- Octets of a right form that carry no valid table, a weekday type being 3, and octets that carry one. -/
theorem witness_TableContents :
    (∀ table : Table, ¬ Carries [1, 0, 3, 0, 0, 0, 0, 0, 0] table) ∧
    Carries [0, 0, 1, 2, 29] (.seasons [{ month := 2, day := 29 }]) ∧
    Carries [5, 0, 0, 0, 0] (.closeInstant none) := by
  refine ⟨?_, ⟨(by decide : SeasonsInRange _), 0, 0, rfl, rfl⟩, (fun x h => nomatch h), 5, 0, rfl, rfl⟩
  rintro table ⟨-, sel, index, hp, ha⟩
  injection ha with h1 ha
  injection ha with h2 ha
  subst h1 h2
  cases table with
  | weekdays v =>
    injection ha with h3 _
    have h4 : (3 : Byte).toNat = (oct v[0].val).toNat := congrArg _ h3
    have h5 := v[0].isLt
    simp [oct] at h4
    omega
  | _ => simp [tablePlace] at hp

theorem witness_LocksRefuseRequests :
    (Ready (locked part true false) (req (oct (31 : Fin 32).val :: record.octets)) ∧
      ¬ Unlocked (locked part true false) ∧ record.InRange) ∧
    (validTiming 60 1 = true ∧ Ready (locked part true false) (req [3, 1, 60, 1, 15])) ∧
    Ready (locked part true false) (req [5, 0, 0, 0, 0]) ∧
    (Ready (locked part false true) (req [31]) ∧ (locked part false true).decoder.commissioning = true) := by
  decide +kernel

theorem witness_BusyRefusesRequests :
    (Ready closing (req (31 :: record.octets)) ∧ Unlocked closing ∧
      ∃ p : Point, closing.points[(31 : Fin 32)] = some p ∧ closing.close.inFlight = some p.period) ∧
    (Ready measuring (req [0, 1, 5, 2, 3]) ∧ validTiming 5 2 = true ∧ measuring.clocks[(0 : Fin 4)].enabled = true ∧
      2 ≠ measuring.clocks[(0 : Fin 4)].window) ∧
    closing.close.inFlight ≠ none ∧
    ((reading part (.search job)).readout.phase ≠ .idle ∧
      [255, 255, 255, 255, 0, 0, 2, 0] = beBytes 4 (0xFFFFFFFF : BitVec 32).toNat ++ beBytes 2 (0 : BitVec 16).toNat ++
        [oct 2, oct 0]) ∧
    (({ part with tariff := { part.tariff with atClose := true } } : State).tariff.atClose = true ∧
      Ready { part with tariff := { part.tariff with atClose := true } } (req [1])) :=
  ⟨⟨by decide +kernel, by decide +kernel, _, rfl, rfl⟩, by decide +kernel, by decide +kernel, by decide +kernel,
    by decide +kernel⟩

theorem witness_IdentAckAndStationAnswered :
    Ready part (req []) ∧ (Live State.reset ∧ State.reset.port.queue.length < 8 ∧ State.reset.decoder.station = none) ∧
    (7 : Byte) = oct (7 : Fin 8).val ∧ 7 < (8 : Byte).toNat ∧ AddressedTo part 0 := by decide +kernel

theorem witness_RestartWaitsForItsReply :
    Ready part (req []) ∧
    (sending part { queued with restartReply := true }).port.transmitter = .sending { queued with restartReply := true } :=
  ⟨by decide +kernel, rfl⟩

theorem witness_SetPointConfiguresUnused :
    (Ready metering (req (31 :: record.octets)) ∧ Unlocked metering ∧ record.InRange ∧
      metering.points[(31 : Fin 32)] = none ∧ metering.close.inFlight = none) ∧
    ({ record with clock := none } : PointConfig).InRange ∧
    (part.clocks[(0 : Fin 4)].enabled = false ∧ metering.clocks[(0 : Fin 4)].enabled = true ∧
      metering.time.calendar = some noon) ∧
    ({ metering with time := TimeBase.cold } : State).time.calendar = none ∧
    ({ metering with close := closing.close } : State).close.inFlight = some 0 := by decide +kernel

theorem witness_SetPointReplacesRecord :
    (Ready measuring (req (31 :: record.octets)) ∧ Unlocked measuring ∧ record.InRange ∧
      ∃ p : Point, measuring.points[(31 : Fin 32)] = some p ∧ measuring.close.inFlight ≠ some p.period ∧
        p.missingCount < record.lossLimit ∧ record.clock = p.config.clock) ∧
    ({ record with clock := some 3 } : PointConfig).clock ≠ record.clock ∧
    ({ record with clock := some 0, lossLimit := 1 } : PointConfig).lossLimit ≤
      ({ freshPoint record 0 with missingCount := 1 } : Point).missingCount :=
  ⟨⟨by decide +kernel, by decide +kernel, by decide +kernel, _, rfl, by decide +kernel, by decide +kernel, rfl⟩,
    by decide +kernel, by decide +kernel⟩

/-- The part with a point on no clock. -/
def unclocked : State := withPoint metering (freshPoint { record with clock := none } 0)

/-- A changed clock: to an enabled one from none, to a disabled one, to none. -/
theorem witness_SetPointChangesClock :
    (Ready unclocked (req (31 :: record.octets)) ∧ Unlocked unclocked ∧ unclocked.close.inFlight = none ∧
      ∃ p : Point, unclocked.points[(31 : Fin 32)] = some p ∧ record.clock ≠ p.config.clock ∧ p.sub = none) ∧
    (record.clock = some 0 ∧ unclocked.clocks[(0 : Fin 4)].enabled = true ∧ unclocked.time.calendar = some noon) ∧
    (({ record with clock := some 3 } : PointConfig).InRange ∧ measuring.clocks[(3 : Fin 4)].enabled = false) ∧
    ({ record with clock := none } : PointConfig).InRange ∧
    (record.lossLimit ≤ ({ freshPoint record 0 with missingCount := 2 } : Point).missingCount ∧
      (freshPoint record 0).status.getLsbD 0 = false ∧ record.attentionMask.getLsbD 0 = true) :=
  ⟨⟨by decide +kernel, by decide +kernel, rfl, _, rfl, by decide +kernel, rfl⟩, by decide +kernel, by decide +kernel,
    by decide +kernel, by decide +kernel⟩

theorem witness_RemovePointForgetsPoint :
    (Ready measuring (req [31]) ∧ Unlocked measuring ∧
      ∃ p : Point, measuring.points[(31 : Fin 32)] = some p ∧ measuring.close.inFlight ≠ some p.period) ∧
    (measuring.points[(30 : Fin 32)] = none ∧ Ready measuring (req [30, 3]) ∧ (3 : Byte).toNat < 4) :=
  ⟨⟨by decide +kernel, by decide +kernel, _, rfl, by decide +kernel⟩, by decide +kernel⟩

theorem witness_HoldAndReleaseSetOperator :
    Ready measuring (req [31]) ∧ measuring.decoder.commissioning = false ∧
    (∃ p : Point, measuring.points[(31 : Fin 32)] = some p ∧ p.operator = false) ∧
    ∃ p : Point, (withPoint metering { freshPoint record 0 with operator := true }).points[(31 : Fin 32)] = some p ∧
      p.operator = true :=
  ⟨by decide +kernel, by decide +kernel, ⟨_, rfl, rfl⟩, ⟨_, rfl, rfl⟩⟩

theorem witness_SetClockWritesAndEnables :
    (Ready part (req [0, 0, 60, 1, 15]) ∧ Unlocked part ∧ validTiming 60 1 = true ∧ 15 ≤ 15 ∧
      part.clocks[(0 : Fin 4)].enabled = false) ∧
    (Ready measuring (req [0, 1, 5, 3, 0]) ∧ validTiming 5 3 = true ∧ measuring.clocks[(0 : Fin 4)].enabled = true ∧
      5 = measuring.clocks[(0 : Fin 4)].length ∧ 3 = measuring.clocks[(0 : Fin 4)].window) := by decide +kernel

theorem witness_DisableClockCutsItsPoints :
    (Ready closing (req [0, 0, 5, 3, 15]) ∧ Unlocked closing ∧ closing.clocks[(0 : Fin 4)].enabled = true ∧
      validTiming closing.clocks[(0 : Fin 4)].length closing.clocks[(0 : Fin 4)].window = true) ∧
    (closing.close.inFlight = some 0 ∧ hasFlag closing.close.pendingSet (0 : Fin 4).val = true) ∧
    measuring.close.inFlight = none ∧
    (∀ j : Fin 4, j ≠ 0 → hasFlag closing.close.pendingSet j.val = false) ∧
    (∃ j : Fin 4, j ≠ 0 ∧ hasFlag ({ closing.close with pendingSet := 3 } : CloseUnit).pendingSet j.val = true) ∧
    pointsIn closing 0 0 = [31] := by decide +kernel

theorem witness_LoadTableWritesAndReadTableAnswers :
    (Ready part (req [5, 0, 0, 0, 0]) ∧ Selector.ofOctet 5 = some .closeInstant ∧ Unlocked part ∧
      checkForm [5, 0, 0, 0, 0] = .form .closeInstant 0 [0, 0, 0] ∧ parseContents .closeInstant 0 [0, 0, 0] ≠ none) ∧
    (Selector.closeInstant.indexes ≤ (1 : Byte).toNat ∨ 1 < (0 : Byte).toNat) ∧
    (0 : Byte).toNat < Selector.closeInstant.indexes ∧
    (Ready part (req [8, 0, 0]) ∧ 7 < (8 : Byte).toNat) := by decide +kernel

/-- A table to load, the last of its kind; a table to read from each set; an index and a copy past their ranges. -/
theorem witness_TablesByOctets :
    (Ready part (req [7, 3, 7, 208, 3]) ∧
      TableInRange (.option 3 { threshold := 2000, leading := true, subinterval := true }) ∧
      tablePlace (.option 3 { threshold := 2000, leading := true, subinterval := true }) =
        ((7 : Byte).toNat, (3 : Byte).toNat) ∧
      [7, 3, 7, 208, 3] = (7 : Byte) :: 3 :: tableOctets (.option 3 { threshold := 2000, leading := true,
                                                                      subinterval := true })) ∧
    (HasTable part.tariff.pending (.closeInstant none) ∧ HasTable part.tariff.active (.seasons [])) ∧
    (tableForm (7 : Byte).toNat = some (4, none, 3) ∧ 4 ≤ (4 : Byte).toNat ∧ 1 < (2 : Byte).toNat) :=
  ⟨⟨by decide +kernel, (by decide : (2000 : Nat) ≤ 2000), rfl, by decide⟩, ⟨rfl, rfl⟩, by decide⟩

theorem witness_ReadTableReturnsWhatWasLoaded :
    checkForm (7 :: 3 :: [0x01, 0x90, 3]) = .form .option 3 [0x01, 0x90, 3] ∧
    parseContents .option 3 [0x01, 0x90, 3] ≠ none := by decide +kernel

theorem witness_ActivateMovesTariffSets :
    Ready part (req [0]) ∧ Ready part (req [1]) ∧ Ready part (req [2]) ∧ Unlocked part ∧
    part.close.inFlight = none := by decide +kernel

theorem witness_LockAndUnlockAnswered :
    Ready part (req [0]) ∧ Ready part (req [1]) ∧ Ready part (req []) ∧ part.tariff.atClose = false ∧
    part.decoder.commissioning = false := by decide +kernel

theorem witness_ClosePeriodStartsClose :
    (Ready measuring (req []) ∧ measuring.close.inFlight = none ∧ measuring.time.calendar ≠ none ∧
      Qualifies measuring 0) ∧
    (Ready part (req []) ∧ part.time.calendar = none) ∧
    (∃ p : Point, measuring.points[(31 : Fin 32)] = some p ∧ p.sub ≠ none ∧ p.config.clock = some 0) ∧
    (∃ p : Point, (withPoint metering (freshPoint record 0)).points[(31 : Fin 32)] = some p ∧ p.sub = none) ∧
    measuring.points[(30 : Fin 32)] = none :=
  ⟨⟨by decide +kernel, rfl, by decide +kernel, by decide +kernel, 31, _, rfl, rfl⟩, by decide +kernel,
    ⟨_, rfl, by decide +kernel, rfl⟩, ⟨_, rfl, rfl⟩, by decide +kernel⟩

/-- With the time set and no clock enabled, no clock qualifies. -/
theorem witness_NoClockQualifies :
    ({ metering with clocks := part.clocks } : State).time.calendar = some noon ∧
    ∀ k : Fin 4, ¬ Qualifies { metering with clocks := part.clocks } k := by
  have off : ∀ k : Fin 4, ¬ part.clocks[k].enabled = true := by decide +kernel
  exact ⟨rfl, fun k h => off k h.1⟩

/-- A store that holds no record of the point and period, and one that does. -/
theorem witness_PointCloseSettlesPeriod :
    metering.history.valid = 0 ∧
    (stored.history.valid = 1 ∧ stored.history.keyAt (stored.history.slotBack 0) = some (31, 0)) ∧
    record.clock = some 0 ∧ ({ record with clock := none } : PointConfig).clock = none := by decide +kernel

theorem witness_ChargesFollowScheduleRates :
    Schedule.zero.ratchetMonths = 0 ∧ 0 < ({ Schedule.zero with ratchetMonths := 11 } : Schedule).ratchetMonths := by
  decide

theorem witness_RoundingCarriesResidue :
    ((-50 : Int) ≤ -50 ∧ (-50 : Int) ≤ 49) ∧
    ((chargeLine 0 (-50)).unrounded + (-50 : Int) < 0) ∧
    ((0 : Int) ≤ (chargeLine 0 49).unrounded + 49) ∧
    (999999999999 < (((chargeLine 999999999999999 49).unrounded : Int) + 49 + 50) / 100 * 100) ∧
    (chargeLine 0 49).unrounded = 0 := by decide

theorem witness_ReactiveExcessAndRatio :
    (let o : PenaltyOption := { threshold := 400, leading := true, subinterval := false }
     (420000 * o.threshold / 1000 < 160000 + 25000) ∧ (500000 * o.threshold / 1000 ≥ 190000)) := by decide

theorem witness_ReadoutTakenAndAborted :
    (Ready part (req ([255, 255, 255, 255, 0, 0, 12, 3])) ∧ part.readout.phase = .idle ∧
      [255, 255, 255, 255, 0, 0, 12, 3] = beBytes 4 (0xFFFFFFFF : BitVec 32).toNat ++ beBytes 2 (0 : BitVec 16).toNat ++
        [oct 12, oct 3]) ∧
    (Ready (reading part (.search job)) (req []) ∧ (reading part (.search job)).readout.phase = .search job) ∧
    (Ready (reading part (.report job .done)) (req []) ∧
      (reading part (.report job .done)).readout.phase = .report job .done) := by decide +kernel

theorem witness_ReadoutSearchFindsNewestRun :
    (Live (reading part (.search job)) ∧ (reading part (.search job)).readout.phase = .search job ∧
      part.history.valid = 0) ∧
    (Live (reading stored (.search job)) ∧ 0 + 1 ≤ stored.history.valid ∧
      slotPeriod stored.history (stored.history.slotBack 0) = some job.current ∧ 0 + 1 = stored.history.valid) := by
  decide +kernel

theorem witness_ReadoutEmitTakesItsStep :
    (Live (reading stored (.emit job aRun)) ∧ (reading stored (.emit job aRun)).readout.phase = .emit job aRun ∧
      aRun.waiting = false ∧ stored.history.sequence ≠ aRun.firstSeq ∧ stored.history.isValid 0 = true) ∧
    (job.mask.getLsbD (31 : Fin 32).val = true ∧ stored.port.queue.length ≤ 5 ∧ 6 ≤ nearlyFull.port.queue.length ∧
      ({ job with mask := 1 } : ReadoutJob).mask.getLsbD (31 : Fin 32).val = false) ∧
    part.history.isValid 0 = false ∧ part.history.sequence = aRun.firstSeq := by decide +kernel

/-- The record the emit step of the witness above finds is of the current period and of point 31. -/
theorem witness_ReadoutEmitRecord :
    stored.history.slots[(0 : Fin 384)].map (fun r => (r.sequence, r.period, r.point)) = some (0, 0, 31) := by
  decide +kernel

/-- A waiting step without and with its 3 places; a record to take, one of another period, a slot overtaken. -/
theorem witness_ReadoutEmitWaitsOrMeets :
    (Live (reading full (.emit job { aRun with waiting := true })) ∧ 6 ≤ full.port.queue.length) ∧
    (Live (reading stored (.emit job { aRun with waiting := true })) ∧ stored.port.queue.length ≤ 5) ∧
    (∃ r : BillingRecord, RecordAt stored job aRun r ∧ job.mask.getLsbD r.point.val = true ∧
      r.period ≠ ({ job with current := 1 } : ReadoutJob).current) ∧
    (stored.history.sequence ≠ ({ aRun with firstSlot := 5 } : Run).firstSeq + BitVec.ofNat 32 0 ∧
      stored.history.isValid (({ aRun with firstSlot := 5 } : Run).firstSlot + Fin.ofNat 384 0) = false) :=
  ⟨by decide +kernel, by decide +kernel,
    ⟨_, ⟨by decide +kernel, by decide +kernel, rfl, by decide +kernel, by decide +kernel⟩, by decide +kernel,
      by decide +kernel⟩,
    by decide +kernel⟩

theorem witness_ReadoutEndQueuesReport :
    (Live (reading part (.report job .done)) ∧ (reading part (.report job .done)).port.queue.length < 8) ∧
    (Live (reading full (.report job .done)) ∧ 8 ≤ (reading full (.report job .done)).port.queue.length) := by
  decide +kernel

theorem witness_QueryPointReportsThenClears :
    Ready measuring (req [31, oct ((if true then 1 else 0) + (if true then 2 else 0))]) ∧
    (∃ p : Point, measuring.points[(31 : Fin 32)] = some p ∧ p.ratchet.length = 12) :=
  ⟨by decide +kernel, _, rfl, rfl⟩

theorem witness_QueryDeviceReportsThenClears : Ready part (req [octBool true]) ∧ Ready part (req [octBool false]) := by
  decide +kernel

theorem witness_ClearAttentionClearsBits :
    Ready part (req (beBytes 4 (0xFFFFFFFF : BitVec 32).toNat ++ [oct 3] ++ beBytes 2 (0x7FF : BitVec 11).toNat)) ∧
    part.supply.vdd = true ∧ dark.supply.vdd = false := by
  decide +kernel

theorem witness_SupplyWarningEndsReadout :
    part.supply.vdd = true ∧ part.readout.phase = .idle ∧
    (reading part (.emit job aRun)).readout.phase = .emit job aRun := by decide +kernel

theorem witness_SupplyAndResetnMakeStarts :
    (part.supply.vdd = true ∧ part.supply.resetnLow = false) ∧ held.supply.resetnLow = true ∧
    (dark.supply.vdd = false ∧ dark.supply.retention = true) ∧
    (dark.coldDomain false false).supply.vdd = false ∧ (dark.coldDomain false false).supply.retention = false := by
  decide +kernel

theorem witness_WarmStartActsOnEveryOwner :
    measuring.close.inFlight = none ∧ (∃ p : Point, measuring.points[(31 : Fin 32)] = some p ∧ p.config.clock ≠ none) ∧
    (closing.close.inFlight = some 0 ∧ hasFlag closing.close.pendingSet (0 : Fin 4).val = true ∧
      ∃ p : Point, closing.points[(31 : Fin 32)] = some p ∧ p.config.clock = some 0 ∧ p.period = 0) ∧
    part.readout.phase = .idle ∧ (reading part (.search job)).readout.phase ≠ .idle :=
  ⟨rfl, ⟨_, rfl, by decide +kernel⟩, ⟨rfl, by decide +kernel, _, rfl, rfl, rfl⟩, rfl, by decide +kernel⟩

/-- A point on no clock and a point on a clock that is not pending, in a part with a close in flight; one on a pending
clock that is in the next period already. -/
theorem witness_WarmStartOtherPoints :
    (∃ p : Point, ({ unclocked with close := closing.close } : State).points[(31 : Fin 32)] = some p ∧
      p.config.clock = none) ∧
    hasFlag closing.close.pendingSet (1 : Fin 4).val = false ∧
    ∃ p : Point, (withPoint closing (freshPoint record 1)).points[(31 : Fin 32)] = some p ∧
      p.config.clock = some 0 ∧ p.period ≠ 0 :=
  ⟨⟨_, rfl, rfl⟩, by decide +kernel, ⟨_, rfl, rfl, by decide +kernel⟩⟩

/-- What can be broken off: a cold start, POWER_UP with the mark set, RESETN and RESTART_WARM_START. -/
theorem witness_BrokenStartsOfEveryKind :
    ((dark.coldDomain false false).supply.vdd = false ∧ (dark.coldDomain false false).supply.retention = false) ∧
    (dark.supply.vdd = false ∧ dark.supply.retention = true) ∧
    (part.supply.vdd = true ∧ part.supply.resetnLow = false) ∧
    (sending part { queued with restartReply := true }).port.transmitter =
      .sending { queued with restartReply := true } := by decide +kernel

/-- Some steps of a close's completion: the point of it alone, and its one clock with it. -/
theorem witness_BrokenCompletion :
    duePoints closing 0 = [31] ∧ pendingOf closing = [0] ∧
    ((pendingOf closing).take (1 - (duePoints closing 0).length) ≠ pendingOf closing) ∧
    ((pendingOf closing).take (2 - (duePoints closing 0).length) = pendingOf closing ∧ pendingOf closing ≠ []) := by
  decide +kernel

/-- A start broken off before every point is cut, and one broken off with the close made whole. -/
theorem witness_BrokenWarmStart :
    (dark.supply.vdd = false ∧ dark.supply.retention = true) ∧
    ({ points := 1, clocks := 3, readout := false, closes := 0 } : StartBreak).points ≠ BitVec.allOnes 32 ∧
    (({ points := 0xFFFFFFFF, clocks := 0, readout := true, closes := 2 } : StartBreak).points = BitVec.allOnes 32 ∧
      ({ closing with supply := dark.supply } : State).close.inFlight = some 0 ∧
      0 < (pendingOf { closing with supply := dark.supply }).length ∧
      ((pendingOf { closing with supply := dark.supply }).flatMap
        (fun k => pointsIn { closing with supply := dark.supply } k 0)).length +
        (pendingOf { closing with supply := dark.supply }).length ≤ 2) := by decide +kernel

theorem witness_MarkStatements :
    (Live part ∧ ([31, 4, 18, 10, 30, 0, 0, 0, 0] : List Byte).length = 9 ∧
      markTime [31, 4, 18, 10, 30, 0, 0, 0, 0] = noon ∧ noon.valid = true) ∧
    (Live metering ∧ metering.time.calendar = some (markTime [31, 4, 18, 10, 30, 0, 0, 0, 0]) ∧
      metering.time.state = .locked) ∧
    (markTime [31, 13, 18, 10, 30, 0, 0, 0, 0]).valid = false ∧
    (part.decoder.station = some 0 ∧ State.reset.decoder.station = none) := by decide +kernel

/-- A mark that sets the time, one at C+1, one that steps. -/
theorem witness_ValidMarkLocksTheTime :
    (Live part ∧ part.time.calendar = none) ∧
    (Live metering ∧ metering.time.calendar = some noon ∧ markTime [31, 4, 18, 10, 31, 0, 0, 0, 0] = noon.next ∧
      noon.next.valid = true) ∧
    (markTime [31, 4, 18, 10, 32, 0, 0, 0, 0] ≠ noon.next ∧ markTime [31, 4, 18, 10, 32, 0, 0, 0, 0] ≠ noon ∧
      (markTime [31, 4, 18, 10, 32, 0, 0, 0, 0]).valid = true) ∧
    (({ metering with time := { metering.time with state := .holdover, holdover := 1 } } : State).time.calendar =
        some noon ∧ TimeState.holdover ≠ .locked) ∧
    (([3, 1, 0, 2] : List (Fin 4)).Nodup ∧ ∀ k : Fin 4, k ∈ [3, 1, 0, 2]) := by decide +kernel

/-- The scheduled close is due at its minute, and is not where the active set has no close instant. -/
theorem witness_ScheduledClose :
    CloseDue { metering with tariff := { metering.tariff with
      active := { metering.tariff.active with closeInstant := some { day := 18, minute := 630 } } } } noon ∧
    ¬ CloseDue metering noon := by
  refine ⟨⟨_, rfl, by decide +kernel, by decide +kernel, rfl⟩, ?_⟩
  rintro ⟨c, h, -⟩
  exact nomatch (show (none : Option CloseInstant) = some c from h)

theorem witness_SelfAdvanceMovesOneMinute :
    Live metering ∧ metering.time.timer ≠ .stopped ∧ metering.time.calendar = some noon ∧
    metering.time.state = .locked ∧ min 65535 (metering.time.holdover + 1) < 60 ∧
    60 ≤ min 65535 (({ metering.time with holdover := 59, state := .holdover } : TimeBase).holdover + 1) := by
  decide +kernel

theorem witness_MinuteAdvanceIsOneMinute :
    ({ year := 2099, month := 12, day := 31, hour := 23, minute := 59 } : CalTime).valid = true ∧
    ({ year := 2032, month := 2, day := 29, hour := 23, minute := 59 } : CalTime).valid = true := by decide

/-- The tables of 03, section 3.10, with a holiday and a day that is none. -/
theorem witness_RatePeriodResolved :
    exampleSet.seasons.length ≤ 4 ∧
    exampleSet.seasons.Pairwise (fun a b => a.month < b.month ∨ (a.month = b.month ∧ a.day < b.day)) ∧
    (∀ n : Fin 8, exampleSet.profiles[n].Pairwise (fun a b => a.minute < b.minute)) ∧
    (∃ h ∈ exampleSet.holidays, h.month = noon.month ∧ h.day = noon.day ∧ ∀ y ∈ h.year, y = noon.year) ∧
    (∀ h ∈ exampleSet.holidays, ¬ (h.month = 4 ∧ h.day = 19 ∧ ∀ y ∈ h.year, y = 2031)) := by decide +kernel

theorem witness_ReadingTakenAtItsPoint :
    (Live measuring ∧ measuring.decoder.station = some 0 ∧ (31 : Byte).toNat = 32 * (0 : Fin 8).val + (31 : Fin 32).val ∧
      (List.replicate 20 (0 : Byte)).length = 20) ∧
    measuring.points[(30 : Fin 32)] = none ∧
    (∃ q : Point, measuring.points[(31 : Fin 32)] = some q ∧ q.config.forward = true) ∧
    ({ record with forward := false } : PointConfig).forward = false :=
  ⟨by decide +kernel, by decide +kernel, ⟨_, rfl, rfl⟩, rfl⟩

theorem witness_ReadingDispositionsAtPoint :
    ((200 - 200 : Byte).toNat = 0 ∧ 128 ≤ (72 - 200 : Byte).toNat ∧ (201 - 200 : Byte).toNat = 1 ∧
      2 ≤ (202 - 200 : Byte).toNat ∧ (71 - 200 : Byte).toNat ≤ 127) ∧
    ((freshPoint record 0).lastSeq = none ∧ (freshPoint record 0).baselines = none) ∧
    (record.lossLimit ≤ ({ freshPoint record 0 with missingCount := 2 } : Point).missingCount ∧
      (freshPoint record 0).missingCount < record.lossLimit) ∧
    implausible 200000 { ai := 200001, ae := 0, rl := 0, rc := 0 } = true ∧
    implausible 200000 { ai := 200000, ae := 0, rl := 0, rc := 0 } = false := by decide +kernel

/-- A frame across the longest gap that is accepted. -/
theorem witness_GapAccepted :
    let b : Registers := { ai := 0, ae := 0, rl := 0, rc := 0 }
    let p : Point := { freshPoint record 0 with lastSeq := some 200, baselines := some b, sub := some blank }
    (71 - 200 : Byte).toNat = 127 ∧ p.baselines.isSome = true ∧ p.missingCount < p.config.lossLimit ∧
    implausible p.config.plausibility (increments { b with ai := 1000 } b) = false := by decide +kernel

theorem witness_BoundaryClosesAndEvaluates :
    ({ freshPoint record 0 with sub := some blank } : Point).sub = some blank ∧ 0 < running.window := by decide

/-- A boundary whose window is eligible, one whose window is full and is not, one that is not full. -/
theorem witness_BoundaryWindows :
    let e : RingEntry := { ai := 1000, quality := 0, ratePeriod := 0 }
    let q (b : SubInterval) (ring : List RingEntry) : Point :=
      ({ freshPoint record 0 with sub := some b, ring := ring } : Point).boundary none running noon
    (Eligible running (q { blank with accepted := true } [e, e]) ∧
      (q { blank with accepted := true } [e, e]).ring ≠ []) ∧
    ((q blank [e, e]).ring.length = running.window ∧ ¬ Eligible running (q blank [e, e])) ∧
    (q blank []).ring.length ≠ running.window := by decide +kernel

/-- A clock's boundary with no close in flight and with the clock pending, at a point of it in the closing period. -/
theorem witness_ClockBoundary :
    measuring.close.inFlight = none ∧
    (closing.close.inFlight = some 0 ∧ hasFlag closing.close.pendingSet (0 : Fin 4).val = true ∧
      ∃ p : Point, closing.points[(31 : Fin 32)] = some p ∧ p.config.clock = some 0 ∧ p.period = 0) ∧
    (∃ p : Point, unclocked.points[(31 : Fin 32)] = some p ∧ p.config.clock ≠ some 0) ∧
    measuring.points[(30 : Fin 32)] = none :=
  ⟨rfl, ⟨rfl, by decide +kernel, _, rfl, rfl, rfl⟩, ⟨_, rfl, by decide +kernel⟩, by decide +kernel⟩

set_option synthInstance.maxSize 1000 in
set_option synthInstance.maxHeartbeats 400000 in
/-- The state after reset meets the premise of each invariant. -/
theorem witness_InvariantPremises :
    State.reset.PortWithin ∧ State.reset.TimeConsistent ∧ State.reset.ClocksValid ∧ State.reset.PointsInRange ∧
    State.reset.GapsAccepted ∧ State.reset.LockExcludesMark ∧ State.reset.supply.vdd = true :=
  ⟨by decide +kernel, by decide +kernel, by decide +kernel, by decide +kernel, by decide +kernel, by decide +kernel, rfl⟩

set_option synthInstance.maxSize 1000 in
set_option synthInstance.maxHeartbeats 400000 in
/-- So does a part with a measuring point, which one boundary later has stepped. -/
theorem witness_InvariantPremisesMeasuring :
    measuring.PortWithin ∧ measuring.TimeConsistent ∧ measuring.ClocksValid ∧ measuring.PointsInRange ∧
    measuring.GapsAccepted ∧ measuring.HoldsDerived ∧ measuring.SubIntervalsDerived ∧ measuring.PeriodsConsistent ∧
    measuring.SharesWithinPeak :=
  ⟨by decide +kernel, by decide +kernel, by decide +kernel, by decide +kernel, by decide +kernel, by decide +kernel,
    by decide +kernel, by decide +kernel, by decide +kernel⟩

/-- The tariff sets' premise: the never-loaded sets meet it, and so do the tables of 03, section 3.10. -/
theorem witness_TariffInRange : TariffSet.neverLoaded.InRange ∧ exampleSet.InRange := by
  refine ⟨⟨?_, ?_, ?_, ?_, ?_, ?_⟩, ⟨?_, ?_, ?_, ?_, ?_, ?_⟩⟩ <;> decide +kernel

/-- The history's premise, in a store that holds one record. -/
theorem witness_HistoryOrdered : stored.history.valid = 1 ∧ stored.history.Ordered := by
  have hv : stored.history.valid = 1 := by decide +kernel
  refine ⟨hv, by omega, fun j hj => ?_, fun j k h1 h2 => ?_⟩
  · obtain rfl : j = 0 := Fin.ext (by simp; omega)
    decide +kernel
  · omega

/-- The commissioning lock's premise. -/
theorem witness_CommissioningLock :
    (locked measuring false true).LockExcludesMark ∧ (locked measuring false true).decoder.commissioning = true := by
  decide +kernel

end Sys2Proof.Tests
end

section
/-! PROOF. The ranges of a point context and the rule of gaps and baselines as laws of single points, kept by every
change a part makes to a point; and by `step_allPoints` by every step (R1, R5, R7 to R9, R24, R26, R32, R67, R71, R102,
R123). -/

namespace Sys2Proof.Machine

/-! ## Sums that are held -/

theorem satAdd_le (limit a b : Nat) : satAdd limit a b ≤ limit := Nat.min_le_left _ _

theorem bump_le (n : Nat) : bump n ≤ max16 := satAdd_le _ _ _

theorem PeriodCounters.zero_inRange : PeriodCounters.zero.InRange := by decide

theorem LifeCounters.zero_inRange : LifeCounters.zero.InRange := by decide

theorem Energies.zero_within (limit : Nat) : Energies.zero.within limit :=
  ⟨Nat.zero_le _, Nat.zero_le _, Nat.zero_le _, Nat.zero_le _⟩

theorem residueOk_zero : residueOk 0 := by decide

theorem Energies.satAdd_within (limit : Nat) (a b : Energies) : (a.satAdd limit b).within limit :=
  ⟨satAdd_le _ _ _, satAdd_le _ _ _, satAdd_le _ _ _, satAdd_le _ _ _⟩

/-! ## The parts of a point's ranges, each under the operation that touches it -/

/-- A residue carried out of a close is in −50..49 whenever the one carried in was (R121, R123). -/
theorem chargeLine_carriedOut (dividend : Nat) (c : Int) (h : residueOk c) :
    residueOk (chargeLine dividend c).carriedOut := by
  obtain ⟨hlo, hhi⟩ := h
  have hu : unroundedAmount dividend ≤ 999999999999 := Nat.min_le_left _ _
  simp only [residueOk, chargeLine, billedAmount, centsOf, Config.maxAmount]
  generalize unroundedAmount dividend = u at hu
  split <;> omega

theorem Maximum.raiseTo_value (m : Maximum) (demand : Nat) (now : CalTime) :
    (m.raiseTo demand now).value = max m.value demand := by
  unfold Maximum.raiseTo
  split
  · rename_i h; exact (Nat.max_eq_right h.le).symm
  · rename_i h; exact (Nat.max_eq_left (Nat.le_of_not_lt h)).symm

theorem Maximum.raiseTo_stamped {m : Maximum} (h : m.stamped) (demand : Nat) (now : CalTime) :
    (m.raiseTo demand now).stamped := by
  unfold Maximum.raiseTo
  split
  · rename_i hlt
    exact ⟨fun e => absurd e (Nat.ne_of_gt (Nat.zero_lt_of_lt hlt)), fun e => nomatch e⟩
  · exact h

/-- A demand that raises a rate period's maximum raises maxAll with it (R71). -/
theorem Point.MaximaConsistent.raiseMaxima {p : Point} (h : p.MaximaConsistent) (rate : Fin 4) (demand : Nat)
    (now : CalTime) : (p.raiseMaxima rate demand now).MaximaConsistent := by
  obtain ⟨hmax, hall, heach⟩ := h
  refine ⟨?_, Maximum.raiseTo_stamped hall demand now, fun r => ?_⟩
  · simp only [Point.raiseMaxima, Maximum.raiseTo_value, hmax]
    match rate with
    | 0 | 1 | 2 => simp [Maximum.raiseTo_value]; omega
    | 3 => simp [Maximum.raiseTo_value]
  · simp only [Point.raiseMaxima, Fin.getElem_fin, Vector.getElem_set]
    split
    · exact Maximum.raiseTo_stamped (heach rate) demand now
    · exact heach r

theorem Point.MaximaConsistent.zero (p : Point) (hd : p.maxD = Vector.replicate 4 Maximum.zero)
    (ha : p.maxAll = Maximum.zero) : p.MaximaConsistent := by
  refine ⟨by rw [hd, ha]; rfl, by rw [ha]; exact ⟨fun _ => rfl, fun _ => rfl⟩, fun r => ?_⟩
  rw [hd, Fin.getElem_fin, Vector.getElem_replicate]
  exact ⟨fun _ => rfl, fun _ => rfl⟩

/-! ## What keeps a point in range -/

namespace Point.InRange

theorem withConfig {p : Point} (h : p.InRange) {os : List Byte} {c : PointConfig} (hc : parseConfig os = some c) :
    ({ p with config := c } : Point).InRange := by
  obtain ⟨hw, hl, hp1, hp2, hk⟩ := parseConfig_range hc
  exact ⟨⟨hw, hl, ⟨hp1, hp2⟩, hk⟩, h.2⟩

theorem fresh {os : List Byte} {c : PointConfig} (hc : parseConfig os = some c) (n : BitVec 16) :
    (Point.fresh c n).InRange := by
  obtain ⟨hw, hl, hp1, hp2, hk⟩ := parseConfig_range hc
  exact ⟨⟨hw, hl, ⟨hp1, hp2⟩, hk⟩, Nat.zero_le _, PeriodCounters.zero_inRange, LifeCounters.zero_inRange,
    ⟨Energies.zero_within _, Energies.zero_within _, Nat.zero_le _, Nat.zero_le _, fun _ hb => nomatch hb⟩,
    .zero _ rfl rfl, rfl, residueOk_zero, residueOk_zero, residueOk_zero⟩

theorem bookSub {p : Point} (h : p.InRange) (o : Option PenaltyOption) (w : Nat) (b : SubInterval) :
    (p.bookSub o w b).InRange := by
  obtain ⟨hcfg, hmiss, ⟨hm, hg, hrest⟩, hlife, ⟨htot, hun, -, -, -⟩, hmax, hcar⟩ := h
  refine ⟨hcfg, hmiss, ?_, hlife, ⟨htot, hun, satAdd_le _ _ _, satAdd_le _ _ _, fun x hx => nomatch hx⟩, hmax, hcar⟩
  simp only [Point.bookSub]
  split
  · exact ⟨hm, bump_le _, hrest⟩
  · exact ⟨hm, hg, hrest⟩

theorem cutSub {p : Point} (h : p.InRange) (o : Option PenaltyOption) (w : Nat) : (p.cutSub o w).InRange := by
  unfold Point.cutSub
  split
  · exact h
  · exact h.bookSub o w _

theorem countMissing {p : Point} (h : p.InRange) : p.countMissing.InRange := by
  obtain ⟨hcfg, -, ⟨-, hrest⟩, hafter⟩ := h
  simp only [Point.countMissing]
  split <;> exact ⟨hcfg, satAdd_le _ _ _, ⟨bump_le _, hrest⟩, hafter⟩

theorem closeSub {p : Point} (h : p.InRange) (o : Option PenaltyOption) (w : Nat) : (p.closeSub o w).InRange := by
  unfold Point.closeSub
  split
  · exact h
  · split
    · exact h.bookSub o w _
    · exact h.countMissing.bookSub o w _

theorem openSub {p : Point} (h : p.InRange) (set : TariffSet) (c : Clock) (now : CalTime) :
    (p.openSub set c now).InRange := by
  obtain ⟨hcfg, hmiss, hcnt, hlife, ⟨htot, hun, hatt, hex, -⟩, hafter⟩ := h
  refine ⟨hcfg, hmiss, hcnt, hlife, ⟨htot, hun, hatt, hex, fun b hb => ?_⟩, hafter⟩
  cases hb
  exact Energies.zero_within _

theorem checkContract {p : Point} (h : p.InRange) (demand : Nat) : (p.checkContract demand).InRange := by
  obtain ⟨hcfg, hmiss, ⟨hm, hg, hi, -, hout⟩, hafter⟩ := id h
  unfold Point.checkContract
  split
  · exact h
  · split
    · exact ⟨hcfg, hmiss, ⟨hm, hg, hi, bump_le _, hout⟩, hafter⟩
    · split <;> exact h

theorem raiseMaxima {p : Point} (h : p.InRange) (rate : Fin 4) (demand : Nat) (now : CalTime) :
    (p.raiseMaxima rate demand now).InRange := by
  obtain ⟨hcfg, hmiss, hcnt, hlife, hacc, hmax, hcar⟩ := h
  exact ⟨hcfg, hmiss, hcnt, hlife, hacc, hmax.raiseMaxima rate demand now, hcar⟩

theorem boundary {p : Point} (h : p.InRange) (o : Option PenaltyOption) (c : Clock) (now : CalTime) :
    (p.boundary o c now).InRange := by
  have hclosed := h.closeSub o c.window
  rw [Point.boundary]
  generalize p.closeSub o c.window = q at hclosed
  rcases q.evaluate_cases c now with ⟨-, e⟩ | ⟨-, -, e⟩ | ⟨-, -, e⟩ <;> rw [e]
  · exact hclosed
  · obtain ⟨hcfg, hmiss, ⟨hm, hg, -, hrest⟩, hafter⟩ := hclosed
    exact ⟨hcfg, hmiss, ⟨hm, hg, bump_le _, hrest⟩, hafter⟩
  · have hpresent : Point.InRange { q with
      present := some { demand := q.windowDemand c, eligible := true, stamp := now } } := hclosed
    exact (hpresent.raiseMaxima _ _ _).checkContract _

theorem markHeld {p : Point} (h : p.InRange) : p.markHeld.InRange := by
  obtain ⟨hcfg, hmiss, hcnt, hlife, ⟨htot, hun, hatt, hex, hsub⟩, hafter⟩ := h
  refine ⟨hcfg, hmiss, hcnt, hlife, ⟨htot, hun, hatt, hex, fun b hb => ?_⟩, hafter⟩
  obtain ⟨a, ha, rfl⟩ := Option.map_eq_some_iff.1 hb
  exact hsub a ha

theorem warmStart {p : Point} (h : p.InRange) : p.warmStart.InRange := by
  obtain ⟨hcfg, hmiss, ⟨hm, hg, hi, he, -⟩, hafter⟩ := h
  exact ⟨hcfg, hmiss, ⟨hm, hg, hi, he, bump_le _⟩, hafter⟩

theorem settledPoint {p : Point} (h : p.InRange) (s : State) (n : BitVec 16) : (s.settledPoint p n).InRange := by
  obtain ⟨hcfg, hmiss, -, hlife, ⟨-, -, -, -, hsub⟩, -, hlen, htou, hfac, hrea⟩ := h
  have hpushed : (pushRatchet p.maxAll.value p.ratchet).length = 12 := by simp [pushRatchet, hlen]
  exact ⟨hcfg, hmiss, PeriodCounters.zero_inRange, hlife,
    ⟨Energies.zero_within _, Energies.zero_within _, Nat.zero_le _, Nat.zero_le _, hsub⟩, .zero _ rfl rfl, hpushed,
    chargeLine_carriedOut _ _ htou, chargeLine_carriedOut _ _ hfac, chargeLine_carriedOut _ _ hrea⟩

/-! ### Readings -/

theorem takeFrame {p : Point} (h : p.InRange) (r : Registers) : (p.takeFrame r).InRange := by
  obtain ⟨hcfg, hmiss, hcnt, hlife, ⟨htot, hun, hatt, hex, hsub⟩, hafter⟩ := h
  refine ⟨hcfg, hmiss, hcnt, hlife, ⟨htot, hun, hatt, hex, fun b hb => ?_⟩, hafter⟩
  obtain ⟨a, ha, rfl⟩ := Option.map_eq_some_iff.1 hb
  exact hsub a ha

theorem noteGap {p : Point} (h : p.InRange) (lost : Nat) : (p.noteGap lost).InRange := by
  obtain ⟨hcfg, hmiss, hcnt, ⟨hd, hs, -, hrest⟩, ⟨htot, hun, hatt, hex, hsub⟩, hafter⟩ := h
  refine ⟨hcfg, hmiss, hcnt, ⟨hd, hs, satAdd_le _ _ _, hrest⟩, ⟨htot, hun, hatt, hex, fun b hb => ?_⟩, hafter⟩
  obtain ⟨a, ha, rfl⟩ := Option.map_eq_some_iff.1 hb
  exact hsub a ha

theorem recover {p : Point} (h : p.InRange) (e : Energies) : (p.recover e).InRange := by
  obtain ⟨hcfg, -, hcnt, hlife, ⟨-, -, hatt, hex, hsub⟩, hafter⟩ := h
  exact ⟨hcfg, Nat.zero_le _, hcnt, hlife,
    ⟨Energies.satAdd_within _ _ _, Energies.satAdd_within _ _ _, hatt, hex, hsub⟩, hafter⟩

theorem discontinue {p : Point} (h : p.InRange) : p.discontinue.InRange := by
  obtain ⟨hcfg, hmiss, hcnt, ⟨hd, hs, hl, -, hr⟩, hafter⟩ := h
  exact ⟨hcfg, hmiss, hcnt, ⟨hd, hs, hl, bump_le _, hr⟩, hafter⟩

theorem accept {p : Point} (h : p.InRange) (e : Energies) : (p.accept e).InRange := by
  obtain ⟨hcfg, -, hcnt, hlife, ⟨-, hun, hatt, hex, hsub⟩, hafter⟩ := id h
  unfold Point.accept
  split
  · refine ⟨hcfg, Nat.zero_le _, hcnt, hlife, ⟨Energies.satAdd_within _ _ _, hun, hatt, hex, fun b hb => ?_⟩,
      hafter⟩
    cases hb
    exact Energies.satAdd_within _ _ _
  · exact h.recover e

theorem measure {p : Point} (h : p.InRange) (d : ReadingData) : (p.measure d).1.InRange := by
  unfold Point.measure
  split
  · exact h
  · dsimp only
    split
    · exact (h.recover _).takeFrame _
    · split
      · exact h.discontinue.takeFrame _
      · exact (h.accept _).takeFrame _

theorem takeReading {p : Point} (h : p.InRange) (d : ReadingData) : (p.takeReading d).1.InRange := by
  have hseq : ({ p with lastSeq := some d.sequence } : Point).InRange := h
  obtain ⟨hcfg, hmiss, hcnt, ⟨hd, hs, hl, hdis, -⟩, hafter⟩ := id h
  unfold Point.takeReading
  split
  · exact ⟨hcfg, hmiss, hcnt, ⟨hd, hs, hl, hdis, bump_le _⟩, hafter⟩
  · obtain ⟨-, -, -, ⟨-, -, hrest⟩, -⟩ := id h
    split
    · exact ⟨hcfg, hmiss, hcnt, ⟨bump_le _, hs, hrest⟩, hafter⟩
    · exact ⟨hcfg, hmiss, hcnt, ⟨hd, bump_le _, hrest⟩, hafter⟩
    · exact hseq.measure d
    · exact (hseq.noteGap _).measure d

end Point.InRange

/-- The ranges of a point are kept by every change a part makes to it. -/
theorem Point.inRange_law : PointLaw Point.InRange where
  fresh _ _ n hc := .fresh hc n
  config _ _ _ hc h := h.withConfig hc
  raiseStatus _ _ h := h
  raisePeriod _ _ h := h
  clearStatus _ h := h
  clearAttention _ h := h
  operator _ _ h := h
  conflict _ _ h := h
  markHeld _ h := h.markHeld
  ring _ h := h
  contribution _ _ h := h
  openSub _ set c now h := h.openSub set c now
  cutSub _ o w h := h.cutSub o w
  boundary _ o c now h := h.boundary o c now
  reading _ d h := h.takeReading d
  warmStart _ h := h.warmStart
  settled s _ n h := h.settledPoint s n

/-! ## Gaps and baselines -/

/-- A last sequence comes with baselines, and a sub-interval with GAP has its marker set (R24, R26, R67). -/
abbrev Point.GapAccepted (p : Point) : Prop :=
  (p.lastSeq.isSome = true → p.baselines.isSome = true) ∧
  (∀ b ∈ p.sub, hasFlag b.quality QualityFlag.gap.place = true → b.accepted = true)

namespace Point.GapAccepted

/-- Whatever leaves no open sub-interval and keeps last sequence and baselines keeps the rule. -/
theorem ofNoSub {p q : Point} (h : p.GapAccepted) (hseq : q.lastSeq = p.lastSeq) (hbase : q.baselines = p.baselines)
    (hsub : q.sub = none) : q.GapAccepted :=
  ⟨by rw [hseq, hbase]; exact h.1, by rw [hsub]; exact fun b hb => nomatch hb⟩

/-- Sub-interval, last sequence and baselines closed or cut as the frame of windows says. -/
theorem ofWindowFrame {p q : Point} (h : p.GapAccepted) (hf : WindowFrame p q) (hsub : q.sub = none) :
    q.GapAccepted := by
  rw [WindowFrame] at hf
  exact h.ofNoSub (by rw [hf]) (by rw [hf]) hsub

theorem cutSub {p : Point} (h : p.GapAccepted) (o : Option PenaltyOption) (w : Nat) : (p.cutSub o w).GapAccepted :=
  h.ofWindowFrame (p.cutSub_frame o w).1 (p.cutSub_frame o w).2.1

theorem boundary {p : Point} (h : p.GapAccepted) (o : Option PenaltyOption) (c : Clock) (now : CalTime) :
    (p.boundary o c now).GapAccepted :=
  h.ofWindowFrame (p.boundary_frame o c now).1 (p.boundary_frame o c now).2.1

theorem openSub {p : Point} (h : p.GapAccepted) (set : TariffSet) (c : Clock) (now : CalTime) :
    (p.openSub set c now).GapAccepted := by
  refine ⟨h.1, fun b hb hg => ?_⟩
  cases hb
  revert hg
  dsimp only
  split <;> split <;> decide

theorem markHeld {p : Point} (h : p.GapAccepted) : p.markHeld.GapAccepted := by
  refine ⟨h.1, fun b hb hg => ?_⟩
  obtain ⟨a, ha, rfl⟩ := Option.map_eq_some_iff.1 hb
  refine h.2 a ha ?_
  simpa [hasFlag_addFlag, QualityFlag.place] using hg

/-- A frame that is taken brings baselines and sets the marker, whatever stood before (R31). -/
theorem takeFrame (p : Point) (r : Registers) : (p.takeFrame r).GapAccepted := by
  refine ⟨fun _ => rfl, fun b hb _ => ?_⟩
  obtain ⟨a, -, rfl⟩ := Option.map_eq_some_iff.1 hb
  rfl

/-- With baselines the frame is taken, so the rule holds after it even where a gap was just noted (R26 to R31). -/
theorem measure_of_baselines (p : Point) (d : ReadingData) (hb : p.baselines.isSome = true) :
    (p.measure d).1.GapAccepted := by
  obtain ⟨b, hb⟩ := Option.isSome_iff_exists.1 hb
  simp only [Point.measure, hb]
  split
  · exact takeFrame _ _
  · split <;> exact takeFrame _ _

theorem measure {p : Point} (hsub : ∀ b ∈ p.sub, hasFlag b.quality QualityFlag.gap.place = true → b.accepted = true)
    (d : ReadingData) : (p.measure d).1.GapAccepted := by
  cases hb : p.baselines with
  | none => simp only [Point.measure, hb]; exact ⟨fun _ => rfl, hsub⟩
  | some b => exact measure_of_baselines p d (by rw [hb]; rfl)

/-- Only a point with a last sequence sees a gap (R22). -/
theorem sequenceClass_gap {last : Option Byte} {seq : Byte} {lost : Nat} (h : sequenceClass last seq = .gap lost) :
    last.isSome = true := by
  cases last with
  | none => nomatch h
  | some l => rfl

theorem takeReading {p : Point} (h : p.GapAccepted) (d : ReadingData) : (p.takeReading d).1.GapAccepted := by
  unfold Point.takeReading
  split
  · exact ⟨fun _ => rfl, h.2⟩
  · split
    · exact h
    · exact h
    · exact measure (p := { p with lastSeq := some d.sequence }) h.2 d
    · rename_i lost hgap
      exact measure_of_baselines _ d (h.1 (sequenceClass_gap hgap))

end Point.GapAccepted

/-- The rule of gaps and baselines is kept by every change a part makes to a point. -/
theorem Point.gapAccepted_law : PointLaw Point.GapAccepted where
  fresh _ _ _ _ := ⟨fun h => (nomatch h), fun _ hb => nomatch hb⟩
  config _ _ _ _ h := h
  raiseStatus _ _ h := h
  raisePeriod _ _ h := h
  clearStatus _ h := h
  clearAttention _ h := h
  operator _ _ h := h
  conflict _ _ h := h
  markHeld _ h := h.markHeld
  ring _ h := h
  contribution _ _ h := h
  openSub _ set c now h := h.openSub set c now
  cutSub _ o w h := h.cutSub o w
  boundary _ o c now h := h.boundary o c now
  reading _ d h := h.takeReading d
  warmStart _ h := ⟨fun e => (nomatch e), h.2⟩
  settled _ _ _ h := h

end Sys2Proof.Machine

namespace Sys2Proof.Proofs

open Sys2Proof.Machine

/-- Settles O55: both halves are laws of single points that each change of a point keeps (`Point.inRange_law`,
`Point.gapAccepted_law`), so a step keeps them at all points. -/
theorem stepKeepsPointsInRange : Obligations.StepKeepsPointsInRange :=
  ⟨fun _ _ hs hstep => step_allPoints Point.inRange_law hstep hs,
    fun _ _ hs hstep => step_allPoints Point.gapAccepted_law hstep hs⟩

end Sys2Proof.Proofs
end

section
/-! PROOF. Holds, rings, open sub-intervals and period numbers as derived state: what each operation of the meter
keeps of them, and by the turns of the part every step (R3, R6, R65, R66, R91, R94, R106). -/

namespace Sys2Proof.Machine

/-! ## The derived state, point by point -/

/-- The clock field of a point names an enabled clock. -/
abbrev OnEnabled (cs : Vector Clock 4) (p : Point) : Prop :=
  ∃ k : Fin 4, p.config.clock = some k ∧ cs[k].enabled = true

/-- Holds and ring of one point as derived from the clocks (`State.HoldsDerived`). -/
abbrev HoldsAt (cs : Vector Clock 4) (p : Point) : Prop :=
  (p.conflict = true ↔ ∃ k : Fin 4, p.config.clock = some k ∧ cs[k].enabled = false) ∧
  (p.held = true → hasFlag p.periodFlags PeriodFlag.heldSeen.place = true) ∧
  (p.config.clock = none → p.ring = []) ∧
  (∀ k : Fin 4, p.config.clock = some k → p.ring.length ≤ (if cs[k].enabled then cs[k].window else 0))

/-- The open sub-interval of one point as derived (`State.SubIntervalsDerived`). -/
abbrev SubAt (cs : Vector Clock 4) (supplied timeSet : Bool) (p : Point) : Prop :=
  (p.sub.isSome = true → OnEnabled cs p) ∧
  (supplied = true → (p.sub.isSome = true ↔ timeSet = true ∧ OnEnabled cs p))

/-- The period number of one point agrees with the close unit (`State.PeriodsConsistent`). -/
abbrev PeriodAt (u : CloseUnit) (p : Point) : Prop :=
  (u.inFlight = none → p.period = u.devicePeriod) ∧
  (∀ closing ∈ u.inFlight, p.period = closing + 1 ∨
    (p.period = closing ∧ ∃ k : Fin 4, p.config.clock = some k ∧ hasFlag u.pendingSet k.val = true))

/-- A close in flight is the device period's, and its pending clocks are enabled. -/
abbrev PendingEnabled (cs : Vector Clock 4) (u : CloseUnit) : Prop :=
  ∀ closing ∈ u.inFlight, closing = u.devicePeriod ∧
    ∀ k : Fin 4, hasFlag u.pendingSet k.val = true → cs[k].enabled = true

theorem State.holdsDerived_iff (s : State) : s.HoldsDerived ↔ s.AllPoints (HoldsAt s.clocks) := Iff.rfl

theorem State.subIntervalsDerived_iff (s : State) :
    s.SubIntervalsDerived ↔ s.AllPoints (SubAt s.clocks s.supply.vdd s.time.calendar.isSome) := Iff.rfl

theorem State.periodsConsistent_iff (s : State) : s.PeriodsConsistent ↔
    s.AllPoints (PeriodAt s.close) ∧ PendingEnabled s.clocks s.close ∧
      (s.close.inFlight = none ↔ s.close.pendingSet = 0) := by
  constructor
  · rintro ⟨hidle, hflight⟩
    refine ⟨fun i p hp => ⟨fun h => (hidle h).2 i p hp, fun n hn => (hflight n hn).2.2.2 i p hp⟩,
      fun n hn => ⟨(hflight n hn).1, (hflight n hn).2.2.1⟩, fun h => (hidle h).1, fun h => ?_⟩
    cases hn : s.close.inFlight with
    | none => rfl
    | some n => exact absurd h (hflight n hn).2.1
  · rintro ⟨hpoints, hpend, hset⟩
    refine ⟨fun h => ⟨hset.1 h, fun i p hp => (hpoints i p hp).1 h⟩,
      fun n hn => ⟨(hpend n hn).1, fun h => ?_, (hpend n hn).2, fun i p hp => (hpoints i p hp).2 n hn⟩⟩
    rw [hset.2 h] at hn; exact nomatch hn

/-- The three invariants together. -/
structure State.Metered (s : State) : Prop where
  holds   : s.AllPoints (HoldsAt s.clocks)
  subs    : s.AllPoints (SubAt s.clocks s.supply.vdd s.time.calendar.isSome)
  periods : s.PeriodsConsistent

/-- What of them holds whether the part is supplied or not. -/
structure State.MeteredUnsupplied (s : State) : Prop where
  holds   : s.AllPoints (HoldsAt s.clocks)
  subs    : s.AllPoints (fun p => p.sub.isSome = true → OnEnabled s.clocks p)
  periods : s.PeriodsConsistent

variable {s t : State}

theorem State.Metered.weaken (h : s.Metered) : s.MeteredUnsupplied :=
  ⟨h.holds, fun i p hp => (h.subs i p hp).1, h.periods⟩

theorem State.MeteredUnsupplied.metered (h : s.MeteredUnsupplied) (hv : s.supply.vdd = false) : s.Metered :=
  ⟨h.holds, fun i p hp => ⟨h.subs i p hp, fun hv' => absurd (hv.symm.trans hv') (by decide)⟩, h.periods⟩

/-! ## How the points of one state come from those of another -/

/-- Every configured point of t comes from the point of s at its index, related as R says. -/
def State.PointsFrom (R : Point → Point → Prop) (s t : State) : Prop :=
  ∀ (i : Fin 32) (q : Point), t.points[i] = some q → ∃ p, s.points[i] = some p ∧ R p q

theorem State.AllPoints.carry {A B : Point → Prop} {R : Point → Point → Prop} (h : s.AllPoints A)
    (hst : State.PointsFrom R s t) (hR : ∀ p q, A p → R p q → B q) : t.AllPoints B := fun i q hq => by
  obtain ⟨p, hp, hpq⟩ := hst i q hq
  exact hR p q (h i p hp) hpq

theorem State.PointsFrom.map {R : Point → Point → Prop} {f : Point → Point}
    (e : ∀ i : Fin 32, t.points[i] = s.points[i].map f) (h : ∀ p, R p (f p)) : State.PointsFrom R s t :=
  fun i q hq => by
  rw [e, Option.map_eq_some_iff] at hq
  obtain ⟨p, hp, rfl⟩ := hq
  exact ⟨p, hp, h p⟩

theorem State.PointsFrom.same {R : Point → Point → Prop} (e : t.points = s.points) (h : ∀ p, R p p) :
    State.PointsFrom R s t := fun i q hq => ⟨q, by rw [← e]; exact hq, h q⟩

theorem State.PointsFrom.setPoint {R : Point → Point → Prop} {i : Fin 32} {p q : Point} (hp : s.points[i] = some p)
    (hpq : R p q) (h : ∀ p, R p p) : State.PointsFrom R s (s.setPoint i (some q)) := fun j r hr => by
  by_cases hij : i = j
  · subst hij; rw [State.setPoint_points_same] at hr; cases hr; exact ⟨p, hp, hpq⟩
  · rw [State.setPoint_points_other _ _ _ _ hij] at hr; exact ⟨r, hr, h r⟩

theorem State.PointsFrom.trans {R S T : Point → Point → Prop} {u : State} (h : State.PointsFrom R s t)
    (g : State.PointsFrom S t u) (e : ∀ p q r, R p q → S q r → T p r) : State.PointsFrom T s u := fun i r hr => by
  obtain ⟨q, hq, hqr⟩ := g i r hr
  obtain ⟨p, hp, hpq⟩ := h i q hq
  exact ⟨p, hp, e p q r hpq hqr⟩

/-- The clocks' enables are the same, and the windows of the enabled ones. -/
abbrev SameTiming (cs ds : Vector Clock 4) : Prop :=
  ∀ k : Fin 4, ds[k].enabled = cs[k].enabled ∧ (cs[k].enabled = true → ds[k].window = cs[k].window)

theorem SameTiming.refl (cs : Vector Clock 4) : SameTiming cs cs := fun _ => ⟨rfl, fun _ => rfl⟩

theorem SettingsKept.timing (h : SettingsKept s t) : SameTiming s.clocks t.clocks := fun k =>
  ⟨(h.clocks k).1, fun _ => (h.clocks k).2.2.1⟩

theorem OnEnabled.congr {cs ds : Vector Clock 4} (h : SameTiming cs ds) {p q : Point}
    (e : q.config.clock = p.config.clock) : OnEnabled ds q ↔ OnEnabled cs p := by
  simp only [OnEnabled, e, (h _).1]

/-! ## What keeps the holds of a point -/

/-- Clock field and hold causes are the same, HELD_SEEN stays at a held point. -/
structure HoldKept (p q : Point) : Prop where
  clock    : q.config.clock = p.config.clock
  operator : q.operator = p.operator
  conflict : q.conflict = p.conflict
  seen     : p.held = true → hasFlag p.periodFlags PeriodFlag.heldSeen.place = true →
    hasFlag q.periodFlags PeriodFlag.heldSeen.place = true

/-- The same, and the ring is no longer than it was. -/
structure RingKept (p q : Point) : Prop extends HoldKept p q where
  ring : q.ring.length ≤ p.ring.length

theorem HoldKept.held {p q : Point} (h : HoldKept p q) : q.held = p.held := by
  rw [Point.held, Point.held, h.operator, h.conflict]

theorem HoldKept.trans {p q r : Point} (h : HoldKept p q) (g : HoldKept q r) : HoldKept p r :=
  ⟨g.clock.trans h.clock, g.operator.trans h.operator, g.conflict.trans h.conflict,
    fun hh hs => g.seen (h.held.trans hh) (h.seen hh hs)⟩

theorem RingKept.refl (p : Point) : RingKept p p := ⟨⟨rfl, rfl, rfl, fun _ h => h⟩, le_refl _⟩

theorem RingKept.of_eq {p q : Point} (hclock : q.config.clock = p.config.clock) (hop : q.operator = p.operator)
    (hconf : q.conflict = p.conflict) (hflags : q.periodFlags = p.periodFlags) (hring : q.ring = p.ring) :
    RingKept p q :=
  ⟨⟨hclock, hop, hconf, fun _ h => hflags ▸ h⟩, by rw [hring]⟩

theorem RingKept.trans {p q r : Point} (h : RingKept p q) (g : RingKept q r) : RingKept p r :=
  ⟨h.toHoldKept.trans g.toHoldKept, g.ring.trans h.ring⟩

theorem HoldsAt.kept {cs ds : Vector Clock 4} (hcd : SameTiming cs ds) {p q : Point} (h : HoldsAt cs p)
    (hk : RingKept p q) : HoldsAt ds q := by
  obtain ⟨hconf, hseen, hnone, hring⟩ := h
  refine ⟨?_, fun hh => ?_, fun hc => ?_, fun k hc => ?_⟩
  · simp only [hk.conflict, hconf, hk.clock, (hcd _).1]
  · rw [hk.held] at hh; exact hk.seen hh (hseen hh)
  · have := hk.ring
    rw [hnone (hk.clock.symm.trans hc)] at this
    exact List.length_eq_zero_iff.1 (Nat.le_zero.1 this)
  · have hlen := hk.ring.trans (hring k (hk.clock.symm.trans hc))
    rw [(hcd k).1]
    split at hlen
    · rename_i he; rw [if_pos he, (hcd k).2 he]; exact hlen
    · rename_i he; rw [if_neg he]; exact hlen

/-- On an enabled clock the ring may also have grown, up to the window. -/
theorem HoldsAt.kept_on {cs ds : Vector Clock 4} (hcd : SameTiming cs ds) {p q : Point} (h : HoldsAt cs p)
    (hk : HoldKept p q) {k : Fin 4} (hp : p.config.clock = some k) (he : cs[k].enabled = true)
    (hring : q.ring.length ≤ cs[k].window) : HoldsAt ds q := by
  obtain ⟨hconf, hseen, -, -⟩ := h
  refine ⟨?_, fun hh => ?_, fun hc => ?_, fun j hc => ?_⟩
  · simp only [hk.conflict, hconf, hk.clock, (hcd _).1]
  · rw [hk.held] at hh; exact hk.seen hh (hseen hh)
  · rw [hk.clock, hp] at hc; cases hc
  · rw [hk.clock, hp] at hc; cases hc
    rw [(hcd k).1, (hcd k).2 he, if_pos he]; exact hring

theorem PeriodAt.kept {u : CloseUnit} {p q : Point} (h : PeriodAt u p) (hc : q.config.clock = p.config.clock)
    (hp : q.period = p.period) : PeriodAt u q := by
  simp only [PeriodAt, hc, hp]; exact h

/-- Everything the derived state of a point rests on is the same. -/
abbrev MeterKept (p q : Point) : Prop := RingKept p q ∧ q.sub.isSome = p.sub.isSome ∧ q.period = p.period

theorem MeterKept.refl (p : Point) : MeterKept p p := ⟨.refl p, rfl, rfl⟩

/-- A state that agrees with a metered one in clocks, supply, close unit and whether the time is set, its points kept,
is metered. -/
theorem State.Metered.kept (h : s.Metered) (hpoints : State.PointsFrom MeterKept s t)
    (hclocks : SameTiming s.clocks t.clocks) (hvdd : t.supply.vdd = s.supply.vdd)
    (htime : t.time.calendar.isSome = s.time.calendar.isSome) (hclose : t.close = s.close) : t.Metered := by
  obtain ⟨hper, hpend, hset⟩ := s.periodsConsistent_iff.1 h.periods
  refine ⟨h.holds.carry hpoints fun p q hp hpq => hp.kept hclocks hpq.1,
    h.subs.carry hpoints fun p q hp hpq => ?_, t.periodsConsistent_iff.2 ⟨?_, ?_, ?_⟩⟩
  · simp only [SubAt, OnEnabled.congr hclocks hpq.1.clock, hpq.2.1, hvdd, htime]; exact hp
  · rw [hclose]; exact hper.carry hpoints fun p q hp hpq => hp.kept hpq.1.clock hpq.2.2
  · rw [hclose]; simp only [PendingEnabled, (hclocks _).1]; exact hpend
  · rw [hclose]; exact hset

/-- In particular where the points are the same. -/
theorem State.Metered.same (h : s.Metered) (hpoints : t.points = s.points) (hclocks : t.clocks = s.clocks)
    (hvdd : t.supply.vdd = s.supply.vdd) (htime : t.time.calendar.isSome = s.time.calendar.isSome)
    (hclose : t.close = s.close) : t.Metered :=
  h.kept (.same hpoints .refl) (hclocks ▸ .refl _) hvdd htime hclose

theorem State.Metered.setPoint (h : s.Metered) (i : Fin 32) {q : Point} (hholds : HoldsAt s.clocks q)
    (hsub : SubAt s.clocks s.supply.vdd s.time.calendar.isSome q) (hperiod : PeriodAt s.close q) :
    (s.setPoint i (some q)).Metered := by
  obtain ⟨hper, hpend, hset⟩ := s.periodsConsistent_iff.1 h.periods
  exact ⟨h.holds.setPoint i q hholds, h.subs.setPoint i q hsub,
    (State.periodsConsistent_iff _).2 ⟨hper.setPoint i q hperiod, hpend, hset⟩⟩

theorem State.Metered.dropPoint (h : s.Metered) (i : Fin 32) : (s.setPoint i none).Metered := by
  obtain ⟨hper, hpend, hset⟩ := s.periodsConsistent_iff.1 h.periods
  exact ⟨h.holds.dropPoint i, h.subs.dropPoint i, (State.periodsConsistent_iff _).2 ⟨hper.dropPoint i, hpend, hset⟩⟩

theorem State.Metered.keepPoint (h : s.Metered) {i : Fin 32} {p q : Point} (hp : s.points[i] = some p)
    (hk : MeterKept p q) : (s.setPoint i (some q)).Metered :=
  h.kept (.setPoint hp hk .refl) (.refl _) rfl rfl rfl

end Sys2Proof.Machine
end

section
/-! PROOF. The invariants through a close: a clock's share, its completion, and a close that starts (R91 to R96,
R105 to R107). -/

namespace Sys2Proof.Machine

variable {s t : State}

/-! ## Closes -/

/-- A settled point keeps its hold marks, ring and sub-interval; its period is the next one (R6, R98, R103). -/
theorem State.settledPoint_kept (s : State) (p : Point) (n : BitVec 16) :
    RingKept p (s.settledPoint p n) ∧ (s.settledPoint p n).sub = p.sub ∧ (s.settledPoint p n).period = n + 1 := by
  refine ⟨⟨⟨rfl, rfl, rfl, fun hh _ => ?_⟩, le_refl _⟩, rfl, rfl⟩
  have e : (s.settledPoint p n).periodFlags =
      if p.held then BitVec.twoPow 4 PeriodFlag.heldSeen.place else 0 := rfl
  rw [e, if_pos hh]
  decide

theorem Point.noContribution_kept (p : Point) : MeterKept p { p with contribution := 0 } :=
  ⟨.of_eq rfl rfl rfl rfl rfl, rfl, rfl⟩

/-- A point of a clock that settles: kept, but for the period of one that closes. -/
theorem State.sharedPoint_kept (s : State) (p : Point) (n : BitVec 16) :
    RingKept p (s.sharedPoint n p) ∧ (s.sharedPoint n p).sub = p.sub ∧
      (s.sharedPoint n p).period = if p.period = n then n + 1 else p.period := by
  unfold State.sharedPoint
  split
  · obtain ⟨⟨⟨-, -, -, hseen⟩, -⟩, hsub, hperiod⟩ := s.settledPoint_kept p n
    exact ⟨⟨⟨rfl, rfl, rfl, hseen⟩, le_refl _⟩, hsub, hperiod⟩
  · exact ⟨.of_eq rfl rfl rfl rfl rfl, rfl, rfl⟩

theorem State.sharePoint_kept (s : State) (k : Fin 4) (n : BitVec 16) (p : Point) :
    RingKept p (s.sharePoint k n p) ∧ (s.sharePoint k n p).sub = p.sub ∧
      (s.sharePoint k n p).period = if p.onClock k = true ∧ p.period = n then n + 1 else p.period := by
  unfold State.sharePoint
  by_cases hk : p.onClock k = true
  · simp only [hk, if_true, true_and]; exact s.sharedPoint_kept p n
  · simp [hk, RingKept.refl]

/-- A close of period n in flight, in agreement with the points, before the check whether a clock is still pending. -/
structure State.ClosingAt (s : State) (n : BitVec 16) : Prop where
  inFlight : s.close.inFlight = some n
  device   : n = s.close.devicePeriod
  enabled  : ∀ k : Fin 4, hasFlag s.close.pendingSet k.val = true → s.clocks[k].enabled = true
  points   : s.AllPoints (fun p => p.period = n + 1 ∨
    (p.period = n ∧ ∃ k : Fin 4, p.config.clock = some k ∧ hasFlag s.close.pendingSet k.val = true))

theorem State.closingAt_of_inFlight (h : s.PeriodsConsistent) {n : BitVec 16} (hn : s.close.inFlight = some n) :
    s.ClosingAt n :=
  ⟨hn, (h.2 n hn).1, (h.2 n hn).2.2.1, (h.2 n hn).2.2.2⟩

/-- Whether the close completes or waits for its pending clocks, the periods agree again (R96, R105, R106). -/
theorem State.ClosingAt.completeIfEmpty {n : BitVec 16} (h : s.ClosingAt n) :
    (s.completeIfEmpty n).PeriodsConsistent := by
  unfold State.completeIfEmpty
  split
  · rename_i hz
    refine ⟨fun _ => ⟨by rw [State.completeClose_close], fun i p hp => ?_⟩, fun m hm => ?_⟩
    · rw [State.completeClose_points] at hp
      rw [State.completeClose_close]
      refine (h.points i p hp).resolve_right fun ⟨_, k, _, hk⟩ => ?_
      rw [hz] at hk
      exact absurd hk (by simp [hasFlag])
    · rw [State.completeClose_close] at hm; exact nomatch hm
  · rename_i hz
    refine ⟨fun hnone => ?_, fun m hm => ?_⟩
    · rw [h.inFlight] at hnone; exact nomatch hnone
    · rw [h.inFlight] at hm; cases hm
      exact ⟨h.device, hz, h.enabled, h.points⟩

/-- A clock's share of a close: points that are due close, the clock leaves the pending set; only that clock may be
disabled (R96, R107). -/
theorem State.clockShare_periods (s : State) (k : Fin 4) (stamp : Option CalTime)
    (hperiods : s.AllPoints (PeriodAt s.close)) (hset : s.close.inFlight = none ↔ s.close.pendingSet = 0)
    (hpend : ∀ n ∈ s.close.inFlight, n = s.close.devicePeriod ∧
      ∀ j : Fin 4, hasFlag s.close.pendingSet j.val = true → s.clocks[j].enabled = true ∨ j = k) :
    (s.clockShare k stamp).PeriodsConsistent := by
  rcases s.clockShare_cases k stamp with ⟨hout, e⟩ | ⟨n, hn, hk, e⟩ <;> rw [e]
  · refine s.periodsConsistent_iff.2 ⟨hperiods, fun n hn => ⟨(hpend n hn).1, fun j hj => ?_⟩, hset⟩
    refine ((hpend n hn).2 j hj).resolve_right fun hjk => ?_
    subst hjk
    rcases hout with h | h
    · rw [h] at hn; exact nomatch hn
    · rw [h] at hj; exact nomatch hj
  · refine State.ClosingAt.completeIfEmpty ⟨?_, ?_, fun j hj => ?_, fun i q hq => ?_⟩
    · rw [State.settleClock_close]; exact hn
    · rw [State.settleClock_close]; exact (hpend n hn).1
    · rw [State.settleClock_close, hasFlag_dropFlag, Bool.and_eq_true] at hj
      have hjk : j ≠ k := by rintro rfl; simp at hj
      rw [State.settleClock_clocks, if_neg hjk.symm]
      exact ((hpend n hn).2 j hj.1).resolve_right hjk
    · rw [State.settleClock_points, Option.map_eq_some_iff] at hq
      obtain ⟨p, hp, rfl⟩ := hq
      obtain ⟨hkept, -, hperiod⟩ := s.sharePoint_kept k n p
      rw [hperiod, hkept.clock, State.settleClock_close]
      split
      · exact .inl rfl
      · rename_i hdue
        refine ((hperiods i p hp).2 n hn).imp_right fun ⟨h1, j, hj, hjp⟩ => ⟨h1, j, hj, ?_⟩
        have hjk : ¬ k.val = j.val := by
          intro e
          obtain rfl : k = j := Fin.ext e
          exact hdue ⟨by simp [Point.onClock, hj], h1⟩
        rw [hasFlag_dropFlag, hjp, decide_eq_false hjk]; rfl

theorem State.clockShare_from (s : State) (k : Fin 4) (stamp : Option CalTime) :
    State.PointsFrom (fun p q => RingKept p q ∧ q.sub.isSome = p.sub.isSome) s (s.clockShare k stamp) := by
  rcases s.clockShare_cases k stamp with ⟨-, e⟩ | ⟨n, -, -, e⟩ <;> rw [e]
  · exact .same rfl fun p => ⟨.refl p, rfl⟩
  · refine State.PointsFrom.map (f := s.sharePoint k n)
      (fun i => by rw [State.completeIfEmpty_points, State.settleClock_points]) fun p => ?_
    obtain ⟨hkept, hsub, -⟩ := s.sharePoint_kept k n p
    exact ⟨hkept, by rw [hsub]⟩

theorem idlePeakPoint_kept (set : BitVec 4) (p : Point) : MeterKept p (idlePeakPoint set p) := by
  unfold idlePeakPoint
  split
  · exact p.noContribution_kept
  · exact .refl p

/-- A close starts with no close in flight: the points without an open sub-interval close, and the others are on
pending clocks, since the part is supplied (R94, R95). -/
theorem State.Metered.startClose (h : s.Metered) (hv : s.supply.vdd = true) (hf : s.close.inFlight = none) :
    s.startClose.Metered := by
  have hm := MeterFrame.startClose s
  have htiming := (SettingsKept.startClose s).timing
  obtain ⟨hper, -, -⟩ := s.periodsConsistent_iff.1 h.periods
  have hfrom : State.PointsFrom (fun p q => RingKept p q ∧ q.sub.isSome = p.sub.isSome ∧
      q.period = if p.sub.isNone then s.close.devicePeriod + 1 else p.period) s s.startClose := by
    refine .map s.startClose_points fun p => ?_
    have hsettled : RingKept p (if p.sub.isNone then s.settledPoint p s.close.devicePeriod else p) ∧
        (if p.sub.isNone then s.settledPoint p s.close.devicePeriod else p).sub = p.sub ∧
        (if p.sub.isNone then s.settledPoint p s.close.devicePeriod else p).period =
          if p.sub.isNone then s.close.devicePeriod + 1 else p.period := by
      split
      · exact s.settledPoint_kept p _
      · exact ⟨.refl p, rfl, rfl⟩
    obtain ⟨hring, hsub, hperiod⟩ := hsettled
    obtain ⟨g1, g2, g3⟩ := idlePeakPoint_kept s.startingSet
      (if p.sub.isNone then s.settledPoint p s.close.devicePeriod else p)
    exact ⟨hring.trans g1, by rw [g2, hsub], g3.trans hperiod⟩
  have hpoint : ∀ (i : Fin 32) (p q : Point), s.points[i] = some p → RingKept p q ∧
      q.sub.isSome = p.sub.isSome ∧ q.period = (if p.sub.isNone then s.close.devicePeriod + 1 else p.period) →
      q.period = s.close.devicePeriod + 1 ∨ (q.period = s.close.devicePeriod ∧
        ∃ k : Fin 4, q.config.clock = some k ∧ hasFlag s.startingSet k.val = true) := by
    rintro i p q hp ⟨hring, -, hperiod⟩
    cases hs : p.sub with
    | none => rw [hs] at hperiod; exact .inl hperiod
    | some b =>
      rw [hs] at hperiod
      have hopen := ((h.subs i p hp).2 hv).1 (by rw [hs]; rfl)
      obtain ⟨hset, k, hk, hen⟩ := hopen
      refine .inr ⟨hperiod.trans ((hper i p hp).1 hf), k, hring.clock.trans hk, ?_⟩
      exact (s.startingSet_flag k).2 ⟨hset, hen, i, p, hp, hk⟩
  refine ⟨h.holds.carry hfrom fun p q hp hpq => hp.kept htiming hpq.1,
    h.subs.carry hfrom fun p q hp hpq => ?_, ?_⟩
  · simp only [SubAt, OnEnabled.congr htiming hpq.1.clock, hpq.2.1, hm.supply, hm.calendar]; exact hp
  · have hclose := s.startClose_close
    refine ⟨fun hnone => ?_, fun n hn => ?_⟩
    · by_cases hz : s.startingSet = 0
      · rw [if_pos hz] at hclose
        rw [hclose]
        refine ⟨rfl, fun i q hq => ?_⟩
        obtain ⟨p, hp, hpq⟩ := hfrom i q hq
        refine (hpoint i p q hp hpq).resolve_right fun ⟨_, k, _, hk⟩ => ?_
        rw [hz] at hk
        exact absurd hk (by simp [hasFlag])
      · rw [hclose, if_neg hz] at hnone; exact nomatch hnone
    · by_cases hz : s.startingSet = 0
      · rw [hclose, if_pos hz] at hn; exact nomatch hn
      · rw [if_neg hz] at hclose
        rw [hclose] at hn ⊢
        cases hn
        refine ⟨rfl, hz, fun k hk => ?_, fun i q hq => ?_⟩
        · rw [(htiming k).1]; exact ((s.startingSet_flag k).1 hk).2.1
        · obtain ⟨p, hp, hpq⟩ := hfrom i q hq
          exact hpoint i p q hp hpq

/-- The scheduled close at a time update: nothing, or a close starts (R53). -/
theorem State.Metered.scheduledClose (h : s.Metered) (hv : s.supply.vdd = true) (now : CalTime) :
    (s.scheduledClose now).Metered := by
  rcases s.scheduledClose_cases now with ⟨-, -, -, -, hf, e⟩ | ⟨-, e⟩ <;> rw [e]
  · exact State.Metered.startClose (h.same rfl rfl rfl rfl rfl) hv hf
  · exact h

end Sys2Proof.Machine
end

section
/-! PROOF. The invariants through the sub-intervals: opened, ended at a boundary, advanced by the minute (R65 to R76). -/

namespace Sys2Proof.Machine

variable {s t : State}

/-! ## Openings -/

theorem Point.openSub_kept (p : Point) (set : TariffSet) (c : Clock) (now : CalTime) :
    RingKept p (p.openSub set c now) ∧ (p.openSub set c now).sub.isSome = true ∧
      (p.openSub set c now).period = p.period :=
  ⟨.of_eq rfl rfl rfl rfl rfl, rfl, rfl⟩

theorem Point.onClock_iff (p : Point) (k : Fin 4) : p.onClock k = true ↔ p.config.clock = some k := by
  simp [Point.onClock]

/-- The invariants, but for the open sub-intervals of one clock's points, which are about to be opened. -/
structure State.MeteredOff (s : State) (k : Fin 4) : Prop where
  holds   : s.AllPoints (HoldsAt s.clocks)
  subs    : s.AllPoints (fun p => p.config.clock ≠ some k →
    SubAt s.clocks s.supply.vdd s.time.calendar.isSome p)
  periods : s.PeriodsConsistent

/-- With its points opened at an enabled clock, the time being set, all sub-intervals are where they belong (R66). -/
theorem State.MeteredOff.openPointsOn {k : Fin 4} (h : s.MeteredOff k) (hset : s.time.calendar.isSome = true)
    (hk : s.clocks[k].enabled = true) (now : CalTime) : (s.openPointsOn k now).Metered := by
  have hfrom : State.PointsFrom (fun p q => RingKept p q ∧ q.period = p.period ∧
      (p.config.clock = some k → q.sub.isSome = true) ∧ (p.config.clock ≠ some k → q.sub = p.sub))
      s (s.openPointsOn k now) := by
    refine .map (s.mapPointsOn_points_get k _) fun p => ?_
    by_cases hp : p.config.clock = some k
    · rw [if_pos ((p.onClock_iff k).2 hp)]
      obtain ⟨hring, hsub, hperiod⟩ := p.openSub_kept s.tariff.active s.clocks[k] now
      exact ⟨hring, hperiod, fun _ => hsub, fun hne => absurd hp hne⟩
    · rw [if_neg (mt (p.onClock_iff k).1 hp)]
      exact ⟨.refl p, rfl, fun e => absurd e hp, fun _ => rfl⟩
  obtain ⟨hper, hpend, hidle⟩ := s.periodsConsistent_iff.1 h.periods
  refine ⟨h.holds.carry hfrom fun p q hp hpq => hp.kept (.refl _) hpq.1,
    h.subs.carry hfrom fun p q hp ⟨hring, _, hon, hoff⟩ => ?_,
    (State.periodsConsistent_iff _).2
      ⟨hper.carry hfrom fun p q hp hpq => hp.kept hpq.1.clock hpq.2.1, hpend, hidle⟩⟩
  by_cases hc : p.config.clock = some k
  · have hen : OnEnabled s.clocks q := ⟨k, hring.clock.trans hc, hk⟩
    exact ⟨fun _ => hen, fun _ => ⟨fun _ => ⟨hset, hen⟩, fun _ => hon hc⟩⟩
  · have hsub := hp hc
    simp only [SubAt, ← OnEnabled.congr (.refl s.clocks) hring.clock, ← hoff hc] at hsub
    exact hsub

theorem State.openEnabled_settings (s : State) (now : CalTime) :
    (s.openEnabled now).clocks = s.clocks ∧ (s.openEnabled now).close = s.close ∧
      (s.openEnabled now).time = s.time ∧ (s.openEnabled now).supply = s.supply := by
  rw [s.openEnabled_eq now]; exact ⟨rfl, rfl, rfl, rfl⟩

/-- With the time set, the opening of every enabled clock's points puts all sub-intervals where they belong (R41,
R47). -/
theorem State.MeteredUnsupplied.openEnabled (h : s.MeteredUnsupplied) (hset : s.time.calendar.isSome = true)
    (now : CalTime) : (s.openEnabled now).Metered := by
  obtain ⟨hclocks, hclose, htime, -⟩ := s.openEnabled_settings now
  have hfrom : State.PointsFrom (fun p q => RingKept p q ∧ q.period = p.period ∧
      (OnEnabled s.clocks p → q.sub.isSome = true) ∧ (¬ OnEnabled s.clocks p → q.sub = p.sub))
      s (s.openEnabled now) := by
    refine .map (s.openEnabled_points now) fun p => ?_
    unfold State.openIfEnabled
    split
    · rename_i k hk
      split
      · rename_i he
        obtain ⟨hring, hsub, hperiod⟩ := p.openSub_kept s.tariff.active s.clocks[k] now
        exact ⟨hring, hperiod, fun _ => hsub, fun hne => absurd ⟨k, hk, he⟩ hne⟩
      · rename_i he
        exact ⟨.refl p, rfl, fun ⟨j, hj, hen⟩ => by rw [hk] at hj; cases hj; exact absurd hen he, fun _ => rfl⟩
    · rename_i hk
      exact ⟨.refl p, rfl, fun ⟨j, hj, _⟩ => (by rw [hk] at hj; cases hj), fun _ => rfl⟩
  obtain ⟨hper, hpend, hidle⟩ := s.periodsConsistent_iff.1 h.periods
  refine ⟨h.holds.carry hfrom fun p q hp hpq => hp.kept (by rw [hclocks]; exact .refl _) hpq.1,
    h.subs.carry hfrom fun p q hp ⟨hring, _, hon, hoff⟩ => ?_,
    (State.periodsConsistent_iff _).2 ?_⟩
  · rw [hclocks, htime]
    have hiff : q.sub.isSome = true ↔ OnEnabled s.clocks q := by
      rw [OnEnabled.congr (.refl s.clocks) hring.clock]
      by_cases hen : OnEnabled s.clocks p
      · exact ⟨fun _ => hen, hon⟩
      · rw [hoff hen]; exact ⟨hp, fun e => absurd e hen⟩
    exact ⟨hiff.1, fun _ => by rw [hiff, hset]; simp⟩
  · rw [hclose, hclocks]
    exact ⟨hper.carry hfrom fun p q hp hpq => hp.kept hpq.1.clock hpq.2.1, hpend, hidle⟩

/-! ## Boundaries -/

theorem Point.raisePeriod_kept (p : Point) (f : PeriodFlag) : MeterKept p (p.raisePeriod f) :=
  ⟨⟨⟨rfl, rfl, rfl, fun _ => p.raisePeriod_keeps f _⟩, le_refl _⟩, rfl, rfl⟩

theorem WindowFrame.holdKept {p q : Point} (h : WindowFrame p q)
    (hflags : ∀ i, hasFlag p.periodFlags i = true → hasFlag q.periodFlags i = true) : HoldKept p q :=
  ⟨by rw [h.config], h.operator, h.conflict, fun _ => hflags _⟩

/-- Steps 1 to 3 of a boundary at a point of the clock: hold marks and period kept, the ring within W. -/
theorem State.stepped_kept (s : State) (k : Fin 4) (now : CalTime) (b : Bool) (p : Point) :
    HoldKept p (s.stepped k now b p) ∧ (s.stepped k now b p).period = p.period ∧
      (p.ring.length ≤ s.clocks[k].window → (s.stepped k now b p).ring.length ≤ s.clocks[k].window) := by
  have key : ∀ q : Point, MeterKept p q → q.ring = p.ring →
      HoldKept p (q.boundary (s.optionOf p) s.clocks[k] now) ∧
      (q.boundary (s.optionOf p) s.clocks[k] now).period = p.period ∧
      (p.ring.length ≤ s.clocks[k].window →
        (q.boundary (s.optionOf p) s.clocks[k] now).ring.length ≤ s.clocks[k].window) := by
    intro q hq hr
    obtain ⟨hf, -, hflags, hring⟩ := q.boundary_frame (s.optionOf p) s.clocks[k] now
    exact ⟨hq.1.toHoldKept.trans (hf.holdKept fun i hi => by rw [hflags]; exact hi), hf.period.trans hq.2.2,
      fun h => hring (by rw [hr]; exact h)⟩
  unfold State.stepped
  split
  · exact key _ (p.raisePeriod_kept _) rfl
  · exact key p (.refl p) rfl

theorem State.comparePeak_from (s : State) (k : Fin 4) (now : CalTime) :
    State.PointsFrom (fun p q => RingKept p q ∧ q.ring = p.ring ∧ q.sub = p.sub ∧ q.period = p.period)
      s (s.comparePeak k now) ∧ (s.comparePeak k now).close = s.close := by
  unfold State.comparePeak
  dsimp only
  split
  · refine ⟨.map (State.mapPointsOn_points_get _ k _) fun p => ?_, rfl⟩
    split <;> exact ⟨.of_eq rfl rfl rfl rfl rfl, rfl, rfl, rfl⟩
  · exact ⟨.same rfl fun p => ⟨.refl p, rfl, rfl, rfl⟩, rfl⟩

/-- Steps 1 to 4 of a clock's boundary at the points: those of other clocks are kept. -/
theorem State.evaluateClock_from (s : State) (k : Fin 4) (now : CalTime) (b : Bool) :
    State.PointsFrom (fun p q => HoldKept p q ∧ q.period = p.period ∧
      (p.config.clock ≠ some k → RingKept p q ∧ q.sub = p.sub) ∧
      (p.ring.length ≤ s.clocks[k].window → p.config.clock = some k → q.ring.length ≤ s.clocks[k].window))
      s (s.evaluateClock k now b) ∧ (s.evaluateClock k now b).close = s.close := by
  rw [State.evaluateClock_eq]
  obtain ⟨hpeak, hclose⟩ := (s.steppedAll k now b).comparePeak_from k now
  refine ⟨State.PointsFrom.trans (t := s.steppedAll k now b)
    (R := fun p q => if p.config.clock = some k then q = s.stepped k now b p else q = p) ?_ hpeak ?_, hclose⟩
  · refine .map (s.mapPointsOn_points_get k _) fun p => ?_
    simp only [p.onClock_iff k]
    split <;> rfl
  · rintro p q r hpq ⟨hring, hr, hsub, hperiod⟩
    by_cases hc : p.config.clock = some k
    · rw [if_pos hc] at hpq
      subst hpq
      obtain ⟨h1, h2, h3⟩ := s.stepped_kept k now b p
      exact ⟨h1.trans hring.toHoldKept, hperiod.trans h2, fun hne => absurd hc hne,
        fun hw _ => by rw [hr]; exact h3 hw⟩
    · rw [if_neg hc] at hpq
      subst hpq
      exact ⟨hring.toHoldKept, hperiod, fun _ => ⟨hring, hsub⟩, fun _ h => absurd h hc⟩

/-- A boundary of an enabled clock, the time being set, keeps the invariants (R63). -/
theorem State.Metered.boundary (h : s.Metered) {k : Fin 4} (hk : s.clocks[k].enabled = true)
    (hset : s.time.calendar.isSome = true) (now : CalTime) (b : Bool) : (s.boundary k now b).Metered := by
  obtain ⟨hfrom, hclose⟩ := s.evaluateClock_from k now b
  have htiming := (SettingsKept.evaluateClock s k now b).timing
  have hframe := MeterFrame.evaluateClock s k now b
  obtain ⟨hper, hpend, hidle⟩ := s.periodsConsistent_iff.1 h.periods
  unfold State.boundary
  generalize s.evaluateClock k now b = e at *
  have heholds : e.AllPoints (HoldsAt e.clocks) := h.holds.carry hfrom fun p q hp ⟨hhold, _, hoff, hon⟩ => by
    by_cases hc : p.config.clock = some k
    · have hw := hp.2.2.2 k hc
      rw [if_pos hk] at hw
      exact hp.kept_on htiming hhold hc hk (hon hw hc)
    · exact hp.kept htiming (hoff hc).1
  have hesubs : e.AllPoints (fun p => p.config.clock ≠ some k →
      SubAt e.clocks e.supply.vdd e.time.calendar.isSome p) :=
    h.subs.carry hfrom fun p q hp ⟨hhold, _, hoff, _⟩ hq => by
    rw [hhold.clock] at hq
    simp only [SubAt, OnEnabled.congr htiming hhold.clock, (hoff hq).2, hframe.supply, hframe.calendar]
    exact hp
  have hcfrom := e.clockShare_from k (some now)
  have hcframe := MeterFrame.clockShare e k (some now)
  have hctiming := (SettingsKept.clockShare e k (some now)).timing
  have hcperiods : (e.clockShare k (some now)).PeriodsConsistent := by
    refine e.clockShare_periods k (some now) ?_ ?_ fun n hn => ⟨?_, fun j hj => .inl ?_⟩
    · rw [hclose]; exact hper.carry hfrom fun p q hp hpq => hp.kept hpq.1.clock hpq.2.1
    · rw [hclose]; exact hidle
    · rw [hclose] at hn ⊢; exact (hpend n hn).1
    · rw [hclose] at hn hj; rw [(htiming j).1]; exact (hpend n hn).2 j hj
  have hoff : (e.clockShare k (some now)).MeteredOff k := by
    refine ⟨heholds.carry hcfrom fun p q hp hpq => hp.kept hctiming hpq.1,
      hesubs.carry hcfrom fun p q hp hpq hq => ?_, hcperiods⟩
    rw [hpq.1.clock] at hq
    simp only [SubAt, OnEnabled.congr hctiming hpq.1.clock, hpq.2, hcframe.supply, hcframe.calendar]
    exact hp hq
  have hopened := hoff.openPointsOn (by rw [hcframe.calendar, hframe.calendar]; exact hset)
    (by rw [(hctiming k).1, (htiming k).1]; exact hk) now
  generalize (e.clockShare k (some now)).openPointsOn k now = o at hopened
  have hcounted : SettingsKept o (o.countHold k) := .setClock o k _ ⟨rfl, rfl, rfl, rfl, Nat.sub_le ..⟩
  exact hopened.kept (.same rfl .refl) hcounted.timing rfl rfl rfl

/-- A minute advance keeps them (R46). -/
theorem State.Metered.minuteAdvance (h : s.Metered) (hv : s.supply.vdd = true)
    (hset : s.time.calendar.isSome = true) (order : List (Fin 4)) (now : CalTime) (b : Bool) :
    (s.minuteAdvance order now b).Metered := by
  have h0 := h.scheduledClose hv now
  have hframe := MeterFrame.scheduledClose s now
  unfold State.minuteAdvance State.handMinute
  generalize s.scheduledClose now = u at *
  refine (foldl_keeps (R := fun t : State => t.Metered ∧ t.time.calendar.isSome = true ∧ SameTiming u.clocks t.clocks)
    _ u ⟨h0, by rw [hframe.calendar]; exact hset, .refl _⟩ fun t k hk ⟨ht, htset, htiming⟩ => ?_).1
  have hen : t.clocks[k].enabled = true := by
    rw [(htiming k).1]
    exact ((u.mem_dueClocks now k).1 ((arrange_perm order _).mem_iff.1 hk)).1
  have hb := (SettingsKept.boundary t k now b).timing
  refine ⟨ht.boundary hen htset now b, by rw [(MeterFrame.boundary t k now b).calendar]; exact htset, fun j => ?_⟩
  exact ⟨(hb j).1.trans (htiming j).1,
    fun he => ((hb j).2 ((htiming j).1.trans he)).trans ((htiming j).2 he)⟩

/-! ## Time updates -/

/-- A cut close leaves no sub-interval at a point that has one only on an enabled clock. -/
theorem State.cutPoint_sub (s : State) {p : Point} (h : p.sub.isSome = true → OnEnabled s.clocks p) :
    (s.cutPoint p).sub = none := by
  unfold State.cutPoint State.clockOf
  cases hc : p.config.clock with
  | some k => exact (p.cutSub_frame _ _).2.1
  | none =>
    cases hs : p.sub with
    | none => exact hs
    | some b =>
      obtain ⟨k, hk, -⟩ := h (by rw [hs]; rfl)
      rw [hc] at hk; exact nomatch hk

theorem State.cutPoint_hold (s : State) (p : Point) :
    HoldKept p (s.cutPoint p) ∧ (s.cutPoint p).period = p.period := by
  refine ⟨(s.cutPoint_frame p).holdKept fun i hi => ?_, (s.cutPoint_frame p).period⟩
  unfold State.cutPoint
  split
  · exact (p.cutSub_frame _ _).2.2.2.1 i hi
  · exact hi

/-- A point cut with its ring cleared (R47, R59). -/
def State.cutCleared (s : State) (p : Point) : Point := { s.cutPoint p with ring := [] }

theorem State.cutCleared_kept (s : State) (p : Point) :
    RingKept p (s.cutCleared p) ∧ (s.cutCleared p).period = p.period := by
  obtain ⟨⟨hclock, hop, hconf, hseen⟩, hperiod⟩ := s.cutPoint_hold p
  exact ⟨⟨⟨hclock, hop, hconf, hseen⟩, Nat.zero_le _⟩, hperiod⟩

theorem State.cutCleared_sub (s : State) {p : Point} (h : p.sub.isSome = true → OnEnabled s.clocks p) :
    (s.cutCleared p).sub = none := s.cutPoint_sub h

theorem State.cutAll_eq (s : State) : s.cutAll = s.mapPoints s.cutCleared := rfl

theorem State.Metered.lockAt (h : s.Metered) (hset : s.time.calendar.isSome = true) (now : CalTime) :
    (s.lockAt now).Metered := h.same rfl rfl rfl hset.symm rfl

theorem State.MeteredUnsupplied.lockAt (h : s.MeteredUnsupplied) (now : CalTime) : (s.lockAt now).MeteredUnsupplied :=
  ⟨h.holds, h.subs, h.periods⟩

/-- Points cut or otherwise changed without a new sub-interval, a longer ring or another period. -/
theorem State.MeteredUnsupplied.carry (h : s.MeteredUnsupplied)
    (hfrom : State.PointsFrom (fun p q => (p.sub.isSome = true → OnEnabled s.clocks p) →
      RingKept p q ∧ (q.sub.isSome = true → p.sub.isSome = true) ∧ q.period = p.period) s t)
    (hclocks : SameTiming s.clocks t.clocks) (hclose : t.close = s.close) : t.MeteredUnsupplied := by
  obtain ⟨hper, hpend, hidle⟩ := s.periodsConsistent_iff.1 h.periods
  have hboth : ∀ (A : Point → Prop), s.AllPoints A → s.AllPoints (fun p => A p ∧
      (p.sub.isSome = true → OnEnabled s.clocks p)) := fun A hA i p hp => ⟨hA i p hp, h.subs i p hp⟩
  refine ⟨(hboth _ h.holds).carry hfrom fun p q hp hpq => hp.1.kept hclocks (hpq hp.2).1,
    h.subs.carry hfrom fun p q hp hpq hq => ?_, t.periodsConsistent_iff.2 ⟨?_, ?_, by rw [hclose]; exact hidle⟩⟩
  · obtain ⟨hring, hsub, -⟩ := hpq hp
    rw [OnEnabled.congr hclocks hring.clock]
    exact hp (hsub hq)
  · rw [hclose]
    exact (hboth _ hper).carry hfrom fun p q hp hpq => hp.1.kept (hpq hp.2).1.clock (hpq hp.2).2.2
  · rw [hclose]; simp only [PendingEnabled, (hclocks _).1]; exact hpend

theorem State.Metered.countStep (h : s.Metered) : s.countStep.Metered := h.same rfl rfl rfl rfl rfl

/-- A time step keeps them (R47). -/
theorem State.Metered.stepTo (h : s.Metered) (hv : s.supply.vdd = true) (now : CalTime) : (s.stepTo now).Metered := by
  have hcut : s.cutAll.MeteredUnsupplied := by
    rw [s.cutAll_eq]
    refine h.weaken.carry (.map (s.mapPoints_points_get _) fun p hp => ?_) (.refl _) rfl
    obtain ⟨hring, hperiod⟩ := s.cutCleared_kept p
    exact ⟨hring, by rw [s.cutCleared_sub hp]; exact (fun hq => nomatch hq), hperiod⟩
  have hopened := (hcut.lockAt now).openEnabled rfl now
  have hsupply : ((s.cutAll.lockAt now).openEnabled now).supply = s.supply :=
    ((s.cutAll.lockAt now).openEnabled_settings now).2.2.2
  unfold State.stepTo
  dsimp only
  generalize (s.cutAll.lockAt now).openEnabled now = o at *
  have hraised : (o.mapPoints (fun p => p.raisePeriod .timeStep)).Metered :=
    hopened.kept (.map (o.mapPoints_points_get _) fun p => p.raisePeriod_kept _) (.refl _) rfl rfl rfl
  have hvdd : (o.mapPoints (fun p => p.raisePeriod .timeStep)).countStep.supply.vdd = true := by
    rw [← hv, ← hsupply]; rfl
  exact hraised.countStep.scheduledClose hvdd now

/-- A valid mark keeps them, whatever the time state (R41 to R43, R47). -/
theorem State.Metered.takeTime (h : s.Metered) (hv : s.supply.vdd = true) (order : List (Fin 4)) (now : CalTime) :
    (s.takeTime order now).Metered := by
  unfold State.takeTime
  split
  · have hsupply := ((s.lockAt now).openEnabled_settings now).2.2.2
    exact ((h.weaken.lockAt now).openEnabled rfl now).scheduledClose ((congrArg Supply.vdd hsupply).trans hv) now
  · rename_i c hc
    have hset : s.time.calendar.isSome = true := by rw [hc]; rfl
    split
    · exact (h.lockAt hset now).minuteAdvance hv rfl order now false
    · split
      · split
        · exact h.same rfl rfl rfl rfl rfl
        · exact h.lockAt hset now
      · exact h.stepTo hv now

theorem State.Metered.selfAdvance (h : s.Metered) (hv : s.supply.vdd = true) (order : List (Fin 4)) {c : CalTime}
    (hc : s.time.calendar = some c) : (s.selfAdvance order c).Metered := by
  have hl := LoopFrame.raiseHoldover (s.holdoverAt c.next) s.time.state
  unfold State.selfAdvance
  generalize (s.holdoverAt c.next).raiseHoldover s.time.state = u at *
  have hu : u.Metered := h.same hl.points hl.clocks (by rw [hl.supply]; rfl)
    (by rw [hl.time, hc]; rfl) hl.close
  exact hu.minuteAdvance (by rw [hl.supply]; exact hv) (by rw [hl.time]; rfl) order c.next true

end Sys2Proof.Machine
end

section
/-! PROOF. The invariants through the requests for clocks and points (R12 to R17, R57 to R60). -/

namespace Sys2Proof.Machine

variable {s t : State}

/-! ## Clocks -/

theorem Point.addConflict_kept (p : Point) : p.addConflict.config = p.config ∧ p.addConflict.ring = p.ring ∧
    p.addConflict.sub.isSome = p.sub.isSome ∧ p.addConflict.period = p.period ∧ p.addConflict.conflict = true ∧
    p.addConflict.operator = p.operator ∧
    hasFlag p.addConflict.periodFlags PeriodFlag.heldSeen.place = true := by
  refine ⟨rfl, rfl, Option.isSome_map, rfl, rfl, rfl, ?_⟩
  simp [Point.addConflict, Point.markHeld, Point.raisePeriod, hasFlag_addFlag, PeriodFlag.place]

/-- A point with an empty ring and CONFLICT marked is as derived on a disabled clock (R3, R6, R59). -/
theorem Point.addConflict_holdsAt {cs : Vector Clock 4} {p : Point} {k : Fin 4} (hc : p.config.clock = some k)
    (hk : cs[k].enabled = false) (hring : p.ring = []) : HoldsAt cs p.addConflict := by
  obtain ⟨hcfg, hr, -, -, hconf, -, hseen⟩ := p.addConflict_kept
  refine ⟨⟨fun _ => ⟨k, by rw [hcfg]; exact hc, hk⟩, fun _ => hconf⟩, fun _ => hseen,
    fun _ => hr.trans hring, fun j _ => ?_⟩
  rw [hr, hring]; exact Nat.zero_le _

theorem State.setClock_clocks_get (s : State) (k j : Fin 4) (c : Clock) :
    (s.setClock k c).clocks[j] = if k = j then c else s.clocks[j] := by
  by_cases h : k = j
  · subst h; rw [if_pos rfl, State.setClock_clocks_same]
  · rw [if_neg h, State.setClock_clocks_other _ _ _ _ h]

/-! ### A clock disabled -/

theorem State.cutClock_clocks (s : State) (k j : Fin 4) : (s.cutClock k).clocks[j] =
    if k = j then { s.clocks[k] with enabled := false } else s.clocks[j] :=
  s.setClock_clocks_get k j _

theorem State.cutClock_off (s : State) (k : Fin 4) : (s.cutClock k).clocks[k].enabled = false := by
  rw [cutClock_clocks, if_pos rfl]

theorem State.cutClock_other (s : State) {k j : Fin 4} (hj : j ≠ k) : (s.cutClock k).clocks[j] = s.clocks[j] := by
  rw [cutClock_clocks, if_neg hj.symm]

/-- Another clock's points are untouched; the clock's own have no sub-interval and stand as on a disabled clock
(R59). -/
theorem State.cutClock_from (s : State) (k : Fin 4) :
    State.PointsFrom (fun p q => q.config = p.config ∧ q.period = p.period ∧ (p.config.clock ≠ some k → q = p) ∧
      (p.config.clock = some k → q.sub = none ∧ HoldsAt (s.cutClock k).clocks q)) s (s.cutClock k) := by
  refine .map (State.mapPointsOn_points_get _ k _) fun p => ?_
  by_cases hc : p.config.clock = some k
  · rw [if_pos ((p.onClock_iff k).2 hc)]
    generalize hoff : s.setClock k { s.clocks[k] with enabled := false } = off
    have hcut : (off.cutPoint p).sub = none := by
      unfold State.cutPoint State.clockOf
      rw [hc]
      exact (p.cutSub_frame _ _).2.1
    have hcfg := (off.cutPoint_frame p).config
    obtain ⟨acfg, -, asub, aper, -, -, -⟩ := ({ off.cutPoint p with ring := [] } : Point).addConflict_kept
    refine ⟨acfg.trans hcfg, aper.trans (off.cutPoint_frame p).period, fun hne => absurd hc hne, fun _ => ⟨?_, ?_⟩⟩
    · rw [← Option.isNone_iff_eq_none, ← Option.not_isSome, asub]; simp [hcut]
    · exact Point.addConflict_holdsAt (by rw [← hc]; exact congrArg _ hcfg) (s.cutClock_off k) rfl
  · rw [if_neg (mt (p.onClock_iff k).1 hc)]
    exact ⟨rfl, rfl, fun _ => rfl, fun e => absurd e hc⟩

theorem State.cutClock_holds (h : s.AllPoints (HoldsAt s.clocks)) (k : Fin 4) :
    (s.cutClock k).AllPoints (HoldsAt (s.cutClock k).clocks) :=
  h.carry (s.cutClock_from k) fun p q hp ⟨_, _, hsame, hon⟩ => by
    by_cases hc : p.config.clock = some k
    · exact (hon hc).2
    · obtain rfl := hsame hc
      obtain ⟨hconf, hseen, hfree, hring⟩ := hp
      have hne : ∀ j : Fin 4, q.config.clock = some j → (s.cutClock k).clocks[j] = s.clocks[j] :=
        fun j hj => s.cutClock_other (by rintro rfl; exact hc hj)
      refine ⟨hconf.trans (exists_congr fun j => and_congr_right fun hj => by rw [hne j hj]), hseen, hfree,
        fun j hj => ?_⟩
      rw [hne j hj]; exact hring j hj

/-- After the cut a point is on an enabled clock if it was and the clock is another one. -/
theorem State.cutClock_onEnabled (s : State) (k : Fin 4) {p q : Point} (hcfg : q.config = p.config) :
    OnEnabled (s.cutClock k).clocks q ↔ p.config.clock ≠ some k ∧ OnEnabled s.clocks p := by
  rw [OnEnabled, OnEnabled, hcfg]
  constructor
  · rintro ⟨j, hj, he⟩
    have hjk : j ≠ k := by rintro rfl; rw [s.cutClock_off j] at he; exact nomatch he
    rw [s.cutClock_other hjk] at he
    exact ⟨fun e => hjk (Option.some.inj (hj.symm.trans e)), j, hj, he⟩
  · rintro ⟨hne, j, hj, he⟩
    exact ⟨j, hj, by rw [s.cutClock_other (by rintro rfl; exact hne hj)]; exact he⟩

theorem State.cutClock_subs {v time : Bool} (h : s.AllPoints (SubAt s.clocks v time)) (k : Fin 4) :
    (s.cutClock k).AllPoints (SubAt (s.cutClock k).clocks v time) :=
  h.carry (s.cutClock_from k) fun p q hp ⟨hcfg, _, hsame, hon⟩ => by
    rw [SubAt, s.cutClock_onEnabled k hcfg]
    by_cases hc : p.config.clock = some k
    · rw [(hon hc).1]; simp [hc]
    · obtain rfl := hsame hc
      simp only [ne_eq, hc, not_false_eq_true, true_and]
      exact hp

/-- A clock disabled: its points are cut, without a ring and in conflict, and it leaves a close in flight (R59,
R107). -/
theorem State.Metered.disableClock (h : s.Metered) (k : Fin 4) : (s.disableClock k).Metered := by
  obtain ⟨hper, hpend, hidle⟩ := s.periodsConsistent_iff.1 h.periods
  unfold State.disableClock
  have hfrom := (s.cutClock k).clockShare_from k s.time.calendar
  have htiming := (SettingsKept.clockShare (s.cutClock k) k s.time.calendar).timing
  have hframe := MeterFrame.clockShare (s.cutClock k) k s.time.calendar
  refine ⟨(State.cutClock_holds h.holds k).carry hfrom fun p q hp hpq => hp.kept htiming hpq.1,
    (State.cutClock_subs h.subs k).carry hfrom fun p q hp hpq => ?_, ?_⟩
  · simp only [SubAt, OnEnabled.congr htiming hpq.1.clock, hpq.2, hframe.supply, hframe.calendar]; exact hp
  · refine State.clockShare_periods _ k _ ?_ hidle fun n hn => ⟨(hpend n hn).1, fun j hj => ?_⟩
    · exact hper.carry (s.cutClock_from k) fun p q hp hpq => hp.kept (by rw [hpq.1]) hpq.2.1
    · by_cases hjk : j = k
      · exact .inr hjk
      · exact .inl (by rw [s.cutClock_other hjk]; exact (hpend n hn).2 j hj)

/-! ### A clock enabled -/

/-- A clock enabled and its points out of conflict, before their sub-intervals are opened (R60). -/
def State.clockOn (s : State) (k : Fin 4) : State :=
  (s.setClock k { s.clocks[k] with enabled := true }).mapPointsOn k (fun p => { p with conflict := false })

theorem State.enableClock_eq (s : State) (k : Fin 4) : s.enableClock k =
    match s.time.calendar with
    | some now => (s.clockOn k).openPointsOn k now
    | none => s.clockOn k := by
  unfold State.enableClock
  rfl

theorem State.clockOn_on (s : State) (k : Fin 4) : (s.clockOn k).clocks[k].enabled = true := by
  rw [show (s.clockOn k).clocks[k] = _ from s.setClock_clocks_get k k _, if_pos rfl]

theorem State.clockOn_other (s : State) {k j : Fin 4} (hj : j ≠ k) : (s.clockOn k).clocks[j] = s.clocks[j] := by
  rw [show (s.clockOn k).clocks[j] = _ from s.setClock_clocks_get k j _, if_neg hj.symm]

theorem State.clockOn_from (s : State) (k : Fin 4) :
    State.PointsFrom (fun p q => q.config = p.config ∧ q.sub = p.sub ∧ q.period = p.period ∧
      q.periodFlags = p.periodFlags ∧ q.operator = p.operator ∧ q.ring = p.ring ∧
      q.conflict = (p.conflict && !p.onClock k)) s (s.clockOn k) := by
  refine .map (State.mapPointsOn_points_get _ k _) fun p => ?_
  cases hc : p.onClock k
  · exact ⟨rfl, rfl, rfl, rfl, rfl, rfl, by simp⟩
  · exact ⟨rfl, rfl, rfl, rfl, rfl, rfl, by simp⟩

theorem State.clockOn_holds (h : s.AllPoints (HoldsAt s.clocks)) {k : Fin 4} (hk : s.clocks[k].enabled = false) :
    (s.clockOn k).AllPoints (HoldsAt (s.clockOn k).clocks) :=
  h.carry (s.clockOn_from k) fun p q ⟨hpconf, hseen, hfree, hpring⟩ ⟨hcfg, _, _, hflags, hop, hring, hconf⟩ => by
    refine ⟨?_, fun hq => ?_, fun hq => ?_, fun j hj => ?_⟩
    · rw [hcfg, hconf, Bool.and_eq_true, hpconf]
      constructor
      · rintro ⟨⟨j, hj, he⟩, hoff⟩
        have hjk : j ≠ k := by rintro rfl; simp [Point.onClock, hj] at hoff
        exact ⟨j, hj, by rw [s.clockOn_other hjk]; exact he⟩
      · rintro ⟨j, hj, he⟩
        have hjk : j ≠ k := by rintro rfl; rw [s.clockOn_on j] at he; exact nomatch he
        rw [s.clockOn_other hjk] at he
        exact ⟨⟨j, hj, he⟩, by simp [Point.onClock, hj, hjk]⟩
    · rw [hflags]
      refine hseen ?_
      simp only [Point.held, hop, hconf, Bool.or_eq_true, Bool.and_eq_true] at hq ⊢
      exact hq.imp_right And.left
    · rw [hring]; exact hfree (by rw [← hcfg]; exact hq)
    · rw [hcfg] at hj
      have hlen := hpring j hj
      rw [hring]
      by_cases hjk : j = k
      · subst hjk
        rw [if_neg (by rw [hk]; decide)] at hlen
        exact hlen.trans (Nat.zero_le _)
      · rw [s.clockOn_other hjk]; exact hlen

theorem State.clockOn_periods (h : s.PeriodsConsistent) (k : Fin 4) : (s.clockOn k).PeriodsConsistent := by
  obtain ⟨hper, hpend, hidle⟩ := s.periodsConsistent_iff.1 h
  refine State.periodsConsistent_iff _ |>.2 ⟨?_, fun n hn => ⟨(hpend n hn).1, fun j hj => ?_⟩, hidle⟩
  · exact hper.carry (s.clockOn_from k) fun p q hp ⟨hcfg, _, hperiod, _⟩ => hp.kept (by rw [hcfg]) hperiod
  · by_cases hjk : j = k
    · subst hjk; exact s.clockOn_on j
    · rw [s.clockOn_other hjk]; exact (hpend n hn).2 j hj

/-- A point of another clock is on an enabled one as before. -/
theorem State.clockOn_onEnabled (s : State) {k : Fin 4} {p q : Point} (hcfg : q.config = p.config)
    (hp : p.config.clock ≠ some k) : OnEnabled (s.clockOn k).clocks q ↔ OnEnabled s.clocks p := by
  rw [OnEnabled, OnEnabled, hcfg]
  refine exists_congr fun j => and_congr_right fun hj => ?_
  rw [s.clockOn_other (by rintro rfl; exact hp hj)]

theorem State.Metered.clockOn (h : s.Metered) {k : Fin 4} (hk : s.clocks[k].enabled = false) :
    (s.clockOn k).MeteredOff k := by
  refine ⟨State.clockOn_holds h.holds hk, h.subs.carry (s.clockOn_from k) fun p q hp ⟨hcfg, hsub, _⟩ hq => ?_,
    State.clockOn_periods h.periods k⟩
  rw [SubAt, s.clockOn_onEnabled hcfg (by rwa [hcfg] at hq), hsub]
  exact hp

/-- With the time UNSET no sub-interval is open, so an enabled clock's points need none (R60, R66). -/
theorem State.Metered.clockOn_unset (h : s.Metered) {k : Fin 4} (hk : s.clocks[k].enabled = false)
    (hnone : s.time.calendar = none) : (s.clockOn k).Metered := by
  refine ⟨State.clockOn_holds h.holds hk, h.subs.carry (s.clockOn_from k) fun p q hp ⟨hcfg, hsub, _⟩ => ?_,
    State.clockOn_periods h.periods k⟩
  have htime : (s.clockOn k).time.calendar = none := hnone
  obtain ⟨hopen, hset⟩ := hp
  rw [SubAt, htime, hsub]
  refine ⟨fun hs => ?_, fun hv => ⟨fun hs => absurd ((hset hv).1 hs).1 (by rw [hnone]; decide),
    fun e => nomatch e.1⟩⟩
  have hon := hopen hs
  refine (s.clockOn_onEnabled hcfg fun hc => ?_).2 hon
  obtain ⟨j, hj, he⟩ := hon
  cases hc.symm.trans hj
  rw [hk] at he; exact nomatch he

/-- A clock enabled: CONFLICT goes from its points, and their sub-intervals open if the time is set (R60). -/
theorem State.Metered.enableClock (h : s.Metered) {k : Fin 4} (hk : s.clocks[k].enabled = false) :
    (s.enableClock k).Metered := by
  rw [State.enableClock_eq]
  split
  next now hnow =>
    have hset : (s.clockOn k).time.calendar.isSome = true := by
      show s.time.calendar.isSome = true
      rw [hnow]; rfl
    exact (h.clockOn hk).openPointsOn hset (s.clockOn_on k) now
  next hnone => exact h.clockOn_unset hk hnone

/-! ### SET CLOCK -/

/-- SET CLOCK keeps them: a timing in use is not changed (R57, R58). -/
theorem State.Metered.applyClock (h : s.Metered) {a : ClockArgs}
    (hfree : s.clocks[a.clock].timingInUse a = false) : (s.applyClock a).Metered := by
  have hclock := fun j => s.setClock_clocks_get a.clock j
    { s.clocks[a.clock] with length := a.length, window := a.window, holdLength := a.holdLength }
  have hwritten : (s.setClock a.clock
      { s.clocks[a.clock] with length := a.length, window := a.window, holdLength := a.holdLength }).Metered := by
    refine h.kept (.same rfl .refl) (fun j => ?_) rfl rfl rfl
    rw [hclock]
    by_cases hj : a.clock = j
    · subst hj
      rw [if_pos rfl]
      refine ⟨rfl, fun he => ?_⟩
      simp only [Clock.timingInUse, he, Bool.true_and, Bool.or_eq_false_iff, decide_eq_false_iff_not, not_not] at hfree
      exact hfree.2
    · rw [if_neg hj]; exact ⟨rfl, fun _ => rfl⟩
  have hen : (s.setClock a.clock { s.clocks[a.clock] with
      length := a.length, window := a.window, holdLength := a.holdLength }).clocks[a.clock].enabled =
        s.clocks[a.clock].enabled := by rw [hclock, if_pos rfl]
  unfold State.applyClock
  dsimp only
  generalize s.setClock a.clock
    { s.clocks[a.clock] with length := a.length, window := a.window, holdLength := a.holdLength } = w at *
  split
  · split
    · exact hwritten
    · exact hwritten.disableClock a.clock
  · rename_i hoff
    split
    · exact hwritten.enableClock (by rw [hen]; simpa using hoff)
    · exact hwritten

/-! ## Points configured -/

/-- A point without sub-interval and ring takes up the clock its record names: its holds and its sub-interval are then
as derived (R13, R14). -/
theorem State.takeUpClock_derived (s : State) (v : Bool) {p : Point} (hring : p.ring = []) (hsub : p.sub = none)
    (hseen : p.operator = true → hasFlag p.periodFlags PeriodFlag.heldSeen.place = true) :
    HoldsAt s.clocks (s.takeUpClock p) ∧ SubAt s.clocks v s.time.calendar.isSome (s.takeUpClock p) ∧
      (s.takeUpClock p).period = p.period := by
  have hfree : ({ p with conflict := false } : Point).held = p.operator := by simp [Point.held]
  have hholds : (∀ k : Fin 4, p.config.clock = some k → s.clocks[k].enabled = true) →
      HoldsAt s.clocks { p with conflict := false } := fun hall =>
    ⟨⟨fun e => (nomatch e), fun ⟨k, hk, he⟩ => by rw [hall k hk] at he; exact nomatch he⟩,
      fun hh => hseen (hfree.symm.trans hh), fun _ => hring, fun k _ => by
        show p.ring.length ≤ _
        rw [hring]; exact Nat.zero_le _⟩
  unfold State.takeUpClock State.clockOf
  cases hc : p.config.clock with
  | none =>
    refine ⟨hholds fun k hk => (by rw [hc] at hk; exact nomatch hk),
      ⟨fun e => ?_, fun _ => ⟨fun e => ?_, ?_⟩⟩, rfl⟩
    · exact absurd e (by show ¬ p.sub.isSome = true; rw [hsub]; decide)
    · exact absurd e (by show ¬ p.sub.isSome = true; rw [hsub]; decide)
    · rintro ⟨-, k, hk, -⟩; exact nomatch hc.symm.trans hk
  | some k =>
    dsimp only [Option.map_some]
    split
    · rename_i hen
      have hall : ∀ j : Fin 4, p.config.clock = some j → s.clocks[j].enabled = true := fun j hj => by
        rw [hc] at hj; cases hj; exact hen
      have hon : OnEnabled s.clocks p := ⟨k, hc, hen⟩
      split
      · rename_i now hnow
        obtain ⟨hkept, hopen, hperiod⟩ :=
          ({ p with conflict := false } : Point).openSub_kept s.tariff.active s.clocks[k] now
        exact ⟨(hholds hall).kept (.refl _) hkept,
          ⟨fun _ => hon, fun _ => ⟨fun _ => ⟨by rw [hnow]; rfl, hon⟩, fun _ => hopen⟩⟩, hperiod⟩
      · rename_i hnone
        refine ⟨hholds hall,
          ⟨fun _ => hon, fun _ => ⟨fun e => ?_, fun e => absurd e.1 (by rw [hnone]; decide)⟩⟩, rfl⟩
        exact absurd e (by show ¬ p.sub.isSome = true; rw [hsub]; decide)
    · rename_i hoff
      have hoff : s.clocks[k].enabled = false := by simpa using hoff
      obtain ⟨hcfg, -, asub, aper, -, -, -⟩ := p.addConflict_kept
      have hnone : ¬ p.addConflict.sub.isSome = true := by rw [asub, hsub]; decide
      refine ⟨p.addConflict_holdsAt hc hoff hring,
        ⟨fun e => absurd e hnone, fun _ => ⟨fun e => absurd e hnone, ?_⟩⟩, aper⟩
      rintro ⟨-, j, hj, he⟩
      rw [hcfg, hc] at hj
      cases hj
      rw [hoff] at he; exact nomatch he

/-- A point is configured in the period that is running, or the one after the close in flight (R13). -/
theorem State.Metered.configure (h : s.Metered) (i : Fin 32) (c : PointConfig) :
    (s.setPoint i (some (s.configure c))).Metered := by
  obtain ⟨hholds, hsub, hperiod⟩ :=
    s.takeUpClock_derived s.supply.vdd (p := Point.fresh c s.newPeriod) rfl rfl (fun e => nomatch e)
  refine h.setPoint i hholds hsub ?_
  have e : (s.configure c).period = s.newPeriod := hperiod
  rw [PeriodAt, e]
  unfold State.newPeriod
  cases hf : s.close.inFlight with
  | none => exact ⟨fun _ => rfl, fun n hn => nomatch hn⟩
  | some n => exact ⟨fun e => (nomatch e), fun m hm => by cases hm; exact .inl rfl⟩

theorem Point.raiseStatus_kept (p : Point) (f : StatusFlag) : MeterKept p (p.raiseStatus f) :=
  ⟨.of_eq rfl rfl rfl rfl rfl, rfl, rfl⟩

/-- A record replaced keeps them; the point's close is not pending, so its period does not rest on its clock (R14). -/
theorem State.Metered.reconfigure (h : s.Metered) {i : Fin 32} {p : Point} (hp : s.points[i] = some p)
    (hb : s.closePending p = false) (c : PointConfig) : (s.setPoint i (some (s.reconfigure p c))).Metered := by
  obtain ⟨hper, -, -⟩ := s.periodsConsistent_iff.1 h.periods
  have hnext : ∀ q : Point, q.period = p.period → PeriodAt s.close q := fun q hq => by
    rw [PeriodAt, hq]
    refine ⟨(hper i p hp).1, fun n hn => .inl (((hper i p hp).2 n hn).resolve_right fun ⟨e, _⟩ => ?_)⟩
    have hn : s.close.inFlight = some n := hn
    rw [State.closePending, hn, e] at hb
    simp at hb
  have key : ∀ q : Point, (q = if c.clock = p.config.clock then { p with config := c }
      else s.takeUpClock { s.cutPoint p with config := c, ring := [], contribution := 0 }) →
      HoldsAt s.clocks q ∧ SubAt s.clocks s.supply.vdd s.time.calendar.isSome q ∧ q.period = p.period := by
    rintro q rfl
    split
    · rename_i hclock
      have hk : RingKept p { p with config := c } := .of_eq hclock rfl rfl rfl rfl
      refine ⟨(h.holds i p hp).kept (.refl _) hk, ?_, rfl⟩
      have hsub := h.subs i p hp
      simp only [SubAt, ← OnEnabled.congr (.refl s.clocks) hk.clock] at hsub
      exact hsub
    · obtain ⟨hhold, hperiod⟩ := s.cutPoint_hold p
      obtain ⟨h1, h2, h3⟩ := s.takeUpClock_derived s.supply.vdd
        (p := { s.cutPoint p with config := c, ring := [], contribution := 0 }) rfl
        (s.cutPoint_sub (h.subs i p hp).1) (fun hop => by
          have hheld : p.held = true := by
            have hop : (s.cutPoint p).operator = true := hop
            rw [hhold.operator] at hop
            simp [Point.held, hop]
          exact hhold.seen hheld ((h.holds i p hp).2.1 hheld))
      exact ⟨h1, h2, h3.trans hperiod⟩
  unfold State.reconfigure
  obtain ⟨h1, h2, h3⟩ := key _ rfl
  dsimp only
  generalize (if c.clock = p.config.clock then { p with config := c }
      else s.takeUpClock { s.cutPoint p with config := c, ring := [], contribution := 0 }) = q at *
  split
  · obtain ⟨hring, hsub, hperiod⟩ := q.raiseStatus_kept .loss
    refine h.setPoint i (h1.kept (.refl _) hring) ?_ (hnext _ (hperiod.trans h3))
    simp only [SubAt, hsub, OnEnabled.congr (.refl s.clocks) hring.clock]
    exact h2
  · exact h.setPoint i h1 h2 (hnext q h3)

/-! ## Holds -/

theorem State.Metered.hold (h : s.Metered) {i : Fin 32} {p : Point} (hp : s.points[i] = some p) :
    (s.setPoint i (some p.hold)).Metered := by
  obtain ⟨hper, -, -⟩ := s.periodsConsistent_iff.1 h.periods
  obtain ⟨h1, h2, h3, h4⟩ := h.holds i p hp
  unfold Point.hold
  split
  · exact h.keepPoint hp (.refl p)
  · refine h.setPoint i ⟨h1, fun _ => ?_, h3, h4⟩ ?_ (hper i p hp)
    · simp [Point.markHeld, Point.raisePeriod, hasFlag_addFlag, PeriodFlag.place]
    · have hs := h.subs i p hp
      rw [SubAt, ← Option.isSome_map (f := fun b : SubInterval =>
        { b with quality := addFlag b.quality QualityFlag.held.place })] at hs
      exact hs

theorem State.Metered.release (h : s.Metered) {i : Fin 32} {p : Point} (hp : s.points[i] = some p) :
    (s.setPoint i (some p.release)).Metered := by
  obtain ⟨hper, -, -⟩ := s.periodsConsistent_iff.1 h.periods
  obtain ⟨h1, h2, h3, h4⟩ := h.holds i p hp
  refine h.setPoint i ⟨h1, fun hh => h2 ?_, h3, h4⟩ (h.subs i p hp) (hper i p hp)
  have hh : p.conflict = true := by simpa [Point.release, Point.held] using hh
  simp [Point.held, hh]

theorem Point.takeReading_kept (p : Point) (d : ReadingData) : MeterKept p (p.takeReading d).1 := by
  obtain ⟨hf, hsub⟩ := p.takeReading_frame d
  rw [ReadingFrame] at hf
  exact ⟨.of_eq (by rw [hf]) (by rw [hf]) (by rw [hf]) (by rw [hf]) (by rw [hf]), hsub, by rw [hf]⟩

end Sys2Proof.Machine
end

section
/-! PROOF. The invariants through starts and losses of supply, then through every turn (R11, R94, R186). -/

namespace Sys2Proof.Machine

variable {s t : State}

/-! ## Starts -/

/-- A point cut and restarted (R11): no sub-interval, no ring, its hold marks and its period kept. -/
theorem State.restartedPoint_kept (s : State) (p : Point) : RingKept p (s.cutPoint p).warmStart ∧
    (s.cutPoint p).warmStart.sub = (s.cutPoint p).sub ∧ (s.cutPoint p).warmStart.period = p.period := by
  obtain ⟨hhold, hperiod⟩ := s.cutPoint_hold p
  have hwarm : HoldKept (s.cutPoint p) (s.cutPoint p).warmStart :=
    ⟨rfl, rfl, rfl, fun _ h => Point.raisePeriod_keeps { s.cutPoint p with
      ring := [], lastSeq := none
      counters := { (s.cutPoint p).counters with outages := bump (s.cutPoint p).counters.outages } } _ _ h⟩
  exact ⟨⟨hhold.trans hwarm, Nat.zero_le _⟩, rfl, hperiod⟩

theorem State.warmBlocks_metered (h : s.MeteredUnsupplied) :
    s.warmBlocks.MeteredUnsupplied ∧ s.warmBlocks.AllPoints (fun p => p.sub = none) := by
  have hfrom : State.PointsFrom (fun p q => (p.sub.isSome = true → OnEnabled s.clocks p) →
      RingKept p q ∧ q.sub = none ∧ q.period = p.period) s s.warmBlocks :=
    .map s.warmBlocks_points fun p hp => by
      obtain ⟨hring, hsub, hperiod⟩ := s.restartedPoint_kept p
      exact ⟨hring, hsub.trans (s.cutPoint_sub hp), hperiod⟩
  refine ⟨h.carry (fun i q hq => ?_) (fun k => by rw [s.warmBlocks_clocks]; exact ⟨rfl, fun _ => rfl⟩) rfl,
    h.subs.carry hfrom fun p q hp hpq => (hpq hp).2.1⟩
  obtain ⟨p, hp, hpq⟩ := hfrom i q hq
  refine ⟨p, hp, fun hsub => ?_⟩
  obtain ⟨h1, h2, h3⟩ := hpq hsub
  exact ⟨h1, by rw [h2]; exact (fun e => nomatch e), h3⟩

/-- A close in flight is complete after a warm start's completion: the points of pending clocks that were still in it
have closed (R106, R110). -/
theorem State.warmClose_metered (h : s.MeteredUnsupplied) (hsub : s.AllPoints (fun p => p.sub = none))
    (stamp : Option CalTime) :
    (s.warmClose stamp).MeteredUnsupplied ∧ (s.warmClose stamp).AllPoints (fun p => p.sub = none) := by
  have htiming := (SettingsKept.warmClose s stamp).timing
  unfold State.warmClose at htiming ⊢
  cases hn : s.close.inFlight with
  | none => exact ⟨h, hsub⟩
  | some n =>
    rw [hn] at htiming
    dsimp only at htiming ⊢
    have hfrom : State.PointsFrom (fun p q => RingKept p q ∧ q.sub = p.sub ∧ q.period =
        if (∃ k : Fin 4, p.config.clock = some k ∧ hasFlag s.close.pendingSet k.val = true) ∧ p.period = n
        then n + 1 else p.period) s ((s.settlePending n stamp).completeClose n) := by
      refine .map (fun i => by rw [State.completeClose_points, State.settlePending_points]) fun p => ?_
      by_cases hk : ∃ k : Fin 4, p.config.clock = some k ∧ hasFlag s.close.pendingSet k.val = true
      · rw [if_pos hk]; simp only [hk, true_and]; exact s.sharedPoint_kept p n
      · simp [hk, RingKept.refl]
    have hall : ((s.settlePending n stamp).completeClose n).AllPoints (fun p => p.sub = none) :=
      hsub.carry hfrom fun p q hp hpq => hpq.2.1.trans hp
    refine ⟨⟨h.holds.carry hfrom fun p q hp hpq => hp.kept htiming hpq.1, fun i q hq hs => ?_, ?_⟩, hall⟩
    · rw [hall i q hq] at hs; exact nomatch hs
    · refine ⟨fun _ => ⟨by rw [State.completeClose_close], fun i q hq => ?_⟩, fun m hm => ?_⟩
      · obtain ⟨p, hp, -, -, hperiod⟩ := hfrom i q hq
        rw [State.completeClose_close, hperiod]
        rcases (h.periods.2 n hn).2.2.2 i p hp with hnext | ⟨hthis, hk⟩
        · split
          · rfl
          · exact hnext
        · rw [if_pos ⟨hk, hthis⟩]
      · rw [State.completeClose_close] at hm; exact nomatch hm

/-- A warm start keeps the invariants, from a part with supply or without (R11, R186). -/
theorem State.MeteredUnsupplied.warmStart (h : s.MeteredUnsupplied) : s.warmStart.Metered := by
  obtain ⟨hblocks, hnosub⟩ := State.warmBlocks_metered h
  obtain ⟨hclosed, hsub⟩ := State.warmClose_metered hblocks hnosub s.time.calendar
  have hm := s.warmStart_meter
  have htime := s.warmStart_settings.2.2.2
  generalize s.warmBlocks.warmClose s.time.calendar = w at *
  have hnone : s.warmStart.time.calendar = none := by rw [htime]; rfl
  generalize s.warmStart = v at *
  have hvsub : v.AllPoints (fun p => p.sub = none) := hsub.same hm.points
  refine ⟨?_, fun i p hp => ?_, ?_⟩
  · rw [hm.clocks]; exact hclosed.holds.same hm.points
  · rw [SubAt, hvsub i p hp, hnone]
    exact ⟨fun e => (nomatch e), fun _ => ⟨fun e => (nomatch e), fun e => nomatch e.1⟩⟩
  · rw [State.PeriodsConsistent, hm.points, hm.clocks, hm.close]; exact hclosed.periods

/-- One point's close in a completion (R98, R110). -/
theorem State.MeteredUnsupplied.closePoint (h : s.MeteredUnsupplied) {n : BitVec 16} (hn : s.close.inFlight = some n)
    {i : Fin 32} {p : Point} (hp : s.points[i] = some p) (stamp : Option CalTime) :
    (s.closePoint i p n stamp true).MeteredUnsupplied := by
  obtain ⟨hring, hsub, hperiod⟩ := s.settledPoint_kept p n
  obtain ⟨hper, hpend, hidle⟩ := s.periodsConsistent_iff.1 h.periods
  refine ⟨State.AllPoints.setPoint (h.holds.same rfl) i _ ((h.holds i p hp).kept (.refl _) hring),
    State.AllPoints.setPoint (h.subs.same rfl) i _ fun hs => ?_,
    (State.periodsConsistent_iff _).2 ⟨State.AllPoints.setPoint (hper.same rfl) i _ ?_, hpend, hidle⟩⟩
  · rw [hsub] at hs
    exact (OnEnabled.congr (.refl s.clocks) hring.clock).2 (h.subs i p hp hs)
  · rw [PeriodAt, hperiod]
    refine ⟨fun e => ?_, fun m hm => .inl ?_⟩
    · rw [hn] at e; exact nomatch e
    · rw [hn] at hm; cases hm; rfl

/-- A pending clock's leaving of the pending set, none of its points being due any more (R96, R110). -/
theorem State.MeteredUnsupplied.leaveClose (h : s.MeteredUnsupplied) {n : BitVec 16} (hn : s.close.inFlight = some n)
    {k : Fin 4} (hdone : ∀ (i : Fin 32) (p : Point), s.points[i] = some p → p.dueAt k n = false) :
    ((s.leaveClose k).completeIfEmpty n).MeteredUnsupplied := by
  have hc := State.closingAt_of_inFlight h.periods hn
  have hfrom : State.PointsFrom MeterKept s ((s.leaveClose k).completeIfEmpty n) := by
    refine .map (fun i => by rw [State.completeIfEmpty_points, State.leaveClose_points]) fun p => ?_
    split
    · exact p.noContribution_kept
    · exact .refl p
  have htiming := ((SettingsKept.leaveClose s k).trans (.completeIfEmpty _ n)).timing
  have hleft := (SettingsKept.leaveClose s k).timing
  refine ⟨h.holds.carry hfrom fun p q hp hpq => hp.kept htiming hpq.1, h.subs.carry hfrom fun p q hp hpq hq => ?_,
    State.ClosingAt.completeIfEmpty ⟨hn, hc.device, fun j hj => ?_, fun i q hq => ?_⟩⟩
  · rw [hpq.2.1] at hq
    exact (OnEnabled.congr htiming hpq.1.clock).2 (hp hq)
  · rw [State.leaveClose_close, hasFlag_dropFlag, Bool.and_eq_true] at hj
    rw [(hleft j).1]; exact hc.enabled j hj.1
  · have hq' : ((s.leaveClose k).completeIfEmpty n).points[i] = some q := by
      rw [State.completeIfEmpty_points]; exact hq
    obtain ⟨p, hp, hring, -, hperiod⟩ := hfrom i q hq'
    beta_reduce
    rw [hperiod, hring.clock, State.leaveClose_close]
    refine (hc.points i p hp).imp_right fun ⟨h1, j, hj, hjp⟩ => ⟨h1, j, hj, ?_⟩
    have hjk : ¬ k.val = j.val := by
      intro e
      obtain rfl : k = j := Fin.ext e
      have := hdone i p hp
      simp [Point.dueAt, Point.onClock, hj, h1] at this
    rw [hasFlag_dropFlag, hjp, decide_eq_false hjk]; rfl

/-- What a broken start leaves meets the invariants of an unsupplied part (R183). -/
theorem State.MeteredUnsupplied.partClosed (h : s.MeteredUnsupplied) (b : StartBreak) :
    (s.partClosed b).MeteredUnsupplied := by
  have hblocks : (s.partBlocks b).MeteredUnsupplied := by
    refine h.carry (fun i q hq => ?_) (fun k => ?_) rfl
    · rw [show (s.partBlocks b).points[i] = _ from s.warmPointsIn_points b.points i, Option.map_eq_some_iff] at hq
      obtain ⟨p, hp, rfl⟩ := hq
      refine ⟨p, hp, fun hp => ?_⟩
      split
      · obtain ⟨hring, hsub, hperiod⟩ := s.restartedPoint_kept p
        exact ⟨hring, by rw [hsub, s.cutPoint_sub hp]; exact (fun e => nomatch e), hperiod⟩
      · exact ⟨.refl p, id, rfl⟩
    · have e := (s.warmPointsIn b.points).warmClocksIn_clocks b.clocks k
      rw [show (s.partBlocks b).clocks[k] = _ from e]
      split <;> exact ⟨rfl, fun _ => rfl⟩
  unfold State.partClosed
  split
  · cases hn : (s.partBlocks b).close.inFlight with
    | none => rw [State.warmCloseFirst, hn]; exact hblocks
    | some n =>
      exact State.warmCloseFirst_keeps (R := State.MeteredUnsupplied) (closing := n)
        (fun t i p k ht hf _ hp _ => ht.closePoint hf hp _)
        (fun t k ht hf _ hdone => ht.leaveClose hf hdone) _ _ hblocks (by simp [hn])
  · exact hblocks

theorem State.MeteredUnsupplied.same (h : s.MeteredUnsupplied) (hpoints : t.points = s.points)
    (hclocks : t.clocks = s.clocks) (hclose : t.close = s.close) : t.MeteredUnsupplied :=
  h.carry (.same hpoints fun p _ => ⟨.refl p, id, rfl⟩) (hclocks ▸ .refl _) hclose

theorem State.coldDomain_metered (s : State) (v r : Bool) : (s.coldDomain v r).Metered := by
  have hnone : ∀ (A : Point → Prop), (s.coldDomain v r).AllPoints A := fun A i p hp => by
    have e : (s.coldDomain v r).points[i] = none := by simp [State.coldDomain, State.reset]
    rw [e] at hp; exact nomatch hp
  exact ⟨hnone _, hnone _, fun _ => ⟨rfl, hnone _⟩, fun n hn => nomatch hn⟩

/-! ## Turns and steps -/

theorem State.live_vdd (h : s.live = true) : s.supply.vdd = true := by
  rw [State.live, Bool.and_eq_true] at h; exact h.1

/-- Every turn keeps the invariants. -/
theorem Turn.metered (h : Turn s t) (hs : s.Metered) : t.Metered := by
  cases h
  case still => exact hs
  case reading i p d hp => exact hs.keepPoint hp (p.takeReading_kept d)
  case mark order c hl _ => exact hs.takeTime (State.live_vdd hl) order c
  case invalidMark => exact hs.same rfl rfl rfl rfl rfl
  case advance order c hl _ hc => exact hs.selfAdvance (State.live_vdd hl) order hc
  case configure i c _ _ _ _ => exact hs.configure i c
  case reconfigure i p c _ _ hp hb _ => exact hs.reconfigure hp hb c
  case remove i _ _ _ _ => exact hs.dropPoint i
  case hold i p hp => exact hs.hold hp
  case release i p hp => exact hs.release hp
  case clock a _ _ _ hfree => exact hs.applyClock hfree
  case load => exact hs.same rfl rfl rfl rfl rfl
  case activate => exact hs.same rfl rfl rfl rfl rfl
  case close hl hf => exact hs.startClose (State.live_vdd hl) hf
  case clearStatus i p hp => exact hs.keepPoint hp ⟨.of_eq rfl rfl rfl rfl rfl, rfl, rfl⟩
  case clearBits set =>
    refine hs.kept (fun i q hq => ?_) (.refl _) rfl rfl rfl
    have e : (s.clearPoints set).points[i] =
        if hasFlag set i.val then s.points[i].map (fun p => { p with attention := false }) else s.points[i] := by
      simp [State.clearPoints]
    rw [e] at hq
    split at hq
    · obtain ⟨p, hp, rfl⟩ := Option.map_eq_some_iff.1 hq
      exact ⟨p, hp, .of_eq rfl rfl rfl rfl rfl, rfl, rfl⟩
    · exact ⟨q, hq, .refl q⟩
  case decoder => exact hs.same rfl rfl rfl rfl rfl
  case pins p hp => exact hs.same rfl rfl hp rfl rfl
  case warm p _ => exact State.MeteredUnsupplied.warmStart (hs.weaken.same rfl rfl rfl)
  case broken p b =>
    have hpart := State.MeteredUnsupplied.partClosed
      (s := { s with supply := p }) (hs.weaken.same rfl rfl rfl) b
    have hl := LoopFrame.warmStartPart { s with supply := p } b
    generalize State.warmStartPart { s with supply := p } b = w at *
    exact State.MeteredUnsupplied.metered (hpart.same hl.points hl.clocks hl.close) rfl
  case loss => exact State.MeteredUnsupplied.metered (hs.weaken.same rfl rfl rfl) rfl
  case cold v r _ => exact s.coldDomain_metered v r

theorem LinkFrame.metered (h : LinkFrame s t) (hs : s.Metered) : t.Metered :=
  hs.same h.points h.clocks (by rw [h.supply]) (by rw [h.time]) h.close

theorem step_metered (h : step s = .next t) (hs : s.Metered) : t.Metered := by
  obtain ⟨pending, line, u, v, hbefore, hturn, hafter⟩ := step_moved h
  exact hafter.metered (hturn.metered (hbefore.metered (hs.same rfl rfl rfl rfl rfl)))

end Sys2Proof.Machine

namespace Sys2Proof.Proofs

open Sys2Proof.Machine

/-- Settles O56: the three invariants are kept together by every turn of the part (`Turn.metered`), and a step is at
most one turn between two moves of the loop, which touch none of them. -/
theorem stepKeepsHoldsSubIntervalsAndPeriods : Obligations.StepKeepsHoldsSubIntervalsAndPeriods := by
  intro s t hholds hsubs hperiods hstep
  obtain ⟨h1, h2, h3⟩ := step_metered hstep ⟨hholds, hsubs, hperiods⟩
  exact ⟨h1, h2, h3⟩

end Sys2Proof.Proofs
end

section
/-! PROOF. What the octets of a request's arguments say, and how a request that the part takes is answered: the layer
under the statements about requests (R146, R163, R165, R172, R173, R190, R192). -/

namespace Sys2Proof.Machine

open Sys2Proof.Statements

/-! ## Single octets -/

theorem oct_toNat_of_lt {v : Nat} (h : v < 256) : (oct v).toNat = v := by
  simpa [oct] using h

@[simp] theorem finOf_self {n : Nat} (i : Fin n) : finOf n i.val = some i := by simp [finOf]

theorem finOf_eq_none {n v : Nat} : finOf n v = none ↔ n ≤ v := by simp [finOf]

theorem finOf_isSome {n v : Nat} : (finOf n v).isSome ↔ v < n := by unfold finOf; split <;> simp [*]

@[simp] theorem octetAt_cons_zero (o : Byte) (os : List Byte) : octetAt (o :: os) 0 = o := rfl

/-- The octet of an index names it. -/
theorem finOf_oct {n : Nat} (hn : n ≤ 256) (i : Fin n) : finOf n (oct i.val).toNat = some i := by
  rw [oct_toNat_of_lt (by omega), finOf_self]

theorem finOrNone_noneOctet {n : Nat} (hn : n ≤ 255) (c : Option (Fin n)) : finOrNone n (noneOctet c) = some c := by
  cases c with
  | none => rfl
  | some i =>
    have hi : oct i.val ≠ 0xFF := fun e => by
      have : (oct i.val).toNat = 255 := by rw [e]; rfl
      rw [oct_toNat_of_lt (by omega)] at this
      omega
    rw [noneOctet, finOrNone, if_neg hi, finOf_oct (by omega)]; rfl

theorem noneOctet_of_finOrNone {n : Nat} {o : Byte} {c : Option (Fin n)} (h : finOrNone n o = some c) :
    noneOctet c = o := by
  unfold finOrNone at h
  split at h
  next ho => cases h; exact ho.symm
  next =>
    obtain ⟨i, hi, rfl⟩ := Option.map_eq_some_iff.1 h
    rw [noneOctet, finOf_val hi, oct_toNat]

theorem finOrNone_isSome {n : Nat} (o : Byte) :
    (finOrNone n o).isSome ↔ o.toNat < n ∨ o.toNat = 255 := by
  unfold finOrNone finOf
  split
  next ho => simp [ho]
  next ho =>
    have : o.toNat ≠ 255 := fun e => ho (BitVec.eq_of_toNat_eq e)
    split <;> simp <;> omega

@[simp] theorem boolOf_octBool (b : Bool) : boolOf (octBool b) = some b := by cases b <;> rfl

theorem octBool_of_boolOf {o : Byte} {b : Bool} (h : boolOf o = some b) : octBool b = o := by
  unfold boolOf at h
  split at h
  next ho => cases h; exact ho.symm
  next => split at h <;> cases h; exact Eq.symm ‹_›

theorem boolOf_isSome {o : Byte} : (boolOf o).isSome ↔ o.toNat ≤ 1 := by
  unfold boolOf
  split
  next h => simp [h]
  next h0 =>
    split
    next h => simp [h]
    next h1 =>
      have : o.toNat ≠ 0 := fun e => h0 (BitVec.eq_of_toNat_eq e)
      have : o.toNat ≠ 1 := fun e => h1 (BitVec.eq_of_toNat_eq e)
      simp only [Option.isSome_none, Bool.false_eq_true, false_iff]
      omega

theorem boolOf_eq_none {o : Byte} : boolOf o = none ↔ 1 < o.toNat := by
  rw [← Option.not_isSome_iff_eq_none, boolOf_isSome, Nat.not_le]

/-! ## Numbers of several octets -/

/-- The octets of a number read after others: the value so far moves up, and the number's low octets follow. -/
theorem beBytes_foldl (n v a : Nat) :
    (beBytes n v).foldl (fun a o => a * 256 + o.toNat) a = a * 256 ^ n + v % 256 ^ n := by
  induction n generalizing a with
  | zero => simp [beBytes, Nat.mod_one]
  | succ n ih =>
    have hmod : v % 256 ^ (n + 1) = v / 256 ^ n % 256 * 256 ^ n + v % 256 ^ n := by
      rw [pow_succ, Nat.mod_mul, Nat.mul_comm (256 ^ n), Nat.add_comm]
    rw [beBytes, List.foldl_cons, ih, BitVec.toNat_ofNat, hmod]
    ring

theorem beNat_beBytes {n v : Nat} (h : v < 256 ^ n) : beNat (beBytes n v) = v := by
  rw [beNat, beBytes_foldl, Nat.mod_eq_of_lt h, Nat.zero_mul, Nat.zero_add]

/-- Octets read after a value: shifted back by as many octets it is there again. -/
theorem foldl_octets_div (os : List Byte) (a : Nat) :
    os.foldl (fun a o => a * 256 + o.toNat) a / 256 ^ os.length = a := by
  induction os generalizing a with
  | nil => simp
  | cons o os ih =>
    rw [List.foldl_cons, List.length_cons, pow_succ, ← Nat.div_div_eq_div_mul, ih]
    have := o.isLt
    omega

theorem beBytes_foldl_octets (os : List Byte) (a : Nat) :
    beBytes os.length (os.foldl (fun a o => a * 256 + o.toNat) a) = os := by
  induction os generalizing a with
  | nil => rfl
  | cons o os ih =>
    rw [List.length_cons, List.foldl_cons, beBytes, foldl_octets_div, ih]
    congr 1
    exact BitVec.eq_of_toNat_eq (by rw [BitVec.toNat_ofNat]; have := o.isLt; omega)

theorem beBytes_beNat (os : List Byte) : beBytes os.length (beNat os) = os := beBytes_foldl_octets os 0

theorem beNat_lt (os : List Byte) : beNat os < 256 ^ os.length :=
  (Nat.div_eq_zero_iff.1 (foldl_octets_div os 0)).resolve_left (by positivity)

/-! ## The configuration record (R1, R192) -/

theorem octetAt_toNat (os : List Byte) (k : Nat) : (octetAt os k).toNat = numberAt os k 1 := by
  rw [octetAt, numberAt, List.getD_eq_getElem?_getD, ← List.head?_drop]
  cases os.drop k <;> simp

/-- A record in range is read back from its octets. -/
theorem parseConfig_octets {c : PointConfig} (h : c.InRange) : parseConfig c.octets = some c := by
  obtain ⟨hw, hl, hp, hc⟩ := h
  have h0 : octetAt c.octets 0 = noneOctet c.clock := rfl
  have h1 : octetAt c.octets 1 = oct c.schedule.val := rfl
  have h2 : octetAt c.octets 2 = noneOctet c.option := rfl
  have h3 : field c.octets 3 4 = c.contract := beNat_beBytes (n := 4) (Nat.lt_succ_of_le hc)
  have h7 : (octetAt c.octets 7).toNat = c.warnPercent := oct_toNat_of_lt (by omega)
  have h8 : (octetAt c.octets 8).toNat = c.lossLimit := oct_toNat_of_lt (by omega)
  have h9 : field c.octets 9 4 = c.plausibility := beNat_beBytes (n := 4) (Nat.lt_succ_of_le hp.2)
  have h13 : (octetAt c.octets 13).toNat = c.attentionMask.toNat := oct_toNat_of_lt (by omega)
  have h14 : octetAt c.octets 14 = octBool c.forward := rfl
  simp [parseConfig, ensure, h0, h1, h2, h3, h7, h8, h9, h13, h14, finOrNone_noneOctet, finOf_oct, hw, hl, hp.1,
    c.attentionMask.isLt]

/-- The number in a field gives the field's octets back. -/
theorem beBytes_field {os : List Byte} {k n : Nat} (h : k + n ≤ os.length) :
    beBytes n (field os k n) = (os.drop k).take n := by
  have hlen : ((os.drop k).take n).length = n := by rw [List.length_take, List.length_drop]; omega
  have h := beBytes_beNat ((os.drop k).take n)
  rwa [hlen] at h

theorem field_lt (os : List Byte) (k n : Nat) : field os k n < 256 ^ n :=
  (beNat_lt _).trans_le (Nat.pow_le_pow_right (by decide) (List.length_take_le _ _))

/-- Octets read as a record are in range, and are that record's octets. -/
theorem parseConfig_inRange {os : List Byte} {c : PointConfig} (hlen : os.length = 15)
    (h : parseConfig os = some c) : c.InRange ∧ os = c.octets := by
  simp only [parseConfig, ensure, Option.bind_eq_bind, Option.bind_eq_some_iff, Option.pure_def] at h
  obtain ⟨clock, hclock, schedule, hschedule, option, hoption, forward, hforward, _, he, hc⟩ := h
  split at he <;> cases he
  rename_i hb
  simp only [Bool.and_eq_true, decide_eq_true_eq] at hb
  obtain ⟨⟨⟨hw, hl⟩, hp⟩, hm⟩ := hb
  cases hc
  refine ⟨⟨hw, hl, ⟨hp, Nat.le_of_lt_succ (field_lt os 9 4)⟩, Nat.le_of_lt_succ (field_lt os 3 4)⟩, ?_⟩
  simp only [PointConfig.octets, noneOctet_of_finOrNone hclock, noneOctet_of_finOrNone hoption, finOf_val hschedule,
    octBool_of_boolOf hforward, beBytes_field (os := os) (k := 3) (n := 4) (by omega),
    beBytes_field (os := os) (k := 9) (n := 4) (by omega), BitVec.toNat_ofNat, Nat.mod_eq_of_lt hm, oct_toNat]
  match os, hlen with
  | [_, _, _, _, _, _, _, _, _, _, _, _, _, _, _], _ => rfl

/-- Octets are read as a record exactly when every field is in range. -/
theorem parseConfig_isSome (os : List Byte) : (parseConfig os).isSome ↔ RecordInRange os := by
  have hp : numberAt os 9 4 = field os 9 4 := rfl
  simp only [RecordInRange, ← octetAt_toNat, hp]
  constructor
  · intro h
    obtain ⟨c, h⟩ := Option.isSome_iff_exists.1 h
    simp only [parseConfig, ensure, Option.bind_eq_bind, Option.bind_eq_some_iff, Option.pure_def] at h
    obtain ⟨_, hclock, _, hschedule, _, hoption, _, hforward, _, he, -⟩ := h
    split at he <;> cases he
    rename_i hb
    simp only [Bool.and_eq_true, decide_eq_true_eq] at hb
    have h0 := (finOrNone_isSome _).1 (Option.isSome_of_eq_some hclock)
    have h1 := finOf_isSome.1 (Option.isSome_of_eq_some hschedule)
    have h2 := (finOrNone_isSome _).1 (Option.isSome_of_eq_some hoption)
    have h14 := boolOf_isSome.1 (Option.isSome_of_eq_some hforward)
    omega
  · rintro ⟨h0, h1, h2, h7, h8, h9, h13, h14⟩
    obtain ⟨_, hclock⟩ := Option.isSome_iff_exists.1 ((finOrNone_isSome (n := 4) _).2 (h0.imp_left Nat.lt_succ_of_le))
    obtain ⟨_, hschedule⟩ := Option.isSome_iff_exists.1 (finOf_isSome (n := 8).2 (Nat.lt_succ_of_le h1))
    obtain ⟨_, hoption⟩ := Option.isSome_iff_exists.1 ((finOrNone_isSome (n := 4) _).2 (h2.imp_left Nat.lt_succ_of_le))
    obtain ⟨_, hforward⟩ := Option.isSome_iff_exists.1 (boolOf_isSome.2 h14)
    simp [parseConfig, ensure, hclock, hschedule, hoption, hforward, h7, h8, h9, Nat.lt_succ_of_le h13]

/-! ## The point a request names -/

/-- The octet of a point index names the point. -/
theorem finOf_point (i : Fin 32) : finOf 32 (oct i.val).toNat = some i := finOf_oct (by decide) i

/-- A point's reply names its state: HELD, else LOSS, else ACTIVE (R2, R192). -/
theorem pointReply_state (i : Fin 32) (p : Point) (n : BitVec 16) :
    pointReply i p.state n = pointData i
      (if p.operator = true ∨ p.conflict = true then 3 else if p.config.lossLimit ≤ p.missingCount then 2 else 1) n := by
  by_cases hheld : p.operator = true ∨ p.conflict = true
  · simp [pointReply, pointData, Point.state, Point.held, PointState.octet, hheld]
  · by_cases hloss : p.config.lossLimit ≤ p.missingCount <;>
      simp [pointReply, pointData, Point.state, Point.held, Point.inLoss, PointState.octet, hheld, hloss]

/-! ## A request that is taken up (R163, R165, R172, R173) -/

section
variable {s u : State} {r : Request} {k : RequestKind} {os : List Byte} {c : ReplyCode} {data : List Byte}

theorem ready_live (h : Ready s r) : s.live = true := by
  obtain ⟨⟨hv, hr⟩, -⟩ := h
  simp [State.live, hv, hr]

theorem isStation_addressed {address : Byte} (h : AddressedTo s address) : s.isStation address = true := by
  obtain ⟨n, hn, rfl⟩ := h
  simp [State.isStation, hn]

theorem ready_room (h : Ready s r) : s.port.queue.length < 8 := h.2.2.1

theorem ready_frame (h : Ready s r) (k : RequestKind) : (r.frame k).lengthOk = true :=
  Request.frame_lengthOk k r (by simpa [Request.fits] using h.2.2.2)

/-- What a ready request with arguments of its kind's length does is its own rule's answer. -/
theorem request_reply {rule : State → List Byte → Answer} (h : Ready s r) (hargs : r.args = os)
    (hlen : k.argLength.getD os.length = os.length) :
    s.request k r (fun u => rule u r.args) = (rule (hunting s) os).reply r.tag k.code := by
  subst hargs
  rw [State.request, isStation_addressed h.2.1]
  refine State.takeRequest_rule _ (ready_live h) (ready_frame h k) (ready_room h) fun n hn => ?_
  rwa [hn, Option.getD_some, eq_comm] at hlen

theorem reply_refusal : (Answer.refusal u c).reply r.tag k.code = answered (u.raiseForCode c) r k c [] := rfl

theorem reply_taken : (Answer.taken u data).reply r.tag k.code = answered u r k .ok data := rfl

/-- A request its rule refuses. -/
theorem request_refused {rule : State → List Byte → Answer} (h : Ready s r) (hargs : r.args = os)
    (hlen : k.argLength.getD os.length = os.length)
    (hrule : rule (hunting s) os = Answer.refusal (hunting s) c) :
    (.next (s.request k r (fun u => rule u r.args)) : Host.Outcome State Fault Refusal) =
      .next (answered ((hunting s).raiseForCode c) r k c []) := by
  rw [request_reply h hargs hlen, hrule, reply_refusal]

/-- A request its rule takes. -/
theorem request_taken {rule : State → List Byte → Answer} (h : Ready s r) (hargs : r.args = os)
    (hlen : k.argLength.getD os.length = os.length) (hrule : rule (hunting s) os = Answer.taken u data) :
    (.next (s.request k r (fun u => rule u r.args)) : Host.Outcome State Fault Refusal) =
      .next (answered u r k .ok data) := by
  rw [request_reply h hargs hlen, hrule, reply_taken]

/-- Arguments that are not of their kind's length are answered LENGTH. -/
theorem takeRequest_wrongLength {rule : State → Answer} (h : Ready s r) {n : Nat} (hk : k.argLength = some n)
    (ha : r.args.length ≠ n) :
    s.takeRequest k r true rule = answered (hunting s) r k .length [] := by
  have hroom : s.huntFramer.replyRoom = true := by
    simp [State.replyRoom, State.huntFramer, Config.queuePlaces, ready_room h]
  rw [State.takeRequest, State.receive_good _ (ready_live h) (ready_frame h k)]
  simp only [hroom, if_true, hk, Option.map_some, Option.getD_some, decide_eq_true_eq, ha, if_false]
  rfl

end

end Sys2Proof.Machine
end

section
/-! PROOF. The requests on a point: what SET POINT, REMOVE POINT, HOLD POINT and RELEASE POINT do in each of their
cases (R12 to R17). -/

namespace Sys2Proof.Machine

open Sys2Proof.Statements

section
variable {u : State} {i : Fin 32} {p : Point} {c : PointConfig} {os : List Byte}

/-! ## REMOVE POINT, HOLD POINT and RELEASE POINT -/

/-- A point request that is taken gives the point as its change leaves it, with the point's state. -/
theorem State.pointTaken_eq (u : State) (i : Fin 32) (q : Point) :
    u.pointTaken i q = Answer.taken { u with points := u.points.set i (some q) } (pointData i
      (if q.operator = true ∨ q.conflict = true then 3 else if q.config.lossLimit ≤ q.missingCount then 2 else 1)
      q.period) := by
  rw [State.pointTaken, pointReply_state]; rfl

theorem State.pointTaken_held (hq : p.operator = true ∨ p.conflict = true) :
    u.pointTaken i p = Answer.taken { u with points := u.points.set i (some p) } (pointData i 3 p.period) := by
  rw [State.pointTaken_eq, if_pos hq]

theorem State.anyLock_unlocked (h : Unlocked u) : u.anyLock = false := by
  obtain ⟨hc, hm⟩ := h
  simp [State.anyLock, hc, hm]

theorem State.removePointRule_locked (h : u.anyLock = true) :
    u.removePointRule [oct i.val] = Answer.refusal u .locked := by
  simp only [State.removePointRule, octetAt_cons_zero, finOf_point, h, if_true]

theorem State.removePointRule_unused (h : u.anyLock = false) (hp : u.points[i] = none) :
    u.removePointRule [oct i.val] = Answer.refusal u .noPoint := by
  simp only [State.removePointRule, octetAt_cons_zero, finOf_point, h, hp, Bool.false_eq_true, if_false]

theorem State.removePointRule_busy (h : u.anyLock = false) (hp : u.points[i] = some p)
    (hb : u.closePending p = true) : u.removePointRule [oct i.val] = Answer.refusal u .busy := by
  simp only [State.removePointRule, octetAt_cons_zero, finOf_point, h, hp, hb, if_true, Bool.false_eq_true, if_false]

theorem State.removePointRule_taken (h : u.anyLock = false) (hp : u.points[i] = some p)
    (hb : u.closePending p = false) :
    u.removePointRule [oct i.val] = Answer.taken
      { u with points := u.points.set i none, freeIndex := u.freeIndex + 1 }
      (pointData i 0 (Config.removedPeriod u.freeIndex)) := by
  simp only [State.removePointRule, octetAt_cons_zero, finOf_point, h, hp, hb, Bool.false_eq_true, if_false]
  rfl

theorem State.holdRule_locked (change : Point → Point) (h : u.decoder.commissioning = true) :
    u.holdRule [oct i.val] change = Answer.refusal u .locked := by
  simp only [State.holdRule, octetAt_cons_zero, finOf_point, h, if_true]

theorem State.holdRule_unused (change : Point → Point) (h : u.decoder.commissioning = false)
    (hp : u.points[i] = none) : u.holdRule [oct i.val] change = Answer.refusal u .noPoint := by
  simp only [State.holdRule, octetAt_cons_zero, finOf_point, h, hp, Bool.false_eq_true, if_false]

theorem State.holdRule_taken (change : Point → Point) (h : u.decoder.commissioning = false)
    (hp : u.points[i] = some p) : u.holdRule [oct i.val] change = u.pointTaken i (change p) := by
  simp only [State.holdRule, octetAt_cons_zero, finOf_point, h, hp, Bool.false_eq_true, if_false]

theorem State.queryPointRule_unused {o : Byte} (ho : o.toNat < 4) (hp : u.points[i] = none) :
    u.queryPointRule [oct i.val, o] = Answer.refusal u .noPoint := by
  have h1 : octetAt [oct i.val, o] 1 = o := rfl
  simp only [State.queryPointRule, octetAt_cons_zero, finOf_point, h1, ho, hp, if_true]

end

end Sys2Proof.Machine

namespace Sys2Proof.Proofs

open Sys2Proof.Machine Sys2Proof.Statements

/-- Settles O22: each case is one case of the request's rule. -/
theorem removePointForgetsPoint : Obligations.RemovePointForgetsPoint := by
  intro s r i h
  refine ⟨fun p hu ha hp hb => ?_, fun hp => ⟨fun hu ha => ?_, fun hc ha => ⟨?_, ?_⟩, fun o ho ha => ?_⟩⟩
  · exact request_taken h ha rfl
      (State.removePointRule_taken (State.anyLock_unlocked hu) hp (by simpa [State.closePending] using hb))
  · exact request_refused h ha rfl (State.removePointRule_unused (State.anyLock_unlocked hu) hp)
  · exact request_refused (rule := fun u os => u.holdRule os Point.hold) h ha rfl (State.holdRule_unused _ hc hp)
  · exact request_refused (rule := fun u os => u.holdRule os Point.release) h ha rfl (State.holdRule_unused _ hc hp)
  · exact request_refused h ha rfl (State.queryPointRule_unused ho hp)

/-- Settles O23: both requests give their point as the change leaves it. -/
theorem holdAndReleaseSetOperator : Obligations.HoldAndReleaseSetOperator := by
  intro s r i p h hc ha hp
  have hheld : p.hold.operator = true := by unfold Point.hold; split <;> [assumption; rfl]
  have hold : (hunting s).holdRule [oct i.val] Point.hold = Answer.taken
      { hunting s with points := s.points.set i (some p.hold) } (pointData i 3 p.hold.period) :=
    (State.holdRule_taken (u := hunting s) _ hc hp).trans (State.pointTaken_held (.inl hheld))
  have answer := request_taken (k := .holdPoint) (rule := fun u os => u.holdRule os Point.hold) h ha rfl hold
  refine ⟨fun ho => ?_, fun ho => ?_, ?_⟩
  · rw [Point.hold, if_pos ho] at answer
    exact answer
  · rw [Point.hold, ho] at answer
    exact answer
  · refine request_taken (rule := fun u os => u.holdRule os Point.release) h ha rfl
      ((State.holdRule_taken (u := hunting s) Point.release hc hp).trans ?_)
    rw [State.pointTaken_eq]
    simp only [Point.release, Bool.false_eq_true, false_or]
    rfl

end Sys2Proof.Proofs
end

section
/-! PROOF. What the rules of the requests that a lock or a busy resource refuses do with their arguments (R12, R57,
R92, R131, R150, R156 to R158). -/

namespace Sys2Proof.Machine

open Sys2Proof.Statements

section
variable {u : State} {i : Fin 32} {p : Point} {c : PointConfig}

/-! ## SET POINT -/

theorem State.setPointRule_locked (hc : c.InRange) (h : u.anyLock = true) :
    u.setPointRule (oct i.val :: c.octets) = Answer.refusal u .locked := by
  simp only [State.setPointRule, octetAt_cons_zero, finOf_point, List.drop_one, List.tail_cons,
    parseConfig_octets hc, h, if_true]

theorem State.setPointRule_unused (hc : c.InRange) (h : u.anyLock = false) (hp : u.points[i] = none) :
    u.setPointRule (oct i.val :: c.octets) = u.pointTaken i (u.configure c) := by
  simp only [State.setPointRule, octetAt_cons_zero, finOf_point, List.drop_one, List.tail_cons,
    parseConfig_octets hc, h, hp, Bool.false_eq_true, if_false]

theorem State.setPointRule_busy (hc : c.InRange) (h : u.anyLock = false) (hp : u.points[i] = some p)
    (hb : u.closePending p = true) : u.setPointRule (oct i.val :: c.octets) = Answer.refusal u .busy := by
  simp only [State.setPointRule, octetAt_cons_zero, finOf_point, List.drop_one, List.tail_cons,
    parseConfig_octets hc, h, hp, hb, Bool.false_eq_true, if_false, if_true]

theorem State.setPointRule_configured (hc : c.InRange) (h : u.anyLock = false) (hp : u.points[i] = some p)
    (hb : u.closePending p = false) :
    u.setPointRule (oct i.val :: c.octets) = u.pointTaken i (u.reconfigure p c) := by
  simp only [State.setPointRule, octetAt_cons_zero, finOf_point, List.drop_one, List.tail_cons,
    parseConfig_octets hc, h, hp, hb, Bool.false_eq_true, if_false]

end

/-! ## SET CLOCK -/

/-- A valid timing (R55, R56). -/
theorem validTiming_iff (l w : Nat) : validTiming l w = true ↔
    l ∈ [1, 2, 3, 4, 5, 6, 10, 12, 15, 20, 30, 60] ∧ (1 ≤ w ∧ w ≤ 15) ∧ 60 % (l * w) = 0 := by
  simp [validTiming, validLength, and_assoc]

theorem validTiming_octets {l w : Nat} (h : validTiming l w = true) : l < 256 ∧ w < 256 := by
  obtain ⟨hl, hw, -⟩ := (validTiming_iff l w).1 h
  simp at hl
  omega

/-- The settings of a clock are read back from SET CLOCK's octets. -/
theorem parseClock_octets {l w h : Nat} (k : Fin 4) (e : Bool) (hv : validTiming l w = true) (hh : h ≤ 15) :
    parseClock [oct k.val, octBool e, oct l, oct w, oct h] =
      some { clock := k, enable := e, length := l, window := w, holdLength := h } := by
  obtain ⟨hl, hw⟩ := validTiming_octets hv
  simp [parseClock, octetAt, ensure, finOf_oct, oct_toNat_of_lt, hl, hw, hv, hh,
    oct_toNat_of_lt (show h < 256 by omega)]

section
variable {u : State} {k : Fin 4} {e : Bool} {l w h : Nat}

theorem State.setClockRule_locked (hv : validTiming l w = true) (hh : h ≤ 15) (hu : u.anyLock = true) :
    u.setClockRule [oct k.val, octBool e, oct l, oct w, oct h] = Answer.refusal u .locked := by
  simp only [State.setClockRule, parseClock_octets k e hv hh, hu, if_true]

theorem State.setClockRule_busy (hv : validTiming l w = true) (hh : h ≤ 15) (hu : u.anyLock = false)
    (he : u.clocks[k].enabled = true) (hne : l ≠ u.clocks[k].length ∨ w ≠ u.clocks[k].window) :
    u.setClockRule [oct k.val, octBool e, oct l, oct w, oct h] = Answer.refusal u .busy := by
  have hb : u.clocks[k].timingInUse
      { clock := k, enable := e, length := l, window := w, holdLength := h } = true := by
    simp only [Clock.timingInUse, he, Bool.true_and, Bool.or_eq_true, decide_eq_true_eq]
    exact hne
  simp only [State.setClockRule, parseClock_octets k e hv hh, hu, hb, if_true, Bool.false_eq_true, if_false]

end

/-! ## ACTIVATE, LOCK, UNLOCK, CLOSE PERIOD -/

section
variable {u : State} {m : Byte}

theorem State.activateRule_locked {mode : ActivateMode} (hm : ActivateMode.ofOctet m = some mode)
    (h : u.anyLock = true) : u.activateRule [m] = Answer.refusal u .locked := by
  simp only [State.activateRule, octetAt_cons_zero, hm, h, if_true]

theorem State.activateRule_busy (h : u.anyLock = false) (hc : u.close.inFlight.isSome = true) :
    u.activateRule [0] = Answer.refusal u .busy := by
  have hm : ActivateMode.ofOctet (octetAt [0] 0) = some .now := rfl
  simp only [State.activateRule, hm, h, hc, and_self, if_true, Bool.false_eq_true, if_false]

theorem State.lockRule_busy (h : u.tariff.atClose = true) : u.lockRule [1] = Answer.refusal u .busy := by
  have hm : boolOf (octetAt [1] 0) = some true := rfl
  simp only [State.lockRule, hm, h, if_true]

theorem State.unlockRule_locked (h : u.decoder.commissioning = true) :
    u.unlockRule = Answer.refusal u .locked := by
  rw [State.unlockRule, if_pos h]

theorem State.closePeriodRule_busy (h : u.close.inFlight ≠ none) :
    u.closePeriodRule = Answer.refusal u .busy := by
  obtain ⟨n, hn⟩ := Option.ne_none_iff_exists'.1 h
  simp only [State.closePeriodRule, hn]

end

/-! ## READOUT -/

/-- A READOUT of some point and of 1..12 periods is in range. -/
theorem parseReadout_octets (tag : Byte) (mask : BitVec 32) (first : BitVec 16) {n f : Nat} (hn : 1 ≤ n)
    (hn' : n ≤ 12) (hmask : mask ≠ 0) (hf : f < 4) :
    ∃ job, parseReadout tag (beBytes 4 mask.toNat ++ beBytes 2 first.toNat ++ [oct n, oct f]) = some job := by
  have h0 : field (beBytes 4 mask.toNat ++ beBytes 2 first.toNat ++ [oct n, oct f]) 0 4 = mask.toNat :=
    beNat_beBytes (n := 4) mask.isLt
  have h6 : (octetAt (beBytes 4 mask.toNat ++ beBytes 2 first.toNat ++ [oct n, oct f]) 6).toNat = n :=
    oct_toNat_of_lt (by omega)
  have h7 : (octetAt (beBytes 4 mask.toNat ++ beBytes 2 first.toNat ++ [oct n, oct f]) 7).toNat = f :=
    oct_toNat_of_lt (by omega)
  refine ⟨_, if_pos ⟨h6.symm ▸ hn, h6.symm ▸ hn', ?_, h7.symm ▸ hf⟩⟩
  rwa [h0, BitVec.ofNat_toNat, BitVec.setWidth_eq]

theorem State.readoutRule_busy {u : State} {tag : Byte} {os : List Byte} (h : u.readout.phase ≠ .idle)
    (hos : ∃ job, parseReadout tag os = some job) : u.readoutRule tag os = Answer.refusal u .busy := by
  obtain ⟨job, hjob⟩ := hos
  simp only [State.readoutRule, hjob]

end Sys2Proof.Machine

namespace Sys2Proof.Proofs

open Sys2Proof.Machine Sys2Proof.Statements

/-- Settles O17: each refusal is a case of the request's rule. -/
theorem busyRefusesRequests : Obligations.BusyRefusesRequests := by
  intro s r h
  refine ⟨fun hu i p hp hc => ⟨fun c hr ha => ?_, fun ha => ?_⟩, fun hu k e l w hl hv hh ha he hne => ?_,
    fun hf => ⟨fun hu ha => ?_, fun ha => ?_⟩, fun hphase mask first n stop go hn hn' hmask ha => ?_, fun hm ha => ?_⟩
  · exact request_refused h ha rfl (State.setPointRule_busy hr (State.anyLock_unlocked hu) hp (decide_eq_true hc))
  · exact request_refused h ha rfl (State.removePointRule_busy (State.anyLock_unlocked hu) hp (decide_eq_true hc))
  · exact request_refused h ha rfl (State.setClockRule_busy hv hh (State.anyLock_unlocked hu) he hne)
  · exact request_refused h ha rfl (State.activateRule_busy (State.anyLock_unlocked hu) (Option.isSome_iff_ne_none.2 hf))
  · exact request_refused (rule := fun u _ => u.closePeriodRule) h ha rfl (State.closePeriodRule_busy hf)
  · refine request_refused (rule := fun u os => u.readoutRule r.tag os) h ha rfl (State.readoutRule_busy hphase
      (parseReadout_octets r.tag mask first hn hn' hmask ?_))
    cases stop <;> cases go <;> decide
  · exact request_refused h ha rfl (State.lockRule_busy hm)

end Sys2Proof.Proofs
end

section
/-! PROOF. SET POINT: a point takes up its clock, and is cut before it when it had another (R13, R14, R66, R68). -/

namespace Sys2Proof.Machine

open Sys2Proof.Statements

/-! ## Taking up a clock (R13, R14) -/

section
variable {s : State} {p : Point} {k : Fin 4}

/-- A sub-interval opened at a minute, in the words of the statements (R66). -/
theorem Point.openSub_opened (p : Point) (set : TariffSet) (c : Clock) (now : CalTime) :
    p.openSub set c now = { p with sub := some (openedSub set c now p.held) } := by
  simp only [Point.openSub, openedSub, Clock.boundaryMinute, decide_eq_true_eq]
  rfl

theorem State.takeUpClock_none (h : p.config.clock = none) : s.takeUpClock p = { p with conflict := false } := by
  simp only [State.takeUpClock, State.clockOf, h, Option.map_none]

theorem State.takeUpClock_disabled (h : p.config.clock = some k) (he : s.clocks[k].enabled = false) :
    s.takeUpClock p = p.addConflict := by
  simp only [State.takeUpClock, State.clockOf, h, Option.map_some, he, Bool.false_eq_true, if_false]

theorem State.takeUpClock_unset (h : p.config.clock = some k) (he : s.clocks[k].enabled = true)
    (ht : s.time.calendar = none) : s.takeUpClock p = { p with conflict := false } := by
  simp only [State.takeUpClock, State.clockOf, h, Option.map_some, he, ht, if_true]

theorem State.takeUpClock_opens {now : CalTime} (h : p.config.clock = some k) (he : s.clocks[k].enabled = true)
    (ht : s.time.calendar = some now) :
    s.takeUpClock p = { p with
      conflict := false
      sub := some (openedSub s.tariff.active s.clocks[k] now p.operator) } := by
  simp only [State.takeUpClock, State.clockOf, h, Option.map_some, he, ht, if_true, Point.openSub_opened, Point.held,
    Bool.or_false]

end

/-! ## The cut before it (R14, R68, R186) -/

section
variable {s : State} {o : Option PenaltyOption} {p : Point}

theorem cutOff_closed (h : p.config.clock = none ∨ p.sub = none) : cutOff o p = { p with ring := [] } := by
  unfold cutOff
  split
  next hk hb => rw [hk, hb] at h; simp at h
  next => rfl

/-- A point cut under its own clock and option, its ring cleared, in the words of the statements. -/
theorem State.cutPoint_cutOff (s : State) (p : Point) :
    ({ s.cutPoint p with ring := [] } : Point) = cutOff (optionIn s p) p := by
  unfold State.cutPoint State.clockOf
  cases hk : p.config.clock with
  | none => rw [cutOff_closed (.inl hk)]; rfl
  | some k =>
    cases hb : p.sub with
    | none => rw [cutOff_closed (.inr hb)]; simp only [Option.map_some, Point.cutSub, hb]
    | some b =>
      have hgap : hasFlag (addFlag b.quality QualityFlag.cut.place) QualityFlag.gap.place = b.quality.getLsbD 0 := by
        rw [hasFlag_addFlag]; simp [hasFlag, QualityFlag.place]
      simp only [Option.map_some, Point.cutSub, hb, cutOff, hk, Point.bookSub, Point.raisePeriod, hgap]
      cases hg : b.quality.getLsbD 0 <;> rfl

theorem cutOff_frame (o : Option PenaltyOption) (p : Point) : cutOff o p = { p with
    sub := (cutOff o p).sub
    ring := []
    attributed := (cutOff o p).attributed
    excessSum := (cutOff o p).excessSum
    counters := { p.counters with gap := (cutOff o p).counters.gap }
    periodFlags := (cutOff o p).periodFlags } := by
  unfold cutOff; split <;> rfl

theorem cutOff_sub (h : p.config.clock ≠ none ∨ p.sub = none) : (cutOff o p).sub = none := by
  unfold cutOff
  split
  next => rfl
  next hno =>
    refine h.elim (fun hk => ?_) id
    obtain ⟨k, hk⟩ := Option.ne_none_iff_exists'.1 hk
    exact Option.eq_none_iff_forall_ne_some.2 fun b hb => hno k b hk hb

theorem cutOff_periodFlags {n : Nat} (hn : n ≠ 2) :
    (cutOff o p).periodFlags.getLsbD n = p.periodFlags.getLsbD n := by
  unfold cutOff
  split
  next => exact (hasFlag_addFlag _ 2 n).trans (by simp [hn.symm, hasFlag])
  next => rfl

/-- What a cut leaves of a point with a clock. -/
theorem cutFrom_cutOff (hk : p.config.clock ≠ none) : CutFrom o p (cutOff o p) := by
  obtain ⟨k, hk⟩ := Option.ne_none_iff_exists'.1 hk
  cases hb : p.sub with
  | none =>
    rw [cutOff_closed (.inr hb)]
    simp [CutFrom, hb]
  | some b =>
    have e : cutOff o p = { p with
        sub := none, ring := []
        attributed := min max64 (p.attributed + b.energy.ai)
        excessSum := min max64 (p.excessSum + subIntervalExcess o b.energy)
        counters := { p.counters with
          gap := if b.quality.getLsbD 0 then min max16 (p.counters.gap + 1) else p.counters.gap }
        periodFlags := p.periodFlags ||| 4#4 } := by simp only [cutOff, hk, hb]
    rw [e]
    simp [CutFrom, hb]

end

/-! ## SET POINT -/

section
variable {s : State} {p : Point} {c : PointConfig} {k : Fin 4}

/-- A fresh point on a disabled clock. -/
theorem freshPoint_addConflict (c : PointConfig) (n : BitVec 16) :
    (freshPoint c n).addConflict = { freshPoint c n with conflict := true, periodFlags := 8 } := by
  have hflag : addFlag (0 : BitVec 4) PeriodFlag.heldSeen.place = 8 := by decide
  simp only [Point.addConflict, Point.markHeld, Point.raisePeriod, freshPoint, hflag, Option.map_none]

/-- A point cut from its old clock, with its new record (R14). -/
def State.severed (s : State) (p : Point) (c : PointConfig) : Point :=
  { cutOff (optionIn s p) p with config := c, contribution := 0 }

/-- A point with its record replaced, before LOSS is looked at (R14). -/
def State.rerecorded (s : State) (p : Point) (c : PointConfig) : Point :=
  if c.clock = p.config.clock then { p with config := c }
  else s.takeUpClock (s.severed p c)

theorem State.reconfigure_eq (s : State) (p : Point) (c : PointConfig) : s.reconfigure p c =
    if c.lossLimit ≤ p.missingCount then (s.rerecorded p c).raiseStatus .loss else s.rerecorded p c := by
  simp only [State.reconfigure, State.rerecorded, State.severed, ← State.cutPoint_cutOff]

theorem State.rerecorded_same (h : c.clock = p.config.clock) : s.rerecorded p c = { p with config := c } := if_pos h

theorem State.rerecorded_moved (h : c.clock ≠ p.config.clock) :
    s.rerecorded p c = s.takeUpClock (s.severed p c) := if_neg h

/-- What taking up a clock can touch. -/
theorem State.takeUpClock_frame (s : State) (p : Point) : s.takeUpClock p = { p with
    conflict := (s.takeUpClock p).conflict, sub := (s.takeUpClock p).sub
    periodFlags := (s.takeUpClock p).periodFlags } := by
  unfold State.takeUpClock
  split
  · rfl
  · split
    · split <;> rfl
    · rfl

/-- Without a disabled clock there is no conflict and no mark. -/
theorem State.takeUpClock_free (h : ∀ k : Fin 4, p.config.clock = some k → s.clocks[k].enabled = true) :
    (s.takeUpClock p).conflict = false ∧ (s.takeUpClock p).periodFlags = p.periodFlags := by
  cases hk : p.config.clock with
  | none => rw [State.takeUpClock_none hk]; exact ⟨rfl, rfl⟩
  | some k =>
    cases ht : s.time.calendar with
    | none => rw [State.takeUpClock_unset hk (h k hk) ht]; exact ⟨rfl, rfl⟩
    | some now => rw [State.takeUpClock_opens hk (h k hk) ht]; exact ⟨rfl, rfl⟩

theorem State.takeUpClock_conflict (s : State) (p : Point) : (s.takeUpClock p).conflict = true ↔
    ∃ k : Fin 4, p.config.clock = some k ∧ s.clocks[k].enabled = false := by
  by_cases h : ∃ k : Fin 4, p.config.clock = some k ∧ s.clocks[k].enabled = false
  · obtain ⟨k, hk, he⟩ := h
    rw [State.takeUpClock_disabled hk he]
    exact ⟨fun _ => ⟨k, hk, he⟩, fun _ => rfl⟩
  · have hfree := (State.takeUpClock_free fun k hk => Bool.eq_true_of_not_eq_false fun he => h ⟨k, hk, he⟩).1
    simp only [hfree, h, Bool.false_eq_true]

theorem State.takeUpClock_flag (s : State) (p : Point) (n : Nat) : (s.takeUpClock p).periodFlags.getLsbD n =
    (p.periodFlags.getLsbD n || ((s.takeUpClock p).conflict && decide (n = 3))) := by
  by_cases h : ∃ k : Fin 4, p.config.clock = some k ∧ s.clocks[k].enabled = false
  · obtain ⟨k, hk, he⟩ := h
    rw [State.takeUpClock_disabled hk he]
    refine (hasFlag_addFlag p.periodFlags 3 n).trans ?_
    simp [hasFlag, Point.addConflict, Point.markHeld, Point.raisePeriod, eq_comm]
  · obtain ⟨hc, hf⟩ := State.takeUpClock_free (s := s) (p := p)
      fun k hk => Bool.eq_true_of_not_eq_false fun he => h ⟨k, hk, he⟩
    rw [hc, hf, Bool.false_and, Bool.or_false]

/-- A point with nothing open opens nothing unless the time is set and its clock enabled. -/
theorem State.takeUpClock_sub (hsub : p.sub = none) (h : s.time.calendar = none ∨
    ∀ k : Fin 4, p.config.clock = some k → s.clocks[k].enabled = false) : (s.takeUpClock p).sub = none := by
  cases hk : p.config.clock with
  | none => rw [State.takeUpClock_none hk]; exact hsub
  | some k =>
    cases he : s.clocks[k].enabled with
    | false => rw [State.takeUpClock_disabled hk he]; exact Option.map_eq_none_iff.2 hsub
    | true =>
      have ht := h.resolve_right fun hoff => Bool.false_ne_true ((hoff k hk).symm.trans he)
      rw [State.takeUpClock_unset hk he ht]; exact hsub

theorem State.severed_frame (s : State) (p : Point) (c : PointConfig) : s.severed p c = { p with
    config := c
    contribution := 0
    ring := []
    sub := (cutOff (optionIn s p) p).sub
    attributed := (cutOff (optionIn s p) p).attributed
    excessSum := (cutOff (optionIn s p) p).excessSum
    counters := { p.counters with gap := (cutOff (optionIn s p) p).counters.gap }
    periodFlags := (cutOff (optionIn s p) p).periodFlags } := by
  rw [State.severed, cutOff_frame]

/-- Replacing a record leaves period, status flags and attention bit alone before LOSS is looked at. -/
theorem State.rerecorded_frame (s : State) (p : Point) (c : PointConfig) :
    (s.rerecorded p c).config = c ∧ (s.rerecorded p c).period = p.period ∧ (s.rerecorded p c).status = p.status ∧
      (s.rerecorded p c).attention = p.attention := by
  unfold State.rerecorded
  split
  · exact ⟨rfl, rfl, rfl, rfl⟩
  · rw [State.takeUpClock_frame, State.severed_frame]; exact ⟨rfl, rfl, rfl, rfl⟩

/-- LOSS is raised where the limit of the new record is reached; it sets the attention bit as it rises under the new
mask (R5, R10). -/
theorem State.reconfigure_loss (s : State) (p : Point) (c : PointConfig) :
    s.reconfigure p c = { s.rerecorded p c with
      status := (s.reconfigure p c).status
      attention := p.attention ||
        (decide (c.lossLimit ≤ p.missingCount) && !p.status.getLsbD 0 && c.attentionMask.getLsbD 0) } ∧
    ∀ n : Nat, (s.reconfigure p c).status.getLsbD n =
      (p.status.getLsbD n || (decide (c.lossLimit ≤ p.missingCount) && decide (n = 0))) := by
  rw [State.reconfigure_eq]
  obtain ⟨hc, -, hs, ha⟩ := s.rerecorded_frame p c
  generalize s.rerecorded p c = q at *
  by_cases h : c.lossLimit ≤ p.missingCount
  · rw [if_pos h, decide_eq_true h, ← ha, ← hs, ← hc]
    refine ⟨by simp [Point.raiseStatus, hasFlag, StatusFlag.place, Bool.and_comm], fun n => ?_⟩
    exact (hasFlag_addFlag q.status 0 n).trans (by simp [hasFlag, eq_comm])
  · rw [if_neg h, ← hs, ← ha]
    simp [h]

theorem State.reconfigure_frame (s : State) (p : Point) (c : PointConfig) :
    (s.reconfigure p c).config = c ∧ (s.reconfigure p c).period = p.period := by
  obtain ⟨hc, hp, -⟩ := s.rerecorded_frame p c
  rw [(s.reconfigure_loss p c).1]
  exact ⟨hc, hp⟩

/-- A point whose clock field changes: what the cut leaves, then what taking up the new clock touches, then LOSS. -/
theorem State.reconfigure_moved (h : c.clock ≠ p.config.clock) : s.reconfigure p c = { p with
    config := c
    contribution := 0
    ring := []
    attributed := (cutOff (optionIn s p) p).attributed
    excessSum := (cutOff (optionIn s p) p).excessSum
    counters := { p.counters with gap := (cutOff (optionIn s p) p).counters.gap }
    sub := (s.takeUpClock (s.severed p c)).sub
    periodFlags := (s.takeUpClock (s.severed p c)).periodFlags
    conflict := (s.takeUpClock (s.severed p c)).conflict
    status := (s.reconfigure p c).status
    attention := (s.reconfigure p c).attention } := by
  rw [(s.reconfigure_loss p c).1, State.rerecorded_moved h, State.takeUpClock_frame, State.severed_frame]

/-! What SET POINT leaves of a point whose clock field changes. -/

theorem State.reconfigure_moved_flag (h : c.clock ≠ p.config.clock) (n : Nat) :
    (s.reconfigure p c).periodFlags.getLsbD n =
      ((cutOff (optionIn s p) p).periodFlags.getLsbD n || ((s.reconfigure p c).conflict && decide (n = 3))) := by
  rw [State.reconfigure_moved h]
  exact s.takeUpClock_flag (s.severed p c) n

theorem State.reconfigure_moved_conflict (h : c.clock ≠ p.config.clock) :
    (s.reconfigure p c).conflict = true ↔ ∃ k : Fin 4, c.clock = some k ∧ s.clocks[k].enabled = false := by
  rw [State.reconfigure_moved h]
  exact s.takeUpClock_conflict (s.severed p c)

theorem State.reconfigure_moved_opens {now : CalTime} (h : c.clock ≠ p.config.clock) (hk : c.clock = some k)
    (he : s.clocks[k].enabled = true) (ht : s.time.calendar = some now) :
    (s.reconfigure p c).sub = some (openedSub s.tariff.active s.clocks[k] now p.operator) := by
  rw [State.reconfigure_moved h, State.takeUpClock_opens hk he ht, State.severed_frame]

theorem State.reconfigure_moved_sub (h : c.clock ≠ p.config.clock) (ho : p.config.clock ≠ none ∨ p.sub = none)
    (hc : s.time.calendar = none ∨ ∀ k : Fin 4, c.clock = some k → s.clocks[k].enabled = false) :
    (s.reconfigure p c).sub = none := by
  rw [State.reconfigure_moved h]
  exact State.takeUpClock_sub (cutOff_sub ho) hc

theorem State.reconfigure_moved_closed (h : c.clock ≠ p.config.clock) (ho : p.config.clock = none ∨ p.sub = none) :
    (s.reconfigure p c).attributed = p.attributed ∧ (s.reconfigure p c).excessSum = p.excessSum ∧
      (s.reconfigure p c).counters.gap = p.counters.gap ∧
      (s.reconfigure p c).periodFlags.getLsbD 2 = p.periodFlags.getLsbD 2 := by
  refine ⟨?_, ?_, ?_, by rw [State.reconfigure_moved_flag h, cutOff_closed ho]; simp⟩ <;>
    rw [State.reconfigure_moved h, cutOff_closed ho]

theorem State.reconfigure_moved_cut (h : c.clock ≠ p.config.clock) (ho : p.config.clock ≠ none) :
    CutFrom (optionIn s p) p { s.reconfigure p c with sub := none } := by
  have hflag := State.reconfigure_moved_flag (s := s) h 2
  obtain ⟨-, -, hopen, hclosed, -⟩ := cutFrom_cutOff (o := optionIn s p) ho
  rw [State.reconfigure_moved h] at hflag ⊢
  refine ⟨rfl, rfl, fun b hb => ?_, hclosed, rfl, rfl, rfl, rfl, rfl, rfl, rfl, rfl, rfl, rfl, rfl, rfl, rfl, rfl, rfl⟩
  obtain ⟨hattributed, hexcess, hgap, hseen⟩ := hopen b hb
  exact ⟨hattributed, hexcess, hgap, hflag.trans (by rw [hseen]; rfl)⟩

end

end Sys2Proof.Machine

namespace Sys2Proof.Proofs

open Sys2Proof.Machine Sys2Proof.Statements

/-- Settles O20: a fresh point takes up its clock in one of four ways. -/
theorem setPointConfiguresUnused : Obligations.SetPointConfiguresUnused := by
  intro s r i c period h hu hc ha hp hidle hclosing
  have hperiod : (hunting s).newPeriod = period := by
    cases hf : s.close.inFlight with
    | none => simp only [State.newPeriod, hf, hidle hf]
    | some n => simp only [State.newPeriod, hf, hclosing n hf]
  have rule : (hunting s).setPointRule (oct i.val :: c.octets) =
      (hunting s).pointTaken i ((hunting s).takeUpClock (freshPoint c period)) := by
    rw [State.setPointRule_unused hc (State.anyLock_unlocked (u := hunting s) hu) hp, ← hperiod]; rfl
  have answer {q : Point} (e : (hunting s).takeUpClock (freshPoint c period) = q) (hperiod : q.period = period) :
      exec (.setPoint r) s = .next (answered { hunting s with points := s.points.set i (some q) } r .setPoint .ok
        (pointData i (if q.operator = true ∨ q.conflict = true then 3
          else if q.config.lossLimit ≤ q.missingCount then 2 else 1) period)) := by
    refine request_taken h ha rfl (rule.trans ?_)
    rw [e, State.pointTaken_eq, hperiod]
  have active {q : Point} (ho : q.operator = false) (hn : q.conflict = false) (hm : q.missingCount = 0)
      (hcfg : q.config = c) : (if q.operator = true ∨ q.conflict = true then (3 : Byte)
        else if q.config.lossLimit ≤ q.missingCount then 2 else 1) = 1 := by
    rw [if_neg (by simp [ho, hn]), if_neg (by rw [hcfg, hm]; omega)]
  refine ⟨⟨length_of_row (configFields_octets 0 c).symm,
    holds_of_row (by simp [InRow, configFields]) (configFields_octets 0 c).symm⟩, fun hk => ?_, fun k hk he => ?_,
    fun k hk he => ⟨fun ht => ?_, fun now ht => ?_⟩⟩
  · have a := answer (State.takeUpClock_none hk) rfl
    rwa [active rfl rfl rfl rfl] at a
  · exact answer ((State.takeUpClock_disabled hk he).trans (freshPoint_addConflict c period)) rfl
  · have a := answer (State.takeUpClock_unset hk he ht) rfl
    rwa [active rfl rfl rfl rfl] at a
  · have a := answer (State.takeUpClock_opens hk he ht) rfl
    rwa [active rfl rfl rfl rfl] at a

/-- Settles O21: the new point is the old one with its record replaced; a changed clock cuts it first and is taken up
after. -/
theorem setPointReplacesRecord : Obligations.SetPointReplacesRecord := by
  intro s r i c p h hu hc ha hp hb
  refine ⟨⟨length_of_row (configFields_octets 0 c).symm,
    holds_of_row (by simp [InRow, configFields]) (configFields_octets 0 c).symm⟩, (hunting s).reconfigure p c, ?_⟩
  obtain ⟨hloss, hstatus⟩ := (hunting s).reconfigure_loss p c
  obtain ⟨hconfig, hperiod⟩ := (hunting s).reconfigure_frame p c
  refine ⟨?_, hconfig, fun hk hl => ?_, fun hk hl => ?_, by rw [hstatus 0]; simp, by rw [hloss], fun hk => ?_⟩
  · refine request_taken h ha rfl ((State.setPointRule_configured (u := hunting s) hc (State.anyLock_unlocked hu) hp
      (decide_eq_false hb)).trans ?_)
    rw [State.pointTaken_eq, hconfig, hperiod]
  · rw [State.reconfigure_eq, if_pos hl, State.rerecorded_same hk]
  · rw [State.reconfigure_eq, if_neg (Nat.not_le.2 hl), State.rerecorded_same hk]
  have moved := State.reconfigure_moved (s := hunting s) hk
  have flag := State.reconfigure_moved_flag (s := hunting s) hk
  refine ⟨by rw [moved], by rw [moved], by rw [moved], by rw [moved], by rw [moved], by rw [moved],
    by rw [moved], by rw [moved], by rw [moved], by rw [moved], by rw [moved], by rw [moved], by rw [moved],
    by rw [moved], by rw [moved], by rw [moved], by rw [moved], by rw [moved], by rw [moved],
    fun b hb => by rw [hstatus b]; simp [Nat.ne_of_gt hb], State.reconfigure_moved_cut hk,
    State.reconfigure_moved_closed hk, fun b hb => ?_, State.reconfigure_moved_conflict hk, ?_,
    fun k now => State.reconfigure_moved_opens hk, State.reconfigure_moved_sub hk⟩
  · rw [flag, cutOff_periodFlags (by omega), decide_eq_false (by omega), Bool.and_false, Bool.or_false]
  · rw [flag, cutOff_periodFlags (by decide), decide_eq_true rfl, Bool.and_true, Bool.or_eq_true]

end Sys2Proof.Proofs
end

section
/-! PROOF. What LOAD TABLE's checks let through is what carries a table that is in range: the entries of each table
read back from their octets and the octets from their entries (R144, R146, R147, R192). -/

namespace Sys2Proof.Machine

open Sys2Proof.Statements

/-! ## Single entries -/

theorem finOf_eq_some {n : Nat} (hn : n ≤ 256) (o : Byte) (i : Fin n) : finOf n o.toNat = some i ↔ o = oct i.val := by
  constructor
  · intro h; rw [finOf_val h, oct_toNat]
  · rintro rfl; exact finOf_oct hn i

theorem monthLengthWith_le {n m : Nat} (h : n ≤ 31) : monthLengthWith n m ≤ 31 := by
  unfold monthLengthWith; split_ifs <;> omega

theorem monthLength_le (y m : Nat) : monthLength y m ≤ 31 := monthLengthWith_le (by split <;> decide)

/-- A season start's octets. -/
def MonthDay.octets (e : MonthDay) : List Byte := [oct e.month, oct e.day]

theorem parseSeason_iff {os : List Byte} (hlen : os.length = 2) (e : MonthDay) :
    parseSeason os = some e ↔ e.InRange ∧ os = e.octets := by
  match os, hlen with
  | [m, d], _ =>
  have hm : octetAt [m, d] 0 = m := rfl
  have hd : octetAt [m, d] 1 = d := rfl
  simp only [parseSeason, hm, hd]
  constructor
  · intro h
    split at h <;> cases h
    rename_i hr
    exact ⟨⟨⟨hr.1, hr.2.1⟩, hr.2.2⟩, by rw [MonthDay.octets, oct_toNat, oct_toNat]⟩
  · rintro ⟨⟨hmonth, hday⟩, he⟩
    have hle := monthLengthWith_le (n := 29) (m := e.month) (by decide)
    cases he
    rw [oct_toNat_of_lt (by omega), oct_toNat_of_lt (by omega), if_pos ⟨hmonth.1, hmonth.2, hday⟩]

/-- A holiday's octets. -/
def Holiday.octets (h : Holiday) : List Byte :=
  [oct h.month, oct h.day, (h.year.map (fun y => oct (y - 2000))).getD 0xFF]

theorem parseHoliday_iff {os : List Byte} (hlen : os.length = 3) (e : Holiday) :
    parseHoliday os = some e ↔ e.InRange ∧ os = e.octets := by
  match os, hlen with
  | [m, d, y], _ =>
  have hm : octetAt [m, d, y] 0 = m := rfl
  have hd : octetAt [m, d, y] 1 = d := rfl
  have hy : octetAt [m, d, y] 2 = y := rfl
  simp only [parseHoliday, hm, hd, hy]
  constructor
  · intro h
    split at h
    next hnone =>
      split at h <;> cases h
      rename_i hr
      refine ⟨⟨⟨hr.1, hr.2.1⟩, hr.2.2.1, fun _ => hr.2.2.2, fun y hy => nomatch hy⟩, ?_⟩
      rw [Holiday.octets, oct_toNat, oct_toNat, hnone]; rfl
    next =>
      split at h <;> cases h
      rename_i hr
      refine ⟨⟨⟨hr.2.1, hr.2.2.1⟩, hr.2.2.2.1, (fun e => nomatch e), fun y hy => ?_⟩, ?_⟩
      · cases hy; exact ⟨by omega, hr.2.2.2.2⟩
      · simp [Holiday.octets, oct_toNat]
  · rintro ⟨⟨hmonth, hday, hnone, hsome⟩, he⟩
    have hmo : (oct e.month).toNat = e.month := oct_toNat_of_lt (by omega)
    cases hyear : e.year with
    | none =>
      have hle := monthLengthWith_le (n := 29) (m := e.month) (by decide)
      have hdo : (oct e.day).toNat = e.day := oct_toNat_of_lt (by have := hnone hyear; omega)
      obtain ⟨rfl, rfl, rfl⟩ : m = oct e.month ∧ d = oct e.day ∧ y = 0xFF := by
        simpa [Holiday.octets, hyear] using he
      rw [if_pos rfl, hmo, hdo, if_pos ⟨hmonth.1, hmonth.2, hday, hnone hyear⟩, ← hyear]
    | some n =>
      obtain ⟨hn, hdn⟩ := hsome n hyear
      have hle := monthLength_le n e.month
      have hdo : (oct e.day).toNat = e.day := oct_toNat_of_lt (by omega)
      have hno : (oct (n - 2000)).toNat = n - 2000 := oct_toNat_of_lt (by omega)
      obtain ⟨rfl, rfl, rfl⟩ : m = oct e.month ∧ d = oct e.day ∧ y = oct (n - 2000) := by
        simpa [Holiday.octets, hyear] using he
      have hff : oct (n - 2000) ≠ 0xFF := fun e => by
        have : (oct (n - 2000)).toNat = 255 := by rw [e]; rfl
        omega
      have hn' : 2000 + (n - 2000) = n := by omega
      rw [if_neg hff, hmo, hdo, hno, hn', if_pos ⟨by omega, hmonth.1, hmonth.2, hday, hdn⟩, ← hyear]

/-- A switch point's octets. -/
def SwitchPoint.octets (e : SwitchPoint) : List Byte := beBytes 2 e.minute ++ [oct e.ratePeriod.val]

theorem parseSwitch_iff {os : List Byte} (hlen : os.length = 3) (e : SwitchPoint) :
    parseSwitch os = some e ↔ e.minute ≤ 1439 ∧ os = e.octets := by
  have hminute : beBytes 2 (field os 0 2) = (os.drop 0).take 2 := beBytes_field (by omega)
  simp only [parseSwitch, ensure, Option.bind_eq_bind, Option.bind_eq_some_iff, Option.pure_def]
  constructor
  · rintro ⟨rate, hrate, _, hm, he⟩
    split at hm <;> cases hm
    rename_i hm
    cases he
    refine ⟨of_decide_eq_true hm, ?_⟩
    rw [SwitchPoint.octets, hminute, ← (finOf_eq_some (by decide) _ _).1 hrate]
    match os, hlen with
    | [_, _, _], _ => rfl
  · rintro ⟨hm, rfl⟩
    have hf : field e.octets 0 2 = e.minute := beNat_beBytes (n := 2) (by omega)
    have ho : octetAt e.octets 2 = oct e.ratePeriod.val := rfl
    exact ⟨e.ratePeriod, by rw [ho, finOf_oct (by decide)], (), by rw [hf, decide_eq_true hm]; rfl, by rw [hf]⟩

theorem parseOption_iff {os : List Byte} (hlen : os.length = 3) (o : PenaltyOption) :
    parseOption os = some o ↔ o.InRange ∧
      os = beBytes 2 o.threshold ++ [oct (bit o.leading + 2 * bit o.subinterval)] := by
  have hthr : beBytes 2 (field os 0 2) = (os.drop 0).take 2 := beBytes_field (by omega)
  have hbits : ∀ x : Byte, x.toNat < 4 → oct (bit (x.getLsbD 0) + 2 * bit (x.getLsbD 1)) = x := by decide
  have hflags : ∀ a b : Bool, (oct (bit a + 2 * bit b)).toNat < 4 ∧ (oct (bit a + 2 * bit b)).getLsbD 0 = a ∧
      (oct (bit a + 2 * bit b)).getLsbD 1 = b := by decide
  simp only [parseOption]
  constructor
  · intro h
    split at h <;> cases h
    rename_i hr
    refine ⟨hr.1, ?_⟩
    rw [hthr, hbits _ hr.2]
    match os, hlen with
    | [_, _, _], _ => rfl
  · rintro ⟨ht, rfl⟩
    have ht : o.threshold ≤ 2000 := ht
    have hf : field (beBytes 2 o.threshold ++ [oct (bit o.leading + 2 * bit o.subinterval)]) 0 2 = o.threshold :=
      beNat_beBytes (n := 2) (by omega)
    have ho : octetAt (beBytes 2 o.threshold ++ [oct (bit o.leading + 2 * bit o.subinterval)]) 2 =
      oct (bit o.leading + 2 * bit o.subinterval) := rfl
    obtain ⟨h4, h0, h1⟩ := hflags o.leading o.subinterval
    rw [hf, ho, if_pos ⟨ht, h4⟩, h0, h1]

theorem parseInstant_iff {os : List Byte} (hlen : os.length = 3) (c : Option CloseInstant) :
    parseInstant os = some c ↔ (∀ x ∈ c, x.InRange) ∧ os = tableOctets (.closeInstant c) := by
  have hminute : beBytes 2 (field os 1 2) = (os.drop 1).take 2 := beBytes_field (by omega)
  have hday : oct (octetAt os 0).toNat = octetAt os 0 := oct_toNat _
  have hsplit : os = octetAt os 0 :: (os.drop 1).take 2 := by
    match os, hlen with
    | [_, _, _], _ => rfl
  simp only [parseInstant]
  constructor
  · intro h
    split at h
    next h0 =>
      cases h
      refine ⟨(fun x hx => nomatch hx), ?_⟩
      rw [hsplit, ← hminute, ← hday, h0.1, h0.2]; rfl
    next =>
      split at h <;> cases h
      rename_i hr
      refine ⟨fun x hx => by cases hx; exact ⟨⟨hr.1, hr.2.1⟩, hr.2.2⟩, ?_⟩
      rw [tableOctets, hminute, hday]; exact hsplit
  · rintro ⟨hr, rfl⟩
    cases c with
    | none => rfl
    | some c =>
      obtain ⟨hd, hm⟩ := hr c rfl
      have hdo : (octetAt (tableOctets (.closeInstant (some c))) 0).toNat = c.day := oct_toNat_of_lt (by omega)
      have hmo : field (tableOctets (.closeInstant (some c))) 1 2 = c.minute := beNat_beBytes (n := 2) (by omega)
      rw [hdo, hmo, if_neg (by omega), if_pos ⟨hd.1, hd.2, hm⟩]

theorem parseSchedule_iff {os : List Byte} (hlen : os.length = 27) (i : Fin 8) (x : Schedule) :
    parseSchedule os = some x ↔ x.InRange ∧ os = tableOctets (.schedule i x) := by
  have hrate {k : Nat} (hk : 4 * k + 4 ≤ 27) : beBytes 4 (field os (4 * k) 4) = (os.drop (4 * k)).take 4 :=
    beBytes_field (by omega)
  simp only [parseSchedule]
  constructor
  · intro h
    split at h <;> cases h
    rename_i hr
    obtain ⟨h0, h1, h2, h3, h4, h5, h6, h7, h8⟩ := hr
    refine ⟨⟨fun r => ?_, h4, h5, h6, h7, h8⟩, ?_⟩
    · match r with
      | 0 => exact h0
      | 1 => exact h1
      | 2 => exact h2
      | 3 => exact h3
    · show os = beBytes 4 (field os (4 * 0) 4) ++ beBytes 4 (field os (4 * 1) 4) ++ beBytes 4 (field os (4 * 2) 4) ++
        beBytes 4 (field os (4 * 3) 4) ++ beBytes 4 (field os (4 * 4) 4) ++ beBytes 4 (field os (4 * 5) 4) ++
        [oct (octetAt os 24).toNat, oct (octetAt os 25).toNat, oct (octetAt os 26).toNat]
      rw [hrate (by omega), hrate (by omega), hrate (by omega), hrate (by omega), hrate (by omega), hrate (by omega),
        oct_toNat, oct_toNat, oct_toNat]
      match os, hlen with
      | [_, _, _, _, _, _, _, _, _, _, _, _, _, _, _, _, _, _, _, _, _, _, _, _, _, _, _], _ => rfl
  · rintro ⟨⟨hrates, hfac, hvar, hm, hp, hq⟩, rfl⟩
    have hr0 : x.rateTOU[0] ≤ 99999999 := hrates 0
    have hr1 : x.rateTOU[1] ≤ 99999999 := hrates 1
    have hr2 : x.rateTOU[2] ≤ 99999999 := hrates 2
    have hr3 : x.rateTOU[3] ≤ 99999999 := hrates 3
    have h0 : field (tableOctets (.schedule i x)) (4 * 0) 4 = x.rateTOU[0] := beNat_beBytes (n := 4) (by omega)
    have h1 : field (tableOctets (.schedule i x)) (4 * 1) 4 = x.rateTOU[1] := beNat_beBytes (n := 4) (by omega)
    have h2 : field (tableOctets (.schedule i x)) (4 * 2) 4 = x.rateTOU[2] := beNat_beBytes (n := 4) (by omega)
    have h3 : field (tableOctets (.schedule i x)) (4 * 3) 4 = x.rateTOU[3] := beNat_beBytes (n := 4) (by omega)
    have h4 : field (tableOctets (.schedule i x)) (4 * 4) 4 = x.rateFAC := beNat_beBytes (n := 4) (by omega)
    have h5 : field (tableOctets (.schedule i x)) (4 * 5) 4 = x.rateVAR := beNat_beBytes (n := 4) (by omega)
    have h6 : (octetAt (tableOctets (.schedule i x)) 24).toNat = x.ratchetMonths := oct_toNat_of_lt (by omega)
    have h7 : (octetAt (tableOctets (.schedule i x)) 25).toNat = x.ratchetPercent := oct_toNat_of_lt (by omega)
    have h8 : (octetAt (tableOctets (.schedule i x)) 26).toNat = x.minPercent := oct_toNat_of_lt (by omega)
    have hv : #v[x.rateTOU[0], x.rateTOU[1], x.rateTOU[2], x.rateTOU[3]] = x.rateTOU := by
      refine Vector.ext fun n hn => ?_
      interval_cases n <;> rfl
    rw [h0, h1, h2, h3, h4, h5, h6, h7, h8, if_pos ⟨hr0, hr1, hr2, hr3, hfac, hvar, hm, hp, hq⟩, hv]

/-! ## Lists of entries -/

section
variable {α β : Type} {P : β → Prop}

/-- A list is parsed whole exactly when each entry is. -/
theorem allSome_map_iff {f : α → Option β} {g : β → α} {l : List α}
    (h : ∀ a ∈ l, ∀ b, f a = some b ↔ P b ∧ a = g b) (r : List β) :
    allSome (l.map f) = some r ↔ (∀ b ∈ r, P b) ∧ l = r.map g := by
  induction l generalizing r with
  | nil => cases r <;> simp [allSome]
  | cons a l ih =>
    have ha := h a (by simp)
    replace ih := ih fun x hx => h x (by simp [hx])
    cases hf : f a with
    | none =>
      cases r with
      | nil => simp [allSome, hf]
      | cons b r =>
        have : ¬ (P b ∧ a = g b) := fun hb => by rw [(ha b).2 hb] at hf; exact nomatch hf
        simp only [List.map_cons, hf, allSome, List.cons.injEq, List.forall_mem_cons]
        tauto
    | some c =>
      obtain ⟨hc, rfl⟩ := (ha c).1 hf
      cases r with
      | nil => simp [allSome, hf]
      | cons b r =>
        have hb : P b ∧ g c = g b ↔ c = b := by rw [← ha b, hf, Option.some_inj]
        simp only [List.map_cons, hf, allSome, Option.map_eq_some_iff, List.cons.injEq, List.forall_mem_cons, ih]
        constructor
        · rintro ⟨r', ⟨hr, hl⟩, rfl, rfl⟩; exact ⟨⟨hc, hr⟩, rfl, hl⟩
        · rintro ⟨⟨hP, hr⟩, hg, hl⟩; exact ⟨r, ⟨hr, hl⟩, hb.1 ⟨hP, hg⟩, rfl⟩

theorem groupsOf_append {n : Nat} (hn : 0 < n) {g : List Byte} (hg : g.length = n) (os : List Byte) :
    groupsOf n (g ++ os) = g :: groupsOf n os := by
  have hlen : (g ++ os).length / n = os.length / n + 1 := by
    rw [List.length_append, hg, Nat.add_div_left _ hn]
  rw [groupsOf, hlen, List.range_succ_eq_map, List.map_cons, List.map_map, Nat.zero_mul, List.drop_zero,
    List.take_left' hg, groupsOf]
  congr 1
  refine List.map_congr_left fun k _ => ?_
  show ((g ++ os).drop ((k + 1) * n)).take n = _
  rw [Nat.succ_mul, Nat.add_comm, ← List.drop_drop, List.drop_left' hg]

theorem groupsOf_flatMap {n : Nat} (hn : 0 < n) {enc : β → List Byte} (henc : ∀ b, (enc b).length = n)
    (l : List β) : groupsOf n (l.flatMap enc) = l.map enc := by
  induction l with
  | nil => simp [groupsOf]
  | cons b l ih => rw [List.flatMap_cons, groupsOf_append hn (henc b), ih, List.map_cons]

/-- Octets of whole groups are their groups put together. -/
theorem flatten_groupsOf {n m : Nat} (hn : 0 < n) {os : List Byte} (hlen : os.length = m * n) :
    (groupsOf n os).flatten = os ∧ ∀ g ∈ groupsOf n os, g.length = n := by
  induction m generalizing os with
  | zero =>
    obtain rfl : os = [] := List.length_eq_zero_iff.1 (by simpa using hlen)
    simp [groupsOf]
  | succ m ih =>
    rw [Nat.succ_mul] at hlen
    have hg : (os.take n).length = n := by rw [List.length_take]; omega
    obtain ⟨h1, h2⟩ := ih (os := os.drop n) (by rw [List.length_drop]; omega)
    have e := groupsOf_append hn hg (os.drop n)
    rw [List.take_append_drop] at e
    rw [e]
    exact ⟨by rw [List.flatten_cons, h1, List.take_append_drop], List.forall_mem_cons.2 ⟨hg, h2⟩⟩

/-- The entries of a list table read from their octets. -/
theorem parse_groups_iff {n m : Nat} (hn : 0 < n) {os : List Byte} (hlen : os.length = m * n)
    {parse : List Byte → Option β} {enc : β → List Byte} (henc : ∀ b, (enc b).length = n)
    (h : ∀ g : List Byte, g.length = n → ∀ b, parse g = some b ↔ P b ∧ g = enc b) (r : List β) :
    allSome ((groupsOf n os).map parse) = some r ↔ (∀ b ∈ r, P b) ∧ os = r.flatMap enc := by
  obtain ⟨hflat, hgroups⟩ := flatten_groupsOf hn hlen
  rw [allSome_map_iff (fun g hg => h g (hgroups g hg))]
  refine and_congr_right fun _ => ⟨fun e => ?_, fun e => ?_⟩
  · rw [← hflat, e, List.flatMap_def]
  · rw [e, groupsOf_flatMap hn henc]

/-- The octets of a map, each the number of a value. -/
theorem parse_map_iff {n : Nat} (hn : n ≤ 256) (os : List Byte) (r : List (Fin n)) :
    allSome (os.map (fun o => finOf n o.toNat)) = some r ↔ os = r.map (fun i => oct i.val) := by
  rw [allSome_map_iff (P := fun _ => True) (g := fun i => oct i.val) fun o _ i => by
    rw [finOf_eq_some hn, true_and]]
  simp

theorem vecOf_eq_some {n : Nat} {l : List α} {v : Vector α n} : vecOf n l = some v ↔ l = v.toList := by
  unfold vecOf
  split
  next h =>
    rw [Option.some_inj]
    constructor
    · rintro rfl; rfl
    · rintro rfl; rfl
  next h =>
    refine ⟨(fun e => nomatch e), fun e => absurd ?_ h⟩
    rw [e, Vector.length_toList]

end

end Sys2Proof.Machine
end

section
/-! PROOF. LOAD TABLE's two checks, told on the octets: what passes them is exactly what carries a table in range
(R146, R147, R192). -/

namespace Sys2Proof.Machine

open Sys2Proof.Statements

/-! ## The form check -/

/-- The code of a selector (R144). -/
def Selector.number : Selector → Nat
  | .seasons => 0
  | .weekdays => 1
  | .holidays => 2
  | .profileMap => 3
  | .profile => 4
  | .closeInstant => 5
  | .schedule => 6
  | .option => 7

theorem Selector.ofOctet_eq_some (o : Byte) (kind : Selector) :
    Selector.ofOctet o = some kind ↔ o.toNat = kind.number := by
  constructor
  · intro h
    unfold Selector.ofOctet at h
    split at h <;> cases h <;> assumption
  · intro h
    cases kind <;> simp only [Selector.ofOctet, h, Selector.number]

/-- What a selector calls for, in the words of the statements. -/
def Selector.form (kind : Selector) : Nat × Option Nat × Nat :=
  match kind.listForm with
  | some (most, size) => (kind.indexes, some most, size)
  | none => (kind.indexes, none, kind.fixedLength)

theorem tableForm_ofOctet (sel : Byte) : tableForm sel.toNat = (Selector.ofOctet sel).map Selector.form := by
  unfold Selector.ofOctet
  match sel.toNat with
  | 0 | 1 | 2 | 3 | 4 | 5 | 6 | 7 => rfl
  | n + 8 => rfl

section
variable {sel i : Byte} {rest : List Byte} {indexes size : Nat}

theorem checkForm_short {args : List Byte} (h : args.length < 2) : checkForm args = .length := by
  match args, h with
  | [], _ => rfl
  | [_], _ => rfl

theorem checkForm_unknown (h : tableForm sel.toNat = none) : checkForm (sel :: i :: rest) = .range := by
  rw [tableForm_ofOctet, Option.map_eq_none_iff] at h
  simp only [checkForm, h]

theorem checkForm_fixed (h : tableForm sel.toNat = some (indexes, none, size)) : ∃ kind : Selector,
    checkForm (sel :: i :: rest) =
      if indexes ≤ i.toNat then .range else if rest.length ≠ size then .length else .form kind i.toNat rest := by
  rw [tableForm_ofOctet] at h
  obtain ⟨kind, hk, h⟩ := Option.map_eq_some_iff.1 h
  refine ⟨kind, ?_⟩
  unfold Selector.form at h
  split at h <;> cases h
  rename_i hl
  simp only [checkForm, hk, hl]

theorem checkForm_list {most : Nat} (h : tableForm sel.toNat = some (indexes, some most, size)) : 
    checkForm [sel, i] = .length ∧ ∃ kind : Selector, ∀ (count : Byte) (entries : List Byte),
      checkForm (sel :: i :: count :: entries) = if indexes ≤ i.toNat ∨ most < count.toNat then .range
        else if entries.length ≠ count.toNat * size then .length else .form kind i.toNat entries := by
  rw [tableForm_ofOctet] at h
  obtain ⟨kind, hk, h⟩ := Option.map_eq_some_iff.1 h
  unfold Selector.form at h
  split at h <;> cases h
  rename_i hl
  exact ⟨by simp only [checkForm, hk, hl], kind, fun count entries => by simp only [checkForm, hk, hl]⟩

end

/-- The octets after selector and index, as a selector calls for them, and the contents they hold (R146). -/
def Selector.Holds (kind : Selector) (rest contents : List Byte) : Prop :=
  match kind.listForm with
  | none => rest = contents ∧ contents.length = kind.fixedLength
  | some (most, size) =>
    ∃ count : Byte, rest = count :: contents ∧ count.toNat ≤ most ∧ contents.length = count.toNat * size

/-- What passes the form check. -/
theorem checkForm_iff {args : List Byte} {kind : Selector} {n : Nat} {contents : List Byte} :
    checkForm args = .form kind n contents ↔ ∃ (sel i : Byte) (rest : List Byte), args = sel :: i :: rest ∧
      sel.toNat = kind.number ∧ i.toNat = n ∧ n < kind.indexes ∧ kind.Holds rest contents := by
  constructor
  · intro h
    unfold checkForm at h
    split at h
    next sel i rest =>
      split at h
      · cases h
      next k hk =>
        have hnum := (Selector.ofOctet_eq_some sel k).1 hk
        split at h
        next most size hl =>
          split at h
          · cases h
          next count entries =>
            split_ifs at h with hr hlen
            cases h
            obtain ⟨hi, hc⟩ := not_or.1 hr
            refine ⟨sel, i, _, rfl, hnum, rfl, Nat.lt_of_not_le hi, ?_⟩
            rw [Selector.Holds, hl]
            exact ⟨count, rfl, Nat.le_of_not_lt hc, not_not.1 hlen⟩
        next hl =>
          split_ifs at h with hi hlen
          cases h
          refine ⟨sel, i, _, rfl, hnum, rfl, Nat.lt_of_not_le hi, ?_⟩
          rw [Selector.Holds, hl]
          exact ⟨rfl, not_not.1 hlen⟩
    next => cases h
  · rintro ⟨sel, i, rest, rfl, hnum, rfl, hi, hrest⟩
    have hk := (Selector.ofOctet_eq_some sel kind).2 hnum
    unfold Selector.Holds at hrest
    split at hrest
    next hl =>
      obtain ⟨rfl, hlen⟩ := hrest
      simp only [checkForm, hk, hl, if_neg (Nat.not_le.2 hi), hlen, ne_eq, not_true_eq_false, if_false]
    next most size hl =>
      obtain ⟨count, rfl, hc, hlen⟩ := hrest
      simp only [checkForm, hk, hl, if_neg (not_or.2 ⟨Nat.not_le.2 hi, Nat.not_lt.2 hc⟩), hlen, ne_eq,
        not_true_eq_false, if_false]

/-! ## The contents check -/

/-- The selector of a table (R144). -/
def Table.selector : Table → Selector
  | .seasons _ => .seasons
  | .weekdays _ => .weekdays
  | .holidays _ => .holidays
  | .profileMap _ => .profileMap
  | .profile _ _ => .profile
  | .closeInstant _ => .closeInstant
  | .schedule _ _ => .schedule
  | .option _ _ => .option

theorem tablePlace_selector (t : Table) :
    (tablePlace t).1 = t.selector.number ∧ (tablePlace t).2 < t.selector.indexes := by
  cases t with
  | profile i _ => exact ⟨rfl, i.isLt⟩
  | schedule i _ => exact ⟨rfl, i.isLt⟩
  | option i _ => exact ⟨rfl, i.isLt⟩
  | _ => exact ⟨rfl, Nat.one_pos⟩

theorem parseContents_selector {kind : Selector} {n : Nat} {os : List Byte} {t : Table}
    (h : parseContents kind n os = some t) : t.selector = kind := by
  cases kind <;>
    simp only [parseContents, Option.bind_eq_bind, Option.bind_eq_some_iff, Option.map_eq_some_iff, Option.pure_def,
      Option.some.injEq] at h
  case seasons => obtain ⟨_, _, _, _, rfl⟩ := h; rfl
  case weekdays => obtain ⟨_, _, _, _, rfl⟩ := h; rfl
  case holidays => obtain ⟨_, _, _, _, rfl⟩ := h; rfl
  case profileMap => obtain ⟨_, _, _, _, rfl⟩ := h; rfl
  case profile => obtain ⟨_, _, _, _, _, _, rfl⟩ := h; rfl
  case closeInstant => obtain ⟨_, _, rfl⟩ := h; rfl
  case schedule => obtain ⟨_, _, _, _, rfl⟩ := h; rfl
  case option => obtain ⟨_, _, _, _, rfl⟩ := h; rfl

section
variable {β : Type} {P : β → Prop}

/-- The entries of a list table read from its octets, the entry count among them. -/
theorem parse_counted_iff {size most : Nat} (hsize : 0 < size) {count : Byte} (hmost : count.toNat ≤ most)
    {contents : List Byte} (hlen : contents.length = count.toNat * size) {parse : List Byte → Option β}
    {enc : β → List Byte} (henc : ∀ b, (enc b).length = size)
    (h : ∀ g : List Byte, g.length = size → ∀ b, parse g = some b ↔ P b ∧ g = enc b) (l : List β) :
    allSome ((groupsOf size contents).map parse) = some l ↔
      l.length ≤ most ∧ (∀ b ∈ l, P b) ∧ count :: contents = oct l.length :: l.flatMap enc := by
  rw [parse_groups_iff hsize hlen henc h]
  constructor
  · rintro ⟨hP, rfl⟩
    have hl : l.length = count.toNat := by
      rw [List.length_flatMap, List.map_congr_left (fun b _ => henc b), List.map_const', List.sum_replicate,
        smul_eq_mul] at hlen
      exact Nat.eq_of_mul_eq_mul_right hsize hlen
    exact ⟨hl.trans_le hmost, hP, by rw [hl, oct_toNat]⟩
  · rintro ⟨-, hP, e⟩
    exact ⟨hP, (List.cons.inj e).2⟩

end

theorem ensure_eq_some {b : Bool} {u : Unit} : ensure b = some u ↔ b = true := by cases b <;> simp [ensure]

theorem seasons_rising (l : List MonthDay) : rising seasonBefore l = true ↔ l.Pairwise MonthDay.before :=
  rising_iff_pairwise _ _ (by intro a b c; simp only [MonthDay.before]; omega)
    (by intro a b; simp [seasonBefore, MonthDay.before]) l

theorem profile_rising (l : List SwitchPoint) :
    rising (fun a b => decide (a.minute < b.minute)) l = true ↔ l.Pairwise (fun a b => a.minute < b.minute) :=
  rising_iff_pairwise _ _ (by intro a b c; omega) (by intro a b; simp) l

section
variable {n : Nat} {os : List Byte}

theorem parseContents_seasons (l : List MonthDay) : parseContents .seasons n os = some (.seasons l) ↔
    allSome ((groupsOf 2 os).map parseSeason) = some l ∧ l.Pairwise MonthDay.before := by
  simp [parseContents, Option.bind_eq_some_iff, ensure_eq_some, seasons_rising]

theorem parseContents_weekdays (v : Vector (Fin 3) 7) :
    parseContents .weekdays n os = some (.weekdays v) ↔ os = v.toList.map (fun d => oct d.val) := by
  simp [parseContents, Option.bind_eq_some_iff, vecOf_eq_some, parse_map_iff]

theorem parseContents_holidays (l : List Holiday) : parseContents .holidays n os = some (.holidays l) ↔
    allSome ((groupsOf 3 os).map parseHoliday) = some l ∧ l.Nodup := by
  simp [parseContents, Option.bind_eq_some_iff, ensure_eq_some, distinct_iff_nodup]

theorem parseContents_profileMap (v : Vector (Fin 8) 16) :
    parseContents .profileMap n os = some (.profileMap v) ↔ os = v.toList.map (fun d => oct d.val) := by
  simp [parseContents, Option.bind_eq_some_iff, vecOf_eq_some, parse_map_iff]

theorem parseContents_closeInstant (c : Option CloseInstant) :
    parseContents .closeInstant n os = some (.closeInstant c) ↔ parseInstant os = some c := by
  simp [parseContents]

theorem weekdays_octets (v : Vector (Fin 3) 7) :
    v.toList.map (fun d => oct d.val) = tableOctets (.weekdays v) := by
  obtain ⟨⟨l⟩, hl⟩ := v
  match l, hl with
  | [_, _, _, _, _, _, _], _ => rfl

theorem profileMap_octets (v : Vector (Fin 8) 16) :
    v.toList.map (fun d => oct d.val) = tableOctets (.profileMap v) := by
  refine List.ext_getElem (by simp [tableOctets]) fun n h1 h2 => ?_
  simp [tableOctets]

theorem finOf_index {m : Nat} (i : Fin m) : finOf m n = some i ↔ i.val = n :=
  ⟨finOf_val, by rintro rfl; exact finOf_self i⟩

theorem parseContents_profile (i : Fin 8) (l : List SwitchPoint) :
    parseContents .profile n os = some (.profile i l) ↔
      i.val = n ∧ allSome ((groupsOf 3 os).map parseSwitch) = some l ∧ l.Pairwise (fun a b => a.minute < b.minute) := by
  simp [parseContents, Option.bind_eq_some_iff, ensure_eq_some, profile_rising, finOf_index]

theorem parseContents_schedule (i : Fin 8) (x : Schedule) :
    parseContents .schedule n os = some (.schedule i x) ↔ i.val = n ∧ parseSchedule os = some x := by
  simp [parseContents, Option.bind_eq_some_iff, finOf_index]

theorem parseContents_option (i : Fin 4) (o : PenaltyOption) :
    parseContents .option n os = some (.option i o) ↔ i.val = n ∧ parseOption os = some o := by
  simp [parseContents, Option.bind_eq_some_iff, finOf_index]

end

/-- What passes the contents check is a table in range, in its own octets. -/
theorem parseContents_iff {n : Nat} {rest contents : List Byte} (t : Table) (h : t.selector.Holds rest contents)
    (hn : n < t.selector.indexes) :
    parseContents t.selector n contents = some t ↔ TableInRange t ∧ (tablePlace t).2 = n ∧ rest = tableOctets t := by
  have hfirst (h1 : t.selector.indexes = 1) : 0 = n := (Nat.lt_one_iff.1 (h1 ▸ hn)).symm
  cases t with
  | seasons l =>
    obtain ⟨count, rfl, hmost, hlen⟩ := h
    rw [Table.selector, parseContents_seasons, parse_counted_iff (enc := MonthDay.octets) (by decide) hmost hlen
      (fun _ => rfl) (fun _ => parseSeason_iff)]
    exact ⟨fun ⟨⟨hc, hP, he⟩, hr⟩ => ⟨⟨hc, hP, hr⟩, hfirst rfl, he⟩,
      fun ⟨⟨hc, hP, hr⟩, _, he⟩ => ⟨⟨hc, hP, he⟩, hr⟩⟩
  | weekdays v =>
    obtain ⟨rfl, -⟩ := h
    rw [Table.selector, parseContents_weekdays, weekdays_octets]
    exact ⟨fun he => ⟨trivial, hfirst rfl, he⟩, fun ⟨_, _, he⟩ => he⟩
  | holidays l =>
    obtain ⟨count, rfl, hmost, hlen⟩ := h
    rw [Table.selector, parseContents_holidays, parse_counted_iff (enc := Holiday.octets) (by decide) hmost hlen
      (fun _ => rfl) (fun _ => parseHoliday_iff)]
    exact ⟨fun ⟨⟨hc, hP, he⟩, hr⟩ => ⟨⟨hc, hP, hr⟩, hfirst rfl, he⟩,
      fun ⟨⟨hc, hP, hr⟩, _, he⟩ => ⟨⟨hc, hP, he⟩, hr⟩⟩
  | profileMap v =>
    obtain ⟨rfl, -⟩ := h
    rw [Table.selector, parseContents_profileMap, profileMap_octets]
    exact ⟨fun he => ⟨trivial, hfirst rfl, he⟩, fun ⟨_, _, he⟩ => he⟩
  | profile i l =>
    obtain ⟨count, rfl, hmost, hlen⟩ := h
    rw [Table.selector, parseContents_profile, parse_counted_iff (enc := SwitchPoint.octets) (by decide) hmost hlen
      (fun _ => rfl) (fun _ => parseSwitch_iff)]
    exact ⟨fun ⟨hi, ⟨hc, hP, he⟩, hr⟩ => ⟨⟨hc, hP, hr⟩, hi, he⟩,
      fun ⟨⟨hc, hP, hr⟩, hi, he⟩ => ⟨hi, ⟨hc, hP, he⟩, hr⟩⟩
  | closeInstant c =>
    obtain ⟨rfl, hlen⟩ := h
    rw [Table.selector, parseContents_closeInstant, parseInstant_iff hlen]
    exact ⟨fun ⟨hP, he⟩ => ⟨hP, hfirst rfl, he⟩, fun ⟨hP, _, he⟩ => ⟨hP, he⟩⟩
  | schedule i x =>
    obtain ⟨rfl, hlen⟩ := h
    rw [Table.selector, parseContents_schedule, parseSchedule_iff hlen i]
    exact and_left_comm
  | option i o =>
    obtain ⟨rfl, hlen⟩ := h
    rw [Table.selector, parseContents_option, parseOption_iff hlen]
    exact and_left_comm

/-- The octets of a table in range are as many as its selector calls for (R146, R192). -/
theorem tableOctets_holds {t : Table} (h : TableInRange t) : ∃ contents, t.selector.Holds (tableOctets t) contents := by
  have counted {β : Type} {most size : Nat} (l : List β) (enc : β → List Byte) (henc : ∀ b, (enc b).length = size)
      (hl : l.length ≤ most) (hmost : most < 256) : ∃ count : Byte,
        oct l.length :: l.flatMap enc = count :: l.flatMap enc ∧ count.toNat ≤ most ∧
          (l.flatMap enc).length = count.toNat * size := by
    refine ⟨_, rfl, by rwa [oct_toNat_of_lt (by omega)], ?_⟩
    rw [oct_toNat_of_lt (by omega), List.length_flatMap, List.map_congr_left (fun b _ => henc b), List.map_const',
      List.sum_replicate, smul_eq_mul]
  cases t with
  | seasons l => exact ⟨_, counted (most := 4) l MonthDay.octets (fun _ => rfl) h.1 (by decide)⟩
  | holidays l => exact ⟨_, counted (most := 24) l Holiday.octets (fun _ => rfl) h.1 (by decide)⟩
  | profile i l => exact ⟨_, counted (most := 8) l SwitchPoint.octets (fun _ => rfl) h.1 (by decide)⟩
  | weekdays v => exact ⟨_, rfl, rfl⟩
  | profileMap v => exact ⟨_, rfl, by simp [tableOctets, Selector.fixedLength, Table.selector]⟩
  | closeInstant c => cases c <;> exact ⟨_, rfl, rfl⟩
  | schedule i x => exact ⟨_, rfl, rfl⟩
  | option i o => exact ⟨_, rfl, rfl⟩

/-- The octets that carry a table in range are those that pass both checks with it. -/
theorem carries_iff (args : List Byte) (t : Table) :
    Carries args t ↔ ∃ (kind : Selector) (n : Nat) (contents : List Byte),
    checkForm args = .form kind n contents ∧ parseContents kind n contents = some t := by
  constructor
  · rintro ⟨hr, sel, i, hplace, rfl⟩
    obtain ⟨contents, hholds⟩ := tableOctets_holds hr
    obtain ⟨hnum, hindex⟩ := tablePlace_selector t
    rw [hplace] at hnum hindex
    exact ⟨t.selector, i.toNat, contents, checkForm_iff.2 ⟨sel, i, _, rfl, hnum, rfl, hindex, hholds⟩,
      (parseContents_iff t hholds hindex).2 ⟨hr, by rw [hplace], rfl⟩⟩
  · rintro ⟨kind, n, contents, hform, hparse⟩
    obtain rfl := parseContents_selector hparse
    obtain ⟨sel, i, rest, rfl, hnum, rfl, hindex, hholds⟩ := checkForm_iff.1 hform
    obtain ⟨hr, hplace, rfl⟩ := (parseContents_iff t hholds hindex).1 hparse
    exact ⟨hr, sel, i, Prod.ext ((tablePlace_selector t).1.trans hnum.symm) hplace, rfl⟩

end Sys2Proof.Machine
end

section
/-! PROOF. The refusals of requests: under a lock, for a wrong length, for arguments out of range (R12, R57, R131, R146,
R147, R150, R156 to R158, R172, R177, R178, R180). -/

namespace Sys2Proof.Machine

open Sys2Proof.Statements

/-! ## LOAD TABLE -/

section
variable {u : State} {os : List Byte}

theorem State.loadTableRule_length (h : checkForm os = .length) : u.loadTableRule os = Answer.refusal u .length := by
  simp only [State.loadTableRule, h]

theorem State.loadTableRule_range (h : checkForm os = .range) : u.loadTableRule os = Answer.refusal u .range := by
  simp only [State.loadTableRule, h]

theorem State.loadTableRule_contents {kind : Selector} {n : Nat} {contents : List Byte}
    (h : checkForm os = .form kind n contents) (hp : parseContents kind n contents = none) :
    u.loadTableRule os = Answer.refusal u .range := by
  simp only [State.loadTableRule, h, hp]

theorem State.loadTableRule_locked {t : Table} (h : Carries os t) (hu : u.anyLock = true) :
    u.loadTableRule os = Answer.refusal u .locked := by
  obtain ⟨kind, n, contents, hform, hparse⟩ := (carries_iff os t).1 h
  simp only [State.loadTableRule, hform, hparse, hu, if_true]

/-- Octets of the right form that carry no table in range are out of range. -/
theorem State.loadTableRule_none {sel i : Byte} {rest : List Byte} (h : FormRight sel i rest)
    (hnone : ∀ t : Table, ¬ Carries (sel :: i :: rest) t) :
    u.loadTableRule (sel :: i :: rest) = Answer.refusal u .range := by
  have hform : ∃ kind n contents, checkForm (sel :: i :: rest) = .form kind n contents := by
    rcases h with ⟨indexes, size, hsel, hi, hlen⟩ | ⟨indexes, most, size, count, entries, hsel, rfl, hi, hc, hlen⟩
    · obtain ⟨kind, hk⟩ := checkForm_fixed (i := i) (rest := rest) hsel
      exact ⟨kind, _, _, by rw [hk, if_neg (by omega), if_neg (not_not.2 hlen)]⟩
    · obtain ⟨-, kind, hk⟩ := checkForm_list (i := i) hsel
      exact ⟨kind, _, _, by rw [hk, if_neg (by omega), if_neg (not_not.2 hlen)]⟩
  obtain ⟨kind, n, contents, hform⟩ := hform
  refine State.loadTableRule_contents hform (Option.eq_none_iff_forall_ne_some.2 fun t ht => ?_)
  exact hnone t ((carries_iff _ t).2 ⟨kind, n, contents, hform, ht⟩)

end

/-! ## Arguments out of range -/

section
variable {u : State} {i : Byte} {os : List Byte}

theorem State.setPointRule_index (h : 31 < i.toNat) : u.setPointRule (i :: os) = Answer.refusal u .range := by
  simp only [State.setPointRule, octetAt_cons_zero, finOf_eq_none.2 h]

theorem State.setPointRule_record (h : ¬ RecordInRange os) : u.setPointRule (i :: os) = Answer.refusal u .range := by
  have hc : parseConfig ((i :: os).drop 1) = none := by
    rw [List.drop_one, List.tail_cons, ← Option.not_isSome_iff_eq_none, parseConfig_isSome]
    exact h
  rw [State.setPointRule, hc]
  cases finOf 32 (octetAt (i :: os) 0).toNat <;> rfl

theorem State.removePointRule_index (h : 31 < i.toNat) : u.removePointRule (i :: os) = Answer.refusal u .range := by
  simp only [State.removePointRule, octetAt_cons_zero, finOf_eq_none.2 h]

theorem State.holdRule_index (change : Point → Point) (h : 31 < i.toNat) :
    u.holdRule (i :: os) change = Answer.refusal u .range := by
  simp only [State.holdRule, octetAt_cons_zero, finOf_eq_none.2 h]

theorem State.queryPointRule_index (h : 31 < i.toNat) : u.queryPointRule (i :: os) = Answer.refusal u .range := by
  simp only [State.queryPointRule, octetAt_cons_zero, finOf_eq_none.2 h]

theorem State.queryPointRule_options {k : Fin 32} {o : Byte} (h : 3 < o.toNat) :
    u.queryPointRule [oct k.val, o] = Answer.refusal u .range := by
  have h1 : octetAt [oct k.val, o] 1 = o := rfl
  simp only [State.queryPointRule, octetAt_cons_zero, finOf_point, h1, if_neg (show ¬ o.toNat < 4 by omega)]

theorem State.setClockRule_range {k e l w h : Byte}
    (hr : 3 < k.toNat ∨ 1 < e.toNat ∨ validTiming l.toNat w.toNat = false ∨ 15 < h.toNat) :
    u.setClockRule [k, e, l, w, h] = Answer.refusal u .range := by
  have hnone : parseClock [k, e, l, w, h] = none := Option.eq_none_iff_forall_ne_some.2 fun a ha => by
    simp only [parseClock, Option.bind_eq_bind, Option.bind_eq_some_iff, ensure_eq_some, Bool.and_eq_true,
      decide_eq_true_eq] at ha
    obtain ⟨_, hk, _, he, _, ⟨hv, hh⟩, -⟩ := ha
    have hk : k.toNat < 4 := finOf_isSome.1 (Option.isSome_of_eq_some hk)
    have he : e.toNat ≤ 1 := boolOf_isSome.1 (Option.isSome_of_eq_some he)
    have hv : validTiming l.toNat w.toNat = true := hv
    have hh : h.toNat ≤ 15 := hh
    rw [hv] at hr
    simp only [Bool.true_eq_false, false_or] at hr
    omega
  simp only [State.setClockRule, hnone]

theorem State.activateRule_range {m : Byte} (h : 2 < m.toNat) : u.activateRule [m] = Answer.refusal u .range := by
  have hm : ActivateMode.ofOctet m = none := by
    have h0 : m ≠ 0 := by rintro rfl; exact absurd h (by decide)
    have h1 : m ≠ 1 := by rintro rfl; exact absurd h (by decide)
    have h2 : m ≠ 2 := by rintro rfl; exact absurd h (by decide)
    rw [ActivateMode.ofOctet, if_neg h0, if_neg h1, if_neg h2]
  simp only [State.activateRule, octetAt_cons_zero, hm]

theorem State.lockRule_range {m : Byte} (h : 1 < m.toNat) : u.lockRule [m] = Answer.refusal u .range := by
  simp only [State.lockRule, octetAt_cons_zero, boolOf_eq_none.2 h]

theorem State.queryDeviceRule_range {m : Byte} (h : 1 < m.toNat) :
    u.queryDeviceRule [m] = Answer.refusal u .range := by
  simp only [State.queryDeviceRule, octetAt_cons_zero, boolOf_eq_none.2 h]

theorem State.readoutRule_range {a b c d x y n flags tag : Byte}
    (h : n.toNat = 0 ∨ 12 < n.toNat ∨ [a, b, c, d] = [0, 0, 0, 0] ∨ 3 < flags.toNat) :
    u.readoutRule tag [a, b, c, d, x, y, n, flags] = Answer.refusal u .range := by
  have hnone : parseReadout tag [a, b, c, d, x, y, n, flags] = none := by
    refine if_neg ?_
    rintro ⟨h1, h12, hmask, hflags⟩
    have h1 : 1 ≤ n.toNat := h1
    have h12 : n.toNat ≤ 12 := h12
    have hflags : flags.toNat < 4 := hflags
    rcases h with h | h | h | h
    · omega
    · omega
    · have hf : field [a, b, c, d, x, y, n, flags] 0 4 = beNat [a, b, c, d] := rfl
      rw [hf, h] at hmask
      exact hmask rfl
    · omega
  simp only [State.readoutRule, hnone]

theorem State.clearAttentionRule_range {a b c d flags x y : Byte} (h : 3 < flags.toNat ∨ 7 < x.toNat) :
    u.clearAttentionRule [a, b, c, d, flags, x, y] = Answer.refusal u .range := by
  have hnone : parseClear [a, b, c, d, flags, x, y] = none := by
    refine if_neg ?_
    rintro ⟨hflags, hmask⟩
    have hflags : flags.toNat < 4 := hflags
    have hmask : (0 * 256 + x.toNat) * 256 + y.toNat < 2048 := hmask
    omega
  simp only [State.clearAttentionRule, hnone]

end

/-! ## Any request of a wrong length -/

/-- Every request goes the common way, and is this part's where it is addressed to its station (R163). -/
theorem exec_requestCommand (k : RequestKind) (r : Request) (s : State) :
    ∃ (forUs : Bool) (rule : State → Answer), (s.isStation r.address = true → forUs = true) ∧
      exec (requestCommand k r) s = .next (s.takeRequest k r forUs rule) := by
  cases k with
  | assignStation => exact ⟨_, _, fun h => by rw [h, Bool.true_or], rfl⟩
  | activate => unfold requestCommand; split_ifs <;> exact ⟨_, _, id, rfl⟩
  | lock => unfold requestCommand; split_ifs <;> exact ⟨_, _, id, rfl⟩
  | _ => exact ⟨_, _, id, rfl⟩

theorem exec_wrongLength {s : State} {r : Request} (h : Ready s r) {k : RequestKind} {n : Nat}
    (hk : k.argLength = some n) (ha : r.args.length ≠ n) :
    exec (requestCommand k r) s = .next (answered (hunting s) r k .length []) := by
  obtain ⟨forUs, rule, hus, e⟩ := exec_requestCommand k r s
  rw [e, hus (isStation_addressed h.2.1), takeRequest_wrongLength h hk ha]

end Sys2Proof.Machine

namespace Sys2Proof.Proofs

open Sys2Proof.Machine Sys2Proof.Statements

/-- Settles O16: the arguments are in range, and the lock is looked at next. -/
theorem locksRefuseRequests : Obligations.LocksRefuseRequests := by
  intro s r h
  refine ⟨fun hu => ?_, fun hm => ⟨fun i ha => ⟨?_, ?_⟩, fun ha => ?_⟩⟩
  · have hlock : (hunting s).anyLock = true := by
      rw [State.anyLock, Bool.or_eq_true]
      by_contra hno
      simp only [not_or, Bool.not_eq_true] at hno
      exact hu hno
    refine ⟨fun i c hc ha => ?_, fun i ha => ?_, fun k e l w hl hv hh ha => ?_, fun t ht => ?_, fun ha => ?_,
      fun ha => ?_, fun ha => ?_⟩
    · exact request_refused h ha rfl (State.setPointRule_locked hc hlock)
    · exact request_refused h ha rfl (State.removePointRule_locked hlock)
    · exact request_refused h ha rfl (State.setClockRule_locked hv hh hlock)
    · exact request_refused (os := r.args) h rfl rfl (State.loadTableRule_locked ht hlock)
    · exact request_refused h ha rfl (State.activateRule_locked (mode := .now) rfl hlock)
    · exact request_refused h ha rfl (State.activateRule_locked (mode := .atClose) rfl hlock)
    · exact request_refused h ha rfl (State.activateRule_locked (mode := .cancel) rfl hlock)
  · exact request_refused (rule := fun u os => u.holdRule os Point.hold) h ha rfl (State.holdRule_locked _ hm)
  · exact request_refused (rule := fun u os => u.holdRule os Point.release) h ha rfl (State.holdRule_locked _ hm)
  · exact request_refused (rule := fun u _ => u.unlockRule) h ha rfl (State.unlockRule_locked hm)

/-- Settles O15: each refusal is a case of the request's rule; a length that is not its kind's never reaches one. -/
theorem wrongLengthOrRangeAnswered : Obligations.WrongLengthOrRangeAnswered := by
  refine ⟨validTiming_iff, fun k => by cases k <;> exact ⟨rfl, rfl⟩, fun rest hlen hr => ?_, fun s r h => ?_⟩
  · obtain ⟨c, hc⟩ := Option.isSome_iff_exists.1 ((parseConfig_isSome rest).2 hr)
    exact ⟨c, parseConfig_inRange hlen hc⟩
  have load_length {os : List Byte} (ha : r.args = os) (hf : checkForm os = .length) :
      exec (.loadTable r) s = .next (answered (hunting s) r .loadTable .length []) :=
    request_refused h ha rfl (State.loadTableRule_length hf)
  have load_range {os : List Byte} (ha : r.args = os) (hf : checkForm os = .range) :
      exec (.loadTable r) s = .next (answered (hunting s) r .loadTable .range []) :=
    request_refused h ha rfl (State.loadTableRule_range hf)
  have unknown {sel i : Byte} {rest : List Byte} (hsel : 7 < sel.toNat) : checkForm (sel :: i :: rest) = .range := by
    refine checkForm_unknown ?_
    obtain ⟨n, hn⟩ := Nat.exists_eq_add_of_le' hsel
    rw [hn]; rfl
  refine ⟨fun hlen => load_length rfl (checkForm_short hlen),
    fun sel i rest ha => ⟨fun hsel => load_range ha (checkForm_unknown hsel),
      fun indexes size hsel => ⟨fun hi => ?_, fun hi hlen => ?_⟩,
      fun indexes most size hsel => ⟨fun hrest => ?_, fun count entries hrest =>
        ⟨fun hr => ?_, fun hi hc hlen => ?_⟩⟩,
      fun hform hnone => ?_⟩,
    fun k n hk ha => exec_wrongLength h hk ha, load_length rfl, load_range rfl, fun kind n contents hf hp => ?_,
    fun i o ha ho => ?_, fun i rest ha hi => ⟨fun hlen => ?_, fun hrest => ⟨?_, ?_, ?_⟩, fun hlen => ?_⟩,
    fun i rest ha hlen hr => ?_, fun k e l w m ha hr => ?_,
    fun sel i rest ha hsel => ⟨?_, load_range ha (unknown hsel)⟩,
    fun m ha hm => ?_, fun m ha hm => ⟨?_, ?_⟩, fun a b c d x y n flags ha hr => ?_,
    fun a b c d flags x y ha hr => ?_⟩
  · obtain ⟨kind, hk⟩ := checkForm_fixed (i := i) (rest := rest) hsel
    exact load_range ha (by rw [hk, if_pos hi])
  · obtain ⟨kind, hk⟩ := checkForm_fixed (i := i) (rest := rest) hsel
    exact load_length ha (by rw [hk, if_neg (by omega), if_pos hlen])
  · exact load_length (ha.trans (by rw [hrest])) (checkForm_list hsel).1
  · obtain ⟨-, kind, hk⟩ := checkForm_list (i := i) hsel
    exact load_range (ha.trans (by rw [hrest])) (by rw [hk, if_pos hr])
  · obtain ⟨-, kind, hk⟩ := checkForm_list (i := i) hsel
    exact load_length (ha.trans (by rw [hrest])) (by rw [hk, if_neg (by omega), if_pos hlen])
  · exact request_refused h ha rfl (State.loadTableRule_none hform (ha ▸ hnone))
  · exact request_refused (os := r.args) h rfl rfl (State.loadTableRule_contents hf hp)
  · exact request_refused h ha rfl (State.queryPointRule_options ho)
  · exact request_refused h ha (by simp [RequestKind.argLength, hlen]) (State.setPointRule_index hi)
  · exact request_refused h ha (by rw [hrest]; rfl) (State.removePointRule_index hi)
  · exact request_refused (rule := fun u os => u.holdRule os Point.hold) h ha (by rw [hrest]; rfl)
      (State.holdRule_index _ hi)
  · exact request_refused (rule := fun u os => u.holdRule os Point.release) h ha (by rw [hrest]; rfl)
      (State.holdRule_index _ hi)
  · exact request_refused h ha (by simp [RequestKind.argLength, hlen]) (State.queryPointRule_index hi)
  · exact request_refused h ha (by simp [RequestKind.argLength, hlen]) (State.setPointRule_record hr)
  · exact request_refused h ha rfl (State.setClockRule_range hr)
  · rw [ha]; exact unknown hsel
  · exact request_refused h ha rfl (State.activateRule_range hm)
  · exact request_refused h ha rfl (State.lockRule_range hm)
  · exact request_refused h ha rfl (State.queryDeviceRule_range hm)
  · exact request_refused (rule := fun u os => u.readoutRule r.tag os) h ha rfl (State.readoutRule_range hr)
  · exact request_refused h ha rfl (State.clearAttentionRule_range hr)

end Sys2Proof.Proofs
end

section
/-! PROOF. What a warm start does at each owner, and what one that VDD breaks off leaves (R11, R110, R183, R186). -/

namespace Sys2Proof.Machine

open Sys2Proof.Statements

/-! ## The words of the statement -/

/-- A point's own actions of a warm start, in the words of the statement (R11). -/
theorem State.restarted_eq (s : State) (p : Point) : (s.cutPoint p).warmStart = restarted (optionIn s p) p := by
  have hflags : (cutOff (optionIn s p) p).periodFlags ||| 4#4 = p.periodFlags ||| 4#4 := by
    unfold cutOff
    split
    · show p.periodFlags ||| 4#4 ||| 4#4 = _; rw [BitVec.or_assoc, BitVec.or_self]
    · rfl
  have hcount : (cutOff (optionIn s p) p).counters.outages = p.counters.outages := by rw [cutOff_frame]
  calc (s.cutPoint p).warmStart
    _ = ({ s.cutPoint p with ring := [] } : Point).warmStart := rfl
    _ = (cutOff (optionIn s p) p).warmStart := by rw [State.cutPoint_cutOff]
    _ = { cutOff (optionIn s p) p with
          ring := []
          lastSeq := none
          counters := { (cutOff (optionIn s p) p).counters with
            outages := min max16 ((cutOff (optionIn s p) p).counters.outages + 1) }
          periodFlags := (cutOff (optionIn s p) p).periodFlags ||| 4#4 } := rfl
    _ = restarted (optionIn s p) p := by rw [hflags, hcount, restarted, cutOff_frame]

/-- A point's close, in the words of the statement, with the residues its record carries out (R98, R101). -/
theorem State.settledPoint_closed (s : State) (i : Fin 32) (p : Point) (n : BitVec 16) (stamp : Option CalTime)
    (cut : Bool) : s.settledPoint p n = closedPoint n (carriedOut (s.recordOf i p n stamp cut)) p := by
  have hheld : (if p.held then BitVec.twoPow 4 PeriodFlag.heldSeen.place else 0) =
      if p.operator = true ∨ p.conflict = true then 8 else 0 := by
    simp only [Point.held, Bool.or_eq_true]; rfl
  simp only [closedPoint, ← hheld]
  rfl

theorem pointsIn_eq (s : State) (k : Fin 4) (n : BitVec 16) : pointsIn s k n = s.duePoints n k := by
  refine List.filter_congr fun i _ => ?_
  cases s.points[i] <;> simp [Point.dueAt, Point.onClock]

theorem duePoints_eq (s : State) (n : BitVec 16) :
    Statements.duePoints s n = s.pendingClocks.flatMap (s.duePoints n) := by
  simp only [Statements.duePoints, pointsIn_eq]; rfl

theorem restarted_frame (o : Option PenaltyOption) (p : Point) :
    (restarted o p).config = p.config ∧ (restarted o p).period = p.period ∧
      (restarted o p).contribution = p.contribution := by
  rw [restarted, cutOff_frame]; exact ⟨rfl, rfl, rfl⟩

theorem recordFlags_cut (a b : Bool) (f : BitVec 4) (cut : Bool) : (recordFlags a b f cut).getLsbD 6 = cut := by
  revert a b f cut; decide

theorem recordFlags_period (a b : Bool) (f : BitVec 4) (cut : Bool) {n : Nat} (hn : n < 4) :
    (recordFlags a b f cut).getLsbD (n + 2) = f.getLsbD n := by
  have key : ∀ (a b : Bool) (f : BitVec 4) (cut : Bool) (n : Fin 4),
      (recordFlags a b f cut).getLsbD (n.val + 2) = f.getLsbD n.val := by decide
  exact key a b f cut ⟨n, hn⟩

/-! ## The owners' own actions, and the records of the closes that follow -/

/-- Every point has made its own actions of a warm start, and the closes are still to come: points cut and restarted,
peaks, close unit, tariff store and history as they were (R11, R186). -/
structure OwnersRestarted (s w : State) : Prop where
  points  : ∀ i : Fin 32, w.points[i] = s.points[i].map (fun p => restarted (optionIn s p) p)
  close   : w.close = s.close
  tariff  : w.tariff = s.tariff
  history : w.history = s.history
  peak    : ∀ k : Fin 4, w.clocks[k].peak = s.clocks[k].peak
  stamp   : ∀ k : Fin 4, w.clocks[k].peakStamp = s.clocks[k].peakStamp

theorem OwnersRestarted.warmBlocks (s : State) : OwnersRestarted s s.warmBlocks where
  points i := by
    rw [State.warmBlocks_points]; congr 1; funext p; exact s.restarted_eq p
  close := rfl
  tariff := rfl
  history := rfl
  peak k := by rw [State.warmBlocks_clocks]; rfl
  stamp k := by rw [State.warmBlocks_clocks]; rfl

theorem State.partBlocks_points (s : State) (b : StartBreak) (i : Fin 32) : (s.partBlocks b).points[i] =
    s.points[i].map (fun p => if b.points.getLsbD i.val then restarted (optionIn s p) p else p) := by
  refine (s.warmPointsIn_points b.points i).trans ?_
  congr 1; funext p
  rw [s.restarted_eq p]; rfl

theorem State.partBlocks_clocks (s : State) (b : StartBreak) (k : Fin 4) :
    (s.partBlocks b).clocks[k] = if b.clocks.getLsbD k.val then s.clocks[k].warmStart else s.clocks[k] :=
  (s.warmPointsIn b.points).warmClocksIn_clocks b.clocks k

theorem State.partBlocks_peak (s : State) (b : StartBreak) (k : Fin 4) :
    (s.partBlocks b).clocks[k].peak = s.clocks[k].peak ∧
      (s.partBlocks b).clocks[k].peakStamp = s.clocks[k].peakStamp := by
  rw [State.partBlocks_clocks]
  split <;> exact ⟨rfl, rfl⟩

theorem OwnersRestarted.partBlocks (s : State) {b : StartBreak} (hb : b.points = BitVec.allOnes 32) :
    OwnersRestarted s (s.partBlocks b) where
  points i := by
    rw [State.partBlocks_points, hb]; congr 1; funext p
    rw [if_pos (by rw [BitVec.getLsbD_allOnes]; exact decide_eq_true i.isLt)]
  close := rfl
  tariff := rfl
  history := rfl
  peak k := (s.partBlocks_peak b k).1
  stamp k := (s.partBlocks_peak b k).2

section
variable {s w t : State} {i : Fin 32} {n : BitVec 16}

theorem OwnersRestarted.point (h : OwnersRestarted s w) {p : Point} (hp : s.points[i] = some p) :
    w.points[i] = some (restarted (optionIn s p) p) := by rw [h.points, hp]; rfl

theorem OwnersRestarted.pending (h : OwnersRestarted s w) : w.pendingClocks = pendingOf s := by
  rw [State.pendingClocks, h.close]; rfl

theorem OwnersRestarted.due (h : OwnersRestarted s w) (n : BitVec 16) :
    w.pendingClocks.flatMap (w.duePoints n) = Statements.duePoints s n := by
  have hdue : w.duePoints n = s.duePoints n := by
    funext k
    refine List.filter_congr fun i _ => ?_
    rw [h.points]
    cases s.points[i] with
    | none => rfl
    | some p =>
      obtain ⟨hconfig, hperiod, -⟩ := restarted_frame (optionIn s p) p
      simp only [Option.map_some, Point.dueAt, Point.onClock, hconfig, hperiod]
  rw [duePoints_eq, hdue, State.pendingClocks, h.close]; rfl

/-- The points a start closes are those of the closing period on a pending clock. -/
theorem mem_duePoints_iff {p : Point} (hp : s.points[i] = some p) : i ∈ Statements.duePoints s n ↔
    p.period = n ∧ ∃ k : Fin 4, p.config.clock = some k ∧ hasFlag s.close.pendingSet k.val = true := by
  simp only [duePoints_eq, List.mem_flatMap, State.mem_duePoints, hp, Option.some_inj, exists_eq_left', Point.dueAt,
    Point.onClock, Bool.and_eq_true, decide_eq_true_eq, State.pendingClocks, List.mem_filter, allClocks_all, true_and]
  constructor
  · rintro ⟨k, hk, hc, hn⟩; exact ⟨hn, k, hc, hk⟩
  · rintro ⟨hn, k, hc, hk⟩; exact ⟨k, hk, hc, hn⟩

theorem duePoints_configured : ∀ i ∈ Statements.duePoints s n, s.points[i] ≠ none := by
  intro i hi
  rw [duePoints_eq] at hi
  obtain ⟨k, -, hi⟩ := List.mem_flatMap.1 hi
  obtain ⟨p, hp, -⟩ := State.mem_duePoints.1 hi
  rw [hp]; exact Option.some_ne_none p

/-- The records of some points, each of the point as it stands restarted (R100, R110). -/
theorem OwnersRestarted.records (h : OwnersRestarted s w) {l : List (Fin 32)} (hl : ∀ i ∈ l, s.points[i] ≠ none)
    (hh : t.history = (l.filterMap (w.recordAt n s.time.calendar true)).foldl History.append w.history) :
    RestartRecords s t l n (l.filterMap (w.recordAt n s.time.calendar true)) := by
  have hrecord : ∀ x ∈ l.filterMap (w.recordAt n s.time.calendar true), ∃ (i : Fin 32) (p : Point),
      s.points[i] = some p ∧ x = w.recordOf i (restarted (optionIn s p) p) n s.time.calendar true := by
    intro x hx
    obtain ⟨i, -, hx⟩ := List.mem_filterMap.1 hx
    obtain ⟨z, hz, rfl⟩ := Option.map_eq_some_iff.1 hx
    rw [h.points] at hz
    obtain ⟨p, hp, rfl⟩ := Option.map_eq_some_iff.1 hz
    exact ⟨i, p, hp, rfl⟩
  refine ⟨⟨by rw [hh, h.history], w.recordAt_points _ _ _ _ fun i hi => ?_, fun x hx => ?_⟩, fun x hx p hp => ?_⟩
  · rw [h.points, Ne, Option.map_eq_none_iff]; exact hl i hi
  · obtain ⟨i, p, hp, rfl⟩ := hrecord x hx
    exact ⟨rfl, rfl, recordFlags_cut ..⟩
  · obtain ⟨i, q, hq, rfl⟩ := hrecord x hx
    obtain rfl : q = p := Option.some_inj.1 (hq.symm.trans hp)
    refine ⟨_, rfl, rfl, rfl, rfl, rfl, rfl, rfl, rfl, fun b hb => recordFlags_period _ _ _ _ hb, fun k hk => ?_⟩
    have hclock : w.clockOf (restarted (optionIn s q) q) = some w.clocks[k] := by
      rw [State.clockOf, (restarted_frame _ q).1, hk]; rfl
    constructor
    · show ((w.clockOf _).map (·.peak)).getD 0 = _
      rw [hclock]; exact h.peak k
    · show (w.clockOf _).bind (·.peakStamp) = _
      rw [hclock]; exact h.stamp k

/-- A point that closes has its record among them, and carries out that record's residues. -/
theorem OwnersRestarted.closes (h : OwnersRestarted s w) {l : List (Fin 32)} (hi : i ∈ l) {p : Point}
    (hp : s.points[i] = some p) : ∃ x ∈ l.filterMap (w.recordAt n s.time.calendar true), x.point = i ∧
      w.settledPoint (restarted (optionIn s p) p) n = closedPoint n (carriedOut x) (restarted (optionIn s p) p) :=
  ⟨w.recordOf i (restarted (optionIn s p) p) n s.time.calendar true,
    List.mem_filterMap.2 ⟨i, hi, by rw [State.recordAt, h.point hp]; rfl⟩, rfl, w.settledPoint_closed ..⟩

end

end Sys2Proof.Machine
end

section
/-! PROOF. The warm start, whole and broken off, owner by owner; the close in flight by what its completion, or the
first steps of it, leave (R11, R110, R183, R186). -/

namespace Sys2Proof.Machine

open Sys2Proof.Statements

/-! ## The owners outside metering -/

section
variable (s : State)

theorem State.restartReadout_idle (h : s.readout.phase = .idle) : s.restartReadout = s := by
  simp only [State.restartReadout, h]

theorem State.restartReadout_ended (h : s.readout.phase ≠ .idle) :
    s.restartReadout = ({ s with readout := { phase := .idle, lastEnd := some .restart } } : State).raiseDevice
      .readoutEnd := by
  unfold State.restartReadout
  split
  · exact absurd ‹_› h
  · rfl

theorem State.restartReadout_phase : s.restartReadout.readout.phase = .idle := by
  by_cases h : s.readout.phase = .idle
  · rw [s.restartReadout_idle h, h]
  · rw [s.restartReadout_ended h]; rfl

theorem State.restartReadout_port : s.restartReadout.port = s.port := by
  unfold State.restartReadout; split <;> rfl

theorem State.restartReadout_mask : s.restartReadout.attention.mask = s.attention.mask := by
  unfold State.restartReadout; split <;> rfl

theorem FlagsKept.restartReadout : FlagsKept s s.restartReadout := by
  unfold State.restartReadout
  split
  · exact .same rfl
  · exact FlagsKept.trans (t := { s with readout := { phase := .idle, lastEnd := some .restart } }) (.same rfl)
      (.raiseDevice _ _)

/-- With no readout in flight, an assertion of the warning raises its flag alone (R184). -/
theorem State.takeWarning_idle (h : s.readout.phase = .idle) : s.takeWarning = s.raiseDevice .supplyWarn := by
  simp only [State.takeWarning, h]

/-- A start that completes with no readout in flight: the mark is set, and SUPWARN already high is taken (R183, R184). -/
theorem State.completeStart_idle (h : s.readout.phase = .idle) : s.completeStart = { s with
    supply := { s.supply with retention := true }
    attention := if s.supply.supwarn then (s.raiseDevice .supplyWarn).attention else s.attention } := by
  unfold State.completeStart
  dsimp only
  split
  · exact State.takeWarning_idle _ h
  · rfl

end

/-! ## The close that completes -/

section
variable {s : State} {n : BitVec 16} {stamp : Option CalTime}

theorem State.settlePending_time (s : State) (n : BitVec 16) (stamp : Option CalTime) :
    (s.settlePending n stamp).time = s.time :=
  foldl_keeps (R := fun t : State => t.time = s.time) _ s rfl fun t k _ ht => by
    split
    · rw [State.settleClock_time]; exact ht
    · exact ht

theorem State.warmClose_idle (h : s.close.inFlight = none) : s.warmClose stamp = s := by
  simp only [State.warmClose, h]

theorem State.warmClose_completes (h : s.close.inFlight = some n) :
    s.warmClose stamp = (s.settlePending n stamp).completeClose n := by
  simp only [State.warmClose, h]

theorem State.warmClose_time (s : State) (stamp : Option CalTime) : (s.warmClose stamp).time = s.time := by
  unfold State.warmClose
  split
  · rw [State.completeClose_time, State.settlePending_time]
  · rfl

theorem CloseDoneOnly.mask {s t : State} (h : CloseDoneOnly s t) : t.attention.mask = s.attention.mask := by
  rcases h with h | h <;> rw [h]; rfl

/-- What a completion leaves, whatever comes after it but for device flags (R105). -/
theorem completed_of {s t v : State} {n : BitVec 16} (hclose : t.close = (v.completeClose n).close)
    (htariff : t.tariff = (v.completeClose n).tariff) (hflags : FlagsKept (v.completeClose n) t)
    (hv : v.tariff = s.tariff) : Completed s t n := by
  refine ⟨hclose.trans (v.completeClose_close n), hflags 8 ?_, ?_⟩
  · rw [State.completeClose_attention]; exact v.raiseDevice_flag .closeDone
  · rw [htariff, State.completeClose_tariff, hv]

end

/-! ## The whole start -/

section
variable (s : State)

/-- The part once a warm start's closes are made and its readout has ended (R186). -/
def State.restartedBlocks : State := (s.warmBlocks.warmClose s.time.calendar).restartReadout

theorem State.warmStart_whole : s.warmStart = { s.restartedBlocks with
    port := s.port.warmStart
    decoder := s.decoder.warmStart
    supply := { s.supply with retention := true }
    attention := if s.supply.supwarn then (s.restartedBlocks.raiseDevice .supplyWarn).attention
      else s.restartedBlocks.attention } := by
  have hw := MeterFrame.warmClose s.warmBlocks s.time.calendar
  have hx := LoopFrame.restartReadout (s.warmBlocks.warmClose s.time.calendar)
  have hport : s.restartedBlocks.port = s.port := (State.restartReadout_port _).trans hw.port
  have hdecoder : s.restartedBlocks.decoder = s.decoder := hx.decoder.trans hw.decoder
  have hsupply : s.restartedBlocks.supply = s.supply := hx.supply.trans hw.supply
  have hidle : s.restartedBlocks.readout.phase = .idle := State.restartReadout_phase _
  have e := State.completeStart_idle { s.restartedBlocks with
    port := s.restartedBlocks.port.warmStart, decoder := s.restartedBlocks.decoder.warmStart } hidle
  rw [hport, hdecoder] at e
  refine (Eq.trans ?_ e).trans ?_
  · rw [State.warmStart_eq, ← hport, ← hdecoder]; rfl
  · rw [← hsupply]; rfl

theorem State.warmStart_flagsKept : FlagsKept s.restartedBlocks s.warmStart := fun i hi => by
  rw [State.warmStart_whole]
  show hasFlag (if s.supply.supwarn = true then _ else _ : Attention).flags i = true
  split
  · exact FlagsKept.raiseDevice _ _ i hi
  · exact hi

theorem State.warmStart_time : s.warmStart.time = s.time.warmStart :=
  s.warmStart_meter.time.trans (State.warmClose_time ..)

theorem State.warmStart_mask : s.warmStart.attention.mask = s.attention.mask := by
  have hblocks : s.restartedBlocks.attention.mask = s.attention.mask :=
    (State.restartReadout_mask _).trans (CloseDoneOnly.warmClose s.warmBlocks s.time.calendar).mask
  rw [State.warmStart_whole]
  show (if s.supply.supwarn = true then _ else _ : Attention).mask = _
  split
  · exact hblocks
  · exact hblocks

theorem State.warmStart_warned (h : s.supply.supwarn = true) : hasFlag s.warmStart.attention.flags 10 = true := by
  rw [State.warmStart_whole, if_pos h]
  exact State.raiseDevice_flag _ .supplyWarn

/-- A readout in flight ends RESTART, and one that is not is left alone (R141). -/
theorem State.restartReadout_readout : s.restartReadout.readout.phase = .idle ∧
    (s.readout.phase = .idle → s.restartReadout.readout = s.readout) ∧
    (s.readout.phase ≠ .idle → s.restartReadout.readout.lastEnd = some .restart ∧
      hasFlag s.restartReadout.attention.flags 9 = true) := by
  refine ⟨s.restartReadout_phase, fun h => by rw [s.restartReadout_idle h], fun h => ?_⟩
  rw [s.restartReadout_ended h]
  exact ⟨rfl, State.raiseDevice_flag _ .readoutEnd⟩

theorem State.warmStart_readout : s.warmStart.readout.phase = .idle ∧
    (s.readout.phase = .idle → s.warmStart.readout = s.readout) ∧
    (s.readout.phase ≠ .idle → s.warmStart.readout.lastEnd = some .restart ∧
      hasFlag s.warmStart.attention.flags 9 = true) := by
  have hread : (s.warmBlocks.warmClose s.time.calendar).readout = s.readout :=
    (MeterFrame.warmClose s.warmBlocks s.time.calendar).readout
  obtain ⟨hphase, hidle, hended⟩ := State.restartReadout_readout (s.warmBlocks.warmClose s.time.calendar)
  have e : s.warmStart.readout = s.restartedBlocks.readout := by rw [State.warmStart_whole]
  rw [hread] at hidle hended
  rw [e]
  refine ⟨hphase, hidle, fun h => ⟨(hended h).1, s.warmStart_flagsKept 9 (hended h).2⟩⟩

end

/-! ## The close in flight at a whole start -/

section
variable {s : State} {n : BitVec 16}

theorem State.warmStart_idle (h : s.close.inFlight = none) : SameMeter s.warmBlocks s.warmStart := by
  have hm := s.warmStart_meter
  rwa [State.warmClose_idle (s := s.warmBlocks) h] at hm

theorem State.warmStart_completed (h : s.close.inFlight = some n) : Completed s s.warmStart n := by
  have hm := s.warmStart_meter
  have hf := FlagsKept.trans (.restartReadout _) s.warmStart_flagsKept
  rw [State.warmClose_completes (s := s.warmBlocks) h] at hm hf
  exact completed_of hm.close hm.tariff hf (State.settlePending_tariff ..)

theorem State.warmStart_clocks (s : State) (k : Fin 4) : s.warmStart.clocks[k] =
    if s.close.inFlight ≠ none ∧ hasFlag s.close.pendingSet k.val = true
      then { s.clocks[k].warmStart with peak := 0, peakStamp := none } else s.clocks[k].warmStart := by
  rw [s.warmStart_meter.clocks]
  cases h : s.close.inFlight with
  | none =>
    rw [State.warmClose_idle (s := s.warmBlocks) h, if_neg (fun hno => hno.1 rfl), State.warmBlocks_clocks]
  | some n =>
    rw [State.warmClose_completes (s := s.warmBlocks) h, State.completeClose_clocks, State.settlePending_clocks,
      State.warmBlocks_clocks]
    simp only [ne_eq, reduceCtorEq, not_false_eq_true, true_and]
    rfl

theorem State.warmStart_unused {i : Fin 32} (hi : s.points[i] = none) : s.warmStart.points[i] = none := by
  have hblocks : s.warmBlocks.points[i] = none := by rw [(OwnersRestarted.warmBlocks s).points, hi]; rfl
  rw [s.warmStart_meter.points]
  cases h : s.close.inFlight with
  | none => rw [State.warmClose_idle (s := s.warmBlocks) h, hblocks]
  | some n =>
    rw [State.warmClose_completes (s := s.warmBlocks) h, State.completeClose_points, State.settlePending_points, hblocks]
    rfl

/-- A point on no pending clock, or on one but past the closing period, or still in it (R110). -/
theorem State.warmStart_point (h : s.close.inFlight = some n) {i : Fin 32} {p : Point} (hp : s.points[i] = some p) :
    s.warmStart.points[i] = some
      (if ∃ k : Fin 4, p.config.clock = some k ∧ hasFlag s.close.pendingSet k.val = true
        then s.warmBlocks.sharedPoint n (restarted (optionIn s p) p) else restarted (optionIn s p) p) := by
  rw [s.warmStart_meter.points, State.warmClose_completes (s := s.warmBlocks) h, State.completeClose_points,
    State.settlePending_points, (OwnersRestarted.warmBlocks s).point hp]
  simp only [Option.map_some, (restarted_frame _ p).1]
  rfl

theorem State.warmStart_records (h : s.close.inFlight = some n) :
    RestartRecords s s.warmStart (Statements.duePoints s n) n
      ((Statements.duePoints s n).filterMap (s.warmBlocks.recordAt n s.time.calendar true)) := by
  refine (OwnersRestarted.warmBlocks s).records duePoints_configured ?_
  rw [s.warmStart_meter.history, State.warmClose_completes (s := s.warmBlocks) h, State.completeClose_history,
    State.settlePending_history, (OwnersRestarted.warmBlocks s).due]

end

/-! ## A start that VDD breaks off -/

section
variable (s : State) (b : StartBreak)

theorem State.partClosed_readout : (s.partClosed b).readout = s.readout := (MeterFrame.partClosed s b).readout

/-- The pins a broken start began with do not matter to what it leaves, but for themselves (R183). -/
theorem State.loseSupply_part {x : Supply} (hx : { x with vdd := false } = { s.supply with vdd := false }) :
    (State.warmStartPart { s with supply := x } b).loseSupply = (s.warmStartPart b).loseSupply := by
  have hsupply : (s.warmStartPart b).supply = s.supply :=
    (LoopFrame.warmStartPart s b).supply.trans (MeterFrame.partClosed s b).supply
  rw [State.warmStartPart_withSupply]
  simp only [State.loseSupply, hsupply]
  rw [hx]

theorem State.warmCloseFirst_idle {m : Nat} {stamp : Option CalTime} (h : m = 0 ∨ s.close.inFlight = none) :
    s.warmCloseFirst m stamp = s := by
  unfold State.warmCloseFirst
  rcases h with rfl | h
  · split <;> rfl
  · rw [h]

/-- A start broken off before the closes leaves the owners' own actions alone (R183). -/
theorem State.partClosed_blocks (h : b.points ≠ BitVec.allOnes 32 ∨ b.closes = 0 ∨ s.close.inFlight = none) :
    s.partClosed b = s.partBlocks b := by
  unfold State.partClosed
  split
  next hall => exact State.warmCloseFirst_idle _ (h.resolve_left (not_not.2 hall))
  next => rfl

theorem CloseDoneOnly.warmCloseFirst (m : Nat) (stamp : Option CalTime) :
    CloseDoneOnly s (s.warmCloseFirst m stamp) := by
  unfold State.warmCloseFirst
  split
  next n _ =>
    refine CloseDoneOnly.foldl (fun t x => ?_) _ s
    cases x with
    | point i => unfold State.warmCloseStep; dsimp only; split <;> exact .same rfl
    | clock k => exact CloseDoneOnly.trans (t := t.leaveClose k) (.same rfl) (.completeIfEmpty ..)
  next => exact .same rfl

theorem State.warmStartPart_mask : (s.warmStartPart b).attention.mask = s.attention.mask := by
  have hclosed : (s.partClosed b).attention.mask = s.attention.mask := by
    unfold State.partClosed
    split
    · exact (CloseDoneOnly.warmCloseFirst (s.partBlocks b) _ _).mask
    · rfl
  rw [State.warmStartPart_eq]
  split
  · exact (State.restartReadout_mask _).trans hclosed
  · exact hclosed

theorem State.warmCloseStep_pendingSet (n : BitVec 16) (stamp : Option CalTime) (x : WarmCloseStep) :
    (s.warmCloseStep n stamp x).tariff.pending = s.tariff.pending := by
  cases x with
  | point i => unfold State.warmCloseStep; dsimp only; split <;> rfl
  | clock k =>
    show ((s.leaveClose k).completeIfEmpty n).tariff.pending = _
    unfold State.completeIfEmpty
    split
    · rw [State.completeClose_tariff]; split <;> rfl
    · rfl

/-- No step of a completion writes the pending tariff set (R105, R151). -/
theorem State.partClosed_pendingSet : (s.partClosed b).tariff.pending = s.tariff.pending := by
  unfold State.partClosed State.warmCloseFirst
  split
  · split
    · exact foldl_keeps (R := fun t : State => t.tariff.pending = s.tariff.pending) _ _ rfl fun t x _ ht =>
        (t.warmCloseStep_pendingSet _ _ x).trans ht
    · rfl
  · rfl

theorem State.warmStartPart_readout :
    (b.readout = false → (s.warmStartPart b).readout = s.readout) ∧
    (b.readout = true → (s.warmStartPart b).readout.phase = .idle ∧ (s.readout.phase ≠ .idle →
      (s.warmStartPart b).readout.lastEnd = some .restart ∧
        hasFlag (s.warmStartPart b).attention.flags 9 = true)) := by
  have hread := s.partClosed_readout b
  obtain ⟨hphase, -, hended⟩ := (s.partClosed b).restartReadout_readout
  rw [hread] at hended
  rw [State.warmStartPart_eq]
  refine ⟨fun h => by rw [h]; exact hread, fun h => ?_⟩
  rw [if_pos h]
  exact ⟨hphase, hended⟩

theorem State.warmStartPart_port : (s.warmStartPart b).port = s.port := by
  rw [State.warmStartPart_eq]
  split
  · exact (State.restartReadout_port _).trans (MeterFrame.partClosed s b).port
  · exact (MeterFrame.partClosed s b).port

theorem State.warmStartPart_flagsKept : FlagsKept (s.partClosed b) (s.warmStartPart b) := by
  rw [State.warmStartPart_eq]
  split
  · exact .restartReadout _
  · exact .same rfl

theorem State.partClosed_unused {i : Fin 32} (hi : s.points[i] = none) : (s.partClosed b).points[i] = none := by
  have hblocks : (s.partBlocks b).points[i] = none := by rw [State.partBlocks_points, hi]; rfl
  unfold State.partClosed
  split
  · cases h : s.close.inFlight with
    | none => rw [State.warmCloseFirst_idle (s.partBlocks b) (.inr h), hblocks]
    | some n => exact ((s.partBlocks b).warmCloseFirst_spec n _ _ h).2.1 i hblocks
  · exact hblocks

theorem State.partClosed_hold (k : Fin 4) : (s.partClosed b).clocks[k].hold =
    if b.clocks.getLsbD k.val then s.clocks[k].holdLength else s.clocks[k].hold := by
  have hblocks : (s.partBlocks b).clocks[k].hold =
      if b.clocks.getLsbD k.val then s.clocks[k].holdLength else s.clocks[k].hold := by
    rw [State.partBlocks_clocks]; split <;> rfl
  unfold State.partClosed
  split
  · cases h : s.close.inFlight with
    | none => rw [State.warmCloseFirst_idle (s.partBlocks b) (.inr h), hblocks]
    | some n =>
      rw [((s.partBlocks b).warmCloseFirst_spec n _ _ h).2.2.1 k]
      split <;> exact hblocks
  · exact hblocks

end

/-! ## The first steps of a completion -/

section
variable {s : State} {b : StartBreak} {n : BitVec 16}

theorem State.partClosed_all (hb : b.points = BitVec.allOnes 32) :
    s.partClosed b = (s.partBlocks b).warmCloseFirst b.closes s.time.calendar := if_pos hb

theorem State.partClosed_records (hb : b.points = BitVec.allOnes 32) (h : s.close.inFlight = some n) {t : State}
    (ht : t.history = (s.partClosed b).history) :
    RestartRecords s t ((Statements.duePoints s n).take b.closes) n
      (((Statements.duePoints s n).take b.closes).filterMap ((s.partBlocks b).recordAt n s.time.calendar true)) := by
  refine (OwnersRestarted.partBlocks s hb).records (fun i hi => duePoints_configured i (List.mem_of_mem_take hi)) ?_
  rw [ht, State.partClosed_all hb, State.warmCloseFirst_history (s.partBlocks b) n _ _ h,
    (OwnersRestarted.partBlocks s hb).due]

/-- The points and clocks after the first steps of a completion, and what they leave of the close (R110, R183). -/
theorem State.warmStartPart_firstSteps (hb : b.points = BitVec.allOnes 32) (hf : s.close.inFlight = some n) :
    ∃ (rs : List BillingRecord) (left : List (Fin 4)),
      RestartRecords s (s.warmStartPart b) ((Statements.duePoints s n).take b.closes) n rs ∧
      left = (pendingOf s).take (b.closes - (Statements.duePoints s n).length) ∧
      (∀ (i : Fin 32) (p : Point), s.points[i] = some p → ∃ z : Point, z = restarted (optionIn s p) p ∧
        (i ∈ (Statements.duePoints s n).take b.closes → ∃ x ∈ rs, x.point = i ∧
          (s.warmStartPart b).points[i] = some (closedPoint n (carriedOut x) z)) ∧
        (i ∉ (Statements.duePoints s n).take b.closes → (s.warmStartPart b).points[i] = some { z with
          contribution := if ∃ k ∈ left, p.config.clock = some k then 0 else p.contribution })) ∧
      (∀ k : Fin 4, (s.warmStartPart b).clocks[k].peak = (if k ∈ left then 0 else s.clocks[k].peak) ∧
        (s.warmStartPart b).clocks[k].peakStamp = (if k ∈ left then none else s.clocks[k].peakStamp)) ∧
      (left ≠ pendingOf s → (s.warmStartPart b).tariff = s.tariff ∧ (s.warmStartPart b).close.inFlight = some n ∧
        (s.warmStartPart b).close.devicePeriod = s.close.devicePeriod ∧ ∀ j : Fin 4,
          hasFlag (s.warmStartPart b).close.pendingSet j.val =
            (hasFlag s.close.pendingSet j.val && decide (j ∉ left))) ∧
      (left = pendingOf s → left ≠ [] → Completed s (s.warmStartPart b) n) := by
  have hl := LoopFrame.warmStartPart s b
  have hw := OwnersRestarted.partBlocks s hb
  obtain ⟨hpoints, -, hclocks, hpart, hwhole⟩ :=
    (s.partBlocks b).warmCloseFirst_spec n b.closes s.time.calendar hf
  rw [hw.due, hw.pending, ← State.partClosed_all hb] at *
  refine ⟨_, _, State.partClosed_records hb hf hl.history, rfl, fun i p hp => ⟨_, rfl, fun hi => ?_, fun hi => ?_⟩,
    fun k => ?_, fun hleft => ?_, fun hleft hne => ?_⟩
  · obtain ⟨x, hx, hxi, e⟩ := hw.closes (n := n) hi hp
    refine ⟨x, hx, hxi, ?_⟩
    rw [← e]
    exact (congrArg (·[i]) hl.points).trans ((hpoints i _ (hw.point hp)).1 hi)
  · obtain ⟨hconfig, -, hshare⟩ := restarted_frame (optionIn s p) p
    refine ((congrArg (·[i]) hl.points).trans ((hpoints i _ (hw.point hp)).2 hi)).trans ?_
    simp only [hconfig, hshare]
  · rw [(congrArg (·[k]) hl.clocks).trans (hclocks k)]
    split
    · exact ⟨rfl, rfl⟩
    · exact ⟨hw.peak k, hw.stamp k⟩
  · obtain ⟨htariff, hflight, hperiod, hset⟩ := hpart hleft
    rw [hl.close]
    exact ⟨hl.tariff.trans htariff, hflight, hperiod, hset⟩
  · obtain ⟨v, hv, htariff⟩ := hwhole hleft hne
    have hflags := s.warmStartPart_flagsKept b
    rw [hv] at hl hflags
    exact completed_of hl.close hl.tariff hflags htariff

/-- A start broken off before the closes leaves close unit, records, tariff and peaks, and restarts the points of its
set (R183). -/
theorem State.warmStartPart_beforeCloses
    (hb : b.points ≠ BitVec.allOnes 32 ∨ b.closes = 0 ∨ s.close.inFlight = none) :
    (s.warmStartPart b).close = s.close ∧ (s.warmStartPart b).history = s.history ∧
      (s.warmStartPart b).tariff = s.tariff ∧
      (∀ k : Fin 4, (s.warmStartPart b).clocks[k].peak = s.clocks[k].peak ∧
        (s.warmStartPart b).clocks[k].peakStamp = s.clocks[k].peakStamp) ∧
      ∀ i : Fin 32, (b.points.getLsbD i.val = false → (s.warmStartPart b).points[i] = s.points[i]) ∧
        (b.points.getLsbD i.val = true → ∀ p ∈ s.points[i],
          (s.warmStartPart b).points[i] = some (restarted (optionIn s p) p)) := by
  have hl := LoopFrame.warmStartPart s b
  rw [s.partClosed_blocks b hb] at hl
  refine ⟨hl.close, hl.history, hl.tariff, fun k => ?_, fun i => ⟨fun hi => ?_, fun hi p hp => ?_⟩⟩
  · rw [hl.clocks]; exact s.partBlocks_peak b k
  · rw [hl.points, State.partBlocks_points, hi]
    simp
  · rw [hl.points, State.partBlocks_points, hi, hp]
    rfl

end

/-! ## The whole start -/

section
variable {s : State} {n : BitVec 16}

theorem State.warmStart_clockKept (k : Fin 4) :
    s.warmStart.clocks[k].hold = s.clocks[k].holdLength ∧
      s.warmStart.clocks[k].holdLength = s.clocks[k].holdLength ∧
      s.warmStart.clocks[k].enabled = s.clocks[k].enabled ∧ s.warmStart.clocks[k].length = s.clocks[k].length ∧
      s.warmStart.clocks[k].window = s.clocks[k].window ∧
      (s.close.inFlight = none ∨ hasFlag s.close.pendingSet k.val = false →
        s.warmStart.clocks[k].peak = s.clocks[k].peak ∧ s.warmStart.clocks[k].peakStamp = s.clocks[k].peakStamp) := by
  rw [s.warmStart_clocks]
  split
  next hk =>
    exact ⟨rfl, rfl, rfl, rfl, rfl, fun h => h.elim (fun hf => absurd hf hk.1) fun hp => by
      rw [hk.2] at hp; exact nomatch hp⟩
  next => exact ⟨rfl, rfl, rfl, rfl, rfl, fun _ => ⟨rfl, rfl⟩⟩

/-- The whole completion: every point due has its record, and every pending clock its peak and its contributions
reset (R110). -/
theorem State.warmStart_closes (hf : s.close.inFlight = some n) :
    Completed s s.warmStart n ∧
      (∀ k : Fin 4, hasFlag s.close.pendingSet k.val = true →
        s.warmStart.clocks[k].peak = 0 ∧ s.warmStart.clocks[k].peakStamp = none) ∧
      ∃ rs : List BillingRecord, RestartRecords s s.warmStart (Statements.duePoints s n) n rs ∧
        ∀ (i : Fin 32) (p : Point), s.points[i] = some p → ∃ z : Point, z = restarted (optionIn s p) p ∧
          ((∀ k : Fin 4, p.config.clock = some k → hasFlag s.close.pendingSet k.val = false) →
            s.warmStart.points[i] = some z) ∧
          (∀ k : Fin 4, p.config.clock = some k → hasFlag s.close.pendingSet k.val = true →
            (p.period ≠ n → s.warmStart.points[i] = some { z with contribution := 0 }) ∧
            (p.period = n → ∃ x ∈ rs, x.point = i ∧
              s.warmStart.points[i] = some (closedPoint n (carriedOut x) z))) := by
  refine ⟨State.warmStart_completed hf, fun k hk => ?_, _, State.warmStart_records hf, fun i p hp =>
    ⟨_, rfl, fun hnone => ?_, fun k hk hpend => ⟨fun hper => ?_, fun hper => ?_⟩⟩⟩
  · rw [s.warmStart_clocks, if_pos ⟨by simp [hf], hk⟩]
    exact ⟨rfl, rfl⟩
  · rw [State.warmStart_point hf hp, if_neg]
    rintro ⟨k, hk, hpend⟩
    rw [hnone k hk] at hpend; exact nomatch hpend
  · rw [State.warmStart_point hf hp, if_pos ⟨k, hk, hpend⟩, State.sharedPoint,
      if_neg (by rwa [(restarted_frame _ p).2.1])]
  · obtain ⟨x, hx, hxi, e⟩ := (OwnersRestarted.warmBlocks s).closes (n := n)
      ((mem_duePoints_iff hp).2 ⟨hper, k, hk, hpend⟩) hp
    refine ⟨x, hx, hxi, ?_⟩
    rw [State.warmStart_point hf hp, if_pos ⟨k, hk, hpend⟩, State.sharedPoint,
      if_pos (by rwa [(restarted_frame _ p).2.1]), e]
    rfl

end

/-! ## The commands that start, broken off -/

section
variable (s : State) (b : StartBreak)

theorem exec_powerUp_brokenCold (hv : s.supply.vdd = false) (hr : s.supply.retention = false) :
    exec (.powerUp (some b)) s = .next { State.reset with
      pending := s.pending, lineIn := s.lineIn, freeIndex := s.freeIndex
      supply := { s.supply with vdd := false, retention := false } } := by
  show Host.Outcome.next (if s.supply.vdd = true then s else _) = _
  rw [hv, hr]; rfl

theorem State.warmStartPart_supply : (s.warmStartPart b).supply = s.supply :=
  (LoopFrame.warmStartPart s b).supply.trans (MeterFrame.partClosed s b).supply

theorem exec_powerUp_brokenWarm (hv : s.supply.vdd = false) (hr : s.supply.retention = true) :
    exec (.powerUp (some b)) s = .next (s.warmStartPart b).loseSupply := by
  rw [← s.loseSupply_part b (x := { s.supply with vdd := true }) rfl]
  show Host.Outcome.next (if s.supply.vdd = true then s else _) = _
  rw [if_neg (by rw [hv]; decide), if_pos hr]
  rfl

theorem exec_resetn_broken (hv : s.supply.vdd = true) (hr : s.supply.resetnLow = false) :
    exec (.resetn (some b)) s = .next { (s.warmStartPart b).loseSupply with
      supply := { (s.warmStartPart b).loseSupply.supply with resetnLow := true } } := by
  show Host.Outcome.next (if s.supply.resetnLow = true then s else _) = _
  rw [if_neg (by rw [hr]; decide), if_pos hv]
  show Host.Outcome.next (State.warmStartPart { s with supply := { s.supply with resetnLow := true } } b).loseSupply = _
  rw [State.warmStartPart_withSupply, ← s.warmStartPart_supply b]
  rfl

theorem exec_restartWarmStart_broken {q : QueuedFrame} (hq : s.port.transmitter = .sending q)
    (hqr : q.restartReply = true) : exec (.restartWarmStart (some b)) s = .next (s.warmStartPart b).loseSupply := by
  have hsending : s.sendingRestartReply = true := by rw [State.sendingRestartReply, hq]; exact hqr
  show Host.Outcome.next (if s.sendingRestartReply = true then _ else s) = _
  rw [if_pos hsending]
  rfl

end

end Sys2Proof.Machine

namespace Sys2Proof.Proofs

open Sys2Proof.Machine Sys2Proof.Statements

/-- Settles O44: owner by owner, the closes by what the completion of a close leaves, whole or in its first steps. -/
theorem warmStartActsOnEveryOwner : Obligations.WarmStartActsOnEveryOwner := by
  intro s
  refine ⟨?_, State.warmStart_clockKept, fun i => State.warmStart_unused, fun hf => ?_,
    fun n hf => State.warmStart_closes hf, fun b hv hr => exec_powerUp_brokenCold s b hv hr, fun b => ?_⟩
  · obtain ⟨hphase, hidle, hended⟩ := s.warmStart_readout
    exact ⟨s.warmStart_time, by rw [s.warmStart_whole]; rfl, by rw [s.warmStart_whole]; rfl, hphase, hidle, hended,
      s.warmStart_warned, by rw [s.warmStart_whole], s.warmStart_mask⟩
  · have hm := State.warmStart_idle hf
    refine ⟨hm.close, hm.history, hm.tariff, fun i p hp => ?_⟩
    rw [hm.points, (OwnersRestarted.warmBlocks s).point hp]
  · have hl := LoopFrame.warmStartPart s b
    obtain ⟨hreadkept, hreadended⟩ := s.warmStartPart_readout b
    refine ⟨(s.warmStartPart b).loseSupply, ⟨exec_powerUp_brokenWarm s b, exec_resetn_broken s b,
        fun q => exec_restartWarmStart_broken s b⟩, ?_, ?_, ?_, ?_, ?_, s.warmStartPart_mask b, hreadkept, hreadended,
      fun i hi => ?_, fun k => ?_, State.warmStartPart_beforeCloses, fun hb n => State.warmStartPart_firstSteps hb⟩
    · show { (s.warmStartPart b).supply with vdd := false } = _
      rw [s.warmStartPart_supply b]
    · show (s.warmStartPart b).tariff.pending = _
      rw [hl.tariff, s.partClosed_pendingSet b]
    · show (s.warmStartPart b).time.warmStart = s.time.warmStart
      rw [hl.time, s.partClosed_time b]
    · show (s.warmStartPart b).port.warmStart = s.port.warmStart
      rw [s.warmStartPart_port b]
    · show (s.warmStartPart b).decoder.warmStart = s.decoder.warmStart
      rw [hl.decoder, (MeterFrame.partClosed s b).decoder]
    · show (s.warmStartPart b).points[i] = none
      rw [hl.points]; exact s.partClosed_unused b hi
    · show (s.warmStartPart b).clocks[k].hold = _
      rw [hl.clocks]; exact s.partClosed_hold b k

end Sys2Proof.Proofs
end

section
/-! PROOF. Whom a frame is for: what the address and the kind of a frame decide, and what happens to a frame that no
block of this part takes (R18, R163, R164). -/

namespace Sys2Proof.Machine

open Sys2Proof.Statements

/-! ## Addresses -/

theorem live_iff {s : State} : s.live = true ↔ Live s := by
  simp [State.live]

theorem isStation_iff {s : State} {a : Byte} : s.isStation a = true ↔ AddressedTo s a := by
  refine ⟨fun h => ?_, isStation_addressed⟩
  obtain ⟨n, hn, ha⟩ := Option.map_eq_some_iff.1 (of_decide_eq_true h)
  exact ⟨n, hn, ha.symm⟩

theorem isOpenAssign_iff {s : State} {a : Byte} :
    s.isOpenAssign a = true ↔ a = 0xFF ∧ s.decoder.station = none := by
  rw [State.isOpenAssign, Bool.and_eq_true, decide_eq_true_eq, Option.isNone_iff_eq_none]; rfl

/-- An address in no window of 32, or at a part without a station, names no point of the part (R18). -/
theorem windowIndex_outside {s : State} {a : Byte} (h : ∀ n ∈ s.decoder.station, a.toNat / 32 ≠ n.val) :
    s.windowIndex a = none := by
  unfold State.windowIndex
  split
  next n hn => exact if_neg (h n hn)
  next => rfl

/-- An address in the station's window names the point its low five bits give (R18). -/
theorem windowIndex_inside {s : State} {a : Byte} {n : Fin 8} {i : Fin 32} (hn : s.decoder.station = some n)
    (ha : a.toNat = 32 * n.val + i.val) : s.windowIndex a = some i := by
  have hi : Fin.ofNat 32 a.toNat = i := Fin.ext (show a.toNat % 32 = i.val by omega)
  simp only [State.windowIndex, hn, if_pos (show a.toNat / 32 = n.val by omega), hi]

/-! ## Requests -/

theorem namesAssign_frame (k : RequestKind) (r : Request) :
    namesAssign (r.frame k).payload = decide (k = .assignStation) := by
  cases k <;> rfl

/-- A payload that names no known kind does not name ASSIGN STATION (R172). -/
theorem namesAssign_unknown {p : List Byte} (h : unknownPayload p = true) : namesAssign p = false := by
  match p, h with
  | [], _ => rfl
  | [_], _ => rfl
  | _ :: code :: _, h =>
    refine decide_eq_false fun hc => ?_
    rw [unknownPayload, hc] at h
    exact absurd h (by decide)

/-- A request is this part's where it is addressed to its station, or is an ASSIGN STATION that an unassigned part
consumes (R163, R164). -/
theorem exec_requestCommand_forUs (k : RequestKind) (r : Request) (s : State) :
    ∃ rule : State → Answer, exec (requestCommand k r) s = .next (s.takeRequest k r
      (s.isStation r.address || (s.isOpenAssign r.address && decide (k = .assignStation))) rule) := by
  have hplain (hk : k ≠ .assignStation) :
      (s.isStation r.address || (s.isOpenAssign r.address && decide (k = .assignStation))) =
        s.isStation r.address := by
    rw [decide_eq_false hk, Bool.and_false, Bool.or_false]
  cases k with
  | assignStation => exact ⟨_, by rw [decide_eq_true rfl, Bool.and_true]; rfl⟩
  | activate => rw [hplain (by decide)]; unfold requestCommand; split_ifs <;> exact ⟨_, rfl⟩
  | lock => rw [hplain (by decide)]; unfold requestCommand; split_ifs <;> exact ⟨_, rfl⟩
  | _ => rw [hplain (by decide)]; exact ⟨_, rfl⟩

theorem exec_unknownRequest {s : State} {a : Byte} {p : List Byte} (h : unknownPayload p = true) :
    exec (.unknownRequest a p) s = .next (s.receive { kind := kindRequest, address := a, payload := p } (fun s =>
      if s.isStation a then (if s.replyRoom then s.answerUnknown p else s.requestOverrun)
      else s.offer { kind := kindRequest, address := a, payload := p })) := by
  match p, h with
  | [], _ => rfl
  | [_], _ => rfl
  | _ :: code :: _, h =>
    have hcode : (RequestKind.ofCode code).isSome = false := by
      rw [Option.isNone_iff_eq_none.1 h]; rfl
    exact congrArg Host.Outcome.next (if_neg (Bool.eq_false_iff.1 hcode))

/-! ## Frames that no block takes -/

/-- A good frame that is not this part's is offered as it arrived (R163). -/
theorem exec_passThroughFrame_foreign {s : State} {f : Frame} (hs : Live s) (hf : f.lengthOk = true)
    (hforeign : (hunting s).foreign f = true) :
    exec (.passThroughFrame f) s = .next ((hunting s).offer f) := by
  show Host.Outcome.next (s.receive f _) = _
  rw [State.receive_good _ (live_iff.2 hs) hf]
  exact congrArg Host.Outcome.next (if_pos hforeign)

theorem foreign_otherKind {s : State} {f : Frame} (hm : f.kind ≠ kindMark) (hr : f.kind ≠ kindReading)
    (hq : f.kind ≠ kindRequest) : s.foreign f = true := by
  rw [State.foreign, if_neg hm, if_neg hr, if_neg hq]

theorem foreign_reading {s : State} {a : Byte} {p : List Byte} (h : s.windowIndex a = none) :
    s.foreign { kind := kindReading, address := a, payload := p } = true :=
  show (s.windowIndex a).isNone = true by rw [h]; rfl

theorem foreign_request {s : State} {a : Byte} {p : List Byte} (ha : s.isStation a = false)
    (ho : (s.isOpenAssign a && namesAssign p) = false) :
    s.foreign { kind := kindRequest, address := a, payload := p } = true :=
  show (!(s.isStation a || (s.isOpenAssign a && namesAssign p))) = true by rw [ha, ho]; rfl

theorem reading_lengthOk (a : Byte) {p : List Byte} (h : p.length = 20) :
    Frame.lengthOk { kind := kindReading, address := a, payload := p } = true := by
  simp [Frame.lengthOk, kindReading, kindMark, h]

theorem request_lengthOk (a : Byte) {p : List Byte} (h : p.length ≤ 250) :
    Frame.lengthOk { kind := kindRequest, address := a, payload := p } = true := by
  simp [Frame.lengthOk, kindRequest, kindMark, kindReading, kindReply, kindRecord, h]

theorem exec_reading_outside {s : State} {a : Byte} {p : List Byte} (hs : Live s) (hp : p.length = 20)
    (h : s.windowIndex a = none) :
    exec (.reading a p) s = .next ((hunting s).offer { kind := kindReading, address := a, payload := p }) := by
  have hw : s.huntFramer.windowIndex a = none := h
  show Host.Outcome.next (s.receive _ _) = _
  rw [State.receive_good _ (live_iff.2 hs) (reading_lengthOk a hp), State.takeReadingFrame, hw]
  rfl

theorem exec_requestCommand_foreign {s : State} {k : RequestKind} {r : Request} (hs : Live s)
    (hr : r.args.length ≤ 248) (ha : s.isStation r.address = false)
    (ho : (s.isOpenAssign r.address && decide (k = .assignStation)) = false) :
    exec (requestCommand k r) s = .next ((hunting s).offer (r.frame k)) := by
  obtain ⟨rule, e⟩ := exec_requestCommand_forUs k r s
  rw [e, ha, ho, State.takeRequest,
    State.receive_good _ (live_iff.2 hs) (Request.frame_lengthOk k r (decide_eq_true hr))]
  rfl

theorem exec_unknownRequest_foreign {s : State} {a : Byte} {p : List Byte} (hs : Live s) (hp : p.length ≤ 250)
    (hu : unknownPayload p = true) (ha : s.isStation a = false) :
    exec (.unknownRequest a p) s =
      .next ((hunting s).offer { kind := kindRequest, address := a, payload := p }) := by
  have ha' : s.huntFramer.isStation a = false := ha
  rw [exec_unknownRequest hu, State.receive_good _ (live_iff.2 hs) (request_lengthOk a hp), ha']
  rfl

end Sys2Proof.Machine

namespace Sys2Proof.Proofs

open Sys2Proof.Machine Sys2Proof.Statements

/-- Settles O8: in each case both rows find that the frame is for no block and offer it. -/
theorem framesForOthersPassUnchanged : Obligations.FramesForOthersPassUnchanged := by
  intro s hs
  refine ⟨fun f hf hm hr hq => ?_, fun a p hp hout => ?_, fun k r hr ha ho => ?_, fun a p hp hu ha => ?_⟩
  · exact exec_passThroughFrame_foreign hs hf (foreign_otherKind hm hr hq)
  · have hw : s.windowIndex a = none := windowIndex_outside hout
    exact ⟨exec_reading_outside hs hp hw,
      exec_passThroughFrame_foreign hs (reading_lengthOk a hp) (foreign_reading hw)⟩
  · have hstation : s.isStation r.address = false := Bool.eq_false_iff.2 (mt isStation_iff.1 ha)
    have hopen : (s.isOpenAssign r.address && decide (k = .assignStation)) = false := by
      rw [Bool.eq_false_iff, ne_eq, Bool.and_eq_true, isOpenAssign_iff, decide_eq_true_eq]
      exact fun ⟨⟨haddr, hnone⟩, hk⟩ => ho ⟨hk, haddr, hnone⟩
    exact ⟨exec_requestCommand_foreign hs hr hstation hopen,
      exec_passThroughFrame_foreign hs (Request.frame_lengthOk k r (decide_eq_true hr))
        (foreign_request hstation (by rw [← hopen, ← namesAssign_frame k r]; rfl))⟩
  · have hstation : s.isStation a = false := Bool.eq_false_iff.2 (mt isStation_iff.1 ha)
    exact ⟨exec_unknownRequest_foreign hs hp hu hstation,
      exec_passThroughFrame_foreign hs (request_lengthOk a hp)
        (foreign_request hstation (by rw [namesAssign_unknown hu, Bool.and_false]))⟩

end Sys2Proof.Proofs
end

section
/-! PROOF. A READING at a point of the part: the octets it carries, the stamp it goes on with, and what it changes
(R18 to R20, R33, R34, R190, R191). -/

namespace Sys2Proof.Machine

open Sys2Proof.Statements

/-! ## The octets of a READING -/

/-- The stamp stands in the last two octets of the payload (R33, R191). -/
theorem stampReading_eq {p : List Byte} (hp : p.length = 20) (d : Disposition) (rate : Byte) :
    stampReading p d rate = p.take 18 ++ [d.code, rate] := by
  match p, hp with
  | [_, _, _, _, _, _, _, _, _, _, _, _, _, _, _, _, _, _, _, _], _ => rfl

theorem octetAt_octets {os : List Byte} {k : Nat} (h : k + 1 ≤ os.length) :
    beBytes 1 (octetAt os k).toNat = (os.drop k).take 1 := by
  rw [octetAt_toNat]
  exact beBytes_field h

/-- A register's 32 bits are the four octets it is read from (R191). -/
theorem register_octets {os : List Byte} {k : Nat} (h : k + 4 ≤ os.length) :
    beBytes 4 (BitVec.ofNat 32 (field os k 4)).toNat = (os.drop k).take 4 := by
  rw [BitVec.toNat_ofNat, Nat.mod_eq_of_lt (show field os k 4 < 2 ^ 32 from field_lt os k 4), beBytes_field h]

theorem readingData_octets {p : List Byte} (hp : p.length = 20) :
    Holds p [(0, 1, (readingData p).sequence.toNat), (2, 4, (readingData p).registers.ai.toNat),
      (6, 4, (readingData p).registers.ae.toNat), (10, 4, (readingData p).registers.rl.toNat),
      (14, 4, (readingData p).registers.rc.toNat)] := by
  simp only [Holds, List.forall_mem_cons]
  exact ⟨(octetAt_octets (by omega)).symm, (register_octets (by omega)).symm, (register_octets (by omega)).symm,
    (register_octets (by omega)).symm, (register_octets (by omega)).symm, fun _ h => nomatch h⟩

theorem readingData_feRestart {p : List Byte} (hp : p.length = 20) :
    (readingData p).feRestart = true ↔ ∃ o ∈ p[1]?, o.getLsbD 0 = true := by
  have h1 : p[1]? = some (octetAt p 1) := by
    rw [octetAt, List.getD_eq_getElem?_getD, List.getElem?_eq_getElem (by omega), Option.getD_some]
  simp only [h1, Option.mem_def, Option.some.injEq, exists_eq_left']
  rfl

/-! ## A READING in the window -/

section
variable {s : State} {n : Fin 8} {i : Fin 32} {a : Byte} {p : List Byte}

/-- A READING in the station's window is taken at the point its address names (R18, R19). -/
theorem exec_reading_inside (hs : Live s) (hn : s.decoder.station = some n) (ha : a.toNat = 32 * n.val + i.val)
    (hp : p.length = 20) : exec (.reading a p) s =
      .next ((hunting s).takeReadingAt i { kind := kindReading, address := a, payload := p }) := by
  have hw : s.huntFramer.windowIndex a = some i := windowIndex_inside hn ha
  show Host.Outcome.next (s.receive _ _) = _
  rw [State.receive_good _ (live_iff.2 hs) (reading_lengthOk a hp), State.takeReadingFrame, hw]
  rfl

theorem State.takeReadingAt_unused (f : Frame) (h : s.points[i] = none) :
    s.takeReadingAt i f = State.offer { s with unusedReadings := min 65535 (s.unusedReadings + 1) }
      { f with payload := stampReading f.payload .unusedPoint 15 } := by
  rw [State.takeReadingAt, h]; rfl

theorem State.takeReadingAt_absorbed {q : Point} (f : Frame) (h : s.points[i] = some q)
    (hf : q.config.forward = false) : s.takeReadingAt i f =
      { s with points := s.points.set i (some (q.takeReading (readingData f.payload)).1) } := by
  simp only [State.takeReadingAt, h, hf]; rfl

theorem State.takeReadingAt_forwarded {q : Point} (f : Frame) (h : s.points[i] = some q)
    (hf : q.config.forward = true) : s.takeReadingAt i f =
      State.offer { s with points := s.points.set i (some (q.takeReading (readingData f.payload)).1) }
        { f with
          payload := stampReading f.payload (q.takeReading (readingData f.payload)).2
            (q.takeReading (readingData f.payload)).1.stampRate } := by
  simp only [State.takeReadingAt, h, hf]; rfl

end

end Sys2Proof.Machine

namespace Sys2Proof.Proofs

open Sys2Proof.Machine Sys2Proof.Statements

/-- Settles O50: the point the address names takes the frame, and its forward field says whether it goes on. -/
theorem readingTakenAtItsPoint : Obligations.ReadingTakenAtItsPoint := by
  intro s n i a p hs hn ha hp
  refine ⟨fun hi => ?_, fun q hq => ⟨fun hf => ?_, fun hf => ?_⟩, ?_, fun d => by cases d <;> rfl⟩
  · rw [exec_reading_inside hs hn ha hp, State.takeReadingAt_unused (s := hunting s) _ hi, stampReading_eq hp]
    rfl
  · rw [exec_reading_inside hs hn ha hp, State.takeReadingAt_absorbed (s := hunting s) _ hq hf]
  · rw [exec_reading_inside hs hn ha hp, State.takeReadingAt_forwarded (s := hunting s) _ hq hf, stampReading_eq hp]
    rfl
  · rintro d rfl
    exact ⟨readingData_octets hp, readingData_feRestart hp⟩

end Sys2Proof.Proofs
end

section
/-! PROOF. What a READING does to a point context: its sequence class, the increments of its registers, and the
disposition that follows from both (R21 to R32). -/

namespace Sys2Proof.Machine

/-! ## Increments, limits, held sums -/

theorem increments_eq (v b : Registers) : increments v b =
    { ai := (v.ai.toNat + 4294967296 - b.ai.toNat) % 4294967296
      ae := (v.ae.toNat + 4294967296 - b.ae.toNat) % 4294967296
      rl := (v.rl.toNat + 4294967296 - b.rl.toNat) % 4294967296
      rc := (v.rc.toNat + 4294967296 - b.rc.toNat) % 4294967296 } := by
  have hsub (x y : BitVec 32) : (x - y).toNat = (x.toNat + 4294967296 - y.toNat) % 4294967296 := by
    rw [BitVec.toNat_sub]; omega
  simp only [increments, hsub]

theorem implausible_iff (limit : Nat) (e : Energies) :
    implausible limit e = true ↔ limit < e.ai ∨ limit < e.ae ∨ limit < e.rl ∨ limit < e.rc := by
  simp only [implausible, Bool.or_eq_true, decide_eq_true_eq, or_assoc]

/-! ## Sequence classes (R22) -/

section
variable {l seq : Byte}

theorem sequenceClass_duplicate (h : (seq - l).toNat = 0) : sequenceClass (some l) seq = .duplicate := if_pos h

theorem sequenceClass_normal (h : (seq - l).toNat = 1) : sequenceClass (some l) seq = .normal := by
  rw [sequenceClass, h]; rfl

theorem sequenceClass_lost (h2 : 2 ≤ (seq - l).toNat) (h127 : (seq - l).toNat ≤ 127) :
    sequenceClass (some l) seq = .gap ((seq - l).toNat - 1) := by
  simp only [sequenceClass]
  rw [if_neg (by omega), if_neg (by omega), if_pos h127]

theorem sequenceClass_stale (h : 128 ≤ (seq - l).toNat) : sequenceClass (some l) seq = .stale := by
  simp only [sequenceClass]
  rw [if_neg (by omega), if_neg (by omega), if_neg (by omega)]

/-- A frame is in sequence after none, and after the one whose number is one less. -/
theorem sequenceClass_inSequence {last : Option Byte} (h : last = none ∨ ∃ l ∈ last, (seq - l).toNat = 1) :
    sequenceClass last seq = .normal := by
  rcases h with rfl | ⟨l, rfl, h1⟩
  · rfl
  · exact sequenceClass_normal h1

theorem sequenceClass_pred (seq : Byte) : sequenceClass (some (seq - 1)) seq = .normal :=
  sequenceClass_normal (by rw [sub_sub_cancel]; rfl)

end

section
variable {p : Point} {d : ReadingData} {b : Registers}

/-! ## Steps 4 and 5 (R26 to R31) -/

theorem Point.measure_first (hb : p.baselines = none) :
    p.measure d = ({ p with baselines := some d.registers }, .baseline) := by
  rw [Point.measure, hb]

theorem Point.measure_recovered (hb : p.baselines = some b) (hloss : p.config.lossLimit ≤ p.missingCount) :
    p.measure d = ((p.recover (increments d.registers b)).takeFrame d.registers, .recovered) := by
  simp only [Point.measure, hb]
  exact if_pos (decide_eq_true hloss)

/-- Below the loss limit the plausibility of the increments decides (R29). -/
theorem Point.measure_plausibility (hb : p.baselines = some b) (hloss : p.missingCount < p.config.lossLimit) :
    p.measure d = if implausible p.config.plausibility (increments d.registers b)
      then (p.discontinue.takeFrame d.registers, .discontinuity)
      else ((p.accept (increments d.registers b)).takeFrame d.registers, .accepted) := by
  simp only [Point.measure, hb]
  exact if_neg (by simpa [Point.inLoss] using hloss)

theorem Point.measure_discontinuity (hb : p.baselines = some b) (hloss : p.missingCount < p.config.lossLimit)
    (he : implausible p.config.plausibility (increments d.registers b) = true) :
    p.measure d = (p.discontinue.takeFrame d.registers, .discontinuity) := by
  rw [Point.measure_plausibility hb hloss, if_pos he]

theorem Point.measure_accepted (hb : p.baselines = some b) (hloss : p.missingCount < p.config.lossLimit)
    (he : implausible p.config.plausibility (increments d.registers b) = false) :
    p.measure d = ((p.accept (increments d.registers b)).takeFrame d.registers, .accepted) := by
  rw [Point.measure_plausibility hb hloss, he]; rfl

theorem Point.accept_open {x : SubInterval} (e : Energies) (hx : p.sub = some x) : p.accept e = { p with
    sub := some { x with energy := x.energy.satAdd max32 e }
    totals := p.totals.satAdd max64 e
    missingCount := 0 } := by
  rw [Point.accept, hx]

/-- Without an open sub-interval an accepted frame is booked as a recovery is (R28, R30). -/
theorem Point.accept_closed (e : Energies) (hx : p.sub = none) : p.accept e = p.recover e := by
  unfold Point.accept
  split
  next h => rw [hx] at h; cases h
  next => rfl

/-- An accepted frame with a sub-interval open (R30). -/
theorem Point.measure_accepted_open (hb : p.baselines = some b) (hloss : p.missingCount < p.config.lossLimit)
    (he : implausible p.config.plausibility (increments d.registers b) = false) {x : SubInterval}
    (hx : p.sub = some x) : p.measure d = ({ p with
      baselines := some d.registers
      sub := some { x with energy := x.energy.satAdd max32 (increments d.registers b), accepted := true }
      totals := p.totals.satAdd max64 (increments d.registers b)
      missingCount := 0 }, .accepted) := by
  rw [Point.measure_accepted hb hloss he, Point.accept_open _ hx]
  rfl

/-- An accepted frame with none open (R30). -/
theorem Point.measure_accepted_closed (hb : p.baselines = some b) (hloss : p.missingCount < p.config.lossLimit)
    (he : implausible p.config.plausibility (increments d.registers b) = false) (hx : p.sub = none) :
    p.measure d = ({ p with
      baselines := some d.registers
      unattributed := p.unattributed.satAdd max64 (increments d.registers b)
      totals := p.totals.satAdd max64 (increments d.registers b)
      missingCount := 0 }, .accepted) := by
  rw [Point.measure_accepted hb hloss he, Point.accept_closed _ hx]
  simp only [Point.takeFrame, Point.recover, hx, Option.map_none]

/-- Measuring a frame counts no lost frames, leaves the last sequence and drops no quality flag. -/
theorem Point.measure_keeps (p : Point) (d : ReadingData) :
    (p.measure d).1.lastSeq = p.lastSeq ∧ (p.measure d).1.life.lost = p.life.lost ∧
      (p.measure d).1.sub.map (·.quality) = p.sub.map (·.quality) := by
  have htake (q : Point) (r : Registers) : (q.takeFrame r).sub.map (·.quality) = q.sub.map (·.quality) := by
    rw [Point.takeFrame, Option.map_map]; rfl
  unfold Point.measure
  split
  · exact ⟨rfl, rfl, rfl⟩
  · dsimp only
    split
    · exact ⟨rfl, rfl, htake _ _⟩
    · split
      · exact ⟨rfl, rfl, htake _ _⟩
      · rw [htake]
        cases hx : p.sub with
        | none => rw [Point.accept_closed _ hx, Point.recover, hx]; exact ⟨rfl, rfl, rfl⟩
        | some x => rw [Point.accept_open _ hx]; exact ⟨rfl, rfl, rfl⟩

/-! ## The sequence class first (R21 to R25) -/

theorem Point.takeReading_restart (hr : d.feRestart = true) :
    p.takeReading d = (p.restartFrontEnd d, .baseline) := if_pos hr

theorem Point.takeReading_duplicate (hr : d.feRestart = false)
    (hc : sequenceClass p.lastSeq d.sequence = .duplicate) :
    p.takeReading d = ({ p with life := { p.life with duplicates := bump p.life.duplicates } }, .duplicate) := by
  simp only [Point.takeReading, hr, hc, Bool.false_eq_true, if_false]

theorem Point.takeReading_stale (hr : d.feRestart = false) (hc : sequenceClass p.lastSeq d.sequence = .stale) :
    p.takeReading d = ({ p with life := { p.life with stale := bump p.life.stale } }, .stale) := by
  simp only [Point.takeReading, hr, hc, Bool.false_eq_true, if_false]

theorem Point.takeReading_normal (hr : d.feRestart = false) (hc : sequenceClass p.lastSeq d.sequence = .normal) :
    p.takeReading d = ({ p with lastSeq := some d.sequence } : Point).measure d := by
  simp only [Point.takeReading, hr, hc, Bool.false_eq_true, if_false]

theorem Point.takeReading_lost {lost : Nat} (hr : d.feRestart = false)
    (hc : sequenceClass p.lastSeq d.sequence = .gap lost) :
    p.takeReading d = (({ p with lastSeq := some d.sequence } : Point).noteGap lost).measure d := by
  simp only [Point.takeReading, hr, hc, Bool.false_eq_true, if_false]

/-- A frame in sequence becomes the last one, counts no lost frames and drops no quality flag (R25). -/
theorem Point.takeReading_normal_keeps (hr : d.feRestart = false)
    (hc : sequenceClass p.lastSeq d.sequence = .normal) :
    (p.takeReading d).1.lastSeq = some d.sequence ∧ (p.takeReading d).1.life.lost = p.life.lost ∧
      (p.takeReading d).1.sub.map (·.quality) = p.sub.map (·.quality) := by
  rw [Point.takeReading_normal hr hc]
  exact Point.measure_keeps _ d

end

/-! ## Frames lost (R24) -/

/-- The context that takes a frame as the next in sequence, once the frames lost before it are counted and the open
sub-interval carries GAP (R24). -/
def Point.acrossGap (p : Point) (seq l : Byte) : Point :=
  { p with
    lastSeq := some (seq - 1)
    life := { p.life with lost := min 65535 (p.life.lost + ((seq - l).toNat - 1)) }
    sub := p.sub.map (fun b => { b with quality := b.quality ||| 1#5 }) }

section
variable {d : ReadingData}

/-- A frame across a gap is taken as the next in sequence (R24). -/
theorem Point.takeReading_gap {p : Point} {l : Byte} (hr : d.feRestart = false) (hl : p.lastSeq = some l)
    (h2 : 2 ≤ (d.sequence - l).toNat) (h127 : (d.sequence - l).toNat ≤ 127) :
    p.takeReading d = (p.acrossGap d.sequence l).takeReading d :=
  (Point.takeReading_lost hr (by rw [hl]; exact sequenceClass_lost h2 h127)).trans
    (Point.takeReading_normal (p := p.acrossGap d.sequence l) hr (sequenceClass_pred d.sequence)).symm

/-- An open sub-interval carries GAP after a frame across a gap (R24). -/
theorem Point.takeReading_acrossGap_quality (p : Point) (l : Byte) (hr : d.feRestart = false) :
    ∀ x ∈ ((p.acrossGap d.sequence l).takeReading d).1.sub, x.quality.getLsbD 0 = true := by
  intro x hx
  obtain ⟨-, -, hquality⟩ :=
    Point.takeReading_normal_keeps (p := p.acrossGap d.sequence l) hr (sequenceClass_pred d.sequence)
  rw [Option.mem_def.1 hx] at hquality
  obtain ⟨a, ha, e⟩ := Option.map_eq_some_iff.1 hquality.symm
  obtain ⟨b, -, rfl⟩ := Option.map_eq_some_iff.1 ha
  rw [show x.quality = b.quality ||| 1#5 from e.symm]
  simp

/-- An accepted frame across a gap books as one in sequence does, and the open sub-interval carries GAP
(R24, R30). -/
theorem Point.takeReading_acrossGap_accepted (p : Point) (l : Byte) {b : Registers} (hr : d.feRestart = false)
    (hb : p.baselines = some b) (hloss : p.missingCount < p.config.lossLimit)
    (he : implausible p.config.plausibility (increments d.registers b) = false) :
    ((p.acrossGap d.sequence l).takeReading d).2 = .accepted ∧
      ((p.acrossGap d.sequence l).takeReading d).1.missingCount = 0 ∧
      ((p.acrossGap d.sequence l).takeReading d).1.totals = p.totals.satAdd max64 (increments d.registers b) ∧
      ((p.acrossGap d.sequence l).takeReading d).1.sub = p.sub.map (fun x =>
        { x with energy := x.energy.satAdd max32 (increments d.registers b), accepted := true
                 quality := x.quality ||| 1#5 }) ∧
      ((p.acrossGap d.sequence l).takeReading d).1.unattributed = (if p.sub.isSome then p.unattributed
        else p.unattributed.satAdd max64 (increments d.registers b)) := by
  have hnext := Point.takeReading_normal (p := p.acrossGap d.sequence l) hr (sequenceClass_pred d.sequence)
  cases hx : p.sub with
  | none =>
    have hx' : (p.acrossGap d.sequence l).sub = none := by rw [Point.acrossGap, hx]; rfl
    rw [hnext.trans (Point.measure_accepted_closed
      (p := { p.acrossGap d.sequence l with lastSeq := some d.sequence }) hb hloss he hx')]
    exact ⟨rfl, rfl, rfl, hx', rfl⟩
  | some x =>
    have hx' : (p.acrossGap d.sequence l).sub = some { x with quality := x.quality ||| 1#5 } := by
      rw [Point.acrossGap, hx]; rfl
    rw [hnext.trans (Point.measure_accepted_open
      (p := { p.acrossGap d.sequence l with lastSeq := some d.sequence }) hb hloss he hx')]
    exact ⟨rfl, rfl, rfl, rfl, rfl⟩

end

end Sys2Proof.Machine

namespace Sys2Proof.Proofs

open Sys2Proof.Machine

/-- Settles O51: the sequence class comes first, then the increments; a frame across a gap is one in sequence at the
context the gap leaves. -/
theorem readingDispositionsAtPoint : Obligations.ReadingDispositionsAtPoint := by
  intro p d
  refine ⟨fun hr => Point.takeReading_restart hr, fun hr l hl => ⟨fun h => ?_, fun h => ?_⟩, fun hr hl hb => ?_,
    fun hr hseq b hb => ?_, fun hr l hl h2 h127 => ?_, increments_eq, implausible_iff, fun _ _ _ => rfl,
    ⟨rfl, rfl, rfl⟩, fun f => by cases f <;> rfl⟩
  · exact Point.takeReading_duplicate hr (by rw [hl]; exact sequenceClass_duplicate h)
  · exact Point.takeReading_stale hr (by rw [hl]; exact sequenceClass_stale h)
  · exact (Point.takeReading_normal hr (by rw [hl]; rfl)).trans (Point.measure_first hb)
  · have hnext := Point.takeReading_normal hr (sequenceClass_inSequence hseq)
    refine ⟨fun hloss => ?_, fun hloss he => ?_, fun hloss he => ⟨fun x hx => ?_, fun hx => ?_⟩⟩
    · exact hnext.trans (Point.measure_recovered hb hloss)
    · exact hnext.trans (Point.measure_discontinuity hb hloss he)
    · exact hnext.trans (Point.measure_accepted_open (p := { p with lastSeq := some d.sequence }) hb hloss he hx)
    · rw [hnext.trans (Point.measure_accepted_closed hb hloss he hx), hx]; rfl
  · obtain ⟨hlast, hlost, -⟩ :=
      Point.takeReading_normal_keeps (p := p.acrossGap d.sequence l) hr (sequenceClass_pred d.sequence)
    rw [Point.takeReading_gap hr hl h2 h127]
    exact ⟨hlost, hlast, Point.takeReading_acrossGap_quality p l hr, rfl,
      fun _ hloss b hb he => Point.takeReading_acrossGap_accepted p l hr hb hloss he⟩

end Sys2Proof.Proofs
end

section
/-! PROOF. The calendar: valid times, the minute after one, the days and weekdays it counts, and the rate period of a
minute from the lists of season starts and of switch points (R38 to R40, R49 to R51, R190). -/

namespace Sys2Proof.Machine

open Sys2Proof.Statements

/-! ## Valid times -/

theorem monthLength_eq (y m : Nat) : monthLength y m = monthLengthWith (if y % 4 = 0 then 29 else 28) m := by
  simp only [monthLength, leapYear, beq_iff_eq]

theorem monthLength_pos (y m : Nat) : 1 ≤ monthLength y m := by
  unfold monthLength monthLengthWith
  split_ifs <;> decide

theorem CalTime.valid_iff (c : CalTime) : c.valid = true ↔ (2000 ≤ c.year ∧ c.year ≤ 2099) ∧
    (1 ≤ c.month ∧ c.month ≤ 12) ∧ (1 ≤ c.day ∧ c.day ≤ monthLength c.year c.month) ∧ c.hour ≤ 23 ∧ c.minute ≤ 59 := by
  simp only [CalTime.valid, Bool.and_eq_true, decide_eq_true_eq]
  exact ⟨fun ⟨⟨⟨⟨hy, hmo⟩, hd⟩, hh⟩, hmi⟩ => ⟨hy, hmo, hd, hh, hmi⟩,
    fun ⟨hy, hmo, hd, hh, hmi⟩ => ⟨⟨⟨⟨hy, hmo⟩, hd⟩, hh⟩, hmi⟩⟩

/-! ## The minute after, by the field that carrying stops at (R39) -/

section
variable {c : CalTime}

theorem CalTime.next_minute (hmi : c.minute < 59) : c.next = { c with minute := c.minute + 1 } :=
  if_pos (by omega)

theorem CalTime.next_hour (hmi : c.minute = 59) (hh : c.hour < 23) :
    c.next = { c with minute := 0, hour := c.hour + 1 } := by
  rw [CalTime.next, if_neg (by omega), if_pos (by omega)]

theorem CalTime.next_day (hmi : c.minute = 59) (hh : c.hour = 23) (hd : c.day < monthLength c.year c.month) :
    c.next = { c with minute := 0, hour := 0, day := c.day + 1 } := by
  rw [CalTime.next, if_neg (by omega), if_neg (by omega), if_pos (by omega)]

theorem CalTime.next_month (hmi : c.minute = 59) (hh : c.hour = 23) (hd : c.day = monthLength c.year c.month)
    (hmo : c.month < 12) : c.next = { c with minute := 0, hour := 0, day := 1, month := c.month + 1 } := by
  rw [CalTime.next, if_neg (by omega), if_neg (by omega), if_neg (by omega), if_pos (by omega)]

theorem CalTime.next_year (hmi : c.minute = 59) (hh : c.hour = 23) (hd : c.day = 31) (hmo : c.month = 12)
    (hy : c.year ≤ 2099) : c.next =
      { year := if c.year = 2099 then 2000 else c.year + 1, month := 1, day := 1, hour := 0, minute := 0 } := by
  have hlast : monthLength c.year c.month = 31 := by rw [hmo]; rfl
  rw [CalTime.next, if_neg (by omega), if_neg (by omega), if_neg (by omega), if_neg (by omega)]
  congr 1
  split_ifs <;> omega

/-- Where carrying stops at a valid time. -/
theorem CalTime.carry_cases (hv : c.valid = true) :
    c.minute < 59 ∨ (c.minute = 59 ∧ c.hour < 23) ∨
    (c.minute = 59 ∧ c.hour = 23 ∧ c.day < monthLength c.year c.month) ∨
    (c.minute = 59 ∧ c.hour = 23 ∧ c.day = monthLength c.year c.month ∧ c.month < 12) ∨
    (c.minute = 59 ∧ c.hour = 23 ∧ c.day = 31 ∧ c.month = 12) := by
  obtain ⟨-, hmo, hd, hh, hmi⟩ := c.valid_iff.1 hv
  rcases Nat.lt_or_ge c.month 12 with hlt | hge
  · omega
  · have hlast : monthLength c.year c.month = 31 := by rw [show c.month = 12 by omega]; rfl
    omega

/-- A time is never its own successor. -/
theorem CalTime.next_ne (c : CalTime) : c.next ≠ c := by
  intro h
  have hmi := congrArg CalTime.minute h
  unfold CalTime.next at hmi
  split_ifs at hmi <;> dsimp only at hmi <;> omega

/-- The minute after a valid time is valid (R39). -/
theorem CalTime.next_valid (hv : c.valid = true) : c.next.valid = true := by
  obtain ⟨hy, hmo, hd, hh, hmi⟩ := c.valid_iff.1 hv
  rcases CalTime.carry_cases hv with h | ⟨h, h'⟩ | ⟨h, h', hd'⟩ | ⟨h, h', hd', hmo'⟩ | ⟨h, h', hd', hmo'⟩
  · rw [CalTime.next_minute h]; exact (CalTime.valid_iff _).2 ⟨hy, hmo, hd, hh, by dsimp only; omega⟩
  · rw [CalTime.next_hour h h']; exact (CalTime.valid_iff _).2 ⟨hy, hmo, hd, by dsimp only; omega, by dsimp only; omega⟩
  · rw [CalTime.next_day h h' hd']
    exact (CalTime.valid_iff _).2 ⟨hy, hmo, ⟨by dsimp only; omega, hd'⟩, Nat.zero_le _, Nat.zero_le _⟩
  · rw [CalTime.next_month h h' hd' hmo']
    exact (CalTime.valid_iff _).2
      ⟨hy, ⟨by dsimp only; omega, hmo'⟩, ⟨le_refl 1, monthLength_pos _ _⟩, Nat.zero_le _, Nat.zero_le _⟩
  · rw [CalTime.next_year h h' hd' hmo' hy.2]
    refine (CalTime.valid_iff _).2
      ⟨?_, ⟨le_refl 1, Nat.le_add_left 1 11⟩, ⟨le_refl 1, monthLength_pos _ _⟩, Nat.zero_le _, Nat.zero_le _⟩
    dsimp only
    split_ifs <;> omega

end

/-! ## Days and minutes since 2000-01-01 (R40, R190) -/

theorem daysBeforeMonth_succ (y : Nat) {m : Nat} (h : 1 ≤ m) :
    daysBeforeMonth y (m + 1) = daysBeforeMonth y m + monthLength y m := by
  obtain ⟨n, rfl⟩ : ∃ n, m = n + 1 := ⟨m - 1, by omega⟩
  simp only [daysBeforeMonth, Nat.add_sub_cancel, List.range_succ, List.map_append, List.sum_append, List.map_cons,
    List.map_nil, List.sum_cons, List.sum_nil, Nat.add_zero]

/-- The days of a whole year (R39). -/
theorem daysBeforeMonth_thirteen (y : Nat) : daysBeforeMonth y 13 = if y % 4 = 0 then 366 else 365 := by
  simp only [daysBeforeMonth, monthLength_eq]
  split_ifs <;> rfl

theorem daysBeforeMonth_le (y : Nat) {m : Nat} (hm : m ≤ 13) : daysBeforeMonth y m ≤ daysBeforeMonth y 13 := by
  unfold daysBeforeMonth
  exact List.Sublist.sum_le_sum (((List.range_sublist.2 (by omega))).map _) (fun _ _ => Nat.zero_le _)

theorem daysFrom2000_day (y m : Nat) {d : Nat} (h : 1 ≤ d) : daysFrom2000 y m (d + 1) = daysFrom2000 y m d + 1 := by
  unfold daysFrom2000; omega

theorem daysFrom2000_month (y : Nat) {m : Nat} (h : 1 ≤ m) :
    daysFrom2000 y (m + 1) 1 = daysFrom2000 y m (monthLength y m) + 1 := by
  have hlen := monthLength_pos y m
  have hnext := daysBeforeMonth_succ y h
  unfold daysFrom2000; omega

theorem daysFrom2000_year {y : Nat} (h : 2000 ≤ y) : daysFrom2000 (y + 1) 1 1 = daysFrom2000 y 12 31 + 1 := by
  have hyear : daysBeforeMonth y 12 + 31 = daysBeforeMonth y 13 := (daysBeforeMonth_succ y (m := 12) (by decide)).symm
  have hnew : daysBeforeMonth (y + 1) 1 = 0 := rfl
  rw [daysBeforeMonth_thirteen] at hyear
  unfold daysFrom2000
  split_ifs at hyear <;> omega

section
variable {c : CalTime}

/-- 2000..2099 are 36,525 days. -/
theorem CalTime.days_lt (hv : c.valid = true) : daysFrom2000 c.year c.month c.day < 36525 := by
  obtain ⟨hy, hmo, hd, -, -⟩ := c.valid_iff.1 hv
  have hmonth := daysBeforeMonth_succ c.year hmo.1
  have hyear := daysBeforeMonth_le c.year (m := c.month + 1) (by omega)
  rw [daysBeforeMonth_thirteen] at hyear
  unfold daysFrom2000
  split_ifs at hyear <;> omega

theorem CalTime.minutes_lt (hv : c.valid = true) : c.minutes < 52596000 := by
  have hdays := CalTime.days_lt hv
  obtain ⟨-, -, -, hh, hmi⟩ := c.valid_iff.1 hv
  unfold CalTime.minutes CalTime.minuteOfDay
  omega

/-- The minute after a valid time is one minute later, the first of 2000 following the last of 2099 (R39). -/
theorem CalTime.next_minutes (hv : c.valid = true) : c.next.minutes = (c.minutes + 1) % 52596000 := by
  obtain ⟨hy, hmo, hd, -, -⟩ := c.valid_iff.1 hv
  have hlt := CalTime.minutes_lt (CalTime.next_valid hv)
  have later : c.next.minutes = c.minutes + 1 → c.next.minutes = (c.minutes + 1) % 52596000 := fun h => by
    rw [h] at hlt
    rw [h, Nat.mod_eq_of_lt hlt]
  rcases CalTime.carry_cases hv with h | ⟨h, h'⟩ | ⟨h, h', hd'⟩ | ⟨h, h', hd', hmo'⟩ | ⟨h, h', hd', hmo'⟩
  · refine later ?_
    rw [CalTime.next_minute h]
    simp only [CalTime.minutes, CalTime.minuteOfDay]; omega
  · refine later ?_
    rw [CalTime.next_hour h h']
    simp only [CalTime.minutes, CalTime.minuteOfDay]; omega
  · refine later ?_
    rw [CalTime.next_day h h' hd']
    simp only [CalTime.minutes, CalTime.minuteOfDay, daysFrom2000_day _ _ hd.1]; omega
  · refine later ?_
    rw [CalTime.next_month h h' hd' hmo']
    simp only [CalTime.minutes, CalTime.minuteOfDay, daysFrom2000_month _ hmo.1, hd']; omega
  · rw [CalTime.next_year h h' hd' hmo' hy.2] at later hlt ⊢
    by_cases hlast : c.year = 2099
    · have hc : c = { year := 2099, month := 12, day := 31, hour := 23, minute := 59 } := by
        rw [← hlast, ← hmo', ← hd', ← h', ← h]
      rw [hc]; decide
    · refine later ?_
      rw [if_neg hlast]
      simp only [CalTime.minutes, CalTime.minuteOfDay, daysFrom2000_year hy.1, hd', hmo']; omega

/-- The weekday by the days that have passed since 2000-01-01, a Saturday (R40). -/
theorem CalTime.weekday_minutes (c : CalTime) (hv : c.valid = true) :
    weekday c.year c.month c.day = Fin.ofNat 7 (5 + c.minutes / 1440) := by
  obtain ⟨-, -, -, hh, hmi⟩ := c.valid_iff.1 hv
  have hdays : c.minutes / 1440 = daysFrom2000 c.year c.month c.day := by
    unfold CalTime.minutes CalTime.minuteOfDay; omega
  rw [hdays]; rfl

end

/-! ## The entries reached of a list in ascending order -/

section
variable {α : Type} {R : α → α → Prop} {p : α → Bool} {l : List α}

/-- In a list in ascending order the entries reached are its first ones. -/
theorem filter_eq_take (hR : ∀ a b, R a b → p b = true → p a = true) (hl : l.Pairwise R) :
    l.filter p = l.take (l.filter p).length := by
  induction hl with
  | nil => rfl
  | @cons a l ha _ ih =>
    by_cases h : p a = true
    · rw [List.filter_cons_of_pos h, List.length_cons, List.take_succ_cons, ← ih]
    · have hnone : l.filter p = [] := List.filter_eq_nil_iff.2 fun b hb hpb => h (hR a b (ha b hb) hpb)
      rw [List.filter_cons_of_neg h, hnone]; rfl

theorem reached_iff_lt (hR : ∀ a b, R a b → p b = true → p a = true) (hl : l.Pairwise R) {n : Nat} {e : α}
    (he : l[n]? = some e) : p e = true ↔ n < (l.filter p).length := by
  induction hl generalizing n with
  | nil => simp at he
  | @cons a l ha _ ih =>
    by_cases h : p a = true
    · rw [List.filter_cons_of_pos h, List.length_cons]
      cases n with
      | zero => cases he; simp [h]
      | succ n => rw [ih he]; omega
    · have hnone : ∀ b ∈ a :: l, ¬ p b = true := fun b hb hpb => by
        rcases List.mem_cons.1 hb with rfl | hb
        · exact h hpb
        · exact h (hR a b (ha b hb) hpb)
      rw [List.filter_eq_nil_iff.2 hnone]
      simp [hnone e (List.mem_of_getElem? he)]

end

/-! ## The rate period (R49 to R51) -/

theorem seasonReached_iff (e : MonthDay) (t : CalTime) : e.atOrBefore t.month t.day = true ↔ seasonReached e t := by
  simp only [MonthDay.atOrBefore, seasonReached, Bool.or_eq_true, Bool.and_eq_true, decide_eq_true_eq]

/-- The season of a date, in a list of starts in ascending order (R49). -/
theorem season_is {l : List MonthDay} (t : CalTime) (hl : l.Pairwise MonthDay.before) :
    SeasonIs l t (season l t.month t.day) := by
  have hmono : ∀ a b : MonthDay, a.before b → b.atOrBefore t.month t.day = true →
      a.atOrBefore t.month t.day = true := by
    intro a b hab hb
    rw [seasonReached_iff] at hb ⊢
    unfold MonthDay.before seasonReached at *
    omega
  have hiff := fun {n e} => reached_iff_lt (n := n) (e := e) hmono hl
  have hlen := List.length_filter_le (fun e : MonthDay => e.atOrBefore t.month t.day) l
  simp only [season]
  split
  next h0 =>
    rcases eq_or_ne l [] with hnil | hne
    · exact .inl ⟨hnil, by rw [hnil]; rfl⟩
    · refine .inr (.inl ⟨hne, fun e he hr => ?_, ?_⟩)
      · exact List.filter_eq_nil_iff.1 (List.length_eq_zero_iff.1 h0) e he ((seasonReached_iff e t).2 hr)
      · have := List.length_pos_iff.2 hne; omega
  next h0 =>
    refine .inr (.inr ⟨l[(l.filter fun e => e.atOrBefore t.month t.day).length - 1]'(by omega), ?_, ?_, fun f hf => ?_⟩)
    · exact List.getElem?_eq_getElem _
    · rw [← seasonReached_iff, hiff (List.getElem?_eq_getElem _)]; omega
    · rw [← seasonReached_iff, hiff hf]; omega

/-- The rate period of a profile in ascending order (R51). -/
theorem profileRate_gives {l : List SwitchPoint} (minute : Nat) (hl : l.Pairwise (fun a b => a.minute < b.minute)) :
    ProfileGives l minute (profileRate l minute) := by
  have hmono : ∀ a b : SwitchPoint, a.minute < b.minute → decide (b.minute ≤ minute) = true →
      decide (a.minute ≤ minute) = true := by
    intro a b hab hb
    rw [decide_eq_true_eq] at hb ⊢
    omega
  have hiff := fun {n e} => reached_iff_lt (n := n) (e := e) hmono hl
  have htake := filter_eq_take hmono hl
  have hlen := List.length_filter_le (fun e : SwitchPoint => decide (e.minute ≤ minute)) l
  generalize hk : (l.filter fun e => decide (e.minute ≤ minute)).length = k at *
  unfold profileRate
  rw [htake, List.getLast?_take]
  by_cases h0 : k = 0
  · rw [if_pos h0]
    have hnone : ∀ e ∈ l, minute < e.minute := fun e he => by
      simpa using List.filter_eq_nil_iff.1 (List.length_eq_zero_iff.1 (hk.trans h0)) e he
    dsimp only
    split
    next e he => exact .inr (.inl ⟨hnone, e, he, rfl⟩)
    next he => exact .inl ⟨List.getLast?_eq_none_iff.1 he, rfl⟩
  · have he : l[k - 1]? = some (l[k - 1]'(by omega)) := List.getElem?_eq_getElem _
    rw [if_neg h0, he]
    refine .inr (.inr ⟨k - 1, _, he, ?_, fun f hf => ?_, rfl⟩)
    · rw [← decide_eq_true_eq (p := _ ≤ minute), hiff he]; omega
    · have hnot := (hiff hf).not.2 (by omega)
      simpa using hnot

theorem holiday_isOn_iff (h : Holiday) (t : CalTime) :
    h.isOn t = true ↔ h.month = t.month ∧ h.day = t.day ∧ ∀ y ∈ h.year, y = t.year := by
  unfold Holiday.isOn
  cases h.year <;> simp [and_assoc]

theorem dayType_holiday {set : TariffSet} {t : CalTime} (h : ∃ e ∈ set.holidays, e.isOn t = true) : dayType set t = 3 :=
  if_pos (List.any_eq_true.2 h)

theorem dayType_ordinary {set : TariffSet} {t : CalTime} (h : ∀ e ∈ set.holidays, ¬ e.isOn t = true) :
    dayType set t = (set.weekdays[weekday t.year t.month t.day]).val :=
  if_neg fun hany => by obtain ⟨e, he, hon⟩ := List.any_eq_true.1 hany; exact h e he hon

theorem dayType_lt (set : TariffSet) (t : CalTime) : dayType set t < 4 := by
  unfold dayType
  split
  · decide
  · exact Nat.lt_succ_of_lt (Fin.isLt _)

theorem season_lt {l : List MonthDay} (m d : Nat) (h : l.length ≤ 4) : season l m d < 4 := by
  have hlen := List.length_filter_le (fun e : MonthDay => e.atOrBefore m d) l
  simp only [season]
  split <;> omega

end Sys2Proof.Machine

namespace Sys2Proof.Proofs

open Sys2Proof.Machine Sys2Proof.Statements

/-- Settles O49: the minute after by where carrying stops, its minutes by the days of months and years, the rate period
by the entries reached of an ascending list. -/
theorem minuteAdvanceIsOneMinute : Obligations.MinuteAdvanceIsOneMinute := by
  refine ⟨fun _ _ => rfl, monthLength_eq, CalTime.valid_iff, fun c hv => ⟨CalTime.next_minute, CalTime.next_hour,
    CalTime.next_day, CalTime.next_month, fun hmi hh hd hmo => CalTime.next_year hmi hh hd hmo (c.valid_iff.1 hv).1.2⟩,
    by decide, fun c hv => ⟨CalTime.next_valid hv, CalTime.next_minutes hv⟩, CalTime.weekday_minutes, by decide,
    by decide, fun set t hlen hseasons hprofiles => ?_⟩
  have hplace : 4 * season set.seasons t.month t.day + dayType set t < 16 := by
    have := season_lt t.month t.day hlen
    have := dayType_lt set t
    omega
  refine ⟨_, dayType set t, ⟨_, hplace⟩, season_is t hseasons, fun h => ?_, fun h => ?_, rfl, ?_⟩
  · exact dayType_holiday (by simpa only [holiday_isOn_iff] using h)
  · exact dayType_ordinary (by simpa only [holiday_isOn_iff] using h)
  · have hfin : Fin.ofNat 16 (4 * season set.seasons t.month t.day + dayType set t) = ⟨_, hplace⟩ :=
      Fin.ext (Nat.mod_eq_of_lt hplace)
    simp only [ratePeriodAt, hfin]
    exact profileRate_gives _ (hprofiles _)

end Sys2Proof.Proofs
end

section
/-! PROOF. MARK and SELF_ADVANCE at the time base: the time update in the words of the statements, everything a valid
mark and a self-advance do to the time, and the frame that goes on stamped (R38, R41 to R47, R53, R62, R166). -/

namespace Sys2Proof.Machine

open Sys2Proof.Statements

/-! ## Time updates in the words of the statements -/

theorem State.scheduledClose_updated (s : State) (now : CalTime) : Updated s (s.scheduledClose now) now := by
  rcases s.scheduledClose_cases now with ⟨c, hc, hday, hmonth, hflight, e⟩ | ⟨hnot, e⟩
  · exact ⟨fun _ => e, fun h => absurd ⟨c, hc, hday, hmonth, hflight⟩ h⟩
  · exact ⟨fun h => absurd h hnot, fun _ => e⟩

theorem State.minuteAdvance_taken (s : State) (order : List (Fin 4)) (now : CalTime) (b : Bool) :
    MinuteTaken s (s.minuteAdvance order now b) order now b := by
  have hdue := (s.scheduledClose now).nodup_dueClocks now
  have hperm := arrange_perm order ((s.scheduledClose now).dueClocks now)
  exact ⟨s.scheduledClose now, arrange order ((s.scheduledClose now).dueClocks now), s.scheduledClose_updated now,
    hperm.nodup_iff.2 hdue, fun k => hperm.mem_iff.trans (State.mem_dueClocks _ now k),
    fun hnodup hall => arrange_sublist order _ hnodup hdue fun k _ => hall k, rfl⟩

theorem State.openIfEnabled_opened (s : State) (now : CalTime) (p : Point) :
    s.openIfEnabled now p = openedPoint s now p := by
  unfold State.openIfEnabled openedPoint
  simp only [Point.openSub_opened]
  cases p.config.clock <;> rfl

/-- An opening in the words of the statements (R41, R47). -/
theorem State.openEnabled_opened (s : State) (now : CalTime) :
    s.openEnabled now = { s with points := s.points.map (Option.map (openedPoint s now)) } := by
  have hpoints : (s.openEnabled now).points = s.points.map (Option.map (openedPoint s now)) := by
    refine Vector.ext fun i hi => ?_
    rw [Vector.getElem_map, ← funext (s.openIfEnabled_opened now)]
    exact s.openEnabled_points now ⟨i, hi⟩
  rw [s.openEnabled_eq now, hpoints]

theorem openedPoint_periodFlags (s : State) (now : CalTime) (p : Point) :
    (openedPoint s now p).periodFlags = p.periodFlags := by
  unfold openedPoint
  split
  · split <;> rfl
  · rfl

/-! ## What a time update can change -/

/-- Two states agree on everything but time, points, clocks, close unit, history, tariff and attention. -/
def TimedFrame (s t : State) : Prop :=
  t = { s with time := t.time, points := t.points, clocks := t.clocks, close := t.close, history := t.history,
               tariff := t.tariff, attention := t.attention }

theorem TimedFrame.trans {s t u : State} (h : TimedFrame s t) (g : TimedFrame t u) : TimedFrame s u := by
  rw [TimedFrame] at *; rw [g, h]

theorem MeterFrame.timed {s t : State} (h : MeterFrame s t) : TimedFrame s t := by
  rw [MeterFrame] at h; rw [TimedFrame, h]

/-! ## A time step -/

/-- A time step before the scheduled close (R47). -/
def State.steppedTo (s : State) (t : CalTime) : State :=
  (((s.cutAll.lockAt t).openEnabled t).mapPoints (fun p => p.raisePeriod .timeStep)).countStep

theorem State.stepTo_eq (s : State) (t : CalTime) : s.stepTo t = (s.steppedTo t).scheduledClose t := rfl

/-- A step writes the time, the points and the device flag (R47). -/
theorem State.steppedTo_eq (s : State) (t : CalTime) :
    s.steppedTo t = State.raiseDevice { s with
      time := { lockedTime s.time t with steps := min 65535 (s.time.steps + 1) }
      points := (s.steppedTo t).points } .timeStep := by
  unfold State.steppedTo
  rw [State.openEnabled_opened]
  rfl

theorem State.steppedTo_points (s : State) (t : CalTime) (i : Fin 32) :
    (s.steppedTo t).points[i] = s.points[i].map (fun p =>
      { openedPoint s t (cutOff (optionIn s p) p) with
        periodFlags := (cutOff (optionIn s p) p).periodFlags ||| 2#4 }) := by
  have hcut : (s.cutAll.lockAt t).points[i] = s.points[i].map (fun p => cutOff (optionIn s p) p) := by
    simp only [← s.cutPoint_cutOff]
    exact s.mapPoints_points_get _ i
  have hopened : ((s.cutAll.lockAt t).openEnabled t).points[i] =
      (s.cutAll.lockAt t).points[i].map (openedPoint s t) := by
    rw [State.openEnabled_points, ← funext (s.openIfEnabled_opened t)]
    rfl
  have hraised : (s.steppedTo t).points[i] =
      ((s.cutAll.lockAt t).openEnabled t).points[i].map (fun p => p.raisePeriod .timeStep) :=
    State.mapPoints_points_get _ _ i
  rw [hraised, hopened, hcut, Option.map_map, Option.map_map]
  congr 1; funext p
  show ({ openedPoint s t _ with periodFlags := (openedPoint s t _).periodFlags ||| 2#4 } : Point) = _
  rw [openedPoint_periodFlags]

/-! ## A valid mark -/

section
variable {s : State} {order : List (Fin 4)} {t c : CalTime}

theorem State.takeTime_unset (hc : s.time.calendar = none) : s.takeTime order t = s.setTime t := by
  rw [State.takeTime, hc]

theorem State.takeTime_next (hc : s.time.calendar = some c) (ht : t = c.next) :
    s.takeTime order t = (s.lockAt t).minuteAdvance order t false := by
  rw [State.takeTime, hc]; exact if_pos ht

theorem State.takeTime_current (hc : s.time.calendar = some t) : s.takeTime order t =
    if s.time.state = .locked then { s with time := { s.time with duplicates := bump s.time.duplicates } }
    else s.lockAt t := by
  rw [State.takeTime, hc]; exact (if_neg t.next_ne.symm).trans (if_pos rfl)

theorem State.takeTime_step (hc : s.time.calendar = some c) (hnext : t ≠ c.next) (hcur : t ≠ c) :
    s.takeTime order t = s.stepTo t := by
  rw [State.takeTime, hc]; exact (if_neg hnext).trans (if_neg hcur)

theorem State.lockAt_eq (s : State) (t : CalTime) : s.lockAt t = { s with time := lockedTime s.time t } := rfl

/-- A part set from UNSET (R41). -/
theorem State.setTime_eq (s : State) (t : CalTime) : s.setTime t = State.scheduledClose { s with
    time := lockedTime s.time t, points := s.points.map (Option.map (openedPoint s t)) } t := by
  unfold State.setTime
  rw [State.openEnabled_opened]
  rfl

/-- Everything a valid mark can do to the time base: a duplicate is counted, or the part is LOCKED at the mark's time,
the last close month and the count of steps aside (R41 to R43, R47). -/
theorem State.takeTime_time (s : State) (order : List (Fin 4)) (t : CalTime) :
    (s.time.calendar = some t ∧ s.time.state = .locked ∧
      (s.takeTime order t).time = { s.time with duplicates := bump s.time.duplicates }) ∨
    ∃ (month : Option YearMonth) (steps : Nat),
      (s.takeTime order t).time = { lockedTime s.time t with lastClose := month, steps := steps } := by
  cases hc : s.time.calendar with
  | none =>
    rw [State.takeTime_unset hc, State.setTime_eq]
    exact .inr ⟨_, _, (MeterFrame.scheduledClose _ t).time⟩
  | some c =>
    by_cases hnext : t = c.next
    · rw [State.takeTime_next hc hnext]
      exact .inr ⟨_, _, (MeterFrame.minuteAdvance (s.lockAt t) order t false).time⟩
    · by_cases hcur : c = t
      · subst hcur
        rw [State.takeTime_current hc]
        split
        next hl => exact .inl ⟨rfl, hl, rfl⟩
        next => exact .inr ⟨_, _, rfl⟩
      · rw [State.takeTime_step hc hnext (Ne.symm hcur), State.stepTo_eq]
        have h := (MeterFrame.scheduledClose (s.steppedTo t) t).time
        rw [s.steppedTo_eq] at h
        exact .inr ⟨_, _, by rw [s.steppedTo_eq]; exact h⟩

theorem TimedFrame.takeTime (s : State) (order : List (Fin 4)) (t : CalTime) : TimedFrame s (s.takeTime order t) := by
  cases hc : s.time.calendar with
  | none =>
    rw [State.takeTime_unset hc, State.setTime_eq]
    exact TimedFrame.trans (t := { s with
      time := lockedTime s.time t, points := s.points.map (Option.map (openedPoint s t)) }) rfl
      (MeterFrame.scheduledClose _ t).timed
  | some c =>
    by_cases hnext : t = c.next
    · rw [State.takeTime_next hc hnext]
      exact TimedFrame.trans (t := s.lockAt t) rfl (MeterFrame.minuteAdvance ..).timed
    · by_cases hcur : c = t
      · subst hcur
        rw [State.takeTime_current hc]
        split <;> rfl
      · rw [State.takeTime_step hc hnext (Ne.symm hcur), State.stepTo_eq]
        refine TimedFrame.trans ?_ (MeterFrame.scheduledClose _ t).timed
        rw [s.steppedTo_eq]; rfl

/-- After a valid mark the part is LOCKED at its time; the timer is loaded but for a duplicate (R41 to R43). -/
theorem State.takeTime_locked (s : State) (order : List (Fin 4)) (t : CalTime) :
    (s.takeTime order t).time.calendar = some t ∧ (s.takeTime order t).time.state = .locked ∧
      (s.time.calendar ≠ some t ∨ s.time.state ≠ .locked → (s.takeTime order t).time.timer = .running65) := by
  rcases s.takeTime_time order t with ⟨hc, hl, e⟩ | ⟨month, steps, e⟩
  · rw [e]; exact ⟨hc, hl, fun h => (h.elim (· hc) (· hl)).elim⟩
  · rw [e]; exact ⟨rfl, rfl, fun _ => rfl⟩

end

/-! ## The MARK as a frame -/

theorem State.stampMark_length (s : State) (p : List Byte) : (s.stampMark p).length = p.length := by
  unfold State.stampMark
  dsimp only
  split <;> simp only [List.length_set]

/-- The stamp leaves the octets of date and time alone (R166). -/
theorem State.stampMark_time (s : State) (p : List Byte) : (s.stampMark p).take 5 = p.take 5 := by
  unfold State.stampMark
  dsimp only
  split
  next n _ =>
    have hplace : 5 ≤ timePlaceOctet n := by unfold timePlaceOctet; split <;> decide
    rw [List.take_set_of_le hplace, List.take_set_of_le (le_refl 5)]
  next => exact List.take_set_of_le (by decide)

theorem mark_lengthOk (a : Byte) {p : List Byte} (h : p.length = 9) :
    Frame.lengthOk { kind := kindMark, address := a, payload := p } = true := by
  simp [Frame.lengthOk, kindMark, h]

section
variable {s : State} {order : List (Fin 4)} {a : Byte} {p : List Byte}

/-- A MARK at a live part goes to the time base, then on, stamped (R38, R166). -/
theorem exec_mark (hs : Live s) (hp : p.length = 9) : exec (.mark order a p) s = .next
    (((hunting s).takeMark order p).offer
      { kind := 0x10, address := a, payload := ((hunting s).takeMark order p).stampMark p }) :=
  congrArg Host.Outcome.next (State.receive_good _ (live_iff.2 hs) (mark_lengthOk a hp))

theorem State.takeMark_valid (hv : (markTime p).valid = true) : s.takeMark order p = s.takeTime order (markTime p) :=
  if_pos hv

theorem State.takeMark_invalid (hv : (markTime p).valid = false) :
    s.takeMark order p = { s with time := { s.time with invalid := bump s.time.invalid } } :=
  if_neg (by rw [hv]; decide)

end

/-! ## A self-advance -/

section
variable {s : State} {order : List (Fin 4)} {c : CalTime}

theorem exec_selfAdvance (hs : Live s) (ht : s.time.timer ≠ .stopped) (hc : s.time.calendar = some c) :
    exec (.selfAdvance order) s = .next (s.selfAdvance order c) := by
  show Host.Outcome.next (if s.live = true ∧ s.time.timer ≠ .stopped then _ else s) = _
  rw [if_pos ⟨live_iff.2 hs, ht⟩, hc]

theorem holdoverState_uncertain (n : Nat) : holdoverState n = .uncertain ↔ 60 ≤ n := by
  unfold holdoverState; split <;> simp [*]

/-- HOLDOVER is raised on leaving LOCKED; UNCERTAIN on becoming UNCERTAIN, and not while the count is below it (R44). -/
theorem State.raiseHoldover_flags (s : State) (before : TimeState) :
    (before = .locked → hasFlag (s.raiseHoldover before).attention.flags 1 = true) ∧
    (before ≠ .uncertain → s.time.state = .uncertain →
      hasFlag (s.raiseHoldover before).attention.flags 2 = true) ∧
    (hasFlag s.attention.flags 2 = false → s.time.state ≠ .uncertain →
      hasFlag (s.raiseHoldover before).attention.flags 2 = false) := by
  have hfirst : hasFlag s.attention.flags 2 =
      hasFlag (if before = .locked then s.raiseDevice .holdover else s).attention.flags 2 := by
    split
    · simp [State.raiseDevice, hasFlag_addFlag, DeviceFlag.place]
    · rfl
  refine ⟨fun hb => ?_, fun hb hu => ?_, fun hclear hu => ?_⟩
  · have hraised := s.raiseDevice_flag .holdover
    simp only [State.raiseHoldover, if_pos hb]
    split
    · exact FlagsKept.raiseDevice _ .uncertain 1 hraised
    · exact hraised
  · simp only [State.raiseHoldover, if_pos (And.intro hb hu)]
    exact State.raiseDevice_flag _ .uncertain
  · simp only [State.raiseHoldover, if_neg fun h : before ≠ .uncertain ∧ s.time.state = .uncertain => hu h.2]
    exact hfirst.symm.trans hclear

theorem MeterFrame.raiseHoldover (s : State) (before : TimeState) : MeterFrame s (s.raiseHoldover before) := by
  unfold State.raiseHoldover
  dsimp only
  split <;> split <;> rfl

/-- A self-advance leaves the time as it moved it, the last close month aside (R44, R53). -/
theorem State.selfAdvance_time (s : State) (order : List (Fin 4)) (c : CalTime) : (s.selfAdvance order c).time =
    { (s.holdoverAt c.next).time with lastClose := (s.selfAdvance order c).time.lastClose } :=
  ((MeterFrame.raiseHoldover (s.holdoverAt c.next) s.time.state).trans (.minuteAdvance _ order c.next true)).time

theorem TimedFrame.selfAdvance (s : State) (order : List (Fin 4)) (c : CalTime) :
    TimedFrame s (s.selfAdvance order c) :=
  TimedFrame.trans (t := s.holdoverAt c.next) rfl
    ((MeterFrame.raiseHoldover _ s.time.state).trans (.minuteAdvance _ order c.next true)).timed

end

end Sys2Proof.Machine

namespace Sys2Proof.Proofs

open Sys2Proof.Machine Sys2Proof.Statements

/-- Settles O45, case by case of the time the part has against the mark's. -/
theorem validMarkLocksTheTime : Obligations.ValidMarkLocksTheTime := by
  intro s order a p hs hp hv
  obtain ⟨hcal, hstate, htimer⟩ := (hunting s).takeTime_locked order (markTime p)
  refine ⟨(hunting s).takeTime order (markTime p), ?_, (State.stampMark_length _ p).trans hp, State.stampMark_time _ p,
    TimedFrame.takeTime (hunting s) order (markTime p), hcal, hstate, fun hc => ?_, htimer, fun c hc => ⟨fun hcur => ?_,
      fun hnext => ?_, fun hnext hcur => ⟨(hunting s).steppedTo (markTime p), State.steppedTo_eq _ _, fun i hi => ?_,
        fun i x hx => ⟨_, rfl, ?_⟩, ?_⟩⟩⟩
  · rw [exec_mark hs hp, State.takeMark_valid hv]
  · rw [State.takeTime_unset (s := hunting s) hc, State.setTime_eq]
    exact State.scheduledClose_updated _ _
  · subst hcur
    rw [State.takeTime_current (s := hunting s) hc]
    split <;> rfl
  · rw [State.takeTime_next (s := hunting s) hc hnext]
    exact State.minuteAdvance_taken _ order (markTime p) false
  · rw [State.steppedTo_points]
    exact congrArg (Option.map _) hi
  · rw [State.steppedTo_points]
    exact congrArg (Option.map _) hx
  · rw [State.takeTime_step (s := hunting s) hc hnext hcur]
    exact State.scheduledClose_updated _ _

/-- Settles O46: each of the three marks is one equation of `takeMark`. -/
theorem invalidDuplicateAndResynchronisingMarks : Obligations.InvalidDuplicateAndResynchronisingMarks := by
  intro s order a p hs hp
  refine ⟨fun y mo d h mi status e => by rw [e]; rfl, fun hv => ?_, fun hv hc => ⟨fun hl => ?_, fun hl => ?_⟩⟩
  · rw [exec_mark hs hp, State.takeMark_invalid hv]; rfl
  · rw [exec_mark hs hp, State.takeMark_valid hv, State.takeTime_current (s := hunting s) hc, if_pos hl]; rfl
  · rw [exec_mark hs hp, State.takeMark_valid hv, State.takeTime_current (s := hunting s) hc, if_neg hl,
      State.lockAt_eq, lockedTime, ← hc]

/-- Settles O48: the time moved on, the flags raised, and the minute handed on as every minute advance is. -/
theorem selfAdvanceMovesOneMinute : Obligations.SelfAdvanceMovesOneMinute := by
  intro s order c hs ht hc
  have hflag : ∀ i : Nat, i ≠ 8 → hasFlag (s.selfAdvance order c).attention.flags i =
      hasFlag ((s.holdoverAt c.next).raiseHoldover s.time.state).attention.flags i := fun i hi =>
    (CloseDoneOnly.minuteAdvance _ order c.next true).flag hi
  have huncertain : (s.holdoverAt c.next).time.state = .uncertain ↔ 60 ≤ min 65535 (s.time.holdover + 1) :=
    holdoverState_uncertain _
  obtain ⟨hlocked, hbecomes, hclear⟩ := (s.holdoverAt c.next).raiseHoldover_flags s.time.state
  refine ⟨s.selfAdvance order c, s.holdoverAt c.next, (s.holdoverAt c.next).raiseHoldover s.time.state,
    exec_selfAdvance hs ht hc, rfl, ?_, State.minuteAdvance_taken _ order c.next true, s.selfAdvance_time order c,
    TimedFrame.selfAdvance s order c, fun hl => ?_, fun hu hcount => ?_, fun hno hcount => ?_⟩
  · simp only [State.raiseHoldover, huncertain]
  · rw [hflag 1 (by decide)]; exact hlocked hl
  · rw [hflag 2 (by decide)]; exact hbecomes hu (huncertain.2 hcount)
  · rw [hflag 2 (by decide)]; exact hclear hno fun h => absurd (huncertain.1 h) (by omega)

end Sys2Proof.Proofs
end

section
/-! PROOF. The time base, the clocks' settings and the tariff sets through every turn of the part (R37, R38, R44, R55,
R56, R105, R144, R147, R151 to R153). -/

namespace Sys2Proof.Machine

section
variable {s t : State}

/-! ## The time base -/

theorem State.TimeConsistent.same (h : s.TimeConsistent) (hcal : t.time.calendar = s.time.calendar)
    (hstate : t.time.state = s.time.state) (htimer : t.time.timer = s.time.timer)
    (hcount : t.time.holdover = s.time.holdover) : t.TimeConsistent := by
  unfold State.TimeConsistent
  rw [hcal, hstate, htimer, hcount]
  exact h

/-- A part that is UNSET, as every start leaves it (R37). -/
theorem State.timeConsistent_unset (hcal : t.time.calendar = none) (hstate : t.time.state = .unset)
    (htimer : t.time.timer = .stopped) (hcount : t.time.holdover = 0) : t.TimeConsistent := by
  simp [State.TimeConsistent, hcal, hstate, htimer, hcount]

/-- A part LOCKED at a valid time (R41 to R43, R47). -/
theorem State.timeConsistent_locked {c : CalTime} (hv : c.valid = true) (hcal : t.time.calendar = some c)
    (hstate : t.time.state = .locked) (htimer : t.time.timer = .running65) (hcount : t.time.holdover = 0) :
    t.TimeConsistent := by
  simp [State.TimeConsistent, hcal, hstate, htimer, hcount, hv]

/-- A part that runs on without a mark: the count tells HOLDOVER from UNCERTAIN (R44). -/
theorem State.timeConsistent_holdover {c : CalTime} {n : Nat} (hv : c.valid = true) (hcal : t.time.calendar = some c)
    (hstate : t.time.state = holdoverState n) (htimer : t.time.timer = .running60) (hcount : t.time.holdover = n)
    (hpos : 1 ≤ n) (hmax : n ≤ max16) : t.TimeConsistent := by
  unfold holdoverState at hstate
  by_cases h : 60 ≤ n
  · rw [if_pos h] at hstate
    simp [State.TimeConsistent, hcal, hstate, htimer, hcount, hv, h, hmax]
  · rw [if_neg h] at hstate
    simp [State.TimeConsistent, hcal, hstate, htimer, hcount, hv, hpos, Nat.lt_of_not_le h]

theorem State.TimeConsistent.metered (h : s.TimeConsistent) (g : MeterFrame s t) : t.TimeConsistent :=
  h.same (by rw [g.time]) (by rw [g.time]) (by rw [g.time]) (by rw [g.time])

theorem State.TimeConsistent.takeTime (h : s.TimeConsistent) (order : List (Fin 4)) {c : CalTime}
    (hv : c.valid = true) : (s.takeTime order c).TimeConsistent := by
  rcases s.takeTime_time order c with ⟨-, -, e⟩ | ⟨month, steps, e⟩
  · exact h.same (by rw [e]) (by rw [e]) (by rw [e]) (by rw [e])
  · exact State.timeConsistent_locked hv (by rw [e]; rfl) (by rw [e]; rfl) (by rw [e]; rfl) (by rw [e]; rfl)

theorem State.TimeConsistent.selfAdvance (h : s.TimeConsistent) (order : List (Fin 4)) {c : CalTime}
    (hc : s.time.calendar = some c) : (s.selfAdvance order c).TimeConsistent := by
  have hv : c.next.valid = true := by
    obtain ⟨-, -, hvalid, -⟩ := h
    exact CalTime.next_valid (hvalid c hc)
  have e := s.selfAdvance_time order c
  refine State.timeConsistent_holdover (n := bump s.time.holdover) hv ?_ ?_ ?_ ?_ ?_ (bump_le _)
  · rw [e]; rfl
  · rw [e]; rfl
  · rw [e]; rfl
  · rw [e]; rfl
  · unfold bump satAdd max16; omega

/-- Every turn keeps the time base consistent (R37, R38, R44). -/
theorem Turn.timeConsistent (h : Turn s t) (hs : s.TimeConsistent) : t.TimeConsistent := by
  cases h
  case still | reading | invalidMark | configure | reconfigure | remove | hold | release | load | activate | clearStatus
      | clearBits | decoder | pins => exact hs
  case mark order c _ hv => exact hs.takeTime order hv
  case advance order c _ _ hc => exact hs.selfAdvance order hc
  case clock a _ _ _ _ => exact hs.metered (MeterFrame.applyClock s a)
  case close => exact hs.metered (MeterFrame.startClose s)
  case warm p _ =>
    obtain ⟨-, -, -, e⟩ := State.warmStart_settings { s with supply := p }
    exact State.timeConsistent_unset (by rw [e]; rfl) (by rw [e]; rfl) (by rw [e]; rfl) (by rw [e]; rfl)
  case broken | loss | cold => exact State.timeConsistent_unset rfl rfl rfl rfl

/-! ## The clocks' settings -/

/-- The settings of a single clock are valid (R55, R56). -/
abbrev Clock.Valid (c : Clock) : Prop := validTiming c.length c.window = true ∧ c.holdLength ≤ 15 ∧ c.hold ≤ 15

theorem State.clocksValid_iff (s : State) : s.ClocksValid ↔ ∀ k : Fin 4, s.clocks[k].Valid := Iff.rfl

theorem Clock.SameSettings.valid {c d : Clock} (h : c.SameSettings d) (hc : c.Valid) : d.Valid := by
  obtain ⟨-, hlength, hwindow, hholdLength, hhold⟩ := h
  obtain ⟨htiming, hmost, hcount⟩ := hc
  exact ⟨by rw [hlength, hwindow]; exact htiming, hholdLength.trans_le hmost, hhold.trans hcount⟩

theorem Clock.Valid.warmStart {c : Clock} (hc : c.Valid) : c.warmStart.Valid := ⟨hc.1, hc.2.1, hc.2.1⟩

theorem State.ClocksValid.kept (h : s.ClocksValid) (g : SettingsKept s t) : t.ClocksValid := fun k =>
  (g.clocks k).valid (h k)

theorem State.ClocksValid.setClock (h : s.ClocksValid) (k : Fin 4) {c : Clock} (hc : c.Valid) :
    (s.setClock k c).ClocksValid := by
  refine (State.clocksValid_iff _).2 fun j => ?_
  rw [State.setClock_clocks_get]
  split
  · exact hc
  · exact h j

theorem State.ClocksValid.disableClock (h : s.ClocksValid) (k : Fin 4) : (s.disableClock k).ClocksValid := by
  have hcut : (s.cutClock k).ClocksValid := h.setClock k (c := { s.clocks[k] with enabled := false }) (h k)
  exact hcut.kept (.clockShare _ k _)

theorem State.ClocksValid.enableClock (h : s.ClocksValid) (k : Fin 4) : (s.enableClock k).ClocksValid := by
  have hon : (s.setClock k { s.clocks[k] with enabled := true }).ClocksValid := h.setClock k (h k)
  unfold State.enableClock
  dsimp only
  split <;> exact hon

/-- SET CLOCK writes valid settings alone (R57, R58). -/
theorem State.ClocksValid.applyClock (h : s.ClocksValid) {a : ClockArgs} {os : List Byte}
    (ha : parseClock os = some a) : (s.applyClock a).ClocksValid := by
  obtain ⟨htiming, hmost⟩ := parseClock_range ha
  obtain ⟨-, -, hcount⟩ := h a.clock
  have hwritten : (s.setClock a.clock { s.clocks[a.clock] with
      length := a.length, window := a.window, holdLength := a.holdLength }).ClocksValid :=
    h.setClock a.clock ⟨htiming, hmost, hcount⟩
  unfold State.applyClock
  dsimp only
  split
  · split
    · exact hwritten
    · exact hwritten.disableClock a.clock
  · split
    · exact hwritten.enableClock a.clock
    · exact hwritten

/-- Every turn keeps every clock's settings valid (R55, R56). -/
theorem Turn.clocksValid (h : Turn s t) (hs : s.ClocksValid) : t.ClocksValid := by
  cases h
  case still | reading | invalidMark | configure | reconfigure | remove | hold | release | load | activate | clearStatus
      | clearBits | decoder | pins | loss => exact hs
  case mark order c _ _ => exact hs.kept (.takeTime s order c)
  case advance order c _ _ _ => exact hs.kept (.selfAdvance s order c)
  case clock a _ _ ha _ =>
    obtain ⟨os, ha⟩ := ha
    exact hs.applyClock ha
  case close => exact hs.kept (.startClose s)
  case warm p _ =>
    obtain ⟨-, -, hclocks, -⟩ := State.warmStart_settings { s with supply := p }
    exact fun k => (hclocks k).valid (Clock.Valid.warmStart (hs k))
  case broken p b =>
    obtain ⟨-, -, hclocks, -⟩ := State.warmStartPart_settings { s with supply := p } b
    refine fun k => (hclocks k).valid ?_
    split
    · exact Clock.Valid.warmStart (hs k)
    · exact hs k
  case cold =>
    have hreset : ∀ k : Fin 4, State.reset.clocks[k].Valid := by decide
    exact hreset

/-! ## The tariff store -/

/-- Everything the metering operations can do to the tariff store: nothing, or the activation that a close which
completes makes (R105, R152). -/
def TariffKept (s t : State) : Prop :=
  t.tariff = s.tariff ∨ t.tariff = { s.tariff with active := s.tariff.pending, atClose := false }

namespace TariffKept

theorem same (h : t.tariff = s.tariff) : TariffKept s t := .inl h

theorem trans {u : State} (h : TariffKept s t) (g : TariffKept t u) : TariffKept s u := by
  rcases h with h | h <;> rcases g with g | g <;> rw [h] at g
  · exact .inl g
  · exact .inr g
  · exact .inr g
  · exact .inr g

theorem foldl {β : Type} {f : State → β → State} (h : ∀ t b, TariffKept t (f t b)) (l : List β) (s : State) :
    TariffKept s (l.foldl f s) := foldl_keeps l s (.same rfl) fun t b _ ht => ht.trans (h t b)

theorem completeClose (s : State) (n : BitVec 16) : TariffKept s (s.completeClose n) := by
  unfold TariffKept
  rw [State.completeClose_tariff]
  split
  · exact .inr rfl
  · exact .inl rfl

theorem completeIfEmpty (s : State) (n : BitVec 16) : TariffKept s (s.completeIfEmpty n) := by
  unfold State.completeIfEmpty
  split
  · exact .completeClose s n
  · exact .same rfl

theorem clockShare (s : State) (k : Fin 4) (stamp : Option CalTime) : TariffKept s (s.clockShare k stamp) := by
  rcases s.clockShare_cases k stamp with ⟨-, e⟩ | ⟨n, -, -, e⟩ <;> rw [e]
  · exact .same rfl
  · exact TariffKept.trans (.same (State.settleClock_tariff ..)) (.completeIfEmpty _ n)

theorem startClose (s : State) : TariffKept s s.startClose :=
  TariffKept.trans (t := s.beginClose.closeIdlePoints.resetIdlePeaks)
    (.same ((State.resetIdlePeaks_tariff _).trans (State.closeIdlePoints_tariff _))) (.completeIfEmpty ..)

theorem warmClose (s : State) (stamp : Option CalTime) : TariffKept s (s.warmClose stamp) := by
  unfold State.warmClose
  split
  · exact TariffKept.trans (.same (State.settlePending_tariff ..)) (.completeClose ..)
  · exact .same rfl

theorem warmCloseFirst (s : State) (m : Nat) (stamp : Option CalTime) : TariffKept s (s.warmCloseFirst m stamp) := by
  unfold State.warmCloseFirst
  split
  next n _ =>
    refine TariffKept.foldl (fun t x => ?_) _ s
    cases x with
    | point i => unfold State.warmCloseStep; dsimp only; split <;> exact .same rfl
    | clock k => exact TariffKept.trans (t := t.leaveClose k) (.same rfl) (.completeIfEmpty ..)
  next => exact .same rfl

theorem boundary (s : State) (k : Fin 4) (now : CalTime) (b : Bool) : TariffKept s (s.boundary k now b) := by
  have hsteps : (s.evaluateClock k now b).tariff = s.tariff := by
    simp only [State.evaluateClock, State.comparePeak]
    split <;> split <;> rfl
  exact (TariffKept.same hsteps).trans ((TariffKept.clockShare _ k (some now)).trans (.same rfl))

theorem scheduledClose (s : State) (now : CalTime) : TariffKept s (s.scheduledClose now) := by
  rcases s.scheduledClose_cases now with ⟨c, -, -, -, -, e⟩ | ⟨-, e⟩ <;> rw [e]
  · exact TariffKept.trans (.same rfl) (TariffKept.startClose
      { s with time := { s.time with lastClose := some { year := now.year, month := now.month } } })
  · exact .same rfl

theorem minuteAdvance (s : State) (order : List (Fin 4)) (now : CalTime) (b : Bool) :
    TariffKept s (s.minuteAdvance order now b) :=
  (TariffKept.scheduledClose s now).trans (.foldl (fun t k => .boundary t k now b) _ _)

theorem takeTime (s : State) (order : List (Fin 4)) (c : CalTime) : TariffKept s (s.takeTime order c) := by
  have hopen : ∀ (u : State) (now : CalTime), (u.openEnabled now).tariff = u.tariff := fun u now => by
    rw [u.openEnabled_eq now]
  have hstepped : (s.steppedTo c).tariff = s.tariff := by rw [s.steppedTo_eq]; rfl
  unfold State.takeTime
  split
  · exact TariffKept.trans (.same (hopen (s.lockAt c) c)) (.scheduledClose _ c)
  · split
    · exact TariffKept.trans (t := s.lockAt c) (.same rfl) (.minuteAdvance ..)
    · split
      · split <;> exact .same rfl
      · exact (TariffKept.same hstepped).trans (.scheduledClose _ c)

theorem selfAdvance (s : State) (order : List (Fin 4)) (c : CalTime) : TariffKept s (s.selfAdvance order c) :=
  TariffKept.trans (.same (LoopFrame.raiseHoldover (s.holdoverAt c.next) s.time.state).tariff) (.minuteAdvance ..)

theorem applyClock (s : State) (a : ClockArgs) : TariffKept s (s.applyClock a) := by
  have hdisable : ∀ (u : State) (k : Fin 4), TariffKept u (u.disableClock k) := fun u k =>
    TariffKept.trans (t := u.cutClock k) (.same rfl) (.clockShare _ k _)
  have henable : ∀ (u : State) (k : Fin 4), TariffKept u (u.enableClock k) := fun u k => by
    unfold State.enableClock
    dsimp only
    split <;> exact .same rfl
  have hwritten : ∀ (u : State) (k : Fin 4) (c : Clock), TariffKept u (u.setClock k c) := fun _ _ _ => .same rfl
  unfold State.applyClock
  dsimp only
  split
  · split
    · exact hwritten ..
    · exact (hwritten ..).trans (hdisable ..)
  · split
    · exact (hwritten ..).trans (henable ..)
    · exact hwritten ..

theorem warmStart (s : State) : TariffKept s s.warmStart := by
  have hclosed : TariffKept s (s.warmBlocks.warmClose s.time.calendar) :=
    TariffKept.trans (t := s.warmBlocks) (.same rfl) (.warmClose ..)
  exact hclosed.trans (.same s.warmStart_meter.tariff)

theorem warmStartPart (s : State) (b : StartBreak) : TariffKept s (s.warmStartPart b) := by
  have hclosed : TariffKept s (s.partClosed b) := by
    unfold State.partClosed
    split
    · exact TariffKept.trans (t := s.partBlocks b) (.same rfl) (.warmCloseFirst ..)
    · exact .same rfl
  exact hclosed.trans (.same (LoopFrame.warmStartPart s b).tariff)

end TariffKept

theorem State.TariffInRange.kept (h : s.TariffInRange) (g : TariffKept s t) : t.TariffInRange := by
  unfold State.TariffInRange
  rcases g with g | g <;> rw [g]
  · exact h
  · exact ⟨h.2, h.2⟩

theorem TariffSet.neverLoaded_inRange : TariffSet.neverLoaded.InRange :=
  ⟨by decide, by decide, by decide, by decide, by decide, by decide⟩

/-- Every turn keeps both tariff sets valid (R144, R147). -/
theorem Turn.tariffInRange (h : Turn s t) (hs : s.TariffInRange) : t.TariffInRange := by
  cases h
  case still | reading | invalidMark | configure | reconfigure | remove | hold | release | clearStatus | clearBits
      | decoder | pins | loss => exact hs
  case mark order c _ _ => exact hs.kept (.takeTime s order c)
  case advance order c _ _ _ => exact hs.kept (.selfAdvance s order c)
  case clock a _ _ _ _ => exact hs.kept (.applyClock s a)
  case load table _ hloaded =>
    obtain ⟨args, kind, n, contents, hform, hparse⟩ := hloaded
    exact ⟨hs.1, TariffSet.put_inRange hs.2 hform hparse⟩
  case activate m _ _ =>
    cases m with
    | now => exact ⟨hs.2, hs.2⟩
    | atClose => exact hs
    | cancel => exact ⟨hs.1, hs.1⟩
  case close => exact hs.kept (.startClose s)
  case warm p _ => exact State.TariffInRange.kept (s := { s with supply := p }) hs (.warmStart _)
  case broken p b => exact State.TariffInRange.kept (s := { s with supply := p }) hs (.warmStartPart _ b)
  case cold => exact ⟨TariffSet.neverLoaded_inRange, TariffSet.neverLoaded_inRange⟩

/-! ## Steps -/

/-- What holds of the time base, the clocks or the tariff store alone, and is kept by every turn, is kept by every step:
the moves of the loop around the turn touch none of them. -/
theorem step_keeps_of_turn {P : State → Prop}
    (hsame : ∀ u v : State, v.time = u.time → v.clocks = u.clocks → v.tariff = u.tariff → P u → P v)
    (hturn : ∀ u v : State, Turn u v → P u → P v) (h : step s = .next t) (hs : P s) : P t := by
  obtain ⟨pending, line, u, v, hbefore, hmid, hafter⟩ := step_moved h
  have hu : P u := hsame _ _ hbefore.time hbefore.clocks hbefore.tariff (hsame s _ rfl rfl rfl hs)
  exact hsame _ _ hafter.time hafter.clocks hafter.tariff (hturn _ _ hmid hu)

end

end Sys2Proof.Machine

namespace Sys2Proof.Proofs

open Sys2Proof.Machine

/-- Settles O54: each of the three holds of one block of the state, and every turn keeps it. -/
theorem stepKeepsTimeAndClocksValid : Obligations.StepKeepsTimeAndClocksValid := by
  refine ⟨fun s t htime hclocks hstep => ⟨?_, ?_⟩, fun s t htariff hstep => ?_⟩
  · exact step_keeps_of_turn (P := State.TimeConsistent)
      (fun u v e _ _ hu => hu.same (by rw [e]) (by rw [e]) (by rw [e]) (by rw [e]))
      (fun u v hturn => hturn.timeConsistent) hstep htime
  · exact step_keeps_of_turn (P := State.ClocksValid)
      (fun u v _ e _ hu => by unfold State.ClocksValid; rw [e]; exact hu)
      (fun u v hturn => hturn.clocksValid) hstep hclocks
  · exact step_keeps_of_turn (P := State.TariffInRange)
      (fun u v _ _ e hu => by unfold State.TariffInRange; rw [e]; exact hu)
      (fun u v hturn => hturn.tariffInRange) hstep htariff

end Sys2Proof.Proofs
end

section
/-! PROOF. The coincident contributions within the clock's peak: only the comparison of a boundary raises either, and
everything else leaves a contribution or takes it back, and leaves a peak or resets it with its contributions (R55,
R74, R75, R104). -/

namespace Sys2Proof.Machine

variable {s t : State}

/-! ## Contributions and their sum -/

/-- What the context at an index contributes to the peak of clock k. -/
def shareAt (k : Fin 4) : Option Point → Nat
  | some p => if p.onClock k then p.contribution else 0
  | none => 0

/-- A sum over the point contexts is a sum over the point indices. -/
theorem sum_points_eq (v : Vector (Option Point) 32) (f : Option Point → Nat) :
    (v.toList.map f).sum = ∑ i : Fin 32, f v[i] := by
  have e : v.toList = List.ofFn fun i : Fin 32 => v[i] :=
    List.ext_getElem (by simp) fun i _ _ => by rw [Vector.getElem_toList, List.getElem_ofFn]; rfl
  rw [e, List.map_ofFn, List.sum_ofFn]
  rfl

theorem State.contributionSum_eq (s : State) (k : Fin 4) :
    s.contributionSum k = ∑ i : Fin 32, shareAt k s.points[i] := by
  rw [← sum_points_eq]
  exact congrArg List.sum (List.map_congr_left fun x _ => by cases x <;> rfl)

/-! ## What leaves the shares within the peaks -/

/-- From s to t no contribution and no peak has risen: each contribution is 0 or what it was, at a point of the same
clock; each peak is what it was, or has been reset together with its contributions. -/
structure SharesKept (s t : State) : Prop where
  points : ∀ (i : Fin 32) (q : Point), t.points[i] = some q → q.contribution = 0 ∨
    ∃ p, s.points[i] = some p ∧ q.config.clock = p.config.clock ∧ q.contribution = p.contribution
  clocks : ∀ k : Fin 4,
    (t.clocks[k].peak = s.clocks[k].peak ∧ t.clocks[k].peakStamp = s.clocks[k].peakStamp) ∨
    (t.clocks[k].peak = 0 ∧ t.clocks[k].peakStamp = none ∧ t.contributionSum k = 0)

theorem State.contributionSum_eq_zero (k : Fin 4) : s.contributionSum k = 0 ↔
    ∀ (i : Fin 32) (p : Point), s.points[i] = some p → p.config.clock = some k → p.contribution = 0 := by
  rw [State.contributionSum_eq, Finset.sum_eq_zero_iff]
  simp only [Finset.mem_univ, true_implies]
  refine forall_congr' fun i => ?_
  cases s.points[i] <;> simp [shareAt, Point.onClock]

/-- Contributions that are 0 or what they were add up to no more than before. -/
theorem contributionSum_le (h : ∀ (i : Fin 32) (q : Point), t.points[i] = some q → q.contribution = 0 ∨
    ∃ p, s.points[i] = some p ∧ q.config.clock = p.config.clock ∧ q.contribution = p.contribution) (k : Fin 4) :
    t.contributionSum k ≤ s.contributionSum k := by
  rw [State.contributionSum_eq, State.contributionSum_eq]
  refine Finset.sum_le_sum fun i _ => ?_
  cases hq : t.points[i] with
  | none => exact Nat.zero_le _
  | some q =>
    rcases h i q hq with h0 | ⟨p, hp, hclock, hshare⟩
    · simp [shareAt, h0]
    · rw [hp]; simp only [shareAt, Point.onClock, hclock, hshare]; exact le_refl _

/-- Where no contribution and no peak rises, the shares stay within the peaks (R75). -/
theorem State.SharesWithinPeak.kept (h : s.SharesWithinPeak) (g : SharesKept s t) : t.SharesWithinPeak := by
  intro k
  rcases g.clocks k with ⟨hpeak, hstamp⟩ | ⟨hpeak, hstamp, hsum⟩
  · rw [hpeak, hstamp]
    exact ⟨(contributionSum_le g.points k).trans (h k).1, (h k).2⟩
  · rw [hpeak, hstamp, hsum]
    exact ⟨le_refl 0, iff_of_true rfl rfl⟩

namespace SharesKept

theorem same (hpoints : t.points = s.points) (hclocks : t.clocks = s.clocks) : SharesKept s t :=
  ⟨fun i q hq => .inr ⟨q, by rw [← hpoints]; exact hq, rfl, rfl⟩, fun k => .inl (by rw [hclocks]; exact ⟨rfl, rfl⟩)⟩

theorem refl (s : State) : SharesKept s s := same rfl rfl

theorem trans {u : State} (h : SharesKept s t) (g : SharesKept t u) : SharesKept s u := by
  refine ⟨fun i r hr => ?_, fun k => ?_⟩
  · rcases g.points i r hr with h0 | ⟨q, hq, hclock, hshare⟩
    · exact .inl h0
    · rw [hclock, hshare]; exact h.points i q hq
  · rcases g.clocks k with ⟨hpeak, hstamp⟩ | hreset
    · rcases h.clocks k with ⟨hpeak', hstamp'⟩ | ⟨hpeak', hstamp', hsum⟩
      · exact .inl ⟨hpeak.trans hpeak', hstamp.trans hstamp'⟩
      · exact .inr ⟨hpeak.trans hpeak', hstamp.trans hstamp',
          Nat.le_zero.1 (hsum ▸ contributionSum_le g.points k)⟩
    · exact .inr hreset

theorem foldl {β : Type} {f : State → β → State} (h : ∀ t b, SharesKept t (f t b)) (l : List β) (s : State) :
    SharesKept s (l.foldl f s) := foldl_keeps l s (.refl s) fun t b _ ht => ht.trans (h t b)

/-- Points whose contribution is left or taken back, the peaks being as they were. -/
theorem map {f : Point → Point} (hpoints : ∀ i : Fin 32, t.points[i] = s.points[i].map f)
    (hf : ∀ p, (f p).contribution = 0 ∨ ((f p).config.clock = p.config.clock ∧ (f p).contribution = p.contribution))
    (hclocks : ∀ k : Fin 4, t.clocks[k].peak = s.clocks[k].peak ∧ t.clocks[k].peakStamp = s.clocks[k].peakStamp) :
    SharesKept s t := by
  refine ⟨fun i q hq => ?_, fun k => .inl (hclocks k)⟩
  rw [hpoints, Option.map_eq_some_iff] at hq
  obtain ⟨p, hp, rfl⟩ := hq
  exact (hf p).imp_right fun h => ⟨p, hp, h⟩

theorem mapPoints (s : State) {f : Point → Point}
    (hf : ∀ p, (f p).config.clock = p.config.clock ∧ (f p).contribution = p.contribution) :
    SharesKept s (s.mapPoints f) := .map (s.mapPoints_points_get f) (fun p => .inr (hf p)) fun _ => ⟨rfl, rfl⟩

theorem mapPointsOn (s : State) (k : Fin 4) {f : Point → Point}
    (hf : ∀ p, (f p).config.clock = p.config.clock ∧ (f p).contribution = p.contribution) :
    SharesKept s (s.mapPointsOn k f) :=
  .map (s.mapPointsOn_points_get k f)
    (fun p => .inr (by
      split
      · exact hf p
      · exact ⟨rfl, rfl⟩)) fun _ => ⟨rfl, rfl⟩

/-- A clock written with its peak and stamp as they were. -/
theorem setClock (s : State) (k : Fin 4) {c : Clock} (hpeak : c.peak = s.clocks[k].peak)
    (hstamp : c.peakStamp = s.clocks[k].peakStamp) : SharesKept s (s.setClock k c) := by
  refine ⟨fun i q hq => .inr ⟨q, hq, rfl, rfl⟩, fun j => .inl ?_⟩
  rw [State.setClock_clocks_get]
  split
  · next e => subst e; exact ⟨hpeak, hstamp⟩
  · exact ⟨rfl, rfl⟩

/-- A point written with no contribution, or with that of the point it replaces, on the same clock. -/
theorem setPoint (s : State) (i : Fin 32) {q : Point} (h : q.contribution = 0 ∨
    ∃ p, s.points[i] = some p ∧ q.config.clock = p.config.clock ∧ q.contribution = p.contribution) :
    SharesKept s (s.setPoint i (some q)) := by
  refine ⟨fun j r hr => ?_, fun k => .inl ⟨rfl, rfl⟩⟩
  by_cases hij : i = j
  · subst hij; rw [State.setPoint_points_same] at hr; cases hr; exact h
  · rw [State.setPoint_points_other _ _ _ _ hij] at hr; exact .inr ⟨r, hr, rfl, rfl⟩

/-- A point changed with its clock field and contribution left. -/
theorem keepPoint {i : Fin 32} {p q : Point} (hp : s.points[i] = some p) (hclock : q.config.clock = p.config.clock)
    (hshare : q.contribution = p.contribution) : SharesKept s (s.setPoint i (some q)) :=
  .setPoint s i (.inr ⟨p, hp, hclock, hshare⟩)

theorem dropPoint (s : State) (i : Fin 32) : SharesKept s (s.setPoint i none) := by
  refine ⟨fun j r hr => ?_, fun k => .inl ⟨rfl, rfl⟩⟩
  by_cases hij : i = j
  · subst hij; rw [State.setPoint_points_same] at hr; cases hr
  · rw [State.setPoint_points_other _ _ _ _ hij] at hr; exact .inr ⟨r, hr, rfl, rfl⟩

/-! ## Closes -/

theorem closePoints (s : State) (which : Point → Bool) (n : BitVec 16) (stamp : Option CalTime) (cut : Bool) :
    SharesKept s (s.closePoints which n stamp cut) := by
  refine .map (s.closePoints_points which n stamp cut) (fun p => ?_) fun k => ?_
  · split
    · exact .inl rfl
    · exact .inr ⟨rfl, rfl⟩
  · rw [(CloseTurnFrame.closePoints ..).clocks]; exact ⟨rfl, rfl⟩

/-- A reset peak takes the contributions of its points back (R104). -/
theorem resetPeak (s : State) (k : Fin 4) : SharesKept s (s.resetPeak k) := by
  refine ⟨fun i q hq => ?_, fun j => ?_⟩
  · rw [State.resetPeak_points, Option.map_eq_some_iff] at hq
    obtain ⟨p, hp, rfl⟩ := hq
    split
    · exact .inl rfl
    · exact .inr ⟨p, hp, rfl, rfl⟩
  · rw [State.resetPeak_clocks, State.contributionSum_eq_zero]
    split
    · next e =>
      subst e
      refine .inr ⟨rfl, rfl, fun i q hq hclock => ?_⟩
      rw [State.resetPeak_points, Option.map_eq_some_iff] at hq
      obtain ⟨p, hp, rfl⟩ := hq
      split at hclock
      · next hon => rw [if_pos hon]
      · next hon => exact absurd ((p.onClock_iff k).2 hclock) hon
    · exact .inl ⟨rfl, rfl⟩

theorem leaveClose (s : State) (k : Fin 4) : SharesKept s (s.leaveClose k) :=
  (resetPeak s k).trans (.same rfl rfl)

theorem completeIfEmpty (s : State) (n : BitVec 16) : SharesKept s (s.completeIfEmpty n) :=
  .same (s.completeIfEmpty_points n) (s.completeIfEmpty_clocks n)

theorem settleClock (s : State) (k : Fin 4) (n : BitVec 16) (stamp : Option CalTime) (cut : Bool) :
    SharesKept s (s.settleClock k n stamp cut) := (closePoints s _ n stamp cut).trans (.leaveClose _ k)

theorem clockShare (s : State) (k : Fin 4) (stamp : Option CalTime) : SharesKept s (s.clockShare k stamp) := by
  rcases s.clockShare_cases k stamp with ⟨-, e⟩ | ⟨n, -, -, e⟩ <;> rw [e]
  · exact .refl s
  · exact (settleClock ..).trans (.completeIfEmpty ..)

theorem startClose (s : State) : SharesKept s s.startClose := by
  have hbegun : SharesKept s s.beginClose := .same rfl rfl
  have hidle : SharesKept s.beginClose s.beginClose.closeIdlePoints := .closePoints ..
  have hpeaks : ∀ u : State, SharesKept u u.resetIdlePeaks := fun u => .foldl (fun t k => by
    split
    · exact .refl t
    · exact .resetPeak t k) _ u
  exact ((hbegun.trans hidle).trans (hpeaks _)).trans (.completeIfEmpty ..)

theorem scheduledClose (s : State) (now : CalTime) : SharesKept s (s.scheduledClose now) := by
  rcases s.scheduledClose_cases now with ⟨-, -, -, -, -, e⟩ | ⟨-, e⟩ <;> rw [e]
  · generalize hu : ({ s with time := _ } : State) = u
    have hmonth : SharesKept s u := .same (by rw [← hu]) (by rw [← hu])
    exact hmonth.trans (.startClose u)
  · exact .refl s

theorem warmClose (s : State) (stamp : Option CalTime) : SharesKept s (s.warmClose stamp) := by
  unfold State.warmClose
  split
  · next n _ =>
    have hsettled : SharesKept s (s.settlePending n stamp) := .foldl (fun t k => by
      split
      · exact .settleClock ..
      · exact .refl t) _ s
    exact hsettled.trans (.same (State.completeClose_points ..) (State.completeClose_clocks ..))
  · exact .refl s

theorem warmCloseStep (s : State) (n : BitVec 16) (stamp : Option CalTime) (x : WarmCloseStep) :
    SharesKept s (s.warmCloseStep n stamp x) := by
  cases x with
  | point i =>
    unfold State.warmCloseStep
    dsimp only
    split
    · next p _ =>
      have happended : SharesKept s { s with history := s.history.append (s.recordOf i p n stamp true) } :=
        .same rfl rfl
      exact happended.trans (.setPoint _ i (.inl rfl))
    · exact .refl s
  | clock k => exact (leaveClose s k).trans (.completeIfEmpty ..)

theorem warmCloseFirst (s : State) (m : Nat) (stamp : Option CalTime) :
    SharesKept s (s.warmCloseFirst m stamp) := by
  unfold State.warmCloseFirst
  split
  · exact .foldl (fun t x => .warmCloseStep t _ stamp x) _ s
  · exact .refl s

/-! ## Sub-intervals, clocks and points -/

theorem openPointsOn (s : State) (k : Fin 4) (now : CalTime) : SharesKept s (s.openPointsOn k now) :=
  .mapPointsOn s k fun _ => ⟨rfl, rfl⟩

theorem openEnabled (s : State) (now : CalTime) : SharesKept s (s.openEnabled now) :=
  .foldl (fun t k => by
    split
    · exact .openPointsOn ..
    · exact .refl t) _ s

theorem disableClock (s : State) (k : Fin 4) : SharesKept s (s.disableClock k) := by
  have hcut : SharesKept s (s.cutClock k) :=
    SharesKept.trans (t := s.setClock k { s.clocks[k] with enabled := false }) (.setClock s k rfl rfl)
      (.mapPointsOn _ k fun p => by
        have hframe := (s.setClock k { s.clocks[k] with enabled := false }).cutPoint_frame p
        exact ⟨congrArg PointConfig.clock hframe.config, hframe.contribution⟩)
  exact hcut.trans (.clockShare ..)

theorem enableClock (s : State) (k : Fin 4) : SharesKept s (s.enableClock k) := by
  have hon : SharesKept s (s.clockOn k) :=
    SharesKept.trans (t := s.setClock k { s.clocks[k] with enabled := true }) (.setClock s k rfl rfl)
      (.mapPointsOn _ k fun _ => ⟨rfl, rfl⟩)
  rw [State.enableClock_eq]
  split
  · exact hon.trans (.openPointsOn ..)
  · exact hon

theorem applyClock (s : State) (a : ClockArgs) : SharesKept s (s.applyClock a) := by
  have hwritten : SharesKept s (s.setClock a.clock { s.clocks[a.clock] with
      length := a.length, window := a.window, holdLength := a.holdLength }) := .setClock s a.clock rfl rfl
  unfold State.applyClock
  dsimp only
  split
  · split
    · exact hwritten
    · exact hwritten.trans (.disableClock ..)
  · split
    · exact hwritten.trans (.enableClock ..)
    · exact hwritten

theorem countStep (s : State) : SharesKept s s.countStep := .same rfl rfl

/-- A point whose record is replaced keeps its clock and contribution, or has none left (R14). -/
theorem reconfigure {i : Fin 32} {p : Point} (hp : s.points[i] = some p) (c : PointConfig) :
    SharesKept s (s.setPoint i (some (s.reconfigure p c))) := by
  have hraised : (s.reconfigure p c).config = (s.rerecorded p c).config ∧
      (s.reconfigure p c).contribution = (s.rerecorded p c).contribution := by
    rw [State.reconfigure_eq]; split <;> exact ⟨rfl, rfl⟩
  refine .setPoint s i ?_
  rw [hraised.1, hraised.2]
  by_cases hc : c.clock = p.config.clock
  · rw [State.rerecorded_same hc]; exact .inr ⟨p, hp, hc, rfl⟩
  · rw [State.rerecorded_moved hc, State.takeUpClock_contribution]; exact .inl rfl

theorem clearPoints (s : State) (set : BitVec 32) : SharesKept s (s.clearPoints set) := by
  refine ⟨fun i q hq => .inr ?_, fun k => .inl ⟨rfl, rfl⟩⟩
  have e : (s.clearPoints set).points[i] =
      if hasFlag set i.val then s.points[i].map (fun p => { p with attention := false }) else s.points[i] := by
    simp [State.clearPoints]
  rw [e] at hq
  split at hq
  · obtain ⟨p, hp, rfl⟩ := Option.map_eq_some_iff.1 hq
    exact ⟨p, hp, rfl, rfl⟩
  · exact ⟨q, hq, rfl, rfl⟩

/-! ## Starts -/

theorem warmStart (s : State) : SharesKept s s.warmStart := by
  have hblocks : SharesKept s s.warmBlocks := by
    refine .map s.warmBlocks_points (fun p => .inr ?_) fun k => ?_
    · exact ⟨congrArg PointConfig.clock (s.cutPoint_frame p).config, (s.cutPoint_frame p).contribution⟩
    · rw [State.warmBlocks_clocks]; exact ⟨rfl, rfl⟩
  have hmeter := s.warmStart_meter
  exact (hblocks.trans (.warmClose ..)).trans (.same hmeter.points hmeter.clocks)

theorem warmStartPart (s : State) (b : StartBreak) : SharesKept s (s.warmStartPart b) := by
  have hblocks : SharesKept s (s.partBlocks b) := by
    refine ⟨fun i q hq => .inr ?_, fun k => .inl (s.partBlocks_peak b k)⟩
    rw [State.partBlocks_points, Option.map_eq_some_iff] at hq
    obtain ⟨p, hp, rfl⟩ := hq
    obtain ⟨hconfig, -, hshare⟩ := restarted_frame (Statements.optionIn s p) p
    refine ⟨p, hp, ?_⟩
    split
    · exact ⟨congrArg PointConfig.clock hconfig, hshare⟩
    · exact ⟨rfl, rfl⟩
  have hclosed : SharesKept (s.partBlocks b) (s.partClosed b) := by
    unfold State.partClosed
    split
    · exact .warmCloseFirst ..
    · exact .refl _
  have hloop := LoopFrame.warmStartPart s b
  exact (hblocks.trans hclosed).trans (.same hloop.points hloop.clocks)

end SharesKept

/-! ## Boundaries -/

/-- Step 4 of a boundary, with the clock's peak below the sum: the sum becomes the peak, and each demand the
contribution of its point (R74). -/
theorem State.comparePeak_raised {k : Fin 4} (now : CalTime) (h : s.clocks[k].peak < s.coincidentSum k) :
    (∀ j : Fin 4, (s.comparePeak k now).clocks[j] =
      if k = j then { s.clocks[k] with peak := s.coincidentSum k, peakStamp := some now } else s.clocks[j]) ∧
    (∀ i : Fin 32, (s.comparePeak k now).points[i] = s.points[i].map (fun p =>
      if p.onClock k then { p with contribution := p.eligibleDemand s.clocks[k] } else p)) := by
  have e : s.comparePeak k now =
      (s.setClock k { s.clocks[k] with peak := s.coincidentSum k, peakStamp := some now }).mapPointsOn k
        (fun p => { p with contribution := p.eligibleDemand s.clocks[k] }) := if_pos h
  rw [e]
  exact ⟨fun j => s.setClock_clocks_get k j _, fun i => State.mapPointsOn_points_get _ k _ i⟩

/-- Otherwise nothing changes. -/
theorem State.comparePeak_same {k : Fin 4} (now : CalTime) (h : ¬ s.clocks[k].peak < s.coincidentSum k) :
    s.comparePeak k now = s := if_neg h

/-- What the context at an index brings to the coincident sum of clock k (R74). -/
def demandAt (k : Fin 4) (c : Clock) : Option Point → Nat
  | some p => if p.onClock k then p.eligibleDemand c else 0
  | none => 0

theorem State.coincidentSum_eq (s : State) (k : Fin 4) :
    s.coincidentSum k = ∑ i : Fin 32, demandAt k s.clocks[k] s.points[i] := by
  rw [← sum_points_eq]
  exact congrArg List.sum (List.map_congr_left fun x _ => by cases x <;> rfl)

/-- The comparison of a boundary: the shares stay as they were, or become the peak together (R74, R75). -/
theorem State.SharesWithinPeak.comparePeak (h : s.SharesWithinPeak) (k : Fin 4) (now : CalTime) :
    (s.comparePeak k now).SharesWithinPeak := by
  by_cases hlt : s.clocks[k].peak < s.coincidentSum k
  · obtain ⟨hclocks, hpoints⟩ := State.comparePeak_raised now hlt
    have hshare : ∀ (j : Fin 4) (i : Fin 32), shareAt j (s.comparePeak k now).points[i] =
        if k = j then demandAt k s.clocks[k] s.points[i] else shareAt j s.points[i] := fun j i => by
      rw [hpoints]
      generalize s.clocks[k] = c
      cases s.points[i] with
      | none => split <;> rfl
      | some p =>
        rw [Option.map_some]
        by_cases hj : k = j
        · subst hj
          by_cases hp : p.config.clock = some k
          · simp [shareAt, demandAt, Point.onClock, hp]
          · simp [shareAt, demandAt, Point.onClock, hp]
        · by_cases hp : p.config.clock = some k
          · simp [shareAt, Point.onClock, hp, hj]
          · simp [Point.onClock, hp, hj]
    intro j
    rw [State.contributionSum_eq, hclocks, Finset.sum_congr rfl fun i _ => hshare j i]
    by_cases hj : k = j
    · simp only [if_pos hj]
      rw [← State.coincidentSum_eq]
      exact ⟨le_refl _, fun e => absurd hlt (by rw [e]; exact Nat.not_lt_zero _), fun e => nomatch e⟩
    · simp only [if_neg hj]
      rw [← State.contributionSum_eq]
      exact h j
  · rw [State.comparePeak_same now hlt]
    exact h

/-- A boundary of a clock keeps the shares within the peaks (R63, R74, R104). -/
theorem State.SharesWithinPeak.boundary (h : s.SharesWithinPeak) (k : Fin 4) (now : CalTime) (b : Bool) :
    (s.boundary k now b).SharesWithinPeak := by
  have hstepped : SharesKept s (s.steppedAll k now b) := .mapPointsOn s k fun p => by
    have hframe := (if b then p.raisePeriod .timeHoldover else p).boundary_frame (s.optionOf p) s.clocks[k] now
    have hraised : (if b then p.raisePeriod .timeHoldover else p).config = p.config ∧
        (if b then p.raisePeriod .timeHoldover else p).contribution = p.contribution := by
      split <;> exact ⟨rfl, rfl⟩
    exact ⟨congrArg PointConfig.clock (hframe.1.config.trans hraised.1), hframe.1.contribution.trans hraised.2⟩
  have hcompared := (h.kept hstepped).comparePeak k now
  rw [← State.evaluateClock_eq] at hcompared
  exact (((hcompared.kept (.clockShare _ k (some now))).kept (.openPointsOn _ k now)).kept (.setClock _ k rfl rfl))

theorem State.SharesWithinPeak.minuteAdvance (h : s.SharesWithinPeak) (order : List (Fin 4)) (now : CalTime)
    (b : Bool) : (s.minuteAdvance order now b).SharesWithinPeak :=
  foldl_keeps (R := State.SharesWithinPeak) _ _ (h.kept (.scheduledClose s now)) fun _ k _ ht => ht.boundary k now b

/-- A valid mark keeps them, whatever the time state (R41 to R43, R47). -/
theorem State.SharesWithinPeak.takeTime (h : s.SharesWithinPeak) (order : List (Fin 4)) (now : CalTime) :
    (s.takeTime order now).SharesWithinPeak := by
  have hlocked : ∀ u : State, SharesKept u (u.lockAt now) := fun _ => .same rfl rfl
  unfold State.takeTime
  split
  · exact h.kept (((hlocked s).trans (.openEnabled ..)).trans (.scheduledClose ..))
  · split
    · exact (h.kept (hlocked s)).minuteAdvance order now false
    · split
      · split
        · exact h
        · exact h
      · have hcut : SharesKept s s.cutAll := .mapPoints s fun p =>
          ⟨congrArg PointConfig.clock (s.cutPoint_frame p).config, (s.cutPoint_frame p).contribution⟩
        have hopened := (hcut.trans (hlocked _)).trans (.openEnabled _ now)
        have hmarked := hopened.trans (.mapPoints _ (f := fun p => p.raisePeriod .timeStep) fun _ => ⟨rfl, rfl⟩)
        exact h.kept ((hmarked.trans (.countStep _)).trans (.scheduledClose ..))

theorem State.SharesWithinPeak.selfAdvance (h : s.SharesWithinPeak) (order : List (Fin 4)) (c : CalTime) :
    (s.selfAdvance order c).SharesWithinPeak := by
  have hloop := LoopFrame.raiseHoldover (s.holdoverAt c.next) s.time.state
  exact (h.kept (.same hloop.points hloop.clocks)).minuteAdvance order c.next true

/-! ## Turns -/

theorem State.reset_sharesWithinPeak (v r : Bool) : (s.coldDomain v r).SharesWithinPeak := by
  have hsum : ∀ k : Fin 4, (s.coldDomain v r).contributionSum k = 0 := fun k =>
    (State.contributionSum_eq_zero k).2 fun i p hp => by simp [State.coldDomain, State.reset] at hp
  intro k
  have hclock : (s.coldDomain v r).clocks[k] = Clock.cold := by simp [State.coldDomain, State.reset]
  simp [hsum, hclock, Clock.cold]

/-- Every turn keeps the contributions within the peaks (R75). -/
theorem Turn.sharesWithinPeak (h : Turn s t) (hs : s.SharesWithinPeak) : t.SharesWithinPeak := by
  cases h
  case still | invalidMark | load | activate | decoder | pins | loss => exact hs
  case reading i p d hp =>
    exact hs.kept (.keepPoint hp (congrArg PointConfig.clock (p.takeReading_config d)) (p.takeReading_contribution d))
  case mark order c _ _ => exact hs.takeTime order c
  case advance order c _ _ _ => exact hs.selfAdvance order c
  case configure i c _ _ _ _ => exact hs.kept (.setPoint s i (.inl (s.takeUpClock_contribution _)))
  case reconfigure i p c _ _ hp _ _ => exact hs.kept (.reconfigure hp c)
  case remove i _ _ _ _ => exact hs.kept (.dropPoint s i)
  case hold i p hp =>
    have hheld : p.hold.config = p.config ∧ p.hold.contribution = p.contribution := by
      unfold Point.hold; split <;> exact ⟨rfl, rfl⟩
    exact hs.kept (.keepPoint hp (congrArg PointConfig.clock hheld.1) hheld.2)
  case release i p hp | clearStatus i p hp => exact hs.kept (.keepPoint hp rfl rfl)
  case clock a _ _ _ _ => exact hs.kept (.applyClock s a)
  case close => exact hs.kept (.startClose s)
  case clearBits set => exact hs.kept (.clearPoints s set)
  case warm p _ =>
    have hpins : SharesKept s { s with supply := p } := .same rfl rfl
    exact hs.kept (hpins.trans (.warmStart _))
  case broken p b =>
    have hpins : SharesKept s { s with supply := p } := .same rfl rfl
    exact hs.kept ((hpins.trans (.warmStartPart _ b)).trans (.same rfl rfl))
  case cold v r _ => exact s.reset_sharesWithinPeak v r

end Sys2Proof.Machine

namespace Sys2Proof.Proofs

open Sys2Proof.Machine

/-- Settles O57: no turn but the comparison of a boundary raises a contribution or a peak, and the comparison makes
the contributions' sum the peak (`Turn.sharesWithinPeak`); the moves of the loop around a turn touch neither. -/
theorem stepKeepsSharesWithinPeak : Obligations.StepKeepsSharesWithinPeak := by
  intro s t hs hstep
  obtain ⟨pending, line, u, v, hbefore, hturn, hafter⟩ := step_moved hstep
  have hu : u.SharesWithinPeak := hs.kept (.same hbefore.points hbefore.clocks)
  exact (hturn.sharesWithinPeak hu).kept (.same hafter.points hafter.clocks)

end Sys2Proof.Proofs
end

section
/-! PROOF. SET CLOCK that does not disable: the clock it leaves, and the points an enable changes (R57, R58, R60). -/

namespace Sys2Proof.Machine

open Sys2Proof.Statements

section
variable {u : State} {k : Fin 4} {e : Bool} {l w h : Nat}

/-- The timing of a clock that is disabled, or that has the same timing, is not in use (R57). -/
theorem Clock.timingInUse_free {c : Clock} {a : ClockArgs}
    (h : c.enabled = true → a.length = c.length ∧ a.window = c.window) : c.timingInUse a = false := by
  cases he : c.enabled with
  | false => simp [Clock.timingInUse, he]
  | true =>
    obtain ⟨hl, hw⟩ := h he
    simp [Clock.timingInUse, hl, hw]

/-- SET CLOCK that passes its checks applies its settings and answers with the clock it leaves (R57, R58, R192). -/
theorem State.setClockRule_taken (hv : validTiming l w = true) (hh : h ≤ 15) (hu : u.anyLock = false)
    (hfree : u.clocks[k].enabled = true → l = u.clocks[k].length ∧ w = u.clocks[k].window) :
    u.setClockRule [oct k.val, octBool e, oct l, oct w, oct h] =
      Answer.taken (u.applyClock { clock := k, enable := e, length := l, window := w, holdLength := h })
        (oct k.val :: (u.applyClock
          { clock := k, enable := e, length := l, window := w, holdLength := h }).clocks[k].octets) := by
  have hb : u.clocks[k].timingInUse { clock := k, enable := e, length := l, window := w, holdLength := h } = false :=
    Clock.timingInUse_free hfree
  simp only [State.setClockRule, parseClock_octets k e hv hh, hu, hb, Bool.false_eq_true, if_false]

end

section
variable {u : State} {a : ClockArgs}

/-- The clock SET CLOCK's settings are written to, before the enable acts (R58). -/
def Clock.withSettings (c : Clock) (a : ClockArgs) : Clock :=
  { c with length := a.length, window := a.window, holdLength := a.holdLength }

/-- SET CLOCK writes the settings, and its enable acts on the clock as they leave it (R58). -/
theorem State.applyClock_eq : u.applyClock a =
    if u.clocks[a.clock].enabled = true then
      if a.enable = true then u.setClock a.clock (u.clocks[a.clock].withSettings a)
      else (u.setClock a.clock (u.clocks[a.clock].withSettings a)).disableClock a.clock
    else if a.enable = true then (u.setClock a.clock (u.clocks[a.clock].withSettings a)).enableClock a.clock
    else u.setClock a.clock (u.clocks[a.clock].withSettings a) := rfl

/-- Where the enable does not change, SET CLOCK writes its settings and nothing else (R58). -/
theorem State.applyClock_keeps (h : u.clocks[a.clock].enabled = a.enable) :
    u.applyClock a = u.setClock a.clock (u.clocks[a.clock].withSettings a) := by
  rw [State.applyClock_eq, h]
  split
  · rfl
  · rfl

/-- SET CLOCK that enables a clock writes its settings first (R58, R60). -/
theorem State.applyClock_enables (h : u.clocks[a.clock].enabled = false) (he : a.enable = true) :
    u.applyClock a = (u.setClock a.clock (u.clocks[a.clock].withSettings a)).enableClock a.clock := by
  rw [State.applyClock_eq, h, he, if_neg Bool.false_ne_true, if_pos rfl]

/-- SET CLOCK that disables a clock writes its settings first (R58, R59). -/
theorem State.applyClock_disables (h : u.clocks[a.clock].enabled = true) (he : a.enable = false) :
    u.applyClock a = (u.setClock a.clock (u.clocks[a.clock].withSettings a)).disableClock a.clock := by
  rw [State.applyClock_eq, h, he, if_pos rfl, if_neg Bool.false_ne_true]

end

/-! ## A clock enabled -/

/-- A point whose CONFLICT is taken off it (R60). -/
def Point.outOfConflict (p : Point) : Point := { p with conflict := false }

/-- A point whose clock is enabled: out of conflict, and with the time set in a new sub-interval (R60, R66). -/
def Point.clockEnabled (p : Point) (set : TariffSet) (c : Clock) (time : Option CalTime) : Point :=
  { p with
    conflict := false
    sub := match time with
      | none => p.sub
      | some now => some (openedSub set c now p.operator) }

/-- The points of clock k changed by g after f, which leaves their clock field. -/
theorem State.mapPointsOn_twice (s : State) (k : Fin 4) {f g : Point → Point} (hf : ∀ p, (f p).config = p.config) :
    (s.mapPointsOn k f).mapPointsOn k g = s.mapPointsOn k (fun p => g (f p)) := by
  have hon : ∀ p, (f p).onClock k = p.onClock k := fun p => by simp only [Point.onClock, hf]
  simp only [State.mapPointsOn, State.mapPoints, Vector.map_map, Option.map_comp_map]
  refine congrArg (fun h => { s with points := s.points.map (Option.map h) }) (funext fun p => ?_)
  rw [Function.comp_apply]
  by_cases hp : p.onClock k = true
  · rw [if_pos hp, if_pos hp, if_pos ((hon p).trans hp)]
  · rw [if_neg hp, if_neg hp, if_neg hp]

/-- A change of clock k's points, with the clock field in the words of the statements. -/
theorem State.mapPointsOn_eq (s : State) (k : Fin 4) (f : Point → Point) : s.mapPointsOn k f =
    { s with points := s.points.map (Option.map fun p => if p.config.clock = some k then f p else p) } := by
  have hif : (fun p : Point => if p.onClock k = true then f p else p) =
      fun p => if p.config.clock = some k then f p else p := by
    simp only [Point.onClock_iff]
  rw [State.mapPointsOn, hif]; rfl

/-- Enabling a clock with given settings (R60). -/
theorem State.enableClock_written (s : State) (k : Fin 4) (c : Clock) :
    (s.setClock k c).enableClock k = (s.setClock k { c with enabled := true }).mapPointsOn k
      (fun p => p.clockEnabled s.tariff.active c s.time.calendar) := by
  have hclock : (s.setClock k c).clocks[k] = c := by rw [State.setClock_clocks_get, if_pos rfl]
  have hon : (s.setClock k c).clockOn k =
      (s.setClock k { c with enabled := true }).mapPointsOn k Point.outOfConflict := by
    rw [State.clockOn, hclock]
    simp only [State.setClock, Vector.set_set]
    rfl
  have hclock' : ((s.setClock k c).clockOn k).clocks[k] = { c with enabled := true } := by
    rw [hon]; exact (s.setClock_clocks_get k k _).trans (if_pos rfl)
  rw [State.enableClock_eq, show (s.setClock k c).time = s.time from rfl]
  cases s.time.calendar with
  | none => exact hon
  | some now =>
    simp only [State.openPointsOn, hclock', Point.openSub_opened]
    rw [hon]
    refine (State.mapPointsOn_twice _ k (f := Point.outOfConflict) fun _ => rfl).trans ?_
    refine congrArg (State.mapPointsOn _ k) (funext fun p => ?_)
    show ({ p with conflict := false, sub := some (openedSub s.tariff.active c now (p.operator || false)) } : Point) = _
    rw [Bool.or_false]; rfl

end Sys2Proof.Machine

namespace Sys2Proof.Proofs

open Sys2Proof.Machine Sys2Proof.Statements

/-- Settles O24: the request is taken (`State.setClockRule_taken`), and its settings are applied without an enable,
with the enable it had, or with a new one (`State.applyClock_keeps`, `State.enableClock_written`). -/
theorem setClockWritesAndEnables : Obligations.SetClockWritesAndEnables := by
  intro s r k e l w h hready hu hv hh ha c written data
  have htaken (hfree : c.enabled = true → l = c.length ∧ w = c.window) :=
    request_taken (rule := State.setClockRule) (k := .setClock) hready ha rfl
      (State.setClockRule_taken (u := hunting s) (k := k) (e := e) hv hh (State.anyLock_unlocked hu) hfree)
  have hget (c' : Clock) : ((hunting s).setClock k c').clocks[k] = c' := by
    rw [State.setClock_clocks_get, if_pos rfl]
  refine ⟨fun hoff he => ?_, fun hon he hl hw => ?_, fun hoff he => ?_⟩
  · refine (htaken fun hon => absurd (hoff.symm.trans hon) Bool.false_ne_true).trans ?_
    rw [State.applyClock_keeps (u := hunting s) (hoff.trans he.symm), hget]
    rfl
  · have hwritten : c.withSettings ⟨k, e, l, w, h⟩ = { c with holdLength := h } := by rw [hl, hw]; rfl
    refine (htaken fun _ => ⟨hl, hw⟩).trans ?_
    rw [State.applyClock_keeps (u := hunting s) (hon.trans he.symm), hget]
    exact congrArg (fun c' => Host.Outcome.next
      (answered ((hunting s).setClock k c') r .setClock .ok (oct k.val :: c'.octets))) hwritten
  · refine (htaken fun hon => absurd (hoff.symm.trans hon) Bool.false_ne_true).trans ?_
    rw [State.applyClock_enables (u := hunting s) hoff he, State.enableClock_written]
    have hclock (f : Point → Point) (c' : Clock) :
        (((hunting s).setClock k c').mapPointsOn k f).clocks[k] = c' := hget c'
    rw [hclock, State.mapPointsOn_eq]
    rfl

end Sys2Proof.Proofs
end

section
/-! PROOF. A clock's share of a close after the clock and its points have taken their turn: nothing if the clock is not
pending; else its points' closes with their records, the peak's reset and the clock's leaving (R96, R104, R105, R107). -/

namespace Sys2Proof.Machine

open Sys2Proof.Statements

variable {s t u : State} {k : Fin 4} {f : Point → Point} {c : Clock} {n : BitVec 16} {stamp : Option CalTime}

/-! ## Before the share -/

/-- Clock k has become c and each of its points p the point f p, with p's record and period; all else is as it was. -/
structure ClockTurn (s u : State) (k : Fin 4) (f : Point → Point) (c : Clock) : Prop where
  points : ∀ i : Fin 32, u.points[i] = s.points[i].map (fun p => if p.onClock k then f p else p)
  clocks : ∀ j : Fin 4, u.clocks[j] = if k = j then c else s.clocks[j]
  rest   : u = { s with points := u.points, clocks := u.clocks }
  config : ∀ p, (f p).config = p.config
  period : ∀ p, (f p).period = p.period

namespace ClockTurn

theorem close (h : ClockTurn s u k f c) : u.close = s.close := by rw [h.rest]
theorem history (h : ClockTurn s u k f c) : u.history = s.history := by rw [h.rest]
theorem tariff (h : ClockTurn s u k f c) : u.tariff = s.tariff := by rw [h.rest]
theorem attention (h : ClockTurn s u k f c) : u.attention = s.attention := by rw [h.rest]

theorem clock (h : ClockTurn s u k f c) : u.clocks[k] = c := by rw [h.clocks, if_pos rfl]

/-- The points still in a period on the clock are those of before. -/
theorem due (h : ClockTurn s u k f c) (n : BitVec 16) : u.duePoints n k = pointsIn s k n := by
  rw [pointsIn_eq]
  refine List.filter_congr fun i _ => ?_
  rw [h.points]
  cases s.points[i] with
  | none => rfl
  | some p =>
    simp only [Option.map_some]
    split
    · simp only [Point.dueAt, Point.onClock, h.config, h.period]
    · rfl

end ClockTurn

/-! ## The share -/

theorem State.clockShare_idle (h : u.close.inFlight = none ∨ hasFlag u.close.pendingSet k.val = false) :
    u.clockShare k stamp = u := by
  rcases u.clockShare_cases k stamp with ⟨-, e⟩ | ⟨n, hn, hk, -⟩
  · exact e
  · rw [hn, hk] at h; simp at h

theorem State.clockShare_pending (hn : u.close.inFlight = some n) (hk : hasFlag u.close.pendingSet k.val = true) :
    u.clockShare k stamp = (u.settleClock k n stamp false).completeIfEmpty n := by
  rcases u.clockShare_cases k stamp with ⟨h, -⟩ | ⟨m, hm, -, e⟩
  · rw [hn, hk] at h; simp at h
  · rw [hn] at hm; cases hm; exact e

theorem State.clockShare_time (u : State) (k : Fin 4) (stamp : Option CalTime) :
    (u.clockShare k stamp).time = u.time := by
  rcases u.clockShare_cases k stamp with ⟨-, e⟩ | ⟨n, -, -, e⟩ <;> rw [e]
  unfold State.completeIfEmpty
  split
  · rw [State.completeClose_time, State.settleClock_time]
  · rw [State.settleClock_time]

/-- What leaves the time unchanged besides changes points, clocks, close unit, history, tariff and attention only. -/
theorem MeterFrame.timeless (h : MeterFrame s t) (ht : t.time = s.time) : t = { s with
    points := t.points, clocks := t.clocks, close := t.close, history := t.history, tariff := t.tariff,
    attention := t.attention } := by
  rw [MeterFrame, ht] at h
  exact h

section
variable (hn : u.close.inFlight = some n) (hk : hasFlag u.close.pendingSet k.val = true)
include hn hk

theorem State.clockShare_points (i : Fin 32) :
    (u.clockShare k stamp).points[i] = u.points[i].map (u.sharePoint k n) := by
  rw [State.clockShare_pending hn hk, State.completeIfEmpty_points, State.settleClock_points]

theorem State.clockShare_clocks (j : Fin 4) : (u.clockShare k stamp).clocks[j] =
    if k = j then { u.clocks[j] with peak := 0, peakStamp := none } else u.clocks[j] := by
  rw [State.clockShare_pending hn hk, State.completeIfEmpty_clocks, State.settleClock_clocks]

theorem State.clockShare_history : (u.clockShare k stamp).history =
    ((u.duePoints n k).filterMap (u.recordAt n stamp false)).foldl History.append u.history := by
  rw [State.clockShare_pending hn hk, State.completeIfEmpty_history, State.settleClock_history]

/-- The clock leaves the pending set; with no other left in it, the close completes (R96, R105). -/
theorem State.clockShare_leaves : LeavesPending u (u.clockShare k stamp) k n := by
  rw [State.clockShare_pending hn hk]
  generalize hv : u.settleClock k n stamp false = v
  have hclose : v.close = { u.close with pendingSet := dropFlag u.close.pendingSet k.val } := by
    rw [← hv, State.settleClock_close]
  have htariff : v.tariff = u.tariff := by rw [← hv, State.settleClock_tariff]
  have hattention : v.attention = u.attention := by rw [← hv, State.settleClock_attention]
  have hleft (j : Fin 4) : hasFlag v.close.pendingSet j.val = (hasFlag u.close.pendingSet j.val && decide (j ≠ k)) := by
    rw [hclose, hasFlag_dropFlag, decide_not]
    simp only [Fin.ext_iff, eq_comm]
  refine ⟨fun ⟨j, hjk, hj⟩ => ?_, fun hlast => ?_⟩
  · have hsome : v.close.pendingSet ≠ 0 := fun h0 => by
      have hno := (pendingSet_zero _).1 h0 j
      rw [hleft, hj] at hno; simp [hjk] at hno
    rw [State.completeIfEmpty, if_neg hsome]
    exact ⟨⟨by rw [hclose]; exact hn, by rw [hclose], hleft⟩, htariff, hattention⟩
  · have hnone : v.close.pendingSet = 0 := (pendingSet_zero _).2 fun j => by
      rw [hleft]
      by_cases hjk : j = k
      · simp [hjk]
      · rw [hlast j hjk]; rfl
    rw [State.completeIfEmpty, if_pos hnone]
    exact completed_of (v := v) rfl rfl (fun _ h => h) htariff

end

namespace ClockTurn

/-- The share of a pending clock that has taken its turn: each of its points closes if it is still in the closing
period. -/
theorem shared_point (h : ClockTurn s u k f c) (hn : s.close.inFlight = some n)
    (hk : hasFlag s.close.pendingSet k.val = true) {i : Fin 32} {p : Point} (hp : s.points[i] = some p)
    (hon : p.config.clock = some k) : (u.clockShare k stamp).points[i] = some (u.sharedPoint n (f p)) := by
  rw [← h.close] at hn hk
  have hon' : (f p).onClock k = true := ((f p).onClock_iff k).2 ((congrArg _ (h.config p)).trans hon)
  rw [State.clockShare_points hn hk, h.points, hp, Option.map_some, if_pos ((p.onClock_iff k).2 hon), Option.map_some,
    State.sharePoint, if_pos hon']

/-- A point of another clock, or of none, is as it was before the turn, whatever the share does. -/
theorem share_other (h : ClockTurn s u k f c) {i : Fin 32} {p : Point} (hp : s.points[i] = some p)
    (hoff : p.config.clock ≠ some k) : (u.clockShare k stamp).points[i] = some p := by
  have hoff' : ¬ p.onClock k = true := fun hon => hoff ((p.onClock_iff k).1 hon)
  have hturned : u.points[i] = some p := by rw [h.points, hp, Option.map_some, if_neg hoff']
  rcases u.clockShare_cases k stamp with ⟨-, e⟩ | ⟨n, hn, hk, -⟩
  · rw [e, hturned]
  · rw [State.clockShare_points hn hk, hturned, Option.map_some, State.sharePoint, if_neg hoff']

theorem share_none (h : ClockTurn s u k f c) {i : Fin 32} (hp : s.points[i] = none) :
    (u.clockShare k stamp).points[i] = none := by
  have hturned : u.points[i] = none := by rw [h.points, hp, Option.map_none]
  rcases u.clockShare_cases k stamp with ⟨-, e⟩ | ⟨n, hn, hk, -⟩
  · rw [e, hturned]
  · rw [State.clockShare_points hn hk, hturned, Option.map_none]

theorem share_clock_other (h : ClockTurn s u k f c) {j : Fin 4} (hj : j ≠ k) :
    (u.clockShare k stamp).clocks[j] = s.clocks[j] := by
  have hturned : u.clocks[j] = s.clocks[j] := by rw [h.clocks, if_neg hj.symm]
  rcases u.clockShare_cases k stamp with ⟨-, e⟩ | ⟨n, hn, hk, -⟩
  · rw [e, hturned]
  · rw [State.clockShare_clocks hn hk, if_neg hj.symm, hturned]

/-- The share leaves all of its clock but peak and stamp. -/
theorem share_clock_settings (h : ClockTurn s u k f c) : (u.clockShare k stamp).clocks[k] = { c with
    peak := (u.clockShare k stamp).clocks[k].peak, peakStamp := (u.clockShare k stamp).clocks[k].peakStamp } := by
  rcases u.clockShare_cases k stamp with ⟨-, e⟩ | ⟨n, hn, hk, -⟩
  · rw [e, h.clock]
  · rw [State.clockShare_clocks hn hk, if_pos rfl, h.clock]

/-- Turn and share change points, clocks, close unit, history, tariff and attention only. -/
theorem share_frame (h : ClockTurn s u k f c) : u.clockShare k stamp = { s with
    points := (u.clockShare k stamp).points, clocks := (u.clockShare k stamp).clocks,
    close := (u.clockShare k stamp).close, history := (u.clockShare k stamp).history,
    tariff := (u.clockShare k stamp).tariff, attention := (u.clockShare k stamp).attention } := by
  have hshare := (MeterFrame.clockShare u k stamp).timeless (u.clockShare_time k stamp)
  rw [h.rest] at hshare ⊢
  exact hshare

theorem share_clock (h : ClockTurn s u k f c) (hn : s.close.inFlight = some n)
    (hk : hasFlag s.close.pendingSet k.val = true) :
    (u.clockShare k stamp).clocks[k] = { c with peak := 0, peakStamp := none } := by
  rw [← h.close] at hn hk
  rw [State.clockShare_clocks hn hk, if_pos rfl, h.clock]

theorem share_idle (h : ClockTurn s u k f c)
    (hidle : s.close.inFlight = none ∨ hasFlag s.close.pendingSet k.val = false) : u.clockShare k stamp = u :=
  State.clockShare_idle (by rw [h.close]; exact hidle)

theorem share_leaves (h : ClockTurn s u k f c) (hn : s.close.inFlight = some n)
    (hk : hasFlag s.close.pendingSet k.val = true) : LeavesPending s (u.clockShare k stamp) k n := by
  have hleaves := State.clockShare_leaves (u := u) (k := k) (n := n) (stamp := stamp)
  simp only [LeavesPending, Completed, h.close, h.tariff, h.attention] at hleaves
  exact hleaves hn hk

/-- The records of the share, each of a point of the clock as the turn left it (R96, R98, R100). -/
theorem share_records (h : ClockTurn s u k f c) (hn : s.close.inFlight = some n)
    (hk : hasFlag s.close.pendingSet k.val = true) :
    ∃ rs : List BillingRecord, Records s.history (u.clockShare k stamp).history (pointsIn s k n) n stamp false rs ∧
      ∀ x ∈ rs, x.clockPeak = c.peak ∧ x.peakStamp = c.peakStamp ∧ ∃ p, s.points[x.point] = some p ∧
        p.config.clock = some k ∧ x = u.recordOf x.point (f p) n stamp false := by
  rw [← h.close] at hn hk
  have hrecord : ∀ x ∈ (u.duePoints n k).filterMap (u.recordAt n stamp false), ∃ (i : Fin 32) (p : Point),
      s.points[i] = some p ∧ p.config.clock = some k ∧ x = u.recordOf i (f p) n stamp false := fun x hx => by
    obtain ⟨i, hi, hx⟩ := List.mem_filterMap.1 hx
    obtain ⟨q, hq, hon, -⟩ := State.duePoints_clock hi
    obtain ⟨p, hp, rfl⟩ := Option.map_eq_some_iff.1 ((h.points i).symm.trans hq)
    by_cases hp' : p.onClock k = true
    · rw [State.recordAt, hq, Option.map_some, if_pos hp', Option.some_inj] at hx
      exact ⟨i, p, hp, (p.onClock_iff k).1 hp', hx.symm⟩
    · rw [if_neg hp'] at hon
      exact absurd ((p.onClock_iff k).2 hon) hp'
  refine ⟨(u.duePoints n k).filterMap (u.recordAt n stamp false), ⟨?_, ?_, fun x hx => ?_⟩, fun x hx => ?_⟩
  · exact (State.clockShare_history hn hk).trans (by rw [h.history])
  · rw [State.recordAt_points _ _ _ _ _ fun i hi => ?_, h.due]
    obtain ⟨q, hq, -⟩ := State.duePoints_clock hi
    rw [hq]
    exact Option.some_ne_none q
  · obtain ⟨i, p, -, -, rfl⟩ := hrecord x hx
    exact ⟨rfl, rfl, recordFlags_cut _ _ _ _⟩
  · obtain ⟨i, p, hp, hon, rfl⟩ := hrecord x hx
    have hclock : u.clockOf (f p) = some c := by
      rw [State.clockOf, h.config, hon, Option.map_some, h.clock]
    refine ⟨?_, ?_, p, hp, hon, rfl⟩
    · show ((u.clockOf (f p)).map (·.peak)).getD 0 = _
      rw [hclock]; rfl
    · show (u.clockOf (f p)).bind (·.peakStamp) = _
      rw [hclock]; rfl

end ClockTurn

/-- A clock that leaves a close is not pending after it. -/
theorem leavesPending_left (h : LeavesPending s t k n) : hasFlag t.close.pendingSet k.val = false := by
  by_cases hother : ∃ j : Fin 4, j ≠ k ∧ hasFlag s.close.pendingSet j.val = true
  · obtain ⟨⟨-, -, hleft⟩, -⟩ := h.1 hother
    rw [hleft, decide_eq_false fun hkk => hkk rfl, Bool.and_false]
  · obtain ⟨hclose, -⟩ := h.2 fun j hj => Bool.eq_false_iff.2 fun hp => hother ⟨j, hj, hp⟩
    rw [hclose]
    exact (pendingSet_zero _).1 rfl k

end Sys2Proof.Machine
end

section
/-! PROOF. SET CLOCK that disables: the cut of the clock's points, its share of a close in flight and the reply (R58,
R59, R68, R107). -/

namespace Sys2Proof.Machine

open Sys2Proof.Statements

/-! ## The cut -/

/-- A point of a clock that is disabled: cut under its option, its ring cleared, CONFLICT taken (R59). -/
def Point.clockDisabled (p : Point) (option : Option PenaltyOption) : Point := (cutOff option p).addConflict

theorem Point.clockDisabled_config (p : Point) (o : Option PenaltyOption) : (p.clockDisabled o).config = p.config := by
  rw [Point.clockDisabled, (Point.addConflict_kept _).1, cutOff_frame]

/-- A clock disabled (R59). -/
def Clock.turnedOff (c : Clock) : Clock := { c with enabled := false }

/-- The cut of a clock that has been written is the turn before its share (R59). -/
theorem State.cutClock_turn (s : State) (k : Fin 4) (c : Clock) :
    ClockTurn s ((s.setClock k c).cutClock k) k (fun p => p.clockDisabled (optionIn s p))
      c.turnedOff where
  points i := by
    generalize hoff : (s.setClock k c).setClock k { (s.setClock k c).clocks[k] with enabled := false } = off
    have hcut (p : Point) : (off.cutCleared p).addConflict = p.clockDisabled (optionIn s p) := by
      rw [State.cutCleared, State.cutPoint_cutOff, Point.clockDisabled, ← hoff]; rfl
    have e : (s.setClock k c).cutClock k = off.mapPointsOn k (fun p => (off.cutCleared p).addConflict) := by
      rw [← hoff]; rfl
    rw [e, State.mapPointsOn_points_get]
    simp only [hcut]
    rw [← hoff]; rfl
  clocks j := by
    rw [State.cutClock_clocks, State.setClock_clocks_get, State.setClock_clocks_get, if_pos rfl]
    split
    · rfl
    · rfl
  rest := rfl
  config p := p.clockDisabled_config _
  period p := by
    obtain ⟨-, -, -, hperiod, -, -, -⟩ := (cutOff (optionIn s p) p).addConflict_kept
    rw [Point.clockDisabled, hperiod, cutOff_frame]

/-- CONFLICT at a point without a sub-interval (R6). -/
theorem Point.addConflict_closed {p : Point} (h : p.sub = none) : p.addConflict =
    { p with conflict := true, periodFlags := addFlag p.periodFlags PeriodFlag.heldSeen.place } := by
  simp only [Point.addConflict, Point.markHeld, Point.raisePeriod, h, Option.map_none]

section
variable {p : Point} {o : Option PenaltyOption} {k : Fin 4} (hk : p.config.clock = some k)
include hk

theorem Point.clockDisabled_eq : p.clockDisabled o = { cutOff o p with
    conflict := true, periodFlags := addFlag (cutOff o p).periodFlags PeriodFlag.heldSeen.place } :=
  Point.addConflict_closed (cutOff_sub (.inl (by rw [hk]; exact Option.some_ne_none k)))

/-- What disabling its clock leaves of a point (R59, R68). -/
theorem Point.clockDisabled_cutFrom : CutFrom o p (p.clockDisabled o) := by
  obtain ⟨hsub, hring, hcut, hrest⟩ := cutFrom_cutOff (o := o) (p := p) (by rw [hk]; exact Option.some_ne_none k)
  rw [Point.clockDisabled_eq hk]
  refine ⟨hsub, hring, fun b hb => ?_, hrest⟩
  obtain ⟨hattributed, hexcess, hgap, hseen⟩ := hcut b hb
  refine ⟨hattributed, hexcess, hgap, ?_⟩
  show hasFlag (addFlag _ _) 2 = true
  rw [hasFlag_addFlag, show hasFlag _ 2 = true from hseen, Bool.true_or]

omit hk in
theorem Point.clockDisabled_heldSeen : (p.clockDisabled o).periodFlags.getLsbD 3 = true := by
  obtain ⟨-, -, -, -, -, -, hseen⟩ := (cutOff o p).addConflict_kept
  exact hseen

/-- A point after the disable of its clock: cut, its ring cleared, in conflict and marked held (R59). -/
structure Disabled (p q : Point) : Prop where
  config   : q.config = p.config
  conflict : q.conflict = true
  sub      : q.sub = none
  ring     : q.ring = []
  seen     : q.periodFlags.getLsbD 3 = true
  missing  : q.missingCount = p.missingCount

theorem Point.clockDisabled_disabled : Disabled p (p.clockDisabled o) where
  config := p.clockDisabled_config o
  conflict := rfl
  sub := (Point.clockDisabled_cutFrom hk).1
  ring := (Point.clockDisabled_cutFrom hk).2.1
  seen := Point.clockDisabled_heldSeen
  missing := by rw [Point.clockDisabled_eq hk, cutOff_frame]

omit hk in
/-- The share of its clock leaves it so. -/
theorem Disabled.shared {q : Point} (h : Disabled p q) (u : State) (n : BitVec 16) :
    Disabled p (u.sharedPoint n q) := by
  obtain ⟨⟨⟨-, -, hconflict, hseen⟩, hring⟩, hsub, -⟩ := u.sharedPoint_kept q n
  exact {
    config := (u.sharedPoint_config n q).trans h.config
    conflict := hconflict.trans h.conflict
    sub := hsub.trans h.sub
    ring := List.eq_nil_of_length_eq_zero (Nat.le_zero.1 (by rw [h.ring] at hring; exact hring))
    seen := hseen (by rw [Point.held, h.conflict, Bool.or_true]) h.seen
    missing := by rw [← h.missing]; unfold State.sharedPoint; split <;> rfl }

end

/-! ## The records of its share -/

section
variable {s u : State} {k : Fin 4} {c : Clock} {i : Fin 32} {p : Point} {n : BitVec 16} {stamp : Option CalTime}
  (h : ClockTurn s u k (fun p => p.clockDisabled (optionIn s p)) c)
include h

/-- A point of the clock, after the share. -/
theorem ClockTurn.disabled_point (hp : s.points[i] = some p) (hk : p.config.clock = some k) :
    ∃ q, (u.clockShare k stamp).points[i] = some q ∧ Disabled p q := by
  have hdisabled : Disabled p (p.clockDisabled (optionIn s p)) := p.clockDisabled_disabled hk
  by_cases hpending : s.close.inFlight = none ∨ hasFlag s.close.pendingSet k.val = false
  · refine ⟨_, ?_, hdisabled⟩
    rw [h.share_idle hpending, h.points, hp, Option.map_some, if_pos ((p.onClock_iff k).2 hk)]
  · rw [not_or, Bool.not_eq_false] at hpending
    obtain ⟨n, hn⟩ := Option.ne_none_iff_exists'.1 hpending.1
    exact ⟨_, h.shared_point hn hpending.2 hp hk, hdisabled.shared u n⟩

/-- The records of the share carry HELD_SEEN, and the cut with CUT_SEEN where there was a sub-interval to cut. -/
theorem ClockTurn.disabled_records (hn : s.close.inFlight = some n) (hk : hasFlag s.close.pendingSet k.val = true) :
    ∃ rs : List BillingRecord, Records s.history (u.clockShare k stamp).history (pointsIn s k n) n stamp false rs ∧
      ∀ x ∈ rs, x.flags.getLsbD 5 = true ∧ x.clockPeak = c.peak ∧ x.peakStamp = c.peakStamp ∧
        ∀ p ∈ s.points[x.point], x.totals = p.totals ∧ (p.sub ≠ none → x.flags.getLsbD 4 = true) ∧
          ∀ b ∈ p.sub, x.attributed = min max64 (p.attributed + b.energy.ai) := by
  obtain ⟨rs, hrs, hfrom⟩ := h.share_records (stamp := stamp) hn hk
  refine ⟨rs, hrs, fun x hx => ?_⟩
  obtain ⟨hpeak, hstamp, p, hp, hclock, hx⟩ := hfrom x hx
  obtain ⟨-, -, hcut, -, -, -, -, -, htotals, -⟩ := p.clockDisabled_cutFrom (o := optionIn s p) hclock
  have hflag {b : Nat} (hb : b < 4) :
      x.flags.getLsbD (b + 2) = (p.clockDisabled (optionIn s p)).periodFlags.getLsbD b := by
    rw [hx]; exact recordFlags_period _ _ _ _ hb
  have hsame : ∀ q ∈ s.points[x.point], q = p := fun q hq => Option.some_inj.1 (hq.symm.trans hp)
  refine ⟨(hflag (b := 3) (by decide)).trans p.clockDisabled_heldSeen, hpeak, hstamp, fun q hq => ?_⟩
  rw [hsame q hq]
  refine ⟨by rw [hx]; exact htotals, fun hsub => ?_, fun b hb => ?_⟩
  · obtain ⟨b, hb⟩ := Option.ne_none_iff_exists'.1 hsub
    obtain ⟨-, -, -, hseen⟩ := hcut b hb
    exact (hflag (b := 2) (by decide)).trans hseen
  · rw [hx]; exact (hcut b hb).1

end

end Sys2Proof.Machine

namespace Sys2Proof.Proofs

open Sys2Proof.Machine Sys2Proof.Statements

/-- Settles O25: the request writes H and disables the clock (`State.applyClock_disables`); the cut is the clock's turn
(`State.cutClock_turn`), and its share of a close follows (`ClockTurn.disabled_records`, `ClockTurn.share_leaves`). -/
theorem disableClockCutsItsPoints : Obligations.DisableClockCutsItsPoints := by
  intro s r k h hready hu hh hon hv ha
  have hturn := (hunting s).cutClock_turn k
    (s.clocks[k].withSettings ⟨k, false, s.clocks[k].length, s.clocks[k].window, h⟩)
  have htaken := request_taken (rule := State.setClockRule) (k := .setClock) hready ha rfl
    (State.setClockRule_taken (u := hunting s) (k := k) (e := false) hv hh (State.anyLock_unlocked hu)
      fun _ => ⟨rfl, rfl⟩)
  rw [State.applyClock_disables (u := hunting s) hon rfl, State.disableClock] at htaken
  dsimp only at htaken
  generalize State.cutClock _ k = u at hturn htaken
  have hclock := hturn.share_clock_settings (stamp := s.time.calendar)
  refine ⟨u.clockShare k s.time.calendar, htaken.trans ?_, hturn.share_frame, ?_⟩
  · exact congrArg (fun c : Clock => Host.Outcome.next
      (answered (u.clockShare k s.time.calendar) r .setClock .ok (oct k.val :: c.octets))) hclock
  rw [hclock]
  refine ⟨rfl, rfl, rfl, rfl, rfl, fun j hj => hturn.share_clock_other hj, fun i p hp hoff => hturn.share_other hp hoff,
    fun i hp => hturn.share_none hp, fun i p hp hk => ?_, fun hidle => ?_, fun n hn hpending => ?_⟩
  · obtain ⟨q, hq, hdisabled⟩ := hturn.disabled_point (stamp := s.time.calendar) hp hk
    exact ⟨q, hq, hdisabled.config, hdisabled.conflict, hdisabled.sub, hdisabled.ring, hdisabled.seen,
      hdisabled.missing⟩
  · rw [hturn.share_idle hidle]
    refine ⟨hturn.close, hturn.history, hturn.tariff, hturn.attention, ?_, ?_, fun i p hp hk => ?_⟩
    · rw [hturn.clock]; rfl
    · rw [hturn.clock]; rfl
    · refine ⟨p.clockDisabled (optionIn s p), ?_, p.clockDisabled_cutFrom hk, ?_⟩
      · rw [hturn.points]
        exact (congrArg (Option.map _) hp).trans (congrArg some (if_pos ((p.onClock_iff k).2 hk)))
      · rw [Point.clockDisabled_eq hk, cutOff_frame]
  · have hleaves := hturn.share_leaves (stamp := s.time.calendar) hn hpending
    have hreset := hturn.share_clock (stamp := s.time.calendar) hn hpending
    refine ⟨leavesPending_left hleaves, by rw [hreset], by rw [hreset], fun i p hp hk => ?_,
      hturn.disabled_records hn hpending, hleaves⟩
    refine ⟨_, hturn.shared_point hn hpending hp hk, rfl, ?_⟩
    rw [(u.sharedPoint_kept _ n).2.2, hturn.period]

end Sys2Proof.Proofs
end

section
/-! PROOF. A boundary at one point: the close of its sub-interval, and its window in the words of the statement (R64, R65,
R69 to R73). -/

namespace Sys2Proof.Machine

open Sys2Proof.Statements

variable {p q : Point} {o : Option PenaltyOption} {c : Clock} {w : Nat} {now : CalTime}

/-! ## Windows in the words of the statement -/

theorem RingEntry.barred_iff (e : RingEntry) : e.barred = false ↔ e.quality.getLsbD 1 = false ∧
    e.quality.getLsbD 2 = false ∧ e.quality.getLsbD 3 = false ∧ e.quality.getLsbD 4 = false := by
  simp only [RingEntry.barred, Bool.or_eq_false_iff, and_assoc]
  rfl

theorem Point.active_iff (p : Point) : p.state = .active ↔
    p.operator = false ∧ p.conflict = false ∧ p.missingCount < p.config.lossLimit := by
  unfold Point.state
  by_cases hheld : p.held = true
  · rw [if_pos hheld]
    refine ⟨nofun, fun ⟨ho, hc, _⟩ => ?_⟩
    rw [Point.held, ho, hc] at hheld; exact nomatch hheld
  · rw [if_neg hheld]
    rw [Point.held, Bool.or_eq_true, not_or, Bool.not_eq_true, Bool.not_eq_true] at hheld
    by_cases hloss : p.config.lossLimit ≤ p.missingCount
    · simp [Point.inLoss, hloss]
    · simp [Point.inLoss, hloss, hheld, Nat.lt_of_not_le hloss]

theorem Point.windowEligible_iff (p : Point) (c : Clock) : p.windowEligible c = true ↔ Eligible c p := by
  simp only [Point.windowEligible, Point.windowFull, Bool.and_eq_true, decide_eq_true_eq, List.all_eq_true,
    Bool.not_eq_true', RingEntry.barred_iff, Point.active_iff, Eligible]
  tauto

theorem Point.windowDemand_eq (p : Point) (c : Clock) : p.windowDemand c = demandOf c p := rfl

theorem Point.eligibleDemand_eq (p : Point) (c : Clock) : p.eligibleDemand c = shareOf c p := by
  simp only [Point.eligibleDemand, shareOf, Point.windowEligible_iff, Point.windowDemand_eq]

/-! ## The close of the sub-interval -/

theorem Point.closeSub_none (h : p.sub = none) : p.closeSub o w = p := by simp only [Point.closeSub, h]

/-- What every close of a sub-interval books, with the gap-frame count in the words of the statement (R64, R83). -/
theorem Point.bookSub_counted (p : Point) (o : Option PenaltyOption) (w : Nat) (b : SubInterval) :
    p.bookSub o w b = { p with
      sub := none
      ring := ({ ai := b.energy.ai, ratePeriod := b.ratePeriod, quality := b.quality } :: p.ring).take w
      attributed := min max64 (p.attributed + b.energy.ai)
      excessSum := min max64 (p.excessSum + subIntervalExcess o b.energy)
      counters := { p.counters with
        gap := if hasFlag b.quality 0 then min 65535 (p.counters.gap + 1) else p.counters.gap } } := by
  rw [Point.bookSub_eq]
  cases hg : hasFlag b.quality 0
  · simp only [Point.bookSub, QualityFlag.place, hg, Bool.false_eq_true, if_false]; rfl
  · simp only [Point.bookSub, QualityFlag.place, hg, if_true]; rfl

/-- A missing sub-interval counts; LOSS is `Point.closeSub_status` (R5, R64). -/
theorem Point.countMissing_counted (p : Point) : p.countMissing = { p with
    missingCount := min 255 (p.missingCount + 1)
    counters := { p.counters with missing := min 65535 (p.counters.missing + 1) }
    status := p.countMissing.status
    attention := p.countMissing.attention } := by
  simp only [Point.countMissing]
  split
  · rfl
  · rfl

/-- The close of an open sub-interval at a boundary, field by field (R64, R65); LOSS is `Point.closeSub_status`. -/
theorem Point.closeSub_some {b : SubInterval} (h : p.sub = some b) : p.closeSub o w = { p with
    sub := none
    ring := ({ ai := b.energy.ai
               ratePeriod := b.ratePeriod
               quality := if b.accepted then b.quality else b.quality ||| 2#5 } :: p.ring).take w
    attributed := min max64 (p.attributed + b.energy.ai)
    excessSum := min max64 (p.excessSum + subIntervalExcess o b.energy)
    missingCount := if b.accepted then p.missingCount else min 255 (p.missingCount + 1)
    counters := { p.counters with
      missing := if b.accepted then p.counters.missing else min 65535 (p.counters.missing + 1)
      gap := if b.quality.getLsbD 0 then min 65535 (p.counters.gap + 1) else p.counters.gap }
    status := (p.closeSub o w).status
    attention := (p.closeSub o w).attention } := by
  cases ha : b.accepted with
  | true =>
    have e : p.closeSub o w = p.bookSub o w b := by simp only [Point.closeSub, h, ha, if_true]
    rw [e, Point.bookSub_counted]
    rfl
  | false =>
    have e : p.closeSub o w = p.countMissing.bookSub o w
        { b with quality := addFlag b.quality QualityFlag.noData.place } := by
      simp only [Point.closeSub, h, ha, Bool.false_eq_true, if_false]
    have hgap : hasFlag (addFlag b.quality QualityFlag.noData.place) 0 = b.quality.getLsbD 0 := by
      rw [hasFlag_addFlag]; simp [hasFlag, QualityFlag.place]
    rw [e, Point.bookSub_counted, Point.countMissing_counted]
    simp only [hgap]
    rfl

/-! ## The window -/

theorem Point.evaluate_partial (h : p.ring.length ≠ c.window) : p.evaluate c now = p := by
  rcases p.evaluate_cases c now with ⟨-, e⟩ | ⟨hfull, -⟩ | ⟨hfull, -⟩
  · exact e
  · exact absurd hfull h
  · exact absurd hfull h

theorem Point.evaluate_ineligible (hfull : p.ring.length = c.window) (h : ¬ Eligible c p) : p.evaluate c now = { p with
    present := some { demand := demandOf c p, eligible := false, stamp := now }
    counters := { p.counters with ineligible := min 65535 (p.counters.ineligible + 1) } } := by
  rcases p.evaluate_cases c now with ⟨hnot, -⟩ | ⟨-, -, e⟩ | ⟨-, helig, -⟩
  · exact absurd hfull hnot
  · exact e
  · exact absurd ((p.windowEligible_iff c).1 helig) h

/-- An eligible window raises the maxima below its demand, and counts an exceedance of the contract (R71, R72). -/
theorem Point.evaluate_eligible (h : Eligible c p) {rate : Fin 4} (hrate : p.windowRate = rate) :
    p.evaluate c now = { p with
    present := some { demand := demandOf c p, eligible := true, stamp := now }
    maxD := p.maxD.set rate (p.maxD[rate].raiseTo (demandOf c p) now)
    maxAll := p.maxAll.raiseTo (demandOf c p) now
    counters := { p.counters with exceedances :=
      if p.config.contract ≠ 0 ∧ p.config.contract ≤ demandOf c p then min 65535 (p.counters.exceedances + 1)
      else p.counters.exceedances }
    status := (p.evaluate c now).status
    attention := (p.evaluate c now).attention } := by
  subst hrate
  rcases p.evaluate_cases c now with ⟨hnot, -⟩ | ⟨-, helig, -⟩ | ⟨-, -, e⟩
  · exact absurd h.1 hnot
  · rw [(p.windowEligible_iff c).2 h] at helig; exact nomatch helig
  · rw [e, Point.checkContract_eq]; rfl

/-- The status flags the window raises: EXCEED or WARN, from an eligible window (R72). -/
theorem Point.evaluate_status (p : Point) (c : Clock) (now : CalTime) : StatusRaised p (p.evaluate c now) (fun n =>
    (n = 1 ∧ Eligible c p ∧ p.config.contract ≠ 0 ∧ p.config.contract ≤ demandOf c p) ∨
    (n = 2 ∧ Eligible c p ∧ p.config.contract ≠ 0 ∧ demandOf c p < p.config.contract ∧
      p.config.contract * p.config.warnPercent / 100 ≤ demandOf c p)) := by
  by_cases h : Eligible c p
  · rcases p.evaluate_cases c now with ⟨hnot, -⟩ | ⟨-, helig, -⟩ | ⟨-, -, e⟩
    · exact absurd h.1 hnot
    · rw [(p.windowEligible_iff c).2 h] at helig; exact nomatch helig
    · rw [e]
      generalize hm : Point.raiseMaxima _ p.windowRate (p.windowDemand c) now = m
      have hraised : StatusRaised p m (fun _ => False) := by rw [← hm]; exact .same rfl rfl rfl
      refine (hraised.trans (m.checkContract_status _)).congr fun n => ?_
      simp only [hraised.config, eq_true h, true_and, false_or, Point.windowDemand_eq]
  · have hsame : StatusRaised p (p.evaluate c now) (fun _ => False) := by
      by_cases hfull : p.ring.length = c.window
      · rw [Point.evaluate_ineligible hfull h]; exact .same rfl rfl rfl
      · rw [Point.evaluate_partial hfull]; exact .same rfl rfl rfl
    exact hsame.congr fun n => by simp only [h, false_and, and_false, or_false]

/-! ## What each step leaves -/

/-- Two points agree on everything but present demand, maxima, counts of windows, status and attention. -/
def EvaluationFrame (p q : Point) : Prop :=
  q = { p with present := q.present, maxD := q.maxD, maxAll := q.maxAll, status := q.status, attention := q.attention,
               counters := { p.counters with ineligible := q.counters.ineligible
                                             exceedances := q.counters.exceedances } }

theorem Point.evaluate_kept (p : Point) (c : Clock) (now : CalTime) : EvaluationFrame p (p.evaluate c now) := by
  by_cases h : Eligible c p
  · rw [Point.evaluate_eligible h rfl]; rfl
  · by_cases hfull : p.ring.length = c.window
    · rw [Point.evaluate_ineligible hfull h]; rfl
    · rw [Point.evaluate_partial hfull]; rfl

section
variable (h : EvaluationFrame p q)
include h

theorem EvaluationFrame.eligible (c : Clock) : Eligible c q ↔ Eligible c p := by
  rw [EvaluationFrame] at h; rw [h]

theorem EvaluationFrame.demand (c : Clock) : demandOf c q = demandOf c p := by
  rw [EvaluationFrame] at h; rw [h]; rfl

theorem EvaluationFrame.booked : q.ring = p.ring ∧ q.attributed = p.attributed ∧ q.missingCount = p.missingCount ∧
    q.counters.missing = p.counters.missing ∧ q.counters.gap = p.counters.gap ∧ q.excessSum = p.excessSum := by
  rw [EvaluationFrame] at h; rw [h]; exact ⟨rfl, rfl, rfl, rfl, rfl, rfl⟩

end

/-- The close of the sub-interval leaves present demand, maxima and the counts of windows and outages. -/
theorem Point.closeSub_kept (p : Point) (o : Option PenaltyOption) (w : Nat) :
    (p.closeSub o w).present = p.present ∧ (p.closeSub o w).maxD = p.maxD ∧ (p.closeSub o w).maxAll = p.maxAll ∧
      (p.closeSub o w).counters.ineligible = p.counters.ineligible ∧
      (p.closeSub o w).counters.exceedances = p.counters.exceedances ∧
      (p.closeSub o w).counters.outages = p.counters.outages := by
  cases h : p.sub with
  | none => rw [Point.closeSub_none h]; exact ⟨rfl, rfl, rfl, rfl, rfl, rfl⟩
  | some b => rw [Point.closeSub_some h]; exact ⟨rfl, rfl, rfl, rfl, rfl, rfl⟩

/-! ## The boundary -/

theorem WindowFrame.carried (h : WindowFrame p q) : q.totals = p.totals ∧ q.unattributed = p.unattributed ∧
    q.baselines = p.baselines ∧ q.lastSeq = p.lastSeq ∧ q.life = p.life ∧ q.ratchet = p.ratchet ∧
    q.residues = p.residues := by
  rw [WindowFrame] at h; rw [h]; exact ⟨rfl, rfl, rfl, rfl, rfl, rfl, rfl⟩

/-- What a boundary of its clock does not change of a point (R63 to R73). -/
theorem Point.boundary_unchanged (p : Point) (o : Option PenaltyOption) (c : Clock) (now : CalTime) :
    let q := p.boundary o c now
    q.sub = none ∧ q.config = p.config ∧ q.totals = p.totals ∧ q.unattributed = p.unattributed ∧
      q.baselines = p.baselines ∧ q.lastSeq = p.lastSeq ∧ q.life = p.life ∧ q.periodFlags = p.periodFlags ∧
      q.period = p.period ∧ q.operator = p.operator ∧ q.conflict = p.conflict ∧ q.contribution = p.contribution ∧
      q.ratchet = p.ratchet ∧ q.residues = p.residues ∧ q.counters.outages = p.counters.outages := by
  intro q
  obtain ⟨hframe, hsub, hflags, -⟩ := p.boundary_frame o c now
  have houtages : q.counters.outages = p.counters.outages := by
    have hkept := (p.closeSub o c.window).evaluate_kept c now
    obtain ⟨-, -, -, -, -, hclosed⟩ := p.closeSub_kept o c.window
    rw [EvaluationFrame] at hkept
    exact (congrArg (fun x : Point => x.counters.outages) hkept).trans hclosed
  obtain ⟨htotals, hunattributed, hbaselines, hseq, hlife, hratchet, hresidues⟩ := hframe.carried
  exact ⟨hsub, hframe.config, htotals, hunattributed, hbaselines, hseq, hlife, hflags, hframe.period, hframe.operator,
    hframe.conflict, hframe.contribution, hratchet, hresidues, houtages⟩

/-- The flags a boundary raises: LOSS from the close, EXCEED or WARN from the window (R5, R10, R72). -/
theorem Point.boundary_status (p : Point) (o : Option PenaltyOption) (c : Clock) (now : CalTime) :
    let q := p.boundary o c now
    (q.status.getLsbD 0 = true ↔ p.status.getLsbD 0 = true ∨
        ∃ b ∈ p.sub, b.accepted = false ∧ min 255 (p.missingCount + 1) = p.config.lossLimit) ∧
      (q.status.getLsbD 1 = true ↔ p.status.getLsbD 1 = true ∨
        (Eligible c q ∧ p.config.contract ≠ 0 ∧ p.config.contract ≤ demandOf c q)) ∧
      (q.status.getLsbD 2 = true ↔ p.status.getLsbD 2 = true ∨
        (Eligible c q ∧ p.config.contract ≠ 0 ∧ demandOf c q < p.config.contract ∧
          p.config.contract * p.config.warnPercent / 100 ≤ demandOf c q)) ∧
      (∀ b : Nat, 3 ≤ b → q.status.getLsbD b = p.status.getLsbD b) ∧
      (q.attention = true ↔ p.attention = true ∨ ∃ b : Nat, q.status.getLsbD b = true ∧
        p.status.getLsbD b = false ∧ p.config.attentionMask.getLsbD b = true) := by
  intro q
  have hkept := (p.closeSub o c.window).evaluate_kept c now
  have hclosed := p.closeSub_status o c.window
  have hraised := hclosed.trans ((p.closeSub o c.window).evaluate_status c now)
  simp only [← hkept.eligible, ← hkept.demand, hclosed.config] at hraised
  have hflag (b : Nat) := hraised.status b
  refine ⟨(hflag 0).trans ?_, (hflag 1).trans ?_, (hflag 2).trans ?_, fun b hb => ?_, hraised.attention⟩
  · simp only [true_and, Nat.zero_ne_one, OfNat.zero_ne_ofNat, false_and, or_false]; rfl
  · simp only [Nat.one_ne_zero, OfNat.one_ne_ofNat, true_and, false_and, or_false, false_or]; rfl
  · simp only [OfNat.ofNat_ne_zero, OfNat.ofNat_ne_one, true_and, false_and, false_or]; rfl
  · refine Bool.eq_iff_iff.2 ((hflag b).trans ?_)
    simp only [show b ≠ 0 by omega, show b ≠ 1 by omega, show b ≠ 2 by omega, false_and, or_false]

section
variable (p : Point) (o : Option PenaltyOption) (c : Clock) (now : CalTime)

/-- The window a boundary evaluates is that of the ring after the close (R65, R69, R70). -/
theorem Point.boundary_kept : EvaluationFrame (p.closeSub o c.window) (p.boundary o c now) :=
  (p.closeSub o c.window).evaluate_kept c now

theorem Point.boundary_booked {b : SubInterval} (h : p.sub = some b) :
    let q := p.boundary o c now
    q.ring = ({ ai := b.energy.ai
                ratePeriod := b.ratePeriod
                quality := if b.accepted then b.quality else b.quality ||| 2#5 } :: p.ring).take c.window ∧
      q.attributed = min max64 (p.attributed + b.energy.ai) ∧
      q.missingCount = (if b.accepted then p.missingCount else min 255 (p.missingCount + 1)) ∧
      q.counters.missing = (if b.accepted then p.counters.missing else min 65535 (p.counters.missing + 1)) ∧
      q.counters.gap = (if b.quality.getLsbD 0 then min 65535 (p.counters.gap + 1) else p.counters.gap) ∧
      q.excessSum = min max64 (p.excessSum + subIntervalExcess o b.energy) := by
  have hbooked := (p.boundary_kept o c now).booked
  rw [Point.closeSub_some h] at hbooked
  exact hbooked

theorem Point.boundary_unbooked (h : p.sub = none) :
    let q := p.boundary o c now
    q.ring = p.ring ∧ q.attributed = p.attributed ∧ q.missingCount = p.missingCount ∧
      q.counters.missing = p.counters.missing ∧ q.counters.gap = p.counters.gap ∧ q.excessSum = p.excessSum := by
  have hbooked := (p.boundary_kept o c now).booked
  rw [Point.closeSub_none h] at hbooked
  exact hbooked

theorem Point.boundary_partial (h : (p.boundary o c now).ring.length ≠ c.window) :
    let q := p.boundary o c now
    q.present = p.present ∧ q.maxAll = p.maxAll ∧ q.maxD = p.maxD ∧
      q.counters.ineligible = p.counters.ineligible := by
  rw [(p.boundary_kept o c now).booked.1] at h
  obtain ⟨hpresent, hmaxD, hmaxAll, hineligible, -, -⟩ := p.closeSub_kept o c.window
  rw [Point.boundary, Point.evaluate_partial h]
  exact ⟨hpresent, hmaxAll, hmaxD, hineligible⟩

theorem Point.boundary_ineligible (hfull : (p.boundary o c now).ring.length = c.window)
    (h : ¬ Eligible c (p.boundary o c now)) :
    let q := p.boundary o c now
    q.present = some { demand := demandOf c q, eligible := false, stamp := now } ∧ q.maxAll = p.maxAll ∧
      q.maxD = p.maxD ∧ q.counters.ineligible = min 65535 (p.counters.ineligible + 1) ∧
      q.counters.exceedances = p.counters.exceedances := by
  have hkept := p.boundary_kept o c now
  rw [hkept.booked.1] at hfull
  rw [hkept.eligible] at h
  obtain ⟨-, hmaxD, hmaxAll, hineligible, hexceed, -⟩ := p.closeSub_kept o c.window
  dsimp only
  rw [hkept.demand, Point.boundary, Point.evaluate_ineligible hfull h, ← hineligible]
  exact ⟨rfl, hmaxAll, hmaxD, rfl, hexceed⟩

theorem Point.boundary_eligible (h : Eligible c (p.boundary o c now)) :
    let q := p.boundary o c now
    q.present = some { demand := demandOf c q, eligible := true, stamp := now } ∧
      q.maxAll = p.maxAll.raiseTo (demandOf c q) now ∧
      q.counters.ineligible = p.counters.ineligible ∧
      q.counters.exceedances = (if p.config.contract ≠ 0 ∧ p.config.contract ≤ demandOf c q
        then min 65535 (p.counters.exceedances + 1) else p.counters.exceedances) := by
  have hkept := p.boundary_kept o c now
  obtain ⟨-, -, hmaxAll, hineligible, hexceed, -⟩ := p.closeSub_kept o c.window
  have hconfig := (p.closeSub_status o c.window).config
  rw [hkept.eligible] at h
  dsimp only
  rw [hkept.demand, Point.boundary, Point.evaluate_eligible h rfl, ← hmaxAll, ← hexceed, ← hconfig]
  exact ⟨rfl, rfl, hineligible, rfl⟩

/-- An eligible window raises the maximum of its newest sub-interval's rate period alone (R69, R71). -/
theorem Point.boundary_maxD (h : Eligible c (p.boundary o c now)) {e : RingEntry} {rest : List RingEntry}
    (hring : (p.boundary o c now).ring = e :: rest) : (p.boundary o c now).maxD =
      p.maxD.set e.ratePeriod (p.maxD[e.ratePeriod].raiseTo (demandOf c (p.boundary o c now)) now) := by
  have hkept := p.boundary_kept o c now
  have hrate : (p.closeSub o c.window).windowRate = e.ratePeriod := by
    rw [hkept.booked.1] at hring
    simp only [Point.windowRate, hring]
  rw [hkept.eligible] at h
  rw [hkept.demand, Point.boundary, Point.evaluate_eligible h hrate, ← (p.closeSub_kept o c.window).2.1]

/-- An exceedance counts when an eligible window reaches the contract (R72). -/
theorem Point.boundary_exceedances :
    let q := p.boundary o c now
    q.counters.exceedances = if Eligible c q ∧ p.config.contract ≠ 0 ∧ p.config.contract ≤ demandOf c q
      then min 65535 (p.counters.exceedances + 1) else p.counters.exceedances := by
  intro q
  by_cases h : Eligible c q
  · obtain ⟨-, -, -, hexceed⟩ := p.boundary_eligible o c now h
    rw [hexceed]
    simp only [q, eq_true h, true_and]
  · rw [if_neg fun hcount => h hcount.1]
    by_cases hfull : q.ring.length = c.window
    · obtain ⟨-, -, -, -, hexceed⟩ := p.boundary_ineligible o c now hfull h
      exact hexceed
    · obtain ⟨-, -, -, -, hexceed, -⟩ := p.closeSub_kept o c.window
      have hpartial : (p.closeSub o c.window).ring.length ≠ c.window := by
        rw [← (p.boundary_kept o c now).booked.1]; exact hfull
      exact (congrArg (fun x : Point => x.counters.exceedances) (Point.evaluate_partial hpartial)).trans hexceed

end

end Sys2Proof.Machine
end

section
/-! PROOF. A boundary at its clock: the coincident peak, the share of a close in flight, the next sub-intervals and the
hold counter (R63, R66, R74, R76, R96, R104). -/

namespace Sys2Proof.Machine

open Sys2Proof.Statements

/-! ## Steps 1 to 4 -/

section
variable (s : State) (k : Fin 4) (now : CalTime) (b : Bool)

/-- A point of the clock after steps 1 to 3, in the words of the statement (R46, R63). -/
theorem State.stepped_eq (p : Point) : s.stepped k now b p =
    ({ p with periodFlags := if b then p.periodFlags ||| 1#4 else p.periodFlags } : Point).boundary (optionIn s p)
      s.clocks[k] now := by
  cases b
  · rfl
  · rfl

theorem State.stepped_unchanged (p : Point) : (s.stepped k now b p).config = p.config ∧
    (s.stepped k now b p).period = p.period ∧ (s.stepped k now b p).contribution = p.contribution ∧
    (s.stepped k now b p).held = p.held := by
  rw [State.stepped_eq, Point.held]
  obtain ⟨hframe, -, -, -⟩ := Point.boundary_frame
    { p with periodFlags := if b then p.periodFlags ||| 1#4 else p.periodFlags } (optionIn s p) s.clocks[k] now
  rw [hframe.operator, hframe.conflict]
  exact ⟨hframe.config, hframe.period, hframe.contribution, rfl⟩

theorem State.stepped_ratchet (p : Point) : (s.stepped k now b p).ratchet = p.ratchet := by
  obtain ⟨hframe, -⟩ := Point.boundary_frame
    { p with periodFlags := if b then p.periodFlags ||| 1#4 else p.periodFlags } (optionIn s p) s.clocks[k] now
  obtain ⟨-, -, -, -, -, hratchet, -⟩ := hframe.carried
  rw [State.stepped_eq, hratchet]

theorem State.stepped_onClock (p : Point) : (s.stepped k now b p).onClock k = p.onClock k :=
  congrArg (fun c : PointConfig => decide (c.clock = some k)) (s.stepped_unchanged k now b p).1

theorem State.steppedAll_points (i : Fin 32) : (s.steppedAll k now b).points[i] =
    s.points[i].map (fun p => if p.onClock k then s.stepped k now b p else p) := s.mapPointsOn_points_get k _ i

theorem State.comparePeak_rest : s.comparePeak k now =
    { s with points := (s.comparePeak k now).points, clocks := (s.comparePeak k now).clocks } := by
  unfold State.comparePeak
  dsimp only
  split
  · rfl
  · rfl

/-- The sum a boundary compares with the coincident peak (R74). -/
def State.steppedSum : Nat := (s.steppedAll k now b).coincidentSum k

/-- The sum is over the clock's points, each after steps 1 to 3. -/
theorem State.steppedSum_eq {f : Option Point → Nat} (hnone : f none = 0) (hsome : ∀ p, f (some p) =
    if p.config.clock = some k then shareOf s.clocks[k] (s.stepped k now b p) else 0) :
    (s.points.toList.map f).sum = s.steppedSum k now b := by
  rw [sum_points_eq, State.steppedSum, State.coincidentSum_eq]
  refine Finset.sum_congr rfl fun i _ => ?_
  rw [State.steppedAll_points]
  cases s.points[i] with
  | none => exact hnone
  | some p =>
    rw [hsome, Option.map_some, demandAt]
    by_cases hon : p.config.clock = some k
    · have hon' : p.onClock k = true := (p.onClock_iff k).2 hon
      rw [if_pos hon, if_pos hon', if_pos ((s.stepped_onClock k now b p).trans hon'), Point.eligibleDemand_eq]
      rfl
    · have hoff : ¬ p.onClock k = true := fun h => hon ((p.onClock_iff k).1 h)
      rw [if_neg hon, if_neg hoff, if_neg hoff]

/-- A point of the clock after the comparison: its share of a sum that became the peak (R74). -/
def State.compared (p : Point) : Point := { s.stepped k now b p with
  contribution := if s.clocks[k].peak < s.steppedSum k now b then shareOf s.clocks[k] (s.stepped k now b p)
    else p.contribution }

/-- The clock after the comparison (R74). -/
def State.comparedClock : Clock := { s.clocks[k] with
  peak := if s.clocks[k].peak < s.steppedSum k now b then s.steppedSum k now b else s.clocks[k].peak
  peakStamp := if s.clocks[k].peak < s.steppedSum k now b then some now else s.clocks[k].peakStamp }

/-- Steps 1 to 4 are the clock's turn before its share of a close. -/
theorem State.evaluateClock_turn :
    ClockTurn s (s.evaluateClock k now b) k (s.compared k now b) (s.comparedClock k now b) where
  points i := by
    rw [State.evaluateClock_eq]
    by_cases hlt : s.clocks[k].peak < s.steppedSum k now b
    · rw [(State.comparePeak_raised now hlt).2, State.steppedAll_points, Option.map_map]
      refine congrArg (Option.map · s.points[i]) (funext fun p => ?_)
      rw [Function.comp_apply]
      by_cases hon : p.onClock k = true
      · rw [if_pos hon, if_pos hon, if_pos ((s.stepped_onClock k now b p).trans hon), State.compared, if_pos hlt,
          Point.eligibleDemand_eq]
        rfl
      · rw [if_neg hon, if_neg hon, if_neg hon]
    · have hkept : s.compared k now b = s.stepped k now b := funext fun p => by
        rw [State.compared, if_neg hlt, ← (s.stepped_unchanged k now b p).2.2.1]
      rw [State.comparePeak_same now hlt, State.steppedAll_points, hkept]
  clocks j := by
    rw [State.evaluateClock_eq, State.comparedClock]
    by_cases hlt : s.clocks[k].peak < s.steppedSum k now b
    · rw [(State.comparePeak_raised now hlt).1, if_pos hlt, if_pos hlt]; rfl
    · rw [State.comparePeak_same now hlt, if_neg hlt, if_neg hlt]
      by_cases hj : k = j
      · subst hj; rw [if_pos rfl]; rfl
      · rw [if_neg hj]; rfl
  rest := by
    rw [State.evaluateClock_eq]
    exact (s.steppedAll k now b).comparePeak_rest k now
  config p := (s.stepped_unchanged k now b p).1
  period p := (s.stepped_unchanged k now b p).2.1

end

/-! ## The whole boundary -/

/-- What a sub-interval opens with depends on its clock by the clock's length alone (R66). -/
theorem openedSub_congr {c d : Clock} (h : d.length = c.length) (set : TariffSet) (now : CalTime) (held : Bool) :
    openedSub set d now held = openedSub set c now held := by
  rw [openedSub, h]; rfl

section
variable (s : State) (k : Fin 4) (now : CalTime) (b : Bool)

/-- Steps 1 to 5 of a boundary: up to the clock's share of a close in flight (R63, R96). -/
def State.settledBoundary : State := (s.evaluateClock k now b).clockShare k (some now)

theorem State.boundary_settled :
    s.boundary k now b = ((s.settledBoundary k now b).openPointsOn k now).countHold k := rfl

/-- Steps 6 and 7 leave all but points and clocks (R66, R76). -/
theorem State.boundary_rest : s.boundary k now b = { s.settledBoundary k now b with
    points := (s.boundary k now b).points, clocks := (s.boundary k now b).clocks } := rfl

theorem State.boundary_clocks (j : Fin 4) : (s.boundary k now b).clocks[j] =
    if k = j then { (s.settledBoundary k now b).clocks[k] with hold := (s.settledBoundary k now b).clocks[k].hold - 1 }
    else (s.settledBoundary k now b).clocks[j] := State.setClock_clocks_get _ k j _

theorem State.boundary_length : (s.settledBoundary k now b).clocks[k].length = s.clocks[k].length := by
  rw [State.settledBoundary, (s.evaluateClock_turn k now b).share_clock_settings]; rfl

/-- The next sub-interval opens at each point of the clock (R66). -/
theorem State.boundary_points (i : Fin 32) : (s.boundary k now b).points[i] =
    (s.settledBoundary k now b).points[i].map (fun p => if p.onClock k then { p with
      sub := some (openedSub (s.settledBoundary k now b).tariff.active s.clocks[k] now p.held) } else p) := by
  have hpoints := (s.settledBoundary k now b).mapPointsOn_points_get k (fun p =>
    p.openSub (s.settledBoundary k now b).tariff.active (s.settledBoundary k now b).clocks[k] now) i
  refine hpoints.trans (congrArg (Option.map · _) (funext fun p => ?_))
  rw [Point.openSub_opened, openedSub_congr (s.boundary_length k now b)]

theorem State.boundary_point {i : Fin 32} {p q : Point} (hq : (s.settledBoundary k now b).points[i] = some q)
    (hconfig : q.config = p.config) (hheld : q.held = p.held) (hk : p.config.clock = some k) :
    (s.boundary k now b).points[i] = some { q with
      sub := some (openedSub (s.settledBoundary k now b).tariff.active s.clocks[k] now
        (p.operator || p.conflict)) } := by
  have hon : q.onClock k = true := (q.onClock_iff k).2 (by rw [hconfig]; exact hk)
  rw [State.boundary_points, hq, Option.map_some, if_pos hon, hheld, Point.held]

theorem State.boundary_point_other {i : Fin 32} {p : Point} (hp : s.points[i] = some p)
    (hoff : p.config.clock ≠ some k) : (s.boundary k now b).points[i] = some p := by
  have hsettled := (s.evaluateClock_turn k now b).share_other (stamp := some now) hp hoff
  rw [State.boundary_points, State.settledBoundary, hsettled, Option.map_some,
    if_neg fun hon => hoff ((p.onClock_iff k).1 hon)]

theorem State.boundary_point_none {i : Fin 32} (hp : s.points[i] = none) : (s.boundary k now b).points[i] = none := by
  rw [State.boundary_points, State.settledBoundary, (s.evaluateClock_turn k now b).share_none hp, Option.map_none]

theorem State.boundary_clock_other {j : Fin 4} (hj : j ≠ k) : (s.boundary k now b).clocks[j] = s.clocks[j] := by
  rw [State.boundary_clocks, if_neg hj.symm]
  exact (s.evaluateClock_turn k now b).share_clock_other hj

theorem State.compared_held (p : Point) : (s.compared k now b p).held = p.held :=
  (s.stepped_unchanged k now b p).2.2.2

theorem State.boundary_frame : s.boundary k now b = { s with
    points := (s.boundary k now b).points, clocks := (s.boundary k now b).clocks,
    close := (s.boundary k now b).close, history := (s.boundary k now b).history,
    tariff := (s.boundary k now b).tariff, attention := (s.boundary k now b).attention } := by
  refine (MeterFrame.boundary s k now b).timeless ?_
  have htime : (s.evaluateClock k now b).time = s.time := by rw [(s.evaluateClock_turn k now b).rest]
  exact (State.clockShare_time _ k (some now)).trans htime

end

/-! ## A boundary outside a close, and in one -/

section
variable {s : State} {k : Fin 4} {n : BitVec 16} {u : State} {p q : Point} (now : CalTime) (b : Bool)

theorem State.settledBoundary_idle (h : s.close.inFlight = none ∨ hasFlag s.close.pendingSet k.val = false) :
    s.settledBoundary k now b = s.evaluateClock k now b := (s.evaluateClock_turn k now b).share_idle h

/-- A point that is past the closing period loses its contribution in the share, and nothing else (R96, R104). -/
theorem State.sharedPoint_past (h : p.period ≠ n) : u.sharedPoint n p = { p with contribution := 0 } := by
  rw [State.sharedPoint, if_neg h]

/-- A point that closes pushes its maximum and is reset (R98, R102, R103). -/
theorem State.sharedPoint_closing (h : p.period = n) : (u.sharedPoint n p).ring = p.ring ∧
    (u.sharedPoint n p).ratchet = (p.maxAll.value :: p.ratchet).take 12 ∧
    (u.sharedPoint n p).maxAll = { value := 0, stamp := none } ∧
    (u.sharedPoint n p).totals = { ai := 0, ae := 0, rl := 0, rc := 0 } := by
  rw [State.sharedPoint, if_pos h]
  exact ⟨rfl, rfl, rfl, rfl⟩

theorem State.sharedPoint_ring : (u.sharedPoint n p).ring = p.ring := by
  by_cases h : p.period = n
  · exact (State.sharedPoint_closing h).1
  · rw [State.sharedPoint_past h]

/-- The boundary of a clock that is not pending: the comparison, the next sub-intervals, the hold counter (R63, R74,
R76). -/
theorem State.boundary_idle (h : s.close.inFlight = none ∨ hasFlag s.close.pendingSet k.val = false) :
    let t := s.boundary k now b
    t.close = s.close ∧ t.history = s.history ∧ t.tariff = s.tariff ∧ t.attention = s.attention ∧
      t.clocks[k] = { s.comparedClock k now b with hold := s.clocks[k].hold - 1 } ∧
      ∀ (i : Fin 32) (p : Point), s.points[i] = some p → p.config.clock = some k →
        t.points[i] = some { s.compared k now b p with
          sub := some (openedSub s.tariff.active s.clocks[k] now (p.operator || p.conflict)) } := by
  have hturn := s.evaluateClock_turn k now b
  have hidle := State.settledBoundary_idle now b h
  intro t
  have hclose : t.close = (s.settledBoundary k now b).close := rfl
  have hhistory : t.history = (s.settledBoundary k now b).history := rfl
  have htariff : t.tariff = (s.settledBoundary k now b).tariff := rfl
  have hattention : t.attention = (s.settledBoundary k now b).attention := rfl
  rw [hidle] at hclose hhistory htariff hattention
  refine ⟨hclose.trans hturn.close, hhistory.trans hturn.history, htariff.trans hturn.tariff,
    hattention.trans hturn.attention, ?_, fun i p hp hk => ?_⟩
  · rw [State.boundary_clocks, if_pos rfl, hidle, hturn.clock]; rfl
  · have hq : (s.settledBoundary k now b).points[i] = some (s.compared k now b p) := by
      rw [hidle, hturn.points, hp, Option.map_some, if_pos ((p.onClock_iff k).2 hk)]
    rw [s.boundary_point k now b hq (hturn.config p) (s.compared_held k now b p) hk, hidle, hturn.tariff]

/-- The boundary of a pending clock: its share of the close stands between the comparison and the next sub-intervals
(R96, R104). -/
theorem State.boundary_pending (hn : s.close.inFlight = some n) (hk : hasFlag s.close.pendingSet k.val = true) :
    let t := s.boundary k now b
    LeavesPending s t k n ∧
      t.clocks[k] = { s.clocks[k] with hold := s.clocks[k].hold - 1, peak := 0, peakStamp := none } ∧
      (∃ rs : List BillingRecord, Records s.history t.history (pointsIn s k n) n (some now) false rs ∧
        ∀ r ∈ rs, r.clockPeak = (s.comparedClock k now b).peak ∧ ∀ p ∈ s.points[r.point],
          r.contribution = (s.compared k now b p).contribution ∧ r.maxAll = (s.stepped k now b p).maxAll ∧
          r.attributed = (s.stepped k now b p).attributed) ∧
      ∀ (i : Fin 32) (p : Point), s.points[i] = some p → p.config.clock = some k →
        t.points[i] = some { State.sharedPoint (s.evaluateClock k now b) n (s.compared k now b p) with
          sub := some (openedSub t.tariff.active s.clocks[k] now (p.operator || p.conflict)) } := by
  have hturn := s.evaluateClock_turn k now b
  intro t
  refine ⟨hturn.share_leaves (stamp := some now) hn hk, ?_, ?_, fun i p hp hon => ?_⟩
  · rw [State.boundary_clocks, if_pos rfl, State.settledBoundary, hturn.share_clock hn hk]; rfl
  · obtain ⟨rs, hrs, hfrom⟩ := hturn.share_records (stamp := some now) hn hk
    refine ⟨rs, hrs, fun r hr => ?_⟩
    obtain ⟨hpeak, -, p, hp, -, hr⟩ := hfrom r hr
    refine ⟨hpeak, fun q hq => ?_⟩
    rw [Option.some_inj.1 (hq.symm.trans hp), hr]
    exact ⟨rfl, rfl, rfl⟩
  · obtain ⟨⟨hhold, -⟩, -, -⟩ := (s.evaluateClock k now b).sharedPoint_kept (s.compared k now b p) n
    exact s.boundary_point k now b (hturn.shared_point hn hk hp hon)
      ((State.sharedPoint_config ..).trans (hturn.config p)) (hhold.held.trans (s.compared_held k now b p)) hon

end

end Sys2Proof.Machine

namespace Sys2Proof.Proofs

open Sys2Proof.Machine Sys2Proof.Statements

/-- Settles O52: at a point, the close of the sub-interval and then the window (`Point.boundary_booked` to
`Point.boundary_status`); at the clock, the comparison as its turn (`State.evaluateClock_turn`), then the share of a
close, if it is pending, and the next sub-intervals (`State.boundary_idle`, `State.boundary_pending`). -/
theorem boundaryClosesAndEvaluates : Obligations.BoundaryClosesAndEvaluates := by
  refine ⟨fun p o c now => ?_, fun s k now b => ?_⟩
  · intro q
    refine ⟨p.boundary_unchanged o c now, fun b hb => p.boundary_booked o c now hb, p.boundary_unbooked o c now,
      p.boundary_partial o c now, fun hfull => ?_, fun e rest hring helig => ?_, fun hfull helig => ?_,
      p.boundary_exceedances o c now, p.boundary_status o c now⟩
    · by_cases helig : Eligible c q
      · exact ⟨true, (p.boundary_eligible o c now helig).1, iff_of_true rfl helig⟩
      · exact ⟨false, (p.boundary_ineligible o c now hfull helig).1, iff_of_false Bool.false_ne_true helig⟩
    · obtain ⟨-, hmaxAll, hineligible, -⟩ := p.boundary_eligible o c now helig
      exact ⟨hmaxAll, p.boundary_maxD o c now helig hring, hineligible⟩
    · obtain ⟨-, hmaxAll, hmaxD, hineligible, -⟩ := p.boundary_ineligible o c now hfull helig
      exact ⟨hmaxAll, hmaxD, hineligible⟩
  · intro c after sum t
    have hafter : after = s.stepped k now b := funext fun p => (s.stepped_eq k now b p).symm
    have hsum : sum = s.steppedSum k now b := s.steppedSum_eq k now b rfl fun p => by
      rw [← hafter]
    have hpeak : max c.peak sum = if c.peak < sum then sum else c.peak := by
      split <;> omega
    clear_value sum after
    subst hafter hsum
    refine ⟨s.boundary_frame k now b, fun j => s.boundary_clock_other k now b, fun i => s.boundary_point_none k now b,
      fun i p => s.boundary_point_other k now b, fun hidle => State.boundary_idle now b hidle, fun n hn hk => ?_⟩
    obtain ⟨hleaves, hclock, hrecords, hpoints⟩ := State.boundary_pending now b hn hk
    rw [hpeak]
    have hperiod (p : Point) : (s.compared k now b p).period = p.period := (s.stepped_unchanged k now b p).2.1
    refine ⟨hleaves, hclock, hrecords, fun i p hp hon => ⟨_, hpoints i p hp hon, rfl, rfl, State.sharedPoint_ring,
      (State.sharedPoint_kept ..).2.2.trans (by rw [hperiod]), fun hin => ?_, fun hout => ?_⟩⟩
    · obtain ⟨-, hratchet, hmaxAll, htotals⟩ := State.sharedPoint_closing (u := s.evaluateClock k now b)
        ((hperiod p).trans hin)
      have hstack : (s.compared k now b p).ratchet = p.ratchet := s.stepped_ratchet k now b p
      exact ⟨hratchet.trans (by rw [hstack]; rfl), hmaxAll, htotals⟩
    · rw [State.sharedPoint_past (fun hin => hout ((hperiod p).symm.trans hin))]; rfl

end Sys2Proof.Proofs
end

section
/-! PROOF. The reactive figures of a lump and of a point: excess over the allowance, the ratio with and without active
import, and what a closing sub-interval adds (R81, R82, R83, R87). -/

namespace Sys2Proof.Machine

variable {o : PenaltyOption} {e : Energies}

theorem PenaltyOption.excess_above_allowance (h : o.allowance e < o.chargeable e) :
    o.excess e + o.allowance e = o.chargeable e :=
  Nat.sub_add_cancel (Nat.le_of_lt h)

theorem PenaltyOption.excess_within_allowance (h : o.chargeable e ≤ o.allowance e) : o.excess e = 0 :=
  Nat.sub_eq_zero_of_le h

/-- The ratio of a point with active import; without an option its chargeable energy is Rl (R80, R87). -/
theorem reactiveRatio_of_import (governing : Option PenaltyOption) (h : 0 < e.ai) :
    reactiveRatio governing e = min 9999 (1000 * governing.elim e.rl (·.chargeable e) / e.ai) := by
  cases governing <;> exact if_neg (Nat.ne_of_gt h)

/-- The ratio of a point without active import is one of its two limits (R87). -/
theorem reactiveRatio_of_no_import (governing : Option PenaltyOption) (h : e.ai = 0) :
    reactiveRatio governing e = if governing.elim e.rl (·.chargeable e) = 0 then 0 else 9999 := by
  cases governing <;> exact if_pos h

theorem subIntervalExcess_none : subIntervalExcess none e = 0 := rfl

theorem subIntervalExcess_some :
    subIntervalExcess (some o) e = if o.subinterval = true then o.excess e else 0 := rfl

end Sys2Proof.Machine

namespace Sys2Proof.Proofs

open Sys2Proof.Machine

/-- Settles O34: the excess by where the chargeable energy stands against the allowance, the ratio by whether there is
active import, each with and without an option. -/
theorem reactiveExcessAndRatio : Obligations.ReactiveExcessAndRatio := by
  intro o e rq
  have hchargeable : o.chargeable e = rq := rfl
  have hallowance : o.allowance e = e.ai * o.threshold / 1000 := rfl
  refine ⟨hchargeable, hallowance, fun habove => ?_, fun hwithin => PenaltyOption.excess_within_allowance hwithin,
    fun himport => ⟨reactiveRatio_of_import (some o) himport, reactiveRatio_of_import none himport⟩,
    fun hnone => ⟨reactiveRatio_of_no_import (some o) hnone, reactiveRatio_of_no_import none hnone⟩,
    subIntervalExcess_none, subIntervalExcess_some⟩
  have hexcess := PenaltyOption.excess_above_allowance (o := o) (e := e) habove
  rw [hallowance, hchargeable] at hexcess
  exact Nat.eq_sub_of_add_eq hexcess

end Sys2Proof.Proofs
end

section
/-! PROOF. One point's close: the lines of its charges and their flags, the reactive figures, the append, and the
transaction they make up (R85, R98 to R103, R114 to R122, R126, R127). -/

namespace Sys2Proof.Machine

open Sys2Proof.Statements

/-! ## The charges and the flags of a record -/

/-- What a charge bills is what it comes to and what it takes over, less what it carries on (R121). -/
theorem chargeLine_balance (dividend : Nat) (c : Int) : ((chargeLine dividend c).billed : Int) =
    (chargeLine dividend c).unrounded + (chargeLine dividend c).carriedIn - (chargeLine dividend c).carriedOut := by
  simp only [chargeLine]
  omega

theorem recordFlags_inexact (a b : Bool) (f : BitVec 4) (cut : Bool) : (recordFlags a b f cut).getLsbD 0 = a := by
  revert a b f cut; decide

theorem recordFlags_overflow (a b : Bool) (f : BitVec 4) (cut : Bool) : (recordFlags a b f cut).getLsbD 1 = b := by
  revert a b f cut; decide

section
variable (rates : Schedule) (p : Point) (excess : Nat)

/-- INEXACT: one of the three divisions by 1000 leaves a remainder (R119). -/
theorem charges_inexact : (charges rates p excess).inexact = true ↔
    touSum p.maxD rates.rateTOU % 1000 ≠ 0 ∨
    (charges rates p excess).facilityDemand * rates.rateFAC % 1000 ≠ 0 ∨ excess * rates.rateVAR % 1000 ≠ 0 := by
  simp only [charges, inexactDivision, Bool.or_eq_true, decide_eq_true_eq, or_assoc]

/-- OVERFLOW: one of the three amounts is held, or their sum is (R120, R122). -/
theorem charges_overflow : (charges rates p excess).overflow = true ↔
    chargeOverflow (touSum p.maxD rates.rateTOU) p.residues.tou = true ∨
    chargeOverflow ((charges rates p excess).facilityDemand * rates.rateFAC) p.residues.facility = true ∨
    chargeOverflow (excess * rates.rateVAR) p.residues.reactive = true ∨
    Config.maxAmount < (charges rates p excess).tou.billed + (charges rates p excess).facility.billed +
      (charges rates p excess).reactive.billed := by
  simp only [charges, Bool.or_eq_true, decide_eq_true_eq, or_assoc]

end

/-! ## The record -/

section
variable (s : State) (i : Fin 32) {p : Point} (n : BitVec 16) (stamp : Option CalTime) (cut : Bool)

/-- The period excess of a point, in the words of the statement (R85, R86). -/
theorem State.excessOf_eq (p : Point) : s.excessOf p = excessUnder (optionIn s p) p := by
  have hoption : s.optionOf p = optionIn s p := rfl
  rw [State.excessOf, hoption]
  cases optionIn s p with
  | none => rfl
  | some o => simp only [periodExcess, excessUnder, satAdd]; split <;> rfl

/-- The record of a point without a clock carries no peak (R100). -/
theorem State.recordOf_unclocked (h : p.config.clock = none) :
    (s.recordOf i p n stamp cut).clockPeak = 0 ∧ (s.recordOf i p n stamp cut).peakStamp = none := by
  have hclock : s.clockOf p = none := by rw [State.clockOf, h, Option.map_none]
  simp [State.recordOf, Point.record, hclock]

/-- The record of a point carries its clock's peak with the stamp (R100). -/
theorem State.recordOf_clocked {k : Fin 4} (h : p.config.clock = some k) :
    (s.recordOf i p n stamp cut).clockPeak = s.clocks[k].peak ∧
      (s.recordOf i p n stamp cut).peakStamp = s.clocks[k].peakStamp := by
  have hclock : s.clockOf p = some s.clocks[k] := by rw [State.clockOf, h, Option.map_some]
  simp [State.recordOf, Point.record, hclock]

/-- The record of a point's close as the store takes it, with the store's next sequence (R126). -/
def State.storedRecord (p : Point) : BillingRecord :=
  { s.recordOf i p n stamp cut with sequence := s.history.sequence }

theorem State.storedRecord_excess (p : Point) :
    (s.storedRecord i n stamp cut p).excess = excessUnder (optionIn s p) p := s.excessOf_eq p

theorem State.storedRecord_cut (p : Point) : (s.storedRecord i n stamp cut p).flags.getLsbD 6 = cut :=
  recordFlags_cut ..

theorem State.storedRecord_period (p : Point) {b : Nat} (hb : b < 4) :
    (s.storedRecord i n stamp cut p).flags.getLsbD (b + 2) = p.periodFlags.getLsbD b :=
  recordFlags_period _ _ _ _ hb

theorem State.storedRecord_inexact (p : Point) : (s.storedRecord i n stamp cut p).flags.getLsbD 0 =
    (s.chargesOf p).inexact := recordFlags_inexact ..

theorem State.storedRecord_overflow (p : Point) : (s.storedRecord i n stamp cut p).flags.getLsbD 1 =
    (s.chargesOf p).overflow := recordFlags_overflow ..

end

/-! ## The append -/

section
variable (h : History) (r : BillingRecord)

/-- The record stands in the slot at the write index, with the sequence counter's value (R126). -/
theorem History.append_written : (h.append r).slots[h.writeIndex] = some { r with sequence := h.sequence } := by
  simp [History.append]

theorem History.append_other {slot : Fin 384} (hslot : slot ≠ h.writeIndex) :
    (h.append r).slots[slot] = h.slots[slot] :=
  Vector.getElem_set_ne h.writeIndex.isLt slot.isLt fun e => hslot (Fin.ext e.symm)

end

/-- One point's close as a whole: its record appended, the point closed with the residues that record carries out
(R98, R101, R102, R103). -/
theorem State.closePoint_eq (s : State) (i : Fin 32) (p : Point) (n : BitVec 16) (stamp : Option CalTime) (cut : Bool) :
    s.closePoint i p n stamp cut = { s with
      history := s.history.append (s.storedRecord i n stamp cut p)
      points := s.points.set i (some (closedPoint n (carriedOut (s.storedRecord i n stamp cut p)) p)) } := by
  have hpoint : s.settledPoint p n = closedPoint n (carriedOut (s.storedRecord i n stamp cut p)) p :=
    s.settledPoint_closed i p n stamp cut
  rw [← hpoint]; rfl

end Sys2Proof.Machine

namespace Sys2Proof.Proofs

open Sys2Proof.Machine Sys2Proof.Statements

/-- Settles O31: the close is the append of its record and the closed point (`State.closePoint_eq`); the record's parts
are those of the point, of its clock and of its charges, and the store's those of an append. -/
theorem pointCloseSettlesPeriod : Obligations.PointCloseSettlesPeriod := by
  intro s i p n stamp cut rates option h
  have hclose := s.closePoint_eq i p n stamp cut
  have hh : h = s.history.append (s.storedRecord i n stamp cut p) := congrArg State.history hclose
  have hpoints := congrArg State.points hclose
  clear_value h
  subst hh
  refine ⟨s.storedRecord i n stamp cut p, closedPoint n (carriedOut (s.storedRecord i n stamp cut p)) p,
    History.append_written .., rfl, hpoints, rfl, rfl, rfl, rfl, rfl, rfl, rfl, rfl, rfl, rfl, rfl, rfl, rfl, rfl,
    s.recordOf_unclocked i n stamp cut, fun k => s.recordOf_clocked i n stamp cut, s.storedRecord_excess ..,
    rfl, rfl, rfl, rfl, ⟨_, _, _, rfl, rfl, rfl, rfl, rfl, rfl, ?inexact, ?overflow⟩, s.storedRecord_cut ..,
    fun b hb => s.storedRecord_period i n stamp cut p hb, chargeLine_balance .., chargeLine_balance ..,
    chargeLine_balance .., rfl, rfl, rfl, rfl, ⟨rfl, rfl, fun slot => History.append_other _ _, fun valid => ?valid⟩,
    rfl, rfl, rfl, rfl, rfl, rfl, rfl, rfl, rfl, rfl, rfl, rfl, rfl, rfl, rfl, rfl, rfl, rfl, rfl, rfl, rfl, rfl,
    rfl, rfl⟩
  case inexact => rw [State.storedRecord_inexact]; exact charges_inexact rates p _
  case overflow => rw [State.storedRecord_overflow]; exact charges_overflow rates p _
  case valid => exact s.history.append_valid (s.storedRecord i n stamp cut p) valid

end Sys2Proof.Proofs
end

section
/-! PROOF. The start of a close: the clocks it leaves pending, the completion when there are none, the records and the
points of the immediate closes, and the CLOSE PERIOD that asks for it (R92, R94, R95, R104, R105). -/

namespace Sys2Proof.Machine

open Sys2Proof.Statements

/-! ## Records of some points -/

section
variable (s : State) {h : History} {l : List (Fin 32)} {n : BitVec 16} {stamp : Option CalTime} {cut : Bool}

/-- Records of configured points, appended in their order. -/
theorem State.recordAt_records (hl : ∀ i ∈ l, s.points[i] ≠ none)
    (hh : h = (l.filterMap (s.recordAt n stamp cut)).foldl History.append s.history) :
    Records s.history h l n stamp cut (l.filterMap (s.recordAt n stamp cut)) := by
  refine ⟨hh, s.recordAt_points n stamp cut l hl, fun x hx => ?_⟩
  obtain ⟨i, -, hx⟩ := List.mem_filterMap.1 hx
  obtain ⟨p, -, rfl⟩ := Option.map_eq_some_iff.1 hx
  exact ⟨rfl, rfl, recordFlags_cut ..⟩

/-- Each of them is the record of the configured point it names. -/
theorem State.mem_recordAt {x : BillingRecord} (hx : x ∈ l.filterMap (s.recordAt n stamp cut)) :
    ∃ p, s.points[x.point] = some p ∧ x = s.recordOf x.point p n stamp cut := by
  obtain ⟨i, -, hx⟩ := List.mem_filterMap.1 hx
  obtain ⟨p, hp, rfl⟩ := Option.map_eq_some_iff.1 hx
  exact ⟨p, hp, rfl⟩

/-- The points of a condition, by any test that says the same of every configured point and nothing of an unused one. -/
theorem State.pointsWhere_eq {which : Point → Bool} {f : Fin 32 → Bool}
    (hnone : ∀ i, s.points[i] = none → f i = false)
    (hsome : ∀ i p, s.points[i] = some p → f i = which p) : (List.finRange 32).filter f = s.pointsWhere which := by
  refine List.filter_congr fun i _ => ?_
  cases hp : s.points[i] with
  | none => exact hnone i hp
  | some p => exact hsome i p hp

end

section
variable (s : State)

/-! ## The pending set of a start -/

/-- With the time set, the clocks that qualify are pending (R94). -/
theorem State.startingSet_qualifies (k : Fin 4) :
    hasFlag s.startingSet k.val = true ↔ s.time.calendar ≠ none ∧ Qualifies s k := by
  rw [State.startingSet_flag, Option.isSome_iff_ne_none]
  exact Iff.rfl

theorem State.startingSet_idle (k : Fin 4) :
    hasFlag s.startingSet k.val = false ↔ s.time.calendar = none ∨ ¬ Qualifies s k := by
  rw [← Bool.not_eq_true, State.startingSet_qualifies, not_and_or, not_not]

/-- No clock is pending if the time is UNSET, or none qualifies (R94). -/
theorem State.startingSet_empty :
    s.startingSet = 0 ↔ s.time.calendar = none ∨ ∀ k : Fin 4, ¬ Qualifies s k := by
  simp only [pendingSet_zero, State.startingSet_idle, forall_or_left]

/-! ## Before the completion -/

/-- A close that has started, before the check whether a clock is pending (R94, R95, R104). -/
def State.startedClose : State := s.beginClose.closeIdlePoints.resetIdlePeaks

theorem State.startClose_started : s.startClose = s.startedClose.completeIfEmpty s.close.devicePeriod := rfl

theorem State.startedClose_close : s.startedClose.close =
    { inFlight := some s.close.devicePeriod, pendingSet := s.startingSet, devicePeriod := s.close.devicePeriod } :=
  (State.resetIdlePeaks_close _).trans (State.closeIdlePoints_close _)

theorem State.startedClose_tariff : s.startedClose.tariff = s.tariff :=
  (State.resetIdlePeaks_tariff _).trans (State.closeIdlePoints_tariff _)

/-- Resetting the peaks touches neither attention nor time. -/
theorem State.resetIdlePeaks_rest : s.resetIdlePeaks.attention = s.attention ∧ s.resetIdlePeaks.time = s.time := by
  refine foldl_keeps (R := fun t : State => t.attention = s.attention ∧ t.time = s.time) _ s ⟨rfl, rfl⟩
    fun t k _ ht => ?_
  split
  · exact ht
  · exact ht

theorem State.startedClose_attention : s.startedClose.attention = s.attention :=
  (State.resetIdlePeaks_rest _).1.trans (CloseTurnFrame.closePoints ..).attention

theorem State.startedClose_time : s.startedClose.time = s.time :=
  (State.resetIdlePeaks_rest _).2.trans (CloseTurnFrame.closePoints ..).time

/-! ## The start -/

/-- A start leaves the time and all that no close touches. -/
theorem State.startClose_frame : s.startClose = { s with
    points := s.startClose.points, clocks := s.startClose.clocks, close := s.startClose.close,
    history := s.startClose.history, tariff := s.startClose.tariff, attention := s.startClose.attention } := by
  refine (MeterFrame.startClose s).timeless ?_
  rw [State.startClose_started, State.completeIfEmpty]
  split
  · exact (State.completeClose_time ..).trans s.startedClose_time
  · exact s.startedClose_time

/-- With no clock pending the close completes at once (R94, R105). -/
theorem State.startClose_completes (h : s.startingSet = 0) : Completed s s.startClose s.close.devicePeriod := by
  rw [State.startClose_started, State.completeIfEmpty, if_pos (by rw [State.startedClose_close]; exact h)]
  exact completed_of rfl rfl (fun _ hflag => hflag) s.startedClose_tariff

/-- With a clock pending nothing follows: the close stays in flight (R94). -/
theorem State.startClose_pending (h : s.startingSet ≠ 0) : s.startClose = s.startedClose := by
  rw [State.startClose_started, State.completeIfEmpty, if_neg (by rw [State.startedClose_close]; exact h)]

/-- The points without an open sub-interval have a record each, as they and their clocks stood before the start (R95,
R100). -/
theorem State.startClose_records : ∃ rs : List BillingRecord,
    Records s.history s.startClose.history (s.pointsWhere (fun p => p.sub.isNone)) s.close.devicePeriod
      s.time.calendar false rs ∧
    ∀ x ∈ rs, ∃ p, s.points[x.point] = some p ∧
      x = s.recordOf x.point p s.close.devicePeriod s.time.calendar false :=
  ⟨_, s.recordAt_records (s.pointsWhere_configured _) s.startClose_history, fun _ hx => s.mem_recordAt hx⟩

end

/-! ## The points -/

section
variable {s : State} {i : Fin 32} {p : Point}

/-- The reset of a peak takes a point's contribution back, at most (R104). -/
theorem idlePeakPoint_frame (set : BitVec 4) (p : Point) :
    idlePeakPoint set p = { p with contribution := (idlePeakPoint set p).contribution } := by
  unfold idlePeakPoint
  split <;> rfl

/-- A point of a pending clock with an open sub-interval is untouched (R95, R96). -/
theorem State.startClose_open {k : Fin 4} (hp : s.points[i] = some p) (hsub : p.sub ≠ none)
    (hclock : p.config.clock = some k) (hpending : hasFlag s.startingSet k.val = true) :
    s.startClose.points[i] = some p := by
  have hopen : ¬ p.sub.isNone = true := by rwa [Option.isNone_iff_eq_none]
  have hkept : ¬ ∃ j : Fin 4, p.config.clock = some j ∧ hasFlag s.startingSet j.val = false := by
    rintro ⟨j, hj, hidle⟩
    rw [hclock] at hj
    cases hj
    exact absurd (hpending.symm.trans hidle) (by decide)
  rw [State.startClose_points, hp, Option.map_some, if_neg hopen, idlePeakPoint, if_neg hkept]

/-- A point without an open sub-interval is closed (R95, R102, R103). -/
theorem State.startClose_closed (hp : s.points[i] = some p) (hsub : p.sub = none) :
    ∃ q : Point, s.startClose.points[i] = some q ∧ q.period = s.close.devicePeriod + 1 ∧ q.config = p.config ∧
      q.ratchet = (p.maxAll.value :: p.ratchet).take 12 ∧ q.totals = { ai := 0, ae := 0, rl := 0, rc := 0 } := by
  refine ⟨idlePeakPoint s.startingSet (s.settledPoint p s.close.devicePeriod), ?_, ?_⟩
  · rw [State.startClose_points, hp, Option.map_some, if_pos (by rw [hsub]; rfl)]
  · rw [idlePeakPoint_frame]
    exact ⟨rfl, rfl, rfl, rfl⟩

theorem State.startClose_unused (hp : s.points[i] = none) : s.startClose.points[i] = none := by
  rw [State.startClose_points, hp, Option.map_none]

/-- CLOSE PERIOD with no close in flight (R92). -/
theorem State.closePeriodRule_taken (h : s.close.inFlight = none) : s.closePeriodRule = Answer.taken s.startClose
    (beBytes 2 s.close.devicePeriod.toNat ++
      [oct s.startClose.close.pendingSet.toNat, octBool s.startClose.close.inFlight.isNone]) := by
  simp only [State.closePeriodRule, h]

end

end Sys2Proof.Machine

namespace Sys2Proof.Proofs

open Sys2Proof.Machine Sys2Proof.Statements

/-- Settles O30: the request is a start of a close (`State.closePeriodRule_taken`). Whether it completes turns on the
starting set alone, which holds the clocks that qualify; the records and points are those of the immediate closes. -/
theorem closePeriodStartsClose : Obligations.ClosePeriodStartsClose := by
  intro s r hready hargs hidle
  have hrequest := request_taken (k := .closePeriod) (rule := fun u _ => u.closePeriodRule) hready hargs rfl
    (State.closePeriodRule_taken (s := hunting s) hidle)
  refine ⟨(hunting s).startClose, hrequest, rfl, (hunting s).startClose_frame, fun hnone => ?completed,
    fun hset hsome => ?pending, fun k => ⟨fun hset hk => ?kept, fun hk => ?reset⟩, ?records,
    fun i p hp hsub => State.startClose_closed (s := hunting s) hp hsub,
    fun i hp => State.startClose_unused (s := hunting s) hp⟩
  case completed => exact (hunting s).startClose_completes ((hunting s).startingSet_empty.2 hnone)
  case pending =>
    have hpending (k : Fin 4) : hasFlag (hunting s).startingSet k.val = true ↔ Qualifies s k :=
      ((hunting s).startingSet_qualifies k).trans (and_iff_right hset)
    have hstarted := (hunting s).startClose_pending fun hempty => by
      obtain ⟨k, hk⟩ := hsome
      exact ((hunting s).startingSet_empty.1 hempty).elim hset fun hno => hno k hk
    have hclose := (hunting s).startedClose_close
    rw [← hstarted] at hclose
    refine ⟨by rw [hclose], by rw [hclose], fun k => by rw [hclose]; exact hpending k, ?_, ?_, ?_⟩
    · rw [hstarted]; exact (hunting s).startedClose_tariff
    · rw [hstarted]; exact (hunting s).startedClose_attention
    · exact fun i k p hp hsub hk henabled =>
        State.startClose_open (s := hunting s) hp hsub hk ((hpending k).2 ⟨henabled, i, p, hp, hk⟩)
  case kept =>
    have hk' := ((hunting s).startingSet_qualifies k).2 ⟨hset, hk⟩
    rw [State.startClose_clocks, if_neg (by rw [hk']; decide)]
  case reset => rw [State.startClose_clocks, if_pos (((hunting s).startingSet_idle k).2 hk)]
  case records =>
    obtain ⟨rs, hrs, hfrom⟩ := (hunting s).startClose_records
    rw [State.pointsWhere_eq s (which := fun p => p.sub.isNone) (fun i hp => by simp only [hp])
      (fun i p hp => by simp only [hp])]
    refine ⟨rs, hrs, fun x hx p hp => ?_⟩
    obtain ⟨q, hq, hrecord⟩ := hfrom x hx
    obtain rfl : q = p := Option.some_inj.1 (hq.symm.trans hp)
    rw [hrecord]
    exact ⟨(hunting s).recordOf_unclocked _ _ _ _, fun k => (hunting s).recordOf_clocked _ _ _ _⟩

end Sys2Proof.Proofs
end

section
/-! PROOF. The charge arithmetic of a close: the largest value of the ratchet stack (R116), and the rounding of an
amount to the cent with its residue (R120, R121). -/

namespace Sys2Proof.Machine

open Sys2Proof.Statements

/-! ## The largest of a list of demands -/

theorem foldl_max_zero (l : List Nat) : l.foldl max 0 = l.max?.getD 0 := by
  rw [List.foldl_max, Nat.zero_max]

theorem le_foldl_max {l : List Nat} {v : Nat} (hv : v ∈ l) : v ≤ l.foldl max 0 := by
  rw [foldl_max_zero]
  cases hmax : l.max? with
  | none => rw [List.max?_eq_none_iff.1 hmax] at hv; nomatch hv
  | some m => exact (List.max?_eq_some_iff.1 hmax).2 v hv

theorem foldl_max_mem (l : List Nat) : l.foldl max 0 = 0 ∨ l.foldl max 0 ∈ l := by
  rw [foldl_max_zero]
  cases hmax : l.max? with
  | none => exact .inl rfl
  | some m => exact .inr (List.max?_eq_some_iff.1 hmax).1

/-! ## The ratchet demand -/

section
variable {rates : Schedule} (stack : List Nat)

theorem ratchetDemand_of_no_months (h : rates.ratchetMonths = 0) : ratchetDemand rates stack = 0 := if_pos h

theorem ratchetDemand_of_months (h : 0 < rates.ratchetMonths) : ratchetDemand rates stack =
    (stack.take rates.ratchetMonths).foldl max 0 * rates.ratchetPercent / 100 :=
  if_neg (Nat.ne_of_gt h)

end

/-! ## Rounding to the cent -/

section
variable {t : Int}

theorem centsOf_of_neg (h : t < 0) : centsOf t = 0 := if_pos h

theorem centsOf_of_nonneg (h : 0 ≤ t) : (centsOf t : Int) = (t + 50) / 100 * 100 := by
  rw [centsOf, if_neg (Int.not_lt.2 h)]
  exact Int.toNat_of_nonneg (by omega)

/-- A billed amount is held where the sum, rounded half up, is above the largest amount; a negative sum rounds to at
most 0 and is never held. -/
theorem billedHeld_iff : billedHeld t = true ↔ 999999999999 < (t + 50) / 100 * 100 := by
  rw [billedHeld, decide_eq_true_iff, Config.maxAmount]
  rcases Int.lt_or_le t 0 with hneg | hnonneg
  · rw [centsOf_of_neg hneg]; omega
  · have hcents := centsOf_of_nonneg hnonneg; omega

theorem billedAmount_of_neg (h : t < 0) : billedAmount t = 0 := by
  rw [billedAmount, centsOf_of_neg h, Nat.min_zero]

theorem billedAmount_of_within (h : 0 ≤ t) (hwithin : (t + 50) / 100 * 100 ≤ 999999999999) :
    (billedAmount t : Int) = (t + 50) / 100 * 100 := by
  have hcents := centsOf_of_nonneg h
  have hle : centsOf t ≤ Config.maxAmount := by rw [Config.maxAmount]; omega
  rw [billedAmount, Nat.min_eq_right hle, hcents]

theorem billedAmount_of_held (h : billedHeld t = true) : billedAmount t = 999999999999 :=
  Nat.min_eq_left (Nat.le_of_lt (of_decide_eq_true h))

/-- A sum that is no more than a residue bills nothing: it rounds to 0, or is below 0. -/
theorem billedAmount_of_residue (h : residueOk t) : billedAmount t = 0 := by
  obtain ⟨hlo, hhi⟩ := h
  rcases Int.lt_or_le t 0 with hneg | hnonneg
  · exact billedAmount_of_neg hneg
  · have hbilled := billedAmount_of_within hnonneg (by omega)
    omega

end

/-! ## A charge and its overflow -/

section
variable (dividend : Nat) (c : Int)

/-- The unrounded amount and the residue it meets, in sum (R121 step 1). -/
theorem chargeLine_sum_range {c : Int} (h : residueOk c) : -50 ≤ (chargeLine dividend c).unrounded + c ∧
    (chargeLine dividend c).unrounded + c ≤ 1000000000048 := by
  obtain ⟨hlo, hhi⟩ := h
  have hheld : (chargeLine dividend c).unrounded ≤ 999999999999 := Nat.min_le_left _ _
  omega

theorem chargeLine_billed :
    (chargeLine dividend c).billed = billedAmount ((chargeLine dividend c).unrounded + c) := rfl

/-- What is not billed of the sum is carried on (R121). -/
theorem chargeLine_remainder : (chargeLine dividend c).carriedOut =
    (chargeLine dividend c).unrounded + c - (chargeLine dividend c).billed := rfl

theorem chargeLine_carries_unbilled {dividend : Nat} {c : Int} (h : (chargeLine dividend c).billed = 0) :
    (chargeLine dividend c).carriedOut = (chargeLine dividend c).unrounded + c := by
  rw [chargeLine_remainder, h, Int.natCast_zero, Int.sub_zero]

/-- OVERFLOW of a charge kind: its unrounded or its billed amount is held (R120, R121). -/
theorem chargeOverflow_iff : chargeOverflow dividend c = true ↔ 999999999999 < dividend / 1000 ∨
    999999999999 < ((chargeLine dividend c).unrounded + c + 50) / 100 * 100 := by
  rw [chargeOverflow, Bool.or_eq_true, billedHeld_iff]
  exact or_congr_left decide_eq_true_iff

end

end Sys2Proof.Machine

namespace Sys2Proof.Proofs

open Sys2Proof.Machine Sys2Proof.Statements

/-- Settles O33, by where the sum of the amount and its residue falls: below 0, within the largest amount after
rounding, or above it (`billedAmount_of_neg`, `billedAmount_of_within`, `billedAmount_of_held`). -/
theorem roundingCarriesResidue : Obligations.RoundingCarriesResidue := by
  intro dividend c l t
  have hbilled : l.billed = billedAmount t := chargeLine_billed dividend c
  have hoverflow := chargeOverflow_iff dividend c
  refine ⟨hoverflow, fun hlo hhi => ?_⟩
  have hcarried : residueOk l.carriedOut := chargeLine_carriedOut dividend c ⟨hlo, hhi⟩
  refine ⟨rfl, rfl, chargeLine_sum_range dividend ⟨hlo, hhi⟩, chargeLine_balance dividend c, hcarried.1, hcarried.2,
    fun hneg => ?negative, fun hnonneg hwithin => ?within, fun hheld => ?held, fun hzero => ?nothing⟩
  case negative =>
    have hnone : l.billed = 0 := hbilled.trans (billedAmount_of_neg hneg)
    exact ⟨hnone, chargeLine_carries_unbilled hnone⟩
  case within => rw [hbilled, billedAmount_of_within hnonneg hwithin]
  case held => exact ⟨hbilled.trans (billedAmount_of_held (billedHeld_iff.2 hheld)), hoverflow.2 (.inr hheld)⟩
  case nothing =>
    have hsum : t = c := by simp only [t, hzero, Int.natCast_zero, Int.zero_add]
    have hnone : l.billed = 0 := by rw [hbilled, hsum, billedAmount_of_residue ⟨hlo, hhi⟩]
    exact ⟨(chargeLine_carries_unbilled hnone).trans hsum, hnone⟩

/-- Settles O32: each charge is its line's dividend by the model's formulas; the ratchet demand turns on whether the
schedule looks back at all, and then on the largest of the entries it looks at (`le_foldl_max`, `foldl_max_mem`). -/
theorem chargesFollowScheduleRates : Obligations.ChargesFollowScheduleRates := by
  intro s p excess
  refine ⟨rfl, ratchetDemand_of_no_months p.ratchet, fun hmonths => ?_, rfl, rfl, rfl, rfl⟩
  exact ⟨_, ratchetDemand_of_months p.ratchet hmonths, fun v => le_foldl_max, foldl_max_mem _⟩

end Sys2Proof.Proofs
end

section
/-! PROOF. The history store in order (R125, R127): whatever a step does, it appends records to the store, none or some,
or it is a cold start, which leaves an empty one. -/

namespace Sys2Proof.Machine

variable {s t : State}

/-- The history store of t is that of s with records appended one after the other, or as it was (R126). -/
def Appended (s t : State) : Prop := ∃ rs : List BillingRecord, t.history = rs.foldl History.append s.history

theorem History.Ordered.appended (h : s.history.Ordered) (g : Appended s t) : t.history.Ordered := by
  obtain ⟨rs, e⟩ := g
  rw [e]
  exact foldl_keeps (R := History.Ordered) rs s.history h fun a r _ ha => History.append_ordered a r ha

theorem History.cold_ordered : History.cold.Ordered :=
  ⟨by decide, fun _ hj => absurd hj (Nat.not_lt_zero _), fun _ _ _ hk => absurd hk (Nat.not_lt_zero _)⟩

namespace Appended

theorem same (h : t.history = s.history) : Appended s t := ⟨[], h⟩

theorem trans {u : State} (h : Appended s t) (g : Appended t u) : Appended s u := by
  obtain ⟨rs, hrs⟩ := h
  obtain ⟨rs', hrs'⟩ := g
  exact ⟨rs ++ rs', by rw [hrs', hrs, List.foldl_append]⟩

/-- What appends to a store appends to the same store in another state. -/
theorem from_same {u : State} (g : Appended t u) (h : t.history = s.history) : Appended s u := (same h).trans g

theorem foldl {β : Type} {f : State → β → State} (h : ∀ t b, Appended t (f t b)) (l : List β) (s : State) :
    Appended s (l.foldl f s) := foldl_keeps l s (.same rfl) fun t b _ ht => ht.trans (h t b)

/-! ## Closes -/

theorem clockShare (s : State) (k : Fin 4) (stamp : Option CalTime) : Appended s (s.clockShare k stamp) := by
  rcases s.clockShare_cases k stamp with ⟨-, e⟩ | ⟨n, hn, hk, -⟩
  · rw [e]; exact .same rfl
  · exact ⟨_, State.clockShare_history hn hk⟩

theorem startClose (s : State) : Appended s s.startClose := ⟨_, s.startClose_history⟩

theorem scheduledClose (s : State) (now : CalTime) : Appended s (s.scheduledClose now) := by
  rcases s.scheduledClose_cases now with ⟨-, -, -, -, -, e⟩ | ⟨-, e⟩ <;> rw [e]
  · exact ⟨_, State.startClose_history _⟩
  · exact .same rfl

theorem warmClose (s : State) (stamp : Option CalTime) : Appended s (s.warmClose stamp) := by
  unfold State.warmClose
  split
  next n _ => exact ⟨_, (State.completeClose_history ..).trans (s.settlePending_history n stamp)⟩
  next => exact .same rfl

theorem warmCloseFirst (s : State) (m : Nat) (stamp : Option CalTime) : Appended s (s.warmCloseFirst m stamp) := by
  cases hn : s.close.inFlight with
  | some n => exact ⟨_, s.warmCloseFirst_history n m stamp hn⟩
  | none => exact .same (by rw [State.warmCloseFirst, hn])

/-! ## Minutes -/

/-- A boundary appends the records of the clock's share of a close alone (R63). -/
theorem boundary (s : State) (k : Fin 4) (now : CalTime) (b : Bool) : Appended s (s.boundary k now b) := by
  have hevaluated : (s.evaluateClock k now b).history = s.history := by
    rw [s.evaluateClock_eq, State.comparePeak]
    split <;> rfl
  exact (Appended.same hevaluated).trans ((Appended.clockShare _ k (some now)).trans (.same rfl))

theorem minuteAdvance (s : State) (order : List (Fin 4)) (now : CalTime) (b : Bool) :
    Appended s (s.minuteAdvance order now b) :=
  (Appended.scheduledClose s now).trans (.foldl (fun t k => .boundary t k now b) _ _)

theorem takeTime (s : State) (order : List (Fin 4)) (now : CalTime) : Appended s (s.takeTime order now) := by
  cases hc : s.time.calendar with
  | none =>
    rw [State.takeTime_unset hc, State.setTime_eq]
    exact .from_same (.scheduledClose _ now) rfl
  | some c =>
    by_cases hnext : now = c.next
    · rw [State.takeTime_next hc hnext]
      exact .from_same (.minuteAdvance _ order now false) rfl
    · by_cases hcur : now = c
      · subst hcur
        rw [State.takeTime_current hc]
        split <;> exact .same rfl
      · rw [State.takeTime_step hc hnext hcur, State.stepTo_eq, State.steppedTo_eq]
        exact .from_same (.scheduledClose _ now) rfl

theorem selfAdvance (s : State) (order : List (Fin 4)) (c : CalTime) : Appended s (s.selfAdvance order c) :=
  .from_same (.minuteAdvance ..) (LoopFrame.raiseHoldover (s.holdoverAt c.next) s.time.state).history

/-! ## Clocks and starts -/

/-- Of the settings of a clock, only its disable can append records: those of its share of a close (R58, R107). -/
theorem applyClock (s : State) (a : ClockArgs) : Appended s (s.applyClock a) := by
  have henable (u : State) (k : Fin 4) : Appended u (u.enableClock k) := by
    rw [State.enableClock_eq]; split <;> exact .same rfl
  have hdisable (u : State) (k : Fin 4) : Appended u (u.disableClock k) :=
    .from_same (t := u.cutClock k) (.clockShare ..) rfl
  unfold State.applyClock
  dsimp only
  split
  · split
    · exact .same rfl
    · exact .from_same (hdisable ..) rfl
  · split
    · exact .from_same (henable ..) rfl
    · exact .same rfl

theorem warmStart (s : State) : Appended s s.warmStart :=
  (Appended.from_same (t := s.warmBlocks) (.warmClose ..) rfl).trans (.same s.warmStart_meter.history)

theorem warmStartPart (s : State) (b : StartBreak) : Appended s (s.warmStartPart b) := by
  have hclosed : Appended s (s.partClosed b) := by
    unfold State.partClosed
    split
    · exact .from_same (t := s.partBlocks b) (.warmCloseFirst ..) rfl
    · exact .same rfl
  exact hclosed.trans (.same (LoopFrame.warmStartPart s b).history)

end Appended

/-- Every turn keeps the store in order: it appends records, or it clears the domain (R125, R127, R188). -/
theorem Turn.historyOrdered (h : Turn s t) (hs : s.history.Ordered) : t.history.Ordered := by
  cases h
  case still | reading | invalidMark | configure | reconfigure | remove | hold | release | load | activate | clearStatus
      | clearBits | decoder | pins | loss => exact hs
  case mark order c _ _ => exact hs.appended (.takeTime s order c)
  case advance order c _ _ _ => exact hs.appended (.selfAdvance s order c)
  case clock a _ _ _ _ => exact hs.appended (.applyClock s a)
  case close => exact hs.appended (.startClose s)
  case warm p _ => exact History.Ordered.appended (s := { s with supply := p }) hs (.warmStart _)
  case broken p b => exact History.Ordered.appended (s := { s with supply := p }) hs (.warmStartPart _ b)
  case cold => exact History.cold_ordered

end Sys2Proof.Machine

namespace Sys2Proof.Proofs

open Sys2Proof.Machine

/-- Settles O58: what a turn does to the store is a list of appends, each of which keeps the order
(`History.append_ordered`), or a cold start; the moves of the loop around a turn leave the store alone. -/
theorem stepKeepsHistoryOrdered : Obligations.StepKeepsHistoryOrdered := by
  intro s t hs hstep
  obtain ⟨pending, line, u, v, hbefore, hturn, hafter⟩ := step_moved hstep
  have hu : u.history.Ordered := by rw [hbefore.history]; exact hs
  rw [hafter.history]
  exact hturn.historyOrdered hu

end Sys2Proof.Proofs
end

section
/-! PROOF. READOUT and ABORT READOUT (R131, R139), the report (R138), and the supply warning's end of a readout
(R140, R184). -/

namespace Sys2Proof.Machine

open Sys2Proof.Statements

/-! ## READOUT -/

/-- The flags octet of a READOUT (R192). -/
theorem readoutFlags_bits : ∀ stop go : Bool, (oct ((if stop then 1 else 0) + (if go then 2 else 0))).toNat < 4 ∧
    (oct ((if stop then 1 else 0) + (if go then 2 else 0))).getLsbD 0 = stop ∧
    (oct ((if stop then 1 else 0) + (if go then 2 else 0))).getLsbD 1 = go := by decide

/-- The job a READOUT's octets name: its first period under way, nothing counted (R130, R131, R192). -/
theorem parseReadout_job (tag : Byte) (mask : BitVec 32) (first : BitVec 16) {n : Nat} (stop go : Bool) (hn : 1 ≤ n)
    (hn' : n ≤ 12) (hmask : mask ≠ 0) :
    parseReadout tag (beBytes 4 mask.toNat ++ beBytes 2 first.toNat ++
      [oct n, oct ((if stop then 1 else 0) + (if go then 2 else 0))]) = some
      { tag := tag, mask := mask, first := first, count := n, stopOnMissing := stop, continueOnOvertake := go,
        current := first, begun := 1, sent := 0, missingPeriods := 0, missingPoints := 0, overtaken := 0 } := by
  generalize hos : beBytes 4 mask.toNat ++ beBytes 2 first.toNat ++
    [oct n, oct ((if stop then 1 else 0) + (if go then 2 else 0))] = os
  have hmask' : field os 0 4 = mask.toNat := by rw [← hos]; exact beNat_beBytes (n := 4) mask.isLt
  have hfirst : field os 4 2 = first.toNat := by rw [← hos]; exact beNat_beBytes (n := 2) first.isLt
  have hcount : (octetAt os 6).toNat = n := by rw [← hos]; exact oct_toNat_of_lt (by omega)
  have hflags : octetAt os 7 = oct ((if stop then 1 else 0) + (if go then 2 else 0)) := by rw [← hos]; rfl
  obtain ⟨hrange, hstop, hgo⟩ := readoutFlags_bits stop go
  simp only [parseReadout, hmask', hfirst, hcount, hflags, hstop, hgo, BitVec.ofNat_toNat, BitVec.setWidth_eq]
  exact if_pos ⟨hn, hn', hmask, hrange⟩

theorem State.readoutRule_taken {u : State} {tag : Byte} {os : List Byte} {job : ReadoutJob}
    (hos : parseReadout tag os = some job) (h : u.readout.phase = .idle) :
    u.readoutRule tag os = Answer.taken { u with readout := { u.readout with phase := .search job } } [] := by
  simp only [State.readoutRule, hos, h]

/-! ## ABORT READOUT -/

section
variable {u : State} {job : ReadoutJob}

theorem State.abortReadout_idle (h : u.readout.phase = .idle) : u.abortReadout = u := by
  simp only [State.abortReadout, h]

theorem State.abortReadout_report {reason : EndReason} (h : u.readout.phase = .report job reason) :
    u.abortReadout = u := by
  simp only [State.abortReadout, h]

theorem State.abortReadout_running {run : Run} (h : u.readout.phase = .search job ∨ u.readout.phase = .emit job run) :
    u.abortReadout = u.endReadout job .aborted := by
  rcases h with h | h <;> simp only [State.abortReadout, h]

end

/-- ABORT READOUT answers the phase it leaves (R139). -/
theorem exec_abortReadout {s v : State} {r : Request} {o : Byte} (h : Ready s r) (ha : r.args = [])
    (hv : (hunting s).abortReadout = v) (ho : v.readout.phase.octet = o) :
    exec (.abortReadout r) s = .next (answered v r .abortReadout .ok [o]) :=
  request_taken (rule := fun u _ => Answer.taken u.abortReadout [u.abortReadout.readout.phase.octet]) h ha rfl
    (by simp only [hv, ho])

/-! ## READOUT END -/

section
variable {s : State} {job : ReadoutJob} {reason : EndReason}

theorem exec_readoutEnd_room (hs : Live s) (h : s.readout.phase = .report job reason)
    (hroom : s.port.queue.length < 8) : exec .readoutEnd s = .next (s.queueReadoutEnd job reason).outputChoice := by
  have hfree : s.replyRoom = true := decide_eq_true hroom
  simp only [exec, execReadoutEnd, live_iff.2 hs, h, hfree, if_true]

theorem exec_readoutEnd_full (hs : Live s) (h : s.readout.phase = .report job reason)
    (hfull : 8 ≤ s.port.queue.length) : exec .readoutEnd s = .next s := by
  have hfree : s.replyRoom = false := decide_eq_false (Nat.not_lt.2 hfull)
  simp only [exec, execReadoutEnd, live_iff.2 hs, h, hfree, if_true, Bool.false_eq_true, if_false]

end

/-! ## The supply warning -/

/-- An assertion of the warning ends a readout in SEARCH or EMIT (R140, R184). -/
theorem State.takeWarning_running {u : State} {job : ReadoutJob} {run : Run}
    (h : u.readout.phase = .search job ∨ u.readout.phase = .emit job run) :
    u.takeWarning = (u.raiseDevice .supplyWarn).endReadout job .supply := by
  rcases h with h | h <;> simp only [State.takeWarning, h]

theorem State.takeWarning_report {u : State} {job : ReadoutJob} {reason : EndReason}
    (h : u.readout.phase = .report job reason) : u.takeWarning = u.raiseDevice .supplyWarn := by
  simp only [State.takeWarning, h]

theorem exec_supwarn_high {s : State} (hv : s.supply.vdd = true) : exec (.supwarn true) s =
    .next (State.takeWarning { s with supply := { s.supply with supwarn := true } }) := by
  simp only [exec, execSupwarn, hv, and_self, if_true]

theorem exec_supwarn_low (s : State) : exec (.supwarn false) s =
    .next { s with supply := { s.supply with supwarn := false } } := by
  simp only [exec, execSupwarn, Bool.false_eq_true, false_and, if_false]

end Sys2Proof.Machine

namespace Sys2Proof.Proofs

open Sys2Proof.Machine Sys2Proof.Statements

/-- Settles O35: READOUT's octets give back its job (`parseReadout_job`); ABORT READOUT by the phase it meets. -/
theorem readoutTakenAndAborted : Obligations.ReadoutTakenAndAborted := by
  intro s r hready
  refine ⟨fun mask first n stop go hn hn' hmask ha hidle job hjob => ?_, fun ha => ⟨fun hidle => ?_,
    fun job reason hreport => ?_, fun job run hrunning => ?_⟩⟩
  · have hparse := parseReadout_job r.tag mask first stop go hn hn' hmask
    rw [← hjob] at hparse
    exact request_taken (rule := fun u os => u.readoutRule r.tag os) hready ha rfl
      (State.readoutRule_taken (u := hunting s) hparse hidle)
  · exact exec_abortReadout hready ha (State.abortReadout_idle hidle) (by rw [hidle]; rfl)
  · exact exec_abortReadout hready ha (State.abortReadout_report hreport) (by rw [hreport]; rfl)
  · exact exec_abortReadout hready ha (State.abortReadout_running (u := hunting s) hrunning) rfl

/-- Settles O38: with a free place the report's frame joins the queue, reason by reason; without one nothing happens. -/
theorem readoutEndQueuesReport : Obligations.ReadoutEndQueuesReport := by
  intro s job reason hlive hreport
  refine ⟨fun hroom code hcode => ?_, exec_readoutEnd_full hlive hreport⟩
  have hoctet : code = reason.octet := by rw [hcode]; cases reason <;> rfl
  rw [exec_readoutEnd_room hlive hreport hroom, hoctet]
  rfl

/-- Settles O42, by the phase the assertion meets. -/
theorem supplyWarningEndsReadout : Obligations.SupplyWarningEndsReadout := by
  intro s hvdd
  refine ⟨exec_supwarn_low s, fun job run hrunning => ?_, fun job reason hstays => ?_⟩
  · exact (exec_supwarn_high hvdd).trans (congrArg _ (State.takeWarning_running hrunning))
  · refine (exec_supwarn_high hvdd).trans (congrArg _ ?_)
    rcases hstays with hidle | hreport
    · exact State.takeWarning_idle _ hidle
    · exact State.takeWarning_report hreport

end Sys2Proof.Proofs
end

section
/-! PROOF. READOUT_SEARCH (R133): the run of a period is the newest stretch of its slots among the valid ones. -/

namespace Sys2Proof.Machine

open Sys2Proof.Statements

/-! ## The run of a period -/

theorem History.holdsPeriod_iff (h : History) (slot : Fin 384) (period : BitVec 16) :
    h.holdsPeriod slot period = true ↔ slotPeriod h slot = some period := by
  unfold History.holdsPeriod slotPeriod
  cases h.slots[slot] <;> simp

/-- The numbers below a sum, cut where its parts meet. -/
theorem range_add_map {α : Type} (f : Nat → α) (a n : Nat) :
    (List.range (a + n)).map f = (List.range a).map f ++ (List.range n).map (fun j => f (a + j)) := by
  rw [List.range_add, List.map_append, List.map_map]; rfl

/-- The first stretch of a list on which a test holds. -/
theorem takeWhile_dropWhile_stretch {α : Type} {p : α → Bool} {before stretch after : List α}
    (hbefore : ∀ x ∈ before, p x = false) (hfirst : stretch ≠ []) (hstretch : ∀ x ∈ stretch, p x = true)
    (hafter : ∀ x ∈ after.head?, p x = false) :
    ((before ++ (stretch ++ after)).dropWhile (fun x => !p x)).takeWhile p = stretch := by
  have hdrop : (before ++ (stretch ++ after)).dropWhile (fun x => !p x) = stretch ++ after := by
    rw [List.dropWhile_append_of_pos fun x hx => by rw [hbefore x hx]; rfl]
    obtain ⟨x, xs, rfl⟩ := List.exists_cons_of_ne_nil hfirst
    rw [List.cons_append, List.dropWhile_cons_of_neg (by rw [hstretch x (by simp)]; simp)]
  have htake : after.takeWhile p = [] := by
    cases after with
    | nil => rfl
    | cons x xs => exact List.takeWhile_cons_of_neg (by rw [hafter x rfl]; simp)
  rw [hdrop, List.takeWhile_append_of_pos hstretch, htake, List.append_nil]

section
variable {h : History} {period : BitVec 16}

theorem History.runOf_missing (hmissing : ∀ j < h.valid, slotPeriod h (h.slotBack j) ≠ some period) :
    h.runOf period = [] := by
  have hdrop : h.validSlots.dropWhile (fun slot => !h.holdsPeriod slot period) = [] := by
    rw [List.dropWhile_eq_nil_iff]
    intro slot hslot
    obtain ⟨j, hj, rfl⟩ := List.mem_map.1 hslot
    rw [Bool.not_eq_true', Bool.eq_false_iff, Ne, History.holdsPeriod_iff]
    exact hmissing j (List.mem_range.1 hj)
  rw [History.runOf, hdrop, List.takeWhile_nil]

/-- The run is the stretch of n slots from the a-th newest on: newer ones hold other periods, and so does the one that
would follow (R133). -/
theorem History.runOf_stretch {a n : Nat} (hn : 0 < n) (hvalid : a + n ≤ h.valid)
    (hnewer : ∀ j < a, slotPeriod h (h.slotBack j) ≠ some period)
    (hrun : ∀ j, a ≤ j → j < a + n → slotPeriod h (h.slotBack j) = some period)
    (hend : a + n = h.valid ∨ slotPeriod h (h.slotBack (a + n)) ≠ some period) :
    h.runOf period = (List.range n).map (fun j => h.slotBack (a + j)) := by
  obtain ⟨m, hm⟩ := Nat.exists_eq_add_of_le hvalid
  have hother (j : Nat) (hj : slotPeriod h (h.slotBack j) ≠ some period) :
      h.holdsPeriod (h.slotBack j) period = false := by
    rw [Bool.eq_false_iff, Ne, History.holdsPeriod_iff]; exact hj
  rw [History.runOf, History.validSlots, hm, Nat.add_assoc, range_add_map, range_add_map]
  refine takeWhile_dropWhile_stretch (fun slot hslot => ?_) (by simpa using hn.ne') (fun slot hslot => ?_)
    (fun slot hslot => ?_)
  · obtain ⟨j, hj, rfl⟩ := List.mem_map.1 hslot
    exact hother j (hnewer j (List.mem_range.1 hj))
  · obtain ⟨j, hj, rfl⟩ := List.mem_map.1 hslot
    have hj := List.mem_range.1 hj
    exact (h.holdsPeriod_iff _ _).2 (hrun (a + j) (by omega) (by omega))
  · cases m with
    | zero => nomatch hslot
    | succ m =>
      rw [List.range_succ_eq_map] at hslot
      cases hslot
      exact hother _ (hend.resolve_left (by omega))

end

/-! ## The search -/

section
variable {s : State} {job : ReadoutJob}

theorem exec_readoutSearch (hs : Live s) (h : s.readout.phase = .search job) :
    exec .readoutSearch s = .next (s.searchStep job) := by
  simp only [exec, execReadoutSearch, live_iff.2 hs, h, if_true]

/-- A period without a run is missing (R133). -/
theorem State.searchStep_missing (h : s.history.runOf job.current = []) : s.searchStep job =
    if job.stopOnMissing then s.endReadout { job with missingPeriods := job.missingPeriods + 1 } .notFound
    else s.readoutMoveOn { job with missingPeriods := job.missingPeriods + 1 } := by
  simp only [State.searchStep, h, List.getLast?_nil]

/-- A period with a run is emitted from the run's oldest slot on (R133). -/
theorem State.searchStep_found {slot : Fin 384} (h : (s.history.runOf job.current).getLast? = some slot) :
    s.searchStep job = s.enterEmit job
      { firstSlot := slot, firstSeq := s.history.sequenceAt slot, length := (s.history.runOf job.current).length,
        offset := 0, found := 0, waiting := false } := by
  simp only [State.searchStep, h]

theorem History.sequenceAt_of_period {h : History} {slot : Fin 384} {period : BitVec 16}
    (hp : slotPeriod h slot = some period) : h.slots[slot].map (·.sequence) = some (h.sequenceAt slot) := by
  obtain ⟨r, hr, -⟩ := Option.map_eq_some_iff.1 hp
  rw [History.sequenceAt, hr, Option.map_some]

end

end Sys2Proof.Machine

namespace Sys2Proof.Proofs

open Sys2Proof.Machine Sys2Proof.Statements

/-- Settles O36, by the run of the period among the valid slots: none (`History.runOf_missing`), or the newest stretch
(`History.runOf_stretch`). -/
theorem readoutSearchFindsNewestRun : Obligations.ReadoutSearchFindsNewestRun := by
  intro s job hlive hsearch
  rw [exec_readoutSearch hlive hsearch]
  refine ⟨fun hmissing => congrArg _ ?_, fun a n hn hvalid hnewer hrun hend => ?_, fun j hj => ?_⟩
  · rw [State.searchStep_missing (History.runOf_missing hmissing)]
    by_cases hstop : job.stopOnMissing = true
    · rw [if_pos hstop, if_pos (.inl hstop), if_pos hstop]; rfl
    · rw [if_neg hstop, State.readoutMoveOn]
      by_cases hlast : job.count ≤ job.begun
      · rw [if_neg (Nat.not_lt.2 hlast), if_pos (.inr hlast), if_neg hstop]; rfl
      · rw [if_pos (Nat.not_le.1 hlast), if_neg (not_or.2 ⟨hstop, hlast⟩)]
  · have hstretch := History.runOf_stretch hn hvalid hnewer hrun hend
    have hlast : (s.history.runOf job.current).getLast? = some (s.history.slotBack (a + n - 1)) := by
      rw [hstretch, List.getLast?_map, List.getLast?_range, if_neg hn.ne', Option.map_some, Nat.add_sub_assoc hn]
    rw [State.searchStep_found hlast]
    refine ⟨_, rfl, rfl, ?_, rfl, rfl, History.sequenceAt_of_period (hrun _ (by omega) (by omega))⟩
    rw [hstretch, List.length_map, List.length_range]
  · rw [History.slotBack_val _ _ hj]; omega

end Sys2Proof.Proofs
end

section
/-! PROOF. READOUT_EMIT (R134 to R137): the check at the run's offset, what the step does with each of its outcomes, the
valid slots (R125) and the octets of a RECORD (R194). -/

namespace Sys2Proof.Machine

open Sys2Proof.Statements

/-! ## The valid slots -/

/-- A slot's age is the number of slots newer than it. -/
theorem History.ageOf_slotBack (h : History) (j : Nat) : h.ageOf (h.slotBack j) = j % 384 := by
  rw [History.ageOf, History.slotBack, sub_sub_cancel, Fin.val_ofNat]

theorem History.slotBack_ageOf (h : History) (slot : Fin 384) : h.slotBack (h.ageOf slot) = slot := by
  rw [History.slotBack, History.ageOf, Fin.ofNat_val_eq_self, sub_sub_cancel]

theorem History.isValid_iff (h : History) (slot : Fin 384) :
    h.isValid slot = true ↔ ∃ j, j < h.valid ∧ slot = h.slotBack j := by
  rw [History.isValid, decide_eq_true_eq]
  constructor
  · exact fun hage => ⟨h.ageOf slot, hage, (h.slotBack_ageOf slot).symm⟩
  · rintro ⟨j, hj, rfl⟩
    rw [History.ageOf_slotBack]
    exact (Nat.mod_le j 384).trans_lt hj

/-! ## The check at the run's offset (R134) -/

/-- The slot a run's offset names. -/
abbrev Run.slot (run : Run) : Fin 384 := run.firstSlot + Fin.ofNat 384 run.offset

/-- The sequence expected there. -/
abbrev Run.sequence (run : Run) : BitVec 32 := run.firstSeq + BitVec.ofNat 32 run.offset

section
variable {s : State} {job : ReadoutJob} {run : Run} {r : BillingRecord}

theorem State.emitCheck_counter (h : s.history.sequence = run.sequence) : s.emitCheck job run = .endOfRun := if_pos h

theorem State.emitCheck_empty (h : s.history.sequence ≠ run.sequence) (hslot : s.history.slots[run.slot] = none) :
    s.emitCheck job run = .overtaken := by
  simp only [State.emitCheck, if_neg h, hslot]

theorem State.emitCheck_slot (h : s.history.sequence ≠ run.sequence) (hslot : s.history.slots[run.slot] = some r) :
    s.emitCheck job run = if s.history.isValid run.slot = true ∧ r.sequence = run.sequence then
      (if r.period = job.current then .record r else .endOfRun) else .overtaken := by
  simp only [State.emitCheck, if_neg h, hslot]

theorem State.emitCheck_record : s.emitCheck job run = .record r ↔ RecordAt s job run r := by
  by_cases hend : s.history.sequence = run.sequence
  · rw [State.emitCheck_counter hend]
    exact ⟨(nomatch ·), fun h => absurd hend h.1⟩
  · cases hslot : s.history.slots[run.slot] with
    | none =>
      rw [State.emitCheck_empty hend hslot]
      exact ⟨(nomatch ·), fun ⟨_, _, hsome, _⟩ => nomatch hslot.symm.trans hsome⟩
    | some x =>
      rw [State.emitCheck_slot hend hslot]
      constructor
      · intro h
        split at h
        next hfound =>
          split at h
          next hperiod =>
            cases h
            exact ⟨hend, hfound.1, hslot, hfound.2, hperiod⟩
          next => nomatch h
        next => nomatch h
      · rintro ⟨-, hvalid, hsome, hsequence, hperiod⟩
        cases hslot.symm.trans hsome
        rw [if_pos ⟨hvalid, hsequence⟩, if_pos hperiod]

theorem State.emitCheck_overtaken (hseq : s.history.sequence ≠ run.sequence)
    (hgone : s.history.isValid run.slot = false ∨ ∀ r ∈ s.history.slots[run.slot], r.sequence ≠ run.sequence) :
    s.emitCheck job run = .overtaken := by
  cases hslot : s.history.slots[run.slot] with
  | none => exact State.emitCheck_empty hseq hslot
  | some r =>
    rw [State.emitCheck_slot hseq hslot, if_neg]
    rintro ⟨hvalid, hsequence⟩
    rcases hgone with hinvalid | hother
    · exact absurd (hinvalid.symm.trans hvalid) Bool.false_ne_true
    · exact hother r hslot hsequence

theorem State.emitCheck_endOfRun (h : s.history.sequence = run.sequence ∨
    ∃ r ∈ s.history.slots[run.slot], s.history.isValid run.slot = true ∧ r.sequence = run.sequence ∧
      r.period ≠ job.current) : s.emitCheck job run = .endOfRun := by
  by_cases hend : s.history.sequence = run.sequence
  · exact State.emitCheck_counter hend
  · obtain ⟨r, hslot, hvalid, hsequence, hperiod⟩ := h.resolve_left hend
    rw [State.emitCheck_slot hend hslot, if_pos ⟨hvalid, hsequence⟩, if_neg hperiod]

end

/-! ## The step -/

theorem State.recordRoom_iff {s : State} : s.recordRoom = true ↔ s.port.queue.length ≤ 5 := by
  rw [State.recordRoom, decide_eq_true_eq, Config.recordRoom, Config.queuePlaces]; omega

theorem State.recordRoom_eq_false {s : State} : s.recordRoom = false ↔ 6 ≤ s.port.queue.length := by
  rw [Bool.eq_false_iff, Ne, State.recordRoom_iff, Nat.not_le]; rfl

section
variable {s : State} {job : ReadoutJob} {run : Run} {r : BillingRecord}

theorem State.stepBlocked_iff : s.stepBlocked job run = true ↔
    6 ≤ s.port.queue.length ∧ ∃ r, RecordAt s job run r ∧ job.mask.getLsbD r.point.val = true := by
  simp only [← State.emitCheck_record]
  unfold State.stepBlocked
  cases s.emitCheck job run with
  | endOfRun | overtaken => simp
  | record x => simp [hasFlag, State.recordRoom_eq_false, and_comm]

/-- EMIT entered at an offset waits exactly if its next step has a record to queue and no room for it (R132, R135). -/
theorem State.enterEmit_inEmit (s : State) (job : ReadoutJob) (run : Run) : InEmit s (s.enterEmit job run) job run :=
  ⟨_, rfl, State.stepBlocked_iff⟩

section
variable (h : RecordAt s job run r)
include h

/-- A record of a mask point is queued where it has room (R135). -/
theorem State.emitStep_queued (hmask : job.mask.getLsbD r.point.val = true) (hroom : s.port.queue.length ≤ 5) :
    s.emitStep job run =
      (s.enqueue { frame := s.recordFrame job.tag r, restartReply := false }).enterEmit { job with sent := job.sent + 1 }
        { run with offset := run.offset + 1, found := addFlag run.found r.point.val } := by
  simp only [State.emitStep, State.emitCheck_record.2 h, hasFlag, hmask, State.recordRoom_iff.2 hroom, if_true]

/-- Without room it waits (R135; log 19). -/
theorem State.emitStep_waits (hmask : job.mask.getLsbD r.point.val = true) (hroom : 6 ≤ s.port.queue.length) :
    s.emitStep job run =
      { s with readout := { s.readout with phase := .emit job { run with waiting := true } } } := by
  have hblocked : s.stepBlocked job run = true := State.stepBlocked_iff.2 ⟨hroom, r, h, hmask⟩
  simp only [State.emitStep, State.emitCheck_record.2 h, hasFlag, hmask, State.recordRoom_eq_false.2 hroom, if_true,
    Bool.false_eq_true, if_false, State.enterEmit, hblocked]

/-- A record of a point out of the mask is passed over (R135). -/
theorem State.emitStep_passed (hmask : job.mask.getLsbD r.point.val = false) :
    s.emitStep job run = s.enterEmit job { run with offset := run.offset + 1 } := by
  simp only [State.emitStep, State.emitCheck_record.2 h, hasFlag, hmask, Bool.false_eq_true, if_false]

end

theorem State.recordOvertaken_eq (s : State) (job : ReadoutJob) : s.recordOvertaken job =
    if job.continueOnOvertake then movedOn s { job with overtaken := job.overtaken + 1 }
    else ended s { job with overtaken := job.overtaken + 1 } .overtaken := rfl

theorem State.endOfRun_eq (s : State) (job : ReadoutJob) (run : Run) {n : Nat}
    (hn : n = ((List.finRange 32).filter (fun i => job.mask.getLsbD i.val && !run.found.getLsbD i.val)).length) :
    s.endOfRun job run =
      if 0 < n ∧ job.stopOnMissing = true then ended s { job with missingPoints := job.missingPoints + n } .notFound
      else movedOn s { job with missingPoints := job.missingPoints + n } := by
  subst hn; rfl

/-- The step at the run's offset, outcome by outcome (R134 to R137). -/
theorem State.emitStep_taken (s : State) (job : ReadoutJob) (run : Run) : EmitTaken s (s.emitStep job run) job run := by
  refine ⟨fun r hr => ⟨fun hmask hroom => ?_, State.emitStep_waits hr, fun hmask => ?_⟩, fun hseq hgone => ?_,
    fun hover n hn => ?_⟩
  · rw [State.emitStep_queued hr hmask hroom]
    exact State.enterEmit_inEmit ..
  · rw [State.emitStep_passed hr hmask]
    exact State.enterEmit_inEmit ..
  · rw [State.emitStep, State.emitCheck_overtaken hseq hgone]
    exact s.recordOvertaken_eq job
  · rw [State.emitStep, State.emitCheck_endOfRun hover]
    exact s.endOfRun_eq job run hn

theorem exec_readoutEmit_waits (hs : Live s) (h : s.readout.phase = .emit job run) (hwaiting : run.waiting = true)
    (hroom : 6 ≤ s.port.queue.length) : exec .readoutEmit s = .next s := by
  simp only [exec, execReadoutEmit, live_iff.2 hs, h, hwaiting, State.recordRoom_eq_false.2 hroom, Bool.not_false,
    Bool.and_self, if_true]

theorem exec_readoutEmit_taken (hs : Live s) (h : s.readout.phase = .emit job run)
    (hfree : run.waiting = false ∨ s.port.queue.length ≤ 5) :
    exec .readoutEmit s = .next (s.emitStep job run).outputChoice := by
  have hgo : (run.waiting && !s.recordRoom) = false := by
    rcases hfree with hw | hroom
    · rw [hw, Bool.false_and]
    · rw [State.recordRoom_iff.2 hroom, Bool.not_true, Bool.and_false]
  simp only [exec, execReadoutEmit, live_iff.2 hs, h, hgo, if_true, Bool.false_eq_true, if_false]

end

/-! ## The octets of a RECORD (R194) -/

theorem maxima_toList (m : Vector Maximum 4) : m.toList = [m[0], m[1], m[2], m[3]] :=
  List.ext_getElem (by simp) fun n hn _ => by
    have hn : n < 4 := by simpa using hn
    rw [Vector.getElem_toList]
    interval_cases n <;> rfl

/-- A RECORD payload is its fields one after the other. -/
theorem recordFields_octets (tag : Byte) (r : BillingRecord) :
    tag :: r.octets = (recordFields tag r).flatMap fieldOctets := by
  unfold BillingRecord.octets
  simp only [recordFields, List.flatMap_append, energyFields_octets, maximumFields_octets,
    lineFields_octets, counterFields_octets, maxima_toList, List.map_cons, List.map_nil, List.flatten_cons,
    List.flatten_nil, List.flatMap_cons, List.flatMap_nil, fieldOctets, beBytes_one, oct_toNat, stampOctets_code,
    noneOctet_code, List.append_assoc, List.cons_append, List.nil_append, List.append_nil]

theorem recordFields_inRow (tag : Byte) (r : BillingRecord) : InRow 0 (recordFields tag r) := by
  simp [recordFields, energyFields, maximumFields, lineFields, counterFields, InRow]

theorem recordFields_width (tag : Byte) (r : BillingRecord) : ((recordFields tag r).map (·.2.1)).sum = 228 := by
  simp [recordFields, energyFields, maximumFields, lineFields, counterFields]

theorem State.stationOctet_eq (s : State) : (∀ n : Fin 8, s.decoder.station = some n → s.stationOctet = oct n.val) ∧
    (s.decoder.station = none → s.stationOctet = 0xFF) :=
  ⟨fun n h => by rw [State.stationOctet, h], fun h => by rw [State.stationOctet, h]; rfl⟩

end Sys2Proof.Machine

namespace Sys2Proof.Proofs

open Sys2Proof.Machine Sys2Proof.Statements

/-- Settles O37: the step by its check's outcome (`State.emitStep_taken`); the slots by their ages; the layout field by
field, one after the other. -/
theorem readoutEmitTakesItsStep : Obligations.ReadoutEmitTakesItsStep := by
  refine ⟨fun s job run hlive hemit => ⟨fun hwaiting hroom => ?_, fun hfree => ?_⟩, History.isValid_iff,
    State.stationOctet_eq, fun tag r => ⟨?_, ?_⟩⟩
  · exact exec_readoutEmit_waits hlive hemit hwaiting hroom
  · exact ⟨_, s.emitStep_taken job run, exec_readoutEmit_taken hlive hemit hfree⟩
  · rw [length_of_row (recordFields_octets tag r), recordFields_width]
  · exact holds_of_row (recordFields_inRow tag r) (recordFields_octets tag r)

end Sys2Proof.Proofs
end

section
/-! PROOF. The commissioning lock: no turn of the part changes a setting under it, and only the cold start and the loss
of the backup domain end it (R156, R182, R188). -/

namespace Sys2Proof.Machine

section
variable {s t : State}

/-- The settings the commissioning lock holds are the same: the tariff store, each clock's enable, L, W and H, and the
points' configuration records (R156). -/
structure SettingsFrozen (s t : State) : Prop where
  tariff  : t.tariff = s.tariff
  clocks  : ∀ k : Fin 4, t.clocks[k].enabled = s.clocks[k].enabled ∧ t.clocks[k].length = s.clocks[k].length ∧
    t.clocks[k].window = s.clocks[k].window ∧ t.clocks[k].holdLength = s.clocks[k].holdLength
  records : ∀ i : Fin 32, t.points[i].map (·.config) = s.points[i].map (·.config)

/-- The part was unsupplied, and lock and settings are at their cold-start values (R182, R188; log 10). -/
structure SettingsCleared (s t : State) : Prop where
  absent : s.supply.vdd = false
  lock   : t.decoder.commissioning = false
  tariff : t.tariff = TariffStore.cold
  clocks : ∀ k : Fin 4, t.clocks[k] = Clock.cold
  points : ∀ i : Fin 32, t.points[i] = none

/-! ## What freezes and what clears -/

theorem SettingsFrozen.same (htariff : t.tariff = s.tariff) (hclocks : t.clocks = s.clocks)
    (hpoints : t.points = s.points) : SettingsFrozen s t :=
  ⟨htariff, fun k => by simp only [hclocks, and_self], fun i => by rw [hpoints]⟩

theorem SettingsFrozen.trans {u : State} (h : SettingsFrozen s t) (g : SettingsFrozen t u) : SettingsFrozen s u := by
  refine ⟨g.tariff.trans h.tariff, fun k => ?_, fun i => (g.records i).trans (h.records i)⟩
  obtain ⟨he, hl, hw, hh⟩ := h.clocks k
  obtain ⟨ge, gl, gw, gh⟩ := g.clocks k
  exact ⟨ge.trans he, gl.trans hl, gw.trans hw, gh.trans hh⟩

theorem LinkFrame.frozen (h : LinkFrame s t) : SettingsFrozen s t := .same h.tariff h.clocks h.points

/-- What the metering keeps is frozen while no activation is marked. -/
theorem SettingsKept.frozen (h : SettingsKept s t) (hmark : s.tariff.atClose = false) : SettingsFrozen s t := by
  refine ⟨h.tariff hmark, fun k => ?_, h.records⟩
  obtain ⟨he, hl, hw, hh, -⟩ := h.clocks k
  exact ⟨he, hl, hw, hh⟩

/-- A warm start loads the hold counters and no other item of a clock (R76). -/
theorem SettingsFrozen.warmStart (s : State) (hmark : s.tariff.atClose = false) : SettingsFrozen s s.warmStart := by
  obtain ⟨htariff, hrecords, hclocks, -⟩ := s.warmStart_settings
  refine ⟨htariff hmark, fun k => ?_, hrecords⟩
  obtain ⟨he, hl, hw, hh, -⟩ := hclocks k
  exact ⟨he, hl, hw, hh⟩

theorem SettingsFrozen.warmStartPart (s : State) (b : StartBreak) (hmark : s.tariff.atClose = false) :
    SettingsFrozen s (s.warmStartPart b) := by
  obtain ⟨htariff, hrecords, hclocks, -⟩ := s.warmStartPart_settings b
  refine ⟨htariff hmark, fun k => ?_, hrecords⟩
  obtain ⟨he, hl, hw, hh, -⟩ := hclocks k
  rw [he, hl, hw, hh]
  split <;> exact ⟨rfl, rfl, rfl, rfl⟩

theorem SettingsKept.clearPoints (s : State) (set : BitVec 32) : SettingsKept s (s.clearPoints set) := by
  refine ⟨fun _ => .refl _, fun _ => rfl, fun i => ?_⟩
  have e : (s.clearPoints set).points[i] =
      if hasFlag set i.val then s.points[i].map (fun p => { p with attention := false }) else s.points[i] := by
    simp [State.clearPoints]
  rw [e]
  split
  · rw [Option.map_map]; rfl
  · rfl

theorem Point.hold_config (p : Point) : p.hold.config = p.config := by
  unfold Point.hold
  split <;> rfl

theorem SettingsCleared.coldDomain (s : State) (v r : Bool) (habsent : s.supply.vdd = false) :
    SettingsCleared s (s.coldDomain v r) :=
  ⟨habsent, rfl, rfl, fun k => by simp [State.coldDomain, State.reset], fun i => by simp [State.coldDomain, State.reset]⟩

/-- The backup domain holds the lock (R182). -/
theorem State.loseSupply_lock (s : State) : s.loseSupply.decoder.commissioning = s.decoder.commissioning := rfl

theorem SettingsFrozen.loseSupply (s : State) : SettingsFrozen s s.loseSupply := .same rfl rfl rfl

theorem SettingsFrozen.withSupply (s : State) (p : Supply) : SettingsFrozen s { s with supply := p } :=
  .same rfl rfl rfl

/-! ## Turns -/

/-- A turn leaves the lock, or sets it with the mark CLEAR, or clears every setting with it. -/
theorem Turn.commissioning (h : Turn s t) : t.decoder.commissioning = s.decoder.commissioning ∨
    (t.decoder.commissioning = true ∧ t.tariff = s.tariff ∧ s.tariff.atClose = false) ∨ SettingsCleared s t := by
  cases h
  case still | reading | invalidMark | configure | reconfigure | remove | hold | release | load | activate | clearStatus
      | clearBits | pins | loss => exact .inl rfl
  case mark order c _ _ =>
    have hframe := TimedFrame.takeTime s order c
    rw [TimedFrame] at hframe
    exact .inl (by rw [hframe])
  case advance order c _ _ _ =>
    have hframe := TimedFrame.selfAdvance s order c
    rw [TimedFrame] at hframe
    exact .inl (by rw [hframe])
  case clock a _ _ _ _ => exact .inl (by rw [(MeterFrame.applyClock s a).decoder])
  case close => exact .inl (by rw [(MeterFrame.startClose s).decoder])
  case decoder d hd =>
    rcases hd with hkept | ⟨hset, hmark⟩
    · exact .inl hkept
    · exact .inr (.inl ⟨hset, rfl, hmark⟩)
  case warm p _ => exact .inl (State.warmStart_locks { s with supply := p }).1
  case broken p b =>
    have hdecoder : (State.warmStartPart { s with supply := p } b).decoder = s.decoder :=
      (LoopFrame.warmStartPart { s with supply := p } b).decoder.trans
        (MeterFrame.partClosed { s with supply := p } b).decoder
    exact .inl (by rw [State.loseSupply_lock, hdecoder])
  case cold v r habsent => exact .inr (.inr (.coldDomain s v r habsent))

/-- The commissioning lock refuses as either lock does (R158). -/
theorem State.anyLock_commissioning (h : s.decoder.commissioning = true) : s.anyLock = true := by
  rw [State.anyLock, h, Bool.or_true]

/-- Under the lock, with the mark CLEAR, a turn leaves every setting or clears them all: the requests that write one are
refused, and a close that completes activates nothing (R152, R158). -/
theorem Turn.frozen (h : Turn s t) (hlock : s.decoder.commissioning = true) (hmark : s.tariff.atClose = false) :
    SettingsFrozen s t ∨ SettingsCleared s t := by
  have refused : s.anyLock ≠ false := by rw [State.anyLock_commissioning hlock]; decide
  cases h
  case configure hfree _ _ => exact absurd hfree refused
  case reconfigure hfree _ _ _ => exact absurd hfree refused
  case remove hfree _ _ => exact absurd hfree refused
  case clock hfree _ _ => exact absurd hfree refused
  case load hfree _ => exact absurd hfree refused
  case activate hfree _ => exact absurd hfree refused
  case still | invalidMark | decoder | pins | loss => exact .inl (.same rfl rfl rfl)
  case reading i p d hp => exact .inl ((SettingsKept.setPoint s i p _ hp (p.takeReading_config d)).frozen hmark)
  case hold i p hp => exact .inl ((SettingsKept.setPoint s i p _ hp p.hold_config).frozen hmark)
  case release i p hp => exact .inl ((SettingsKept.setPoint s i p p.release hp rfl).frozen hmark)
  case clearStatus i p hp =>
    exact .inl ((SettingsKept.setPoint s i p { p with status := 0 } hp rfl).frozen hmark)
  case clearBits set => exact .inl ((SettingsKept.clearPoints s set).frozen hmark)
  case mark order c _ _ => exact .inl ((SettingsKept.takeTime s order c).frozen hmark)
  case advance order c _ _ _ => exact .inl ((SettingsKept.selfAdvance s order c).frozen hmark)
  case close => exact .inl ((SettingsKept.startClose s).frozen hmark)
  case warm p _ => exact .inl ((SettingsFrozen.withSupply s p).trans (.warmStart _ hmark))
  case broken p b =>
    exact .inl (((SettingsFrozen.withSupply s p).trans (.warmStartPart _ b hmark)).trans (.loseSupply _))
  case cold v r habsent => exact .inr (.coldDomain s v r habsent)

/-- Under the lock a turn leaves lock and settings, or clears them all. -/
theorem Turn.underLock (h : Turn s t) (hs : s.LockExcludesMark) (hlock : s.decoder.commissioning = true) :
    (t.decoder.commissioning = true ∧ SettingsFrozen s t) ∨ SettingsCleared s t := by
  rcases h.frozen hlock (hs hlock) with hfrozen | hcleared
  · rcases h.commissioning with hkept | ⟨hset, -⟩ | hcleared
    · exact .inl ⟨hkept.trans hlock, hfrozen⟩
    · exact .inl ⟨hset, hfrozen⟩
    · exact .inr hcleared
  · exact .inr hcleared

/-- No turn marks an activation under the lock, or sets the lock with an activation marked (R156, R158). -/
theorem Turn.lockExcludesMark (h : Turn s t) (hs : s.LockExcludesMark) : t.LockExcludesMark := by
  intro hlock
  rcases h.commissioning with hkept | ⟨-, htariff, hmark⟩ | hcleared
  · have hlocked : s.decoder.commissioning = true := hkept.symm.trans hlock
    rcases h.frozen hlocked (hs hlocked) with hfrozen | hcleared
    · rw [hfrozen.tariff]; exact hs hlocked
    · rw [hcleared.tariff]; rfl
  · rw [htariff]; exact hmark
  · rw [hcleared.tariff]; rfl

/-! ## Steps -/

/-- A step is at most one turn between two moves of the loop, which touch neither lock nor settings. -/
theorem step_underLock (h : step s = .next t) (hs : s.LockExcludesMark) : t.LockExcludesMark ∧
    (s.decoder.commissioning = true →
      (t.decoder.commissioning = true ∧ SettingsFrozen s t) ∨ SettingsCleared s t) := by
  obtain ⟨pending, line, u, v, hbefore, hturn, hafter⟩ := step_moved h
  have hu : u.LockExcludesMark := by
    unfold State.LockExcludesMark
    rw [hbefore.decoder, hbefore.tariff]
    exact hs
  constructor
  · have hv := hturn.lockExcludesMark hu
    unfold State.LockExcludesMark
    rw [hafter.decoder, hafter.tariff]
    exact hv
  · intro hlock
    have hlocked : u.decoder.commissioning = true := by rw [hbefore.decoder]; exact hlock
    have hbegun : SettingsFrozen s u :=
      .same (by rw [hbefore.tariff]) (by rw [hbefore.clocks]) (by rw [hbefore.points])
    rcases hturn.underLock hu hlocked with ⟨hv, hfrozen⟩ | hcleared
    · exact .inl ⟨by rw [hafter.decoder]; exact hv, (hbegun.trans hfrozen).trans hafter.frozen⟩
    · obtain ⟨habsent, hlost, htariff, hclocks, hpoints⟩ := hcleared
      refine .inr ⟨?_, ?_, ?_, ?_, ?_⟩
      · rw [hbefore.supply] at habsent; exact habsent
      · rw [hafter.decoder]; exact hlost
      · rw [hafter.tariff]; exact htariff
      · rw [hafter.clocks]; exact hclocks
      · rw [hafter.points]; exact hpoints

end

end Sys2Proof.Machine

namespace Sys2Proof.Proofs

open Sys2Proof.Machine

/-- Settles O59: under the lock every turn leaves lock and settings or is the loss of the backup domain
(`Turn.frozen`), and with an activation marked no turn sets the lock (`Turn.commissioning`). -/
theorem commissioningLockFreezesSettings : Obligations.CommissioningLockFreezesSettings := by
  intro s t hs hstep
  obtain ⟨hmark, hunder⟩ := step_underLock hstep hs
  refine ⟨hmark, fun hlock => ?_⟩
  rcases hunder hlock with ⟨hkept, htariff, hclocks, hrecords⟩ | ⟨habsent, hlost, htariff, hclocks, hpoints⟩
  · exact .inl ⟨hkept, htariff, hclocks, hrecords⟩
  · exact .inr ⟨habsent, hlost, htariff, hclocks, hpoints⟩

end Sys2Proof.Proofs
end

section
/-! PROOF. The tables of a tariff set: what LOAD TABLE puts into a set and what READ TABLE gets out of it, in the octets
of R192 (R144, R146 to R149). -/

namespace Sys2Proof.Machine

open Sys2Proof.Statements

/-! ## Tables in a set -/

theorem rates_octets (v : Vector Nat 4) : (v.toList.map (beBytes 4)).flatten =
    beBytes 4 v[0] ++ beBytes 4 v[1] ++ beBytes 4 v[2] ++ beBytes 4 v[3] := by
  obtain ⟨⟨l⟩, hl⟩ := v
  match l, hl with
  | [_, _, _, _], _ => rfl

/-- A table's octets are those of R192. -/
theorem Table.octets_eq (t : Table) : t.octets = tableOctets t := by
  cases t with
  | seasons l => rw [Table.octets, tableOctets, List.flatMap_def]
  | weekdays v => exact weekdays_octets v
  | holidays l =>
    rw [Table.octets, tableOctets, List.flatMap_def]
    refine congrArg (fun f : Holiday → List Byte => oct l.length :: (l.map f).flatten) (funext fun h => ?_)
    cases h.year <;> rfl
  | profileMap v => exact profileMap_octets v
  | profile i l => rw [Table.octets, tableOctets, List.flatMap_def]
  | closeInstant c => cases c <;> rfl
  | schedule i x => rw [Table.octets, tableOctets, rates_octets]
  | option i o => cases h : o.leading <;> cases h' : o.subinterval <;> simp [Table.octets, tableOctets, h, h', bit]

theorem TariffSet.put_eq (set : TariffSet) (t : Table) : set.put t = withTable set t := by cases t <;> rfl

theorem TariffSet.hasTable_put (set : TariffSet) (t : Table) : HasTable (set.put t) t := by
  cases t with
  | profile i _ | schedule i _ | option i _ => exact Vector.getElem_set_self i.isLt
  | _ => rfl

theorem TariffSet.hasTable_get (set : TariffSet) (kind : Selector) (n : Nat) : HasTable set (set.get kind n) := by
  cases kind <;> rfl

/-- A table a set holds is the one its place names. -/
theorem TariffSet.get_of_hasTable {set : TariffSet} {t : Table} (h : HasTable set t) :
    set.get t.selector (tablePlace t).2 = t := by
  cases t with
  | profile i _ | schedule i _ | option i _ =>
    cases h
    simp [TariffSet.get, Table.selector, tablePlace]
  | _ => cases h; rfl

/-- The table a selector and an index name stands at that place (R144). -/
theorem TariffSet.place_get (set : TariffSet) {kind : Selector} {n : Nat} (hn : n < kind.indexes) :
    tablePlace (set.get kind n) = (kind.number, n) := by
  cases kind with
  | profile | schedule | option => exact congrArg (Prod.mk _) (Nat.mod_eq_of_lt hn)
  | _ => exact congrArg (Prod.mk _) (Nat.lt_one_iff.1 hn).symm

theorem Selector.form_indexes (kind : Selector) : kind.form.1 = kind.indexes := by cases kind <;> rfl

theorem tableForm_selector {sel : Byte} {kind : Selector} (h : Selector.ofOctet sel = some kind) :
    tableForm sel.toNat = some (kind.indexes, kind.form.2) := by
  rw [tableForm_ofOctet, h, Option.map_some, ← kind.form_indexes]

/-- The place of a table names its selector. -/
theorem ofOctet_place {t : Table} {sel index : Byte} (h : tablePlace t = (sel.toNat, index.toNat)) :
    Selector.ofOctet sel = some t.selector ∧ index.toNat = (tablePlace t).2 ∧ index.toNat < t.selector.indexes := by
  obtain ⟨hnum, hindex⟩ := tablePlace_selector t
  rw [h] at hnum hindex
  exact ⟨(Selector.ofOctet_eq_some _ _).2 hnum, by rw [h], hindex⟩

/-! ## The rules of the two requests -/

section
variable {u : State} {sel index copy : Byte} {kind : Selector}

theorem State.loadTableRule_taken {rest contents : List Byte} {n : Nat} {t : Table}
    (hform : checkForm (sel :: index :: rest) = .form kind n contents) (hparse : parseContents kind n contents = some t)
    (hu : u.anyLock = false) : u.loadTableRule (sel :: index :: rest) =
      Answer.taken { u with tariff := { u.tariff with pending := u.tariff.pending.put t } }
        [sel, index, octBool u.tariff.atClose] := by
  simp only [State.loadTableRule, hform, hparse, hu, Bool.false_eq_true, if_false]
  rfl

theorem State.readTableRule_taken {active : Bool} (hsel : Selector.ofOctet sel = some kind)
    (hindex : index.toNat < kind.indexes) : u.readTableRule [sel, index, octBool active] =
      Answer.taken u ([sel, index, octBool active] ++
        tableOctets ((if active then u.tariff.active else u.tariff.pending).get kind index.toNat)) := by
  have h1 : octetAt [sel, index, octBool active] 1 = index := rfl
  have h2 : octetAt [sel, index, octBool active] 2 = octBool active := rfl
  simp only [State.readTableRule, octetAt_cons_zero, h1, h2, hsel, boolOf_octBool, if_neg (Nat.not_le.2 hindex),
    Table.octets_eq]

theorem State.readTableRule_range
    (h : ∀ kind, Selector.ofOctet sel = some kind → kind.indexes ≤ index.toNat ∨ 1 < copy.toNat) :
    u.readTableRule [sel, index, copy] = Answer.refusal u .range := by
  have h1 : octetAt [sel, index, copy] 1 = index := rfl
  have h2 : octetAt [sel, index, copy] 2 = copy := rfl
  simp only [State.readTableRule, octetAt_cons_zero, h1, h2]
  cases hsel : Selector.ofOctet sel with
  | none => rfl
  | some kind =>
    cases hcopy : boolOf copy with
    | none => rfl
    | some active =>
      have hin : ¬ 1 < copy.toNat := fun hout => by rw [boolOf_eq_none.2 hout] at hcopy; exact nomatch hcopy
      exact if_pos ((h kind hsel).resolve_right hin)

end

/-! ## The two requests -/

section
variable {s : State} {r : Request} {sel index copy : Byte} {kind : Selector}

theorem exec_loadTable_taken {rest contents : List Byte} {n : Nat} {t : Table} (h : Ready s r) (hu : Unlocked s)
    (ha : r.args = sel :: index :: rest) (hform : checkForm r.args = .form kind n contents)
    (hparse : parseContents kind n contents = some t) :
    exec (.loadTable r) s = .next (answered
      { hunting s with tariff := { s.tariff with pending := s.tariff.pending.put t } } r .loadTable .ok
      [sel, index, octBool s.tariff.atClose]) :=
  request_taken h ha rfl
    (State.loadTableRule_taken (u := hunting s) (ha ▸ hform) hparse (State.anyLock_unlocked (u := hunting s) hu))

theorem exec_readTable_taken (active : Bool) (h : Ready s r) (ha : r.args = [sel, index, octBool active])
    (hsel : Selector.ofOctet sel = some kind) (hindex : index.toNat < kind.indexes) :
    exec (.readTable r) s = .next (answered (hunting s) r .readTable .ok ([sel, index, octBool active] ++
      tableOctets ((if active then s.tariff.active else s.tariff.pending).get kind index.toNat))) :=
  request_taken h ha rfl (State.readTableRule_taken (u := hunting s) hsel hindex)

theorem exec_readTable_range (h : Ready s r) (ha : r.args = [sel, index, copy])
    (hout : ∀ kind, Selector.ofOctet sel = some kind → kind.indexes ≤ index.toNat ∨ 1 < copy.toNat) :
    exec (.readTable r) s = .next (answered (hunting s) r .readTable .range []) :=
  request_refused h ha rfl (State.readTableRule_range hout)

/-- READ TABLE of a table that the copy it names holds (R149). -/
theorem exec_readTable_table (active : Bool) {t : Table} (h : Ready s r) (ha : r.args = [sel, index, octBool active])
    (hplace : tablePlace t = (sel.toNat, index.toNat))
    (ht : HasTable (if active then s.tariff.active else s.tariff.pending) t) :
    exec (.readTable r) s =
      .next (answered (hunting s) r .readTable .ok ([sel, index, octBool active] ++ tableOctets t)) := by
  obtain ⟨hsel, hnum, hindex⟩ := ofOctet_place hplace
  rw [exec_readTable_taken active h ha hsel hindex, hnum, TariffSet.get_of_hasTable ht]

end

end Sys2Proof.Machine

namespace Sys2Proof.Proofs

open Sys2Proof.Machine Sys2Proof.Statements

/-- Settles O26: what carries a table in range passes LOAD TABLE's checks (`carries_iff`), and a place names the one
table there (`TariffSet.get_of_hasTable`). -/
theorem loadTableWritesAndReadTableAnswers : Obligations.LoadTableWritesAndReadTableAnswers := by
  refine ⟨fun s r sel index copy h ha hsel => ?_, fun s r h => ⟨fun table sel index hu hr hplace ha => ?_,
      fun table sel index hplace => ⟨fun ha ht => ?_, fun ha ht => ?_⟩,
      fun sel index copy indexes form ha hform hout => ?_⟩,
    TariffSet.put_eq, fun set sel index kind hsel => ⟨⟨_, tableForm_selector hsel⟩, fun hindex => ⟨?_, ?_⟩⟩,
    fun s r sel index kind h hsel => ⟨fun rest contents n table hu ha hform hparse => ?_, fun copy ha hout => ?_,
      fun hindex => ⟨fun ha => ?_, fun ha => ?_⟩⟩⟩
  · refine exec_readTable_range h ha fun kind hkind => ?_
    rw [(Selector.ofOctet_eq_some _ _).1 hkind] at hsel
    cases kind <;> exact absurd hsel (by decide)
  · obtain ⟨kind, n, contents, hform, hparse⟩ := (carries_iff r.args table).1 ⟨hr, sel, index, hplace, ha⟩
    rw [← TariffSet.put_eq]
    exact exec_loadTable_taken h hu ha hform hparse
  · exact exec_readTable_table false h ha hplace ht
  · exact exec_readTable_table true h ha hplace ht
  · refine exec_readTable_range h ha fun kind hkind => ?_
    rw [tableForm_selector hkind] at hform
    cases hform
    exact hout
  · exact set.hasTable_get kind _
  · rw [set.place_get hindex, (Selector.ofOctet_eq_some _ _).1 hsel]
  · exact exec_loadTable_taken h hu ha hform hparse
  · refine exec_readTable_range h ha fun kind' hkind => ?_
    cases hsel.symm.trans hkind
    exact hout
  · exact exec_readTable_taken false h ha hsel hindex
  · exact exec_readTable_taken true h ha hsel hindex

/-- Settles O27: the octets that pass the checks are the table's own (`parseContents_iff`), and the set it is put into
holds it at its place (`TariffSet.hasTable_put`). -/
theorem readTableReturnsWhatWasLoaded : Obligations.ReadTableReturnsWhatWasLoaded := by
  intro set sel index rest kind n contents table hform hparse
  obtain ⟨_, _, _, hargs, hnum, rfl, hindex, hholds⟩ := checkForm_iff.1 hform
  cases hargs
  obtain rfl := parseContents_selector hparse
  obtain ⟨-, hplace, hrest⟩ := (parseContents_iff table hholds hindex).1 hparse
  refine ⟨(Selector.ofOctet_eq_some _ _).2 hnum, rfl, hindex, ?_⟩
  rw [← hplace, TariffSet.get_of_hasTable (set.hasTable_put table), Table.octets_eq, hrest]

end Sys2Proof.Proofs
end

section
/-! PROOF. ACTIVATE in its three modes, LOCK and UNLOCK: what each does where no lock and no busy resource refuses it
(R150 to R153, R156, R157). -/

namespace Sys2Proof.Machine

open Sys2Proof.Statements

section
variable {u : State}

/-! ## ACTIVATE -/

/-- The octet of an activation mode (R192). -/
def ActivateMode.octet : ActivateMode → Byte
  | .now => 0
  | .atClose => 1
  | .cancel => 2

theorem ActivateMode.ofOctet_octet (m : ActivateMode) : ActivateMode.ofOctet m.octet = some m := by cases m <;> rfl

/-- ACTIVATE that is not refused: the tariff store by the mode, the reply with mark and close state after it (R150). -/
theorem State.activateRule_taken (m : ActivateMode) (hu : u.anyLock = false)
    (hfree : m = .now → u.close.inFlight = none) : u.activateRule [m.octet] =
      Answer.taken { u with tariff := u.tariff.activate m }
        [m.octet, octBool (u.tariff.activate m).atClose, octBool u.close.inFlight.isSome] := by
  have hbusy : ¬ (m = .now ∧ u.close.inFlight.isSome = true) := by
    rintro ⟨hm, hf⟩
    rw [hfree hm] at hf
    exact absurd hf (by decide)
  simp only [State.activateRule, octetAt_cons_zero, m.ofOctet_octet, hu, Bool.false_eq_true, if_false, if_neg hbusy]
  rfl

/-! ## LOCK and UNLOCK -/

theorem State.locksOctet_clearable (h : u.decoder.clearable = true) :
    u.locksOctet = if u.decoder.commissioning then 3 else 1 := by
  rw [State.locksOctet, h]
  cases u.decoder.commissioning <;> rfl

theorem State.locksOctet_commissioning (h : u.decoder.commissioning = true) :
    u.locksOctet = if u.decoder.clearable then 3 else 2 := by
  rw [State.locksOctet, h]
  cases u.decoder.clearable <;> rfl

theorem State.locksOctet_unlocked (hc : u.decoder.clearable = false) (hm : u.decoder.commissioning = false) :
    u.locksOctet = 0 := by
  rw [State.locksOctet, hc, hm]
  rfl

theorem State.locksTaken_eq (u : State) (d : Decoder) :
    u.locksTaken d = Answer.taken { u with decoder := d } [State.locksOctet { u with decoder := d }] := rfl

/-- LOCK with CLEARABLE looks at neither lock (R156; log 23). -/
theorem State.lockRule_clearable (u : State) : u.lockRule [0] =
    Answer.taken { u with decoder := { u.decoder with clearable := true } }
      [if u.decoder.commissioning then 3 else 1] := by
  have hzero : u.lockRule [0] = u.locksTaken { u.decoder with clearable := true } := rfl
  rw [hzero, State.locksTaken_eq, State.locksOctet_clearable rfl]

theorem State.lockRule_commission (hmark : u.tariff.atClose = false) : u.lockRule [1] =
    Answer.taken { u with decoder := { u.decoder with commissioning := true } }
      [if u.decoder.clearable then 3 else 2] := by
  have hone : boolOf (octetAt [1] 0) = some true := rfl
  simp only [State.lockRule, hone, hmark, Bool.false_eq_true, if_false]
  rw [State.locksTaken_eq, State.locksOctet_commissioning rfl]

theorem State.unlockRule_taken (h : u.decoder.commissioning = false) :
    u.unlockRule = Answer.taken { u with decoder := { u.decoder with clearable := false } } [0] := by
  have hoctet : State.locksOctet { u with decoder := { u.decoder with clearable := false } } = 0 :=
    State.locksOctet_unlocked rfl h
  rw [State.unlockRule, if_neg (by rw [h]; decide), State.locksTaken_eq, hoctet]

end

end Sys2Proof.Machine

namespace Sys2Proof.Proofs

open Sys2Proof.Machine Sys2Proof.Statements

/-- Settles O28: each mode is taken (`State.activateRule_taken`) and gives its own tariff store. -/
theorem activateMovesTariffSets : Obligations.ActivateMovesTariffSets := by
  intro s r h hu
  have taken (m : ActivateMode) (hfree : m = .now → s.close.inFlight = none) :=
    State.activateRule_taken (u := hunting s) m (State.anyLock_unlocked (u := hunting s) hu) hfree
  refine ⟨fun ha hfree => ?_, fun ha => ?_, fun ha => ?_⟩
  · have hnow := taken .now fun _ => hfree
    rw [show (hunting s).close.inFlight = none from hfree] at hnow
    exact request_taken h ha rfl hnow
  · exact request_taken h ha rfl (taken .atClose fun hm => nomatch hm)
  · exact request_taken h ha rfl (taken .cancel fun hm => nomatch hm)

/-- Settles O29: each request is taken, and its reply carries the locks octet of the state it leaves. -/
theorem lockAndUnlockAnswered : Obligations.LockAndUnlockAnswered := by
  intro s r h
  refine ⟨fun ha => ?_, fun ha hmark => ?_, fun ha hlock => ?_⟩
  · exact request_taken h ha rfl (State.lockRule_clearable (hunting s))
  · exact request_taken h ha rfl (State.lockRule_commission (u := hunting s) hmark)
  · exact request_taken (rule := fun u _ => u.unlockRule) h ha rfl (State.unlockRule_taken (u := hunting s) hlock)

end Sys2Proof.Proofs
end

section
/-! PROOF. The framer over the octets of a frame, whole or with a wrong CRC, and the command that a frame's octets read
back as (R160, R161, R163, R190 to R192). -/

namespace Sys2Proof.Machine

/-! ## Octets one after the other (R160) -/

theorem Framer.feed_cons {framer next : Framer} {o : Byte} (h : framer.step o = (next, none)) (os : List Byte) :
    framer.feed (o :: os) = next.feed os := by
  rw [Framer.feed, h]

theorem Framer.feed_append {framer next : Framer} {os : List Byte} (h : framer.feed os = some next) (ps : List Byte) :
    framer.feed (os ++ ps) = next.feed ps := by
  induction os generalizing framer with
  | nil => cases h; rfl
  | cons o os ih =>
    rw [List.cons_append, Framer.feed]
    rw [Framer.feed] at h
    split at h
    next mid hstep => exact ih h
    next => nomatch h

/-- Octets that complete nothing, then one that completes nothing either. -/
theorem Framer.feed_snoc {framer mid next : Framer} {os : List Byte} {o : Byte} (h : framer.feed os = some mid)
    (ho : mid.step o = (next, none)) : framer.feed (os ++ [o]) = some next := by
  rw [Framer.feed_append h, Framer.feed_cons ho, Framer.feed]

section
variable (kind address : Byte)

theorem Framer.step_body_more {n : Nat} {held : List Byte} (o : Byte) (h : held.length + 1 < n) :
    Framer.step (.body kind address n held) o = (.body kind address n (held ++ [o]), none) := if_pos h

theorem Framer.step_body_last {n : Nat} {held : List Byte} (o : Byte) (h : held.length + 1 = n) :
    Framer.step (.body kind address n held) o = (.check kind address (held ++ [o]) none, none) :=
  if_neg (by omega)

/-- As many payload octets as the length octet calls for leave the framer before the CRC. -/
theorem Framer.feed_body {n : Nat} (os held : List Byte) (hos : os ≠ []) (hn : held.length + os.length = n) :
    Framer.feed (.body kind address n held) os = some (.check kind address (held ++ os) none) := by
  induction os generalizing held with
  | nil => exact absurd rfl hos
  | cons o os ih =>
    rw [List.length_cons] at hn
    by_cases hlast : os = []
    · subst hlast
      rw [Framer.feed_cons (Framer.step_body_last kind address o hn), Framer.feed]
    · have hpos : 0 < os.length := List.length_pos_iff.2 hlast
      have hmore := Framer.step_body_more kind address o (show held.length + 1 < n by omega)
      rw [Framer.feed_cons hmore, ih _ hlast (by rw [List.length_append, List.length_singleton]; omega),
        List.append_assoc, List.singleton_append]

/-- Sync, kind and address from HUNT leave the framer before the length octet. -/
theorem Framer.feed_header : Framer.feed .hunt [syncOctet, kind, address] = some (.header [kind, address]) := rfl

/-- A length octet above 250 discards at once (R160). -/
theorem Framer.step_length_over {o : Byte} (h : 250 < o.toNat) :
    Framer.step (.header [kind, address]) o = (.hunt, some (.discard .malformed)) := if_pos h

theorem Framer.step_length_zero : Framer.step (.header [kind, address]) 0 = (.check kind address [] none, none) := rfl

theorem Framer.step_length {n : Nat} (hpos : 0 < n) (hn : n ≤ 250) :
    Framer.step (.header [kind, address]) (oct n) = (.body kind address n [], none) := by
  have hval : (oct n).toNat = n := oct_toNat_of_lt (by omega)
  have hzero : oct n ≠ 0 := fun e => by
    rw [e] at hval
    exact absurd hval (Nat.ne_of_lt hpos)
  show (if 250 < (oct n).toNat then _ else _) = _
  rw [hval, if_neg (by omega), if_neg hzero]

end

/-- A frame's octets up to its payload leave the framer before the CRC. -/
theorem Framer.feed_contents (f : Frame) (h : f.payload.length ≤ 250) :
    Framer.feed .hunt (syncOctet :: frameContents f) = some (.check f.kind f.address f.payload none) := by
  have hsplit : syncOctet :: frameContents f =
      [syncOctet, f.kind, f.address] ++ (oct f.payload.length :: f.payload) := rfl
  rw [hsplit, Framer.feed_append (Framer.feed_header f.kind f.address)]
  by_cases hnil : f.payload = []
  · rw [hnil]
    exact Framer.feed_cons (Framer.step_length_zero ..) []
  · rw [Framer.feed_cons (Framer.step_length _ _ (List.length_pos_iff.2 hnil) h),
      Framer.feed_body _ _ _ _ hnil (Nat.zero_add _), List.nil_append]

/-- With the first CRC octet still nothing is complete. -/
theorem Framer.feed_firstCrc (f : Frame) (high : Byte) (h : f.payload.length ≤ 250) :
    Framer.feed .hunt (syncOctet :: (frameContents f ++ [high])) =
      some (.check f.kind f.address f.payload (some high)) :=
  Framer.feed_snoc (Framer.feed_contents f h) rfl

/-- The second CRC octet brings the check of the frame received (R161). -/
theorem Framer.step_lastCrc (f : Frame) (high low : Byte) :
    Framer.step (.check f.kind f.address f.payload (some high)) low = (.hunt, some (checkFrame f (high ++ low))) := rfl

theorem checkFrame_eq (f : Frame) (crc : BitVec 16) : checkFrame f crc =
    if frameCrc f ≠ crc then .discard .crcError
    else if f.lengthOk = true then .good f else .discard .malformed := (ite_not ..).symm

theorem checkFrame_good {f : Frame} (h : f.lengthOk = true) : checkFrame f (frameCrc f) = .good f := by
  rw [checkFrame_eq, if_neg (not_not_intro rfl), if_pos h]

theorem Framer.step_hunt {o : Byte} (h : o ≠ syncOctet) :
    Framer.step .hunt o = (.hunt, if o = 0 then none else some (.stray o)) := by
  rw [Framer.step, if_neg h]
  split <;> rfl

/-! ## The octets of a frame (R161, R190) -/

theorem frameOctets_eq (f : Frame) : frameOctets f =
    syncOctet :: (frameContents f ++ [oct ((frameCrc f).toNat / 256), oct (frameCrc f).toNat]) := by
  rw [frameOctets, beBytes, Statements.beBytes_one, pow_one]
  rfl

/-- Sixteen bits are their two octets, high octet first (R190). -/
theorem octets_append (c : BitVec 16) : oct (c.toNat / 256) ++ oct c.toNat = c := by
  apply BitVec.eq_of_toNat_eq
  have hc := c.isLt
  rw [BitVec.toNat_append, oct, oct, BitVec.toNat_ofNat, BitVec.toNat_ofNat,
    ← Nat.shiftLeft_add_eq_or_of_lt (Nat.mod_lt _ (by decide)), Nat.shiftLeft_eq]
  omega

/-- The CRC octet by octet, each octet bit by bit (R161). -/
theorem frameCrc_eq (f : Frame) : frameCrc f = (frameContents f).foldl
    (fun (c : BitVec 16) (o : Byte) => (List.range 8).foldl
      (fun (c : BitVec 16) _ => if c.msb then (c <<< 1) ^^^ 0x1021#16 else c <<< 1)
      (c ^^^ (o.setWidth 16 <<< 8))) 0xFFFF#16 := rfl

/-- The payload lengths R161 asks for, kind by kind. -/
theorem Frame.lengthOk_iff (f : Frame) : f.lengthOk = true ↔
    f.payload.length ≤ 250 ∧ (f.kind = kindMark → f.payload.length = 9) ∧
      (f.kind = kindReading → f.payload.length = 20) ∧ (f.kind = kindReply → 5 ≤ f.payload.length) ∧
      (f.kind = kindRecord → f.payload.length = 228) := by
  rw [Frame.lengthOk, Bool.and_eq_true, decide_eq_true_eq, and_congr_right_iff]
  intro _
  split_ifs with hmark hreading hreply hrecord
  · simp [hmark, kindMark, kindReading, kindReply, kindRecord]
  · simp [hreading, kindMark, kindReading, kindReply, kindRecord]
  · simp [hreply, kindMark, kindReading, kindReply, kindRecord]
  · simp [hrecord, kindMark, kindReading, kindReply, kindRecord]
  · simp [hmark, hreading, hreply, hrecord]

/-! ## From frames to commands and back (R163, R172, R192) -/

theorem RequestKind.code_eq (k : RequestKind) : k.code = (Statements.requestRow k).1 := by cases k <;> rfl

/-- A code names the one kind whose code it is (R172). -/
theorem RequestKind.ofCode_iff {code : Byte} {k : RequestKind} : RequestKind.ofCode code = some k ↔ code = k.code := by
  constructor
  · intro h
    have hcode := List.find?_some (p := fun k : RequestKind => decide (k.code = code)) h
    exact (of_decide_eq_true hcode).symm
  · rintro rfl
    cases k <;> rfl

theorem commandOf_request (order : List (Fin 4)) (k : RequestKind) (r : Request) :
    commandOf order (r.frame k) = requestCommand k r := by
  have hrequest : commandOf order (r.frame k) = match RequestKind.ofCode k.code with
    | some k => requestCommand k { address := r.address, tag := r.tag, args := r.args }
    | none => .unknownRequest r.address (r.tag :: k.code :: r.args) := rfl
  rw [hrequest, RequestKind.ofCode_iff.2 rfl]

theorem commandOf_unknown (order : List (Fin 4)) (a : Byte) {p : List Byte} (h : unknownPayload p = true) :
    commandOf order { kind := kindRequest, address := a, payload := p } = .unknownRequest a p := by
  match p, h with
  | [], _ => rfl
  | [_], _ => rfl
  | tag :: code :: args, h =>
    have hnone : RequestKind.ofCode code = none := Option.isNone_iff_eq_none.1 h
    have hrequest : commandOf order { kind := kindRequest, address := a, payload := tag :: code :: args } =
      match RequestKind.ofCode code with
      | some k => requestCommand k { address := a, tag := tag, args := args }
      | none => .unknownRequest a (tag :: code :: args) := rfl
    rw [hrequest, hnone]

theorem commandOf_other (order : List (Fin 4)) {f : Frame} (hm : f.kind ≠ kindMark) (hr : f.kind ≠ kindReading)
    (hq : f.kind ≠ kindRequest) : commandOf order f = .passThroughFrame f := by
  rw [commandOf, if_neg hm, if_neg hr, if_neg hq]

/-- The frame of a request's command, whichever row spells it. -/
theorem requestCommand_frame (k : RequestKind) (r : Request) : (requestCommand k r).frame? = some (r.frame k) := by
  cases k with
  | activate => unfold requestCommand; split_ifs <;> rfl
  | lock => unfold requestCommand; split_ifs <;> rfl
  | _ => rfl

/-- A command that is the one a request of its kind is reads back from that request's frame. -/
theorem commandOf_of_requestCommand {c : Instr} {f : Frame} (k : RequestKind) (r : Request)
    (hc : requestCommand k r = c) (hf : c.frame? = some f) : commandOf c.order f = c := by
  subst hc
  rw [requestCommand_frame] at hf
  cases hf
  exact commandOf_request _ k r

/-- A well-formed command reads back from the frame it carries, but for a PASS_THROUGH_FRAME of a kind that has rows of
its own (R163, R172). -/
theorem commandOf_frame {c : Instr} {f : Frame} (hwf : c.wf = true) (hf : c.frame? = some f)
    (hpass : ∀ g : Frame, c = .passThroughFrame g → g.kind ≠ kindReading ∧ g.kind ≠ kindRequest) :
    commandOf c.order f = c := by
  cases c
  case mark | reading => cases hf; rfl
  case passThroughFrame g =>
    cases hf
    rw [Instr.wf, Bool.and_eq_true, decide_eq_true_eq] at hwf
    obtain ⟨hreading, hrequest⟩ := hpass _ rfl
    exact commandOf_other _ hwf.2 hreading hrequest
  case unknownRequest a p =>
    cases hf
    rw [Instr.wf, Bool.and_eq_true] at hwf
    exact commandOf_unknown _ a hwf.2
  case ident r => exact commandOf_of_requestCommand .ident r rfl hf
  case assignStation r => exact commandOf_of_requestCommand .assignStation r rfl hf
  case ackStart r => exact commandOf_of_requestCommand .ackStart r rfl hf
  case setPoint r => exact commandOf_of_requestCommand .setPoint r rfl hf
  case removePoint r => exact commandOf_of_requestCommand .removePoint r rfl hf
  case holdPoint r => exact commandOf_of_requestCommand .holdPoint r rfl hf
  case releasePoint r => exact commandOf_of_requestCommand .releasePoint r rfl hf
  case setClock r => exact commandOf_of_requestCommand .setClock r rfl hf
  case loadTable r => exact commandOf_of_requestCommand .loadTable r rfl hf
  case readTable r => exact commandOf_of_requestCommand .readTable r rfl hf
  case activateNow r =>
    simp only [Instr.wf, Bool.and_eq_true, decide_eq_true_eq] at hwf
    obtain ⟨-, hone, htwo⟩ := hwf
    exact commandOf_of_requestCommand .activate r (by rw [requestCommand, if_neg hone, if_neg htwo]) hf
  case activateAtClose r =>
    exact commandOf_of_requestCommand .activate r (if_pos (of_decide_eq_true hwf)) hf
  case activateCancel r =>
    have htwo : r.args = [2] := of_decide_eq_true hwf
    have hone : r.args ≠ [1] := by rw [htwo]; decide
    exact commandOf_of_requestCommand .activate r (by rw [requestCommand, if_neg hone, if_pos htwo]) hf
  case closePeriod r => exact commandOf_of_requestCommand .closePeriod r rfl hf
  case readout r => exact commandOf_of_requestCommand .readout r rfl hf
  case abortReadout r => exact commandOf_of_requestCommand .abortReadout r rfl hf
  case queryPoint r => exact commandOf_of_requestCommand .queryPoint r rfl hf
  case queryDevice r => exact commandOf_of_requestCommand .queryDevice r rfl hf
  case clearAttention r => exact commandOf_of_requestCommand .clearAttention r rfl hf
  case lockClearable r =>
    simp only [Instr.wf, Bool.and_eq_true, decide_eq_true_eq] at hwf
    exact commandOf_of_requestCommand .lock r (if_neg hwf.2) hf
  case lockCommission r => exact commandOf_of_requestCommand .lock r (if_pos (of_decide_eq_true hwf)) hf
  case unlock r => exact commandOf_of_requestCommand .unlock r rfl hf
  case restart r => exact commandOf_of_requestCommand .restart r rfl hf
  all_goals nomatch hf

end Sys2Proof.Machine

namespace Sys2Proof.Proofs

open Sys2Proof.Machine Sys2Proof.Statements

/-- Settles O4, command by command (`commandOf_frame`). -/
theorem frameCommandsReadBack : Obligations.FrameCommandsReadBack := by
  refine ⟨fun c f hwf hf hpass => commandOf_frame hwf hf hpass, fun order a p => ⟨rfl, rfl, rfl⟩, fun f => rfl,
    fun k r => ?_⟩
  rw [requestCommand_frame, ← RequestKind.code_eq]
  rfl

/-- Settles O5: the octets end with the frame's own CRC, so that the check at the last finds it and the length good. -/
theorem framerReadsBackEveryFrame : Obligations.FramerReadsBackEveryFrame := by
  intro f hf
  have hlength : f.payload.length ≤ 250 := ((Frame.lengthOk_iff f).1 hf).1
  have hsnoc : frameOctets f = (syncOctet :: (frameContents f ++ [oct ((frameCrc f).toNat / 256)])) ++
      [oct (frameCrc f).toNat] := by
    rw [frameOctets_eq, List.cons_append, List.append_assoc]; rfl
  refine ⟨_, oct (frameCrc f).toNat, ?_, ?_, Framer.step_lastCrc f (oct ((frameCrc f).toNat / 256)) _ |>.trans ?_⟩
  · rw [hsnoc, List.getLast?_concat]
  · rw [hsnoc, List.dropLast_concat]
    exact Framer.feed_firstCrc f _ hlength
  · rw [octets_append, checkFrame_good hf]

/-- Settles O6: the framer up to the last octet, and the check there (`checkFrame_eq`). -/
theorem framerChecksCrcThenLength : Obligations.FramerChecksCrcThenLength := by
  refine ⟨fun f h l hlength => ⟨_, Framer.feed_firstCrc f h hlength, ?_⟩, fun kind address o ho => ?_,
    fun o ho => Framer.step_hunt ho, fun f => ⟨rfl, frameOctets_eq f, frameCrc_eq f, Frame.lengthOk_iff f⟩⟩
  · rw [Framer.step_lastCrc, checkFrame_eq]
  · exact ⟨_, Framer.feed_header kind address, Framer.step_length_over kind address ho⟩

end Sys2Proof.Proofs
end

section
/-! PROOF. The output choice, case by case, and what a departure from the insert queue takes with it: FRAME_SENT, a frame
offered and a reply queued (R135, R138, R167 to R169, R173, R179). -/

namespace Sys2Proof.Machine

open Sys2Proof.Statements

/-! ## The choice (R169) -/

/-- An inserted frame on its way out, the rest still waiting (R169). -/
abbrev State.departed (s : State) (q : QueuedFrame) (more : List QueuedFrame) : State :=
  { s with port := { s.port with queue := more, transmitter := .sending q, streak := 0 } }

section
variable {s : State}

/-- The port makes no choice while the transmitter is sending. -/
theorem State.outputChoice_sending {q : QueuedFrame} (h : s.port.transmitter = .sending q) : s.outputChoice = s := by
  simp only [State.outputChoice, h, ite_self]

section
variable (hs : Live s) (hfree : s.port.transmitter = .free)
include hs hfree

theorem State.outputChoice_empty (hb : s.port.buffer = []) (hq : s.port.queue = []) : s.outputChoice = s := by
  simp only [State.outputChoice, live_iff.2 hs, if_true, hfree, hb, hq]

/-- A forwarded frame goes, and the streak counts it only if an inserted frame waits. -/
theorem State.outputChoice_forwards {f : Frame} {rest : List Frame} (hb : s.port.buffer = f :: rest)
    (h : s.port.queue = [] ∨ s.port.streak < 4) : s.outputChoice = { s with port := { s.port with
      buffer := rest
      transmitter := .sending { frame := f, restartReply := false }
      streak := if s.port.queue = [] then s.port.streak else s.port.streak + 1 } } := by
  cases hq : s.port.queue with
  | nil => simp only [State.outputChoice, live_iff.2 hs, if_true, hfree, hb, hq]
  | cons q more =>
    have hstreak : s.port.streak < Config.streakLimit := h.resolve_left (by rw [hq]; exact List.cons_ne_nil q more)
    simp only [State.outputChoice, live_iff.2 hs, if_true, hfree, hb, hq, hstreak, reduceCtorEq, if_false]

/-- An inserted frame goes, and its departure may take a step of the readout with it. -/
theorem State.outputChoice_inserts {q : QueuedFrame} {more : List QueuedFrame} (hq : s.port.queue = q :: more)
    (h : s.port.buffer = [] ∨ 4 ≤ s.port.streak) : s.outputChoice = (s.departed q more).afterDeparture := by
  cases hb : s.port.buffer with
  | nil => simp only [State.outputChoice, live_iff.2 hs, if_true, hfree, hb, hq, State.departed]
  | cons f rest =>
    have hstreak : ¬ s.port.streak < Config.streakLimit :=
      Nat.not_lt.2 (h.resolve_left (by rw [hb]; exact List.cons_ne_nil f rest))
    simp only [State.outputChoice, live_iff.2 hs, if_true, hfree, hb, hq, hstreak, if_false, State.departed]

end

/-! ## What a departure takes with it (R135, R138; log 19) -/

section
variable {job : ReadoutJob} {run : Run} {reason : EndReason}

theorem State.queueReadoutEnd_reported (s : State) (job : ReadoutJob) (reason : EndReason) :
    s.queueReadoutEnd job reason = reported s job reason := by
  cases reason <;> rfl

/-- Nothing waits for this departure. -/
theorem State.afterDeparture_still
    (h : s.readout.phase = .idle ∨ (∃ job, s.readout.phase = .search job) ∨
      (∃ job run, s.readout.phase = .emit job run ∧ (run.waiting = false ∨ 6 ≤ s.port.queue.length)) ∨
      (∃ job reason, s.readout.phase = .report job reason ∧ s.port.queue.length ≠ 7)) : s.afterDeparture = s := by
  rcases h with hidle | ⟨job, hsearch⟩ | ⟨job, run, hemit, hstill⟩ | ⟨job, reason, hreport, hlength⟩
  · simp only [State.afterDeparture, hidle]
  · simp only [State.afterDeparture, hsearch]
  · have hblocked : (run.waiting && s.recordRoom) = false := by
      rcases hstill with hwaiting | hroom
      · rw [hwaiting, Bool.false_and]
      · rw [State.recordRoom_eq_false.2 hroom, Bool.and_false]
    simp only [State.afterDeparture, hemit, hblocked, Bool.false_eq_true, if_false]
  · have hfull : ¬ s.port.queue.length + 1 = Config.queuePlaces := fun h => hlength (Nat.succ.inj h)
    simp only [State.afterDeparture, hreport, hfull, if_false]

/-- A waiting step that now has room is taken. -/
theorem State.afterDeparture_emits (h : s.readout.phase = .emit job run) (hwaiting : run.waiting = true)
    (hroom : s.port.queue.length ≤ 5) : s.afterDeparture = s.emitStep job run := by
  simp only [State.afterDeparture, h, hwaiting, State.recordRoom_iff.2 hroom, Bool.and_self, if_true]

/-- A READOUT END that had found the queue full is queued. -/
theorem State.afterDeparture_reports (h : s.readout.phase = .report job reason) (hlength : s.port.queue.length = 7) :
    s.afterDeparture = reported s job reason := by
  rw [← State.queueReadoutEnd_reported]
  simp only [State.afterDeparture, h, hlength]
  rfl

end

/-- The transmitter back at FREE. -/
abbrev State.freed (s : State) : State := { s with port := { s.port with transmitter := .free } }

theorem exec_frameSent {q : QueuedFrame} (h : s.port.transmitter = .sending q) (hq : q.restartReply = false) :
    exec .frameSent s = .next s.freed.outputChoice := by
  simp only [exec, execFrameSent, h, hq, Bool.false_eq_true, if_false, State.sendDone]

/-! ## A frame offered (R167) -/

theorem State.offer_joins (f : Frame) (h : s.port.buffer.length < 4) : s.offer f =
    State.outputChoice { s with port := { s.port with buffer := s.port.buffer ++ [f] } } := if_pos h

theorem State.offer_overruns (f : Frame) (h : 4 ≤ s.port.buffer.length) : s.offer f =
    State.raiseDevice { s with port := { s.port with counters := { s.port.counters with
      forwardOverruns := bump s.port.counters.forwardOverruns } } } .fwdOverrun := if_neg (Nat.not_lt.2 h)

/-- Into an idle port an offered frame goes at once. -/
theorem State.offer_idle (f : Frame) (hs : Live s) (hb : s.port.buffer = []) (hq : s.port.queue = [])
    (hfree : s.port.transmitter = .free) : s.offer f =
      { s with port := { s.port with transmitter := .sending { frame := f, restartReply := false } } } := by
  have hroom : s.port.buffer.length < 4 := by rw [hb]; decide
  have hjoined : s.port.buffer ++ [f] = [f] := by rw [hb, List.nil_append]
  have hchoice := State.outputChoice_forwards
    (s := { s with port := { s.port with buffer := s.port.buffer ++ [f] } }) hs hfree hjoined (.inl hq)
  rw [State.offer_joins f hroom, hchoice]
  simp only [hq, if_true, ← hb]

theorem deviceFlag_place (d : DeviceFlag) : d.place = deviceFlagPlace d := by cases d <;> rfl

/-! ## A reply and its envelope (R173, R192) -/

/-- The summary is the device attention bit or the bit of some point (R181). -/
theorem State.summary_iff : s.summary = true ↔
    s.attention.bit = true ∨ ∃ i : Fin 32, ∃ p ∈ s.points[i], p.attention = true := by
  have hpoint (x : Option Point) : (x.map (·.attention)).getD false = true ↔ ∃ p ∈ x, p.attention = true := by
    cases x <;> simp
  simp only [State.summary, Bool.or_eq_true, List.any_eq_true, Vector.mem_toList_iff, Vector.mem_iff_getElem, hpoint]
  refine or_congr_right ⟨?_, ?_⟩
  · rintro ⟨x, ⟨n, hn, rfl⟩, hx⟩
    exact ⟨⟨n, hn⟩, hx⟩
  · rintro ⟨i, hx⟩
    exact ⟨_, ⟨i.val, i.isLt, rfl⟩, hx⟩

/-- The status octet bit by bit (R192). -/
theorem State.statusOctet_bits {P : Prop} [Decidable P] (h : s.summary = true ↔ P) : s.statusOctet =
    (if P then 1#8 else 0#8) ||| (if s.decoder.startKind = .warm then 2#8 else 0#8) |||
      (if s.decoder.startAck = true then 4#8 else 0#8) := by
  simp only [State.statusOctet, h]
  split_ifs <;> rfl

theorem ReplyCode.octet_eq (c : ReplyCode) : c.octet = replyCode c := by cases c <;> rfl

/-- A reply's frame from the state its envelope shows. -/
theorem State.replyFrame_eq {tag kind station : Byte} {code : ReplyCode} (data : List Byte) {P : Prop} [Decidable P]
    (hstation : s.stationOctet = station) (h : s.summary = true ↔ P) : s.replyFrame tag kind code data =
      { kind := 0x31, address := station,
        payload := [station, tag, kind, replyCode code,
          (if P then 1#8 else 0#8) ||| (if s.decoder.startKind = .warm then 2#8 else 0#8) |||
            (if s.decoder.startAck = true then 4#8 else 0#8)] ++ (if code = .ok then data else []) } := by
  rw [State.replyFrame, hstation, ReplyCode.octet_eq, State.statusOctet_bits h]
  rfl

theorem State.stationOctet_of {station : Byte} (hsome : ∀ n : Fin 8, s.decoder.station = some n → station = oct n.val)
    (hnone : s.decoder.station = none → station = 0xFF) : s.stationOctet = station := by
  obtain ⟨hassigned, hunassigned⟩ := s.stationOctet_eq
  cases h : s.decoder.station with
  | none => rw [hunassigned h, hnone h]
  | some n => rw [hassigned n h, hsome n h]

/-- While the transmitter is sending, a frame of the part's own waits as the newest (R168). -/
theorem State.queueInsert_sending {q : QueuedFrame} (new : QueuedFrame) (h : s.port.transmitter = .sending q) :
    s.queueInsert new = s.enqueue new := State.outputChoice_sending (s := s.enqueue new) h

/-- Into an idle port it goes at once (R169). -/
theorem State.queueInsert_idle (new : QueuedFrame) (hs : Live s) (hfree : s.port.transmitter = .free)
    (hb : s.port.buffer = []) (hq : s.port.queue = []) : s.queueInsert new =
      State.afterDeparture { s with port := { s.port with transmitter := .sending new, streak := 0 } } := by
  have hjoined : (s.enqueue new).port.queue = [new] := congrArg (· ++ [new]) hq
  have hleft : (s.enqueue new).departed new [] =
      { s with port := { s.port with transmitter := .sending new, streak := 0 } } := by
    simp only [State.departed, State.enqueue, ← hq]
  rw [State.queueInsert, State.outputChoice_inserts (s := s.enqueue new) hs hfree hjoined (.inl hb), hleft]

end

end Sys2Proof.Machine

namespace Sys2Proof.Proofs

open Sys2Proof.Machine Sys2Proof.Statements

/-- Settles O10: the choice by buffer, queue and streak, and the departure by the readout's phase. -/
theorem frameSentChoosesNextFrame : Obligations.FrameSentChoosesNextFrame := by
  intro s q hs hsending hq
  have hsent := exec_frameSent hsending hq
  refine ⟨fun hb hq => ?_, fun f rest hb h => ?_, fun g more hq h => ?_, hsent,
    State.outputChoice_sending hsending⟩
  · rw [hsent, State.outputChoice_empty (s := s.freed) hs rfl hb hq]
  · rw [hsent, State.outputChoice_forwards (s := s.freed) hs rfl hb h]
  · intro left
    have hleft : exec .frameSent s = .next left.afterDeparture :=
      hsent.trans (congrArg _ (State.outputChoice_inserts (s := s.freed) hs rfl hq h))
    refine ⟨fun hstill => ?_, fun job run hemit hwaiting hroom => ⟨_, left.emitStep_taken job run, ?_⟩,
      fun job reason hreport hlength => ?_⟩
    · rw [hleft, State.afterDeparture_still (s := left) hstill]
    · rw [hleft, State.afterDeparture_emits (s := left) hemit hwaiting hroom]
    · rw [hleft, State.afterDeparture_reports (s := left) hreport hlength]

/-- Settles O11: the envelope is the one of `State.replyFrame_eq`; an idle port lets the reply go at once, and its queue
is then empty, so that a waiting step has room and no report has met a full queue. -/
theorem replyQueuedWithItsEnvelope : Obligations.ReplyQueuedWithItsEnvelope := by
  intro u r k code data station f hsome hnone hf
  have hanswered : answered u r k code data = u.queueInsert { frame := f, restartReply := false } := by
    rw [answered, State.replyFrame_eq data (State.stationOctet_of hsome hnone) State.summary_iff,
      RequestKind.code_eq, ← hf]
  refine ⟨fun q hsending => ?_, fun hs hfree hb hq => ?_⟩
  · rw [hanswered, State.queueInsert_sending _ hsending]
    rfl
  · intro left
    rw [hanswered, State.queueInsert_idle _ hs hfree hb hq]
    refine ⟨fun hfast => State.afterDeparture_still ?_, fun job run hemit hwaiting => ?_⟩
    · cases hphase : u.readout.phase with
      | idle => exact .inl rfl
      | search job => exact .inr (.inl ⟨job, rfl⟩)
      | emit job run => exact .inr (.inr (.inl ⟨job, run, rfl, .inl (hfast job run hphase)⟩))
      | report job reason =>
        exact .inr (.inr (.inr ⟨job, reason, rfl, by show u.port.queue.length ≠ 7; rw [hq]; decide⟩))
    · have hroom : left.port.queue.length ≤ 5 := by show u.port.queue.length ≤ 5; rw [hq]; decide
      rw [State.afterDeparture_emits (s := left) hemit hwaiting hroom]
      exact left.emitStep_taken job run

/-- Settles O9: the three outcomes of an offer, and the rise of a device flag by its place. -/
theorem offerJoinsOrCountsOverrun : Obligations.OfferJoinsOrCountsOverrun := by
  intro s f
  refine ⟨fun q hroom hsending => ?_, fun hs hb hq hfree => State.offer_idle f hs hb hq hfree,
    fun hfull => State.offer_overruns f hfull, fun d => ?_⟩
  · rw [State.offer_joins f hroom]
    exact State.outputChoice_sending (s := { s with port := { s.port with buffer := s.port.buffer ++ [f] } }) hsending
  · rw [State.raiseDevice, deviceFlag_place]
    rfl

end Sys2Proof.Proofs
end

section
/-! PROOF. The port within its limits (R159, R169): frames join the buffer and the queue only where a place is free, the
streak counts to 4 alone, and nothing outside the loop's own operations touches the port but a start, which empties it. -/

namespace Sys2Proof.Machine

/-! ## What keeps the limits -/

/-- A move that keeps the port's limits where they hold. -/
def PortKept (s t : State) : Prop := s.PortWithin → t.PortWithin

theorem State.readoutMoveOn_port (s : State) (job : ReadoutJob) : (s.readoutMoveOn job).port = s.port := by
  unfold State.readoutMoveOn
  split <;> rfl

namespace PortKept

variable (s : State)

theorem same {s t : State} (h : t.port = s.port) : PortKept s t := fun hs => by
  rwa [State.PortWithin, h]

theorem trans {s t u : State} (h : PortKept s t) (g : PortKept t u) : PortKept s u := fun hs => g (h hs)

theorem either {s t u : State} {c : Prop} [Decidable c] (h : PortKept s t) (g : PortKept s u) :
    PortKept s (if c then t else u) := by
  split
  · exact h
  · exact g

theorem meter {s t : State} (h : MeterFrame s t) : PortKept s t := .same h.port

theorem timed {s t : State} (h : TimedFrame s t) : PortKept s t := .same (by rw [TimedFrame] at h; rw [h])

/-! ## The insert queue -/

/-- A frame joins where a place is free. -/
theorem enqueue (q : QueuedFrame) (h : s.port.queue.length < 8) : PortKept s (s.enqueue q) :=
  fun ⟨hbuffer, _, hstreak⟩ => ⟨hbuffer, by rw [State.enqueue, List.length_append]; exact h, hstreak⟩

theorem queueReadoutEnd (job : ReadoutJob) (reason : EndReason) (h : s.port.queue.length < 8) :
    PortKept s (s.queueReadoutEnd job reason) :=
  PortKept.trans (t := { s with readout := { s.readout with phase := .idle } }) (.same rfl) (.enqueue _ _ h)

/-- A step of the readout queues a record only with room for it (R135). -/
theorem emitStep (job : ReadoutJob) (run : Run) : PortKept s (s.emitStep job run) := by
  unfold State.emitStep
  split
  · simp only [State.endOfRun]
    exact .either (.same rfl) (.same (s.readoutMoveOn_port _))
  · simp only [State.recordOvertaken]
    exact .either (.same (s.readoutMoveOn_port _)) (.same rfl)
  · dsimp only
    split
    · split
      next hroom =>
        have hplace : s.port.queue.length < 8 := (State.recordRoom_iff.1 hroom).trans_lt (by decide)
        exact (enqueue s _ hplace).trans (.same rfl)
      next => exact .same rfl
    · exact .same rfl

theorem afterDeparture : PortKept s s.afterDeparture := by
  unfold State.afterDeparture
  split
  · exact .either (.emitStep s _ _) (.same rfl)
  · split
    next hplace => exact .queueReadoutEnd s _ _ (Nat.lt_of_succ_le (Nat.le_of_eq hplace))
    next => exact .same rfl
  · exact .same rfl

/-! ## The output choice -/

theorem departed {q : QueuedFrame} {more : List QueuedFrame} (hq : s.port.queue = q :: more) :
    PortKept s (s.departed q more) := by
  rintro ⟨hbuffer, hqueue, -⟩
  rw [hq] at hqueue
  exact ⟨hbuffer, (Nat.le_succ _).trans hqueue, Nat.zero_le _⟩

/-- A forwarded frame goes: the buffer is shorter, and the streak counts below its limit alone. -/
theorem forwarded {f : Frame} {rest : List Frame} {transmitter : Transmitter} {streak : Nat}
    (hb : s.port.buffer = f :: rest) (hstreak : streak ≤ s.port.streak ∨ streak ≤ 4) :
    PortKept s { s with port := { s.port with buffer := rest, transmitter := transmitter, streak := streak } } := by
  rintro ⟨hbuffer, hqueue, hbefore⟩
  rw [hb] at hbuffer
  exact ⟨(Nat.le_succ _).trans hbuffer, hqueue, hstreak.elim (·.trans hbefore) id⟩

theorem outputChoice : PortKept s s.outputChoice := by
  unfold State.outputChoice
  split
  · split
    · exact .same rfl
    · split
      next => exact .same rfl
      next f rest hb hq => exact .forwarded s hb (.inl le_rfl)
      next q more hb hq => exact (departed s hq).trans (.afterDeparture _)
      next f rest q more hb hq =>
        split
        next hstreak => exact .forwarded s hb (.inr hstreak)
        next => exact (departed s hq).trans (.afterDeparture _)
  · exact .same rfl

theorem queueInsert (q : QueuedFrame) (h : s.port.queue.length < 8) : PortKept s (s.queueInsert q) :=
  (enqueue s q h).trans (.outputChoice _)

theorem sendDone : PortKept s s.sendDone :=
  PortKept.trans (t := s.freed) id (.outputChoice _)

/-- A frame offered joins the buffer where a place is free (R167). -/
theorem offer (f : Frame) : PortKept s (s.offer f) := by
  unfold State.offer
  split
  next hroom =>
    have hjoined : PortKept s { s with port := { s.port with buffer := s.port.buffer ++ [f] } } :=
      fun ⟨_, hqueue, hstreak⟩ => ⟨by rw [List.length_append]; exact hroom, hqueue, hstreak⟩
    exact hjoined.trans (.outputChoice _)
  next => exact id

/-! ## Starts -/

/-- A start empties the port (R159). -/
theorem started {s t : State} {p : Port} (h : t.port = p.warmStart) : PortKept s t := fun _ => by
  rw [State.PortWithin, h]
  exact ⟨Nat.zero_le _, Nat.zero_le _, Nat.zero_le _⟩

theorem warmStart : PortKept s s.warmStart := .started (p := s.port) (by rw [State.warmStart_whole])

theorem takeWarmStart (broken : Option StartBreak) : PortKept s (s.takeWarmStart broken) := by
  cases broken with
  | none => exact .warmStart s
  | some b => exact .started (p := (s.warmStartPart b).port) rfl

theorem coldDomain (vdd retention : Bool) : PortKept s (s.coldDomain vdd retention) :=
  fun _ => ⟨Nat.zero_le _, Nat.zero_le _, Nat.zero_le _⟩

theorem takeWarning : PortKept s s.takeWarning := .same (by simp only [State.takeWarning]; split <;> rfl)

theorem completeStart : PortKept s s.completeStart := by
  unfold State.completeStart
  exact PortKept.trans (t := { s with supply := { s.supply with retention := true } }) (.same rfl)
    (.either (.takeWarning _) (.same rfl))

theorem takeColdStart (broken : Option StartBreak) : PortKept s (s.takeColdStart broken) := by
  cases broken with
  | none => exact (coldDomain s true true).trans (.completeStart _)
  | some b => exact .coldDomain s false false

end PortKept

/-! ## Requests -/

section
variable (u : State) (args : List Byte)

/-! No request's own rule touches the port: each answers a refusal, or the state with other blocks written. -/

theorem State.setPointRule_port : (u.setPointRule args).final.port = u.port := by
  unfold State.setPointRule; (repeat' split) <;> rfl

theorem State.removePointRule_port : (u.removePointRule args).final.port = u.port := by
  unfold State.removePointRule; (repeat' split) <;> rfl

theorem State.holdRule_port (change : Point → Point) : (u.holdRule args change).final.port = u.port := by
  unfold State.holdRule; (repeat' split) <;> rfl

theorem State.setClockRule_port : (u.setClockRule args).final.port = u.port := by
  unfold State.setClockRule
  split
  · rfl
  · split
    · rfl
    · split
      · rfl
      · exact (MeterFrame.applyClock u _).port

theorem State.loadTableRule_port : (u.loadTableRule args).final.port = u.port := by
  unfold State.loadTableRule; (repeat' split) <;> rfl

theorem State.readTableRule_port : (u.readTableRule args).final.port = u.port := by
  simp only [State.readTableRule]; (repeat' split) <;> rfl

theorem State.activateRule_port : (u.activateRule args).final.port = u.port := by
  unfold State.activateRule; (repeat' split) <;> rfl

theorem State.closePeriodRule_port : u.closePeriodRule.final.port = u.port := by
  unfold State.closePeriodRule
  split
  · rfl
  · exact (MeterFrame.startClose u).port

theorem State.readoutRule_port (tag : Byte) : (u.readoutRule tag args).final.port = u.port := by
  unfold State.readoutRule; (repeat' split) <;> rfl

theorem State.abortReadout_port : u.abortReadout.port = u.port := by
  unfold State.abortReadout; split <;> rfl

theorem State.queryPointRule_port : (u.queryPointRule args).final.port = u.port := by
  simp only [State.queryPointRule]; (repeat' split) <;> rfl

theorem State.queryDeviceRule_port : (u.queryDeviceRule args).final.port = u.port := by
  simp only [State.queryDeviceRule]; (repeat' split) <;> rfl

theorem State.clearAttentionRule_port : (u.clearAttentionRule args).final.port = u.port := by
  unfold State.clearAttentionRule; split <;> rfl

theorem State.lockRule_port : (u.lockRule args).final.port = u.port := by
  unfold State.lockRule; (repeat' split) <;> rfl

theorem State.unlockRule_port : u.unlockRule.final.port = u.port := by
  unfold State.unlockRule; split <;> rfl

theorem State.assignRule_port : (u.assignRule args).final.port = u.port := by
  unfold State.assignRule; split <;> rfl

end

namespace PortKept

/-- An answer that leaves the port alone, to a request that found a free place (R165). -/
theorem reply {u : State} {a : Answer} (tag kind : Byte) (ha : a.final.port = u.port) (hroom : u.replyRoom = true) :
    PortKept u (a.reply tag kind) := by
  have hraised : (a.final.raiseForCode a.code).port = u.port := by rw [← ha]; cases a.code <;> rfl
  refine PortKept.trans (.same hraised) (queueInsert _ _ ?_)
  rw [hraised]
  exact of_decide_eq_true hroom

theorem receive {s : State} {f : Frame} {take : State → State} (h : ∀ u : State, PortKept u (take u)) :
    PortKept s (s.receive f take) := by
  rcases s.receive_cases f take with ⟨-, e⟩ | ⟨-, -, e⟩ | ⟨-, -, e⟩ <;> rw [e]
  · exact .same rfl
  · exact id
  · exact PortKept.trans (t := s.huntFramer) id (h _)

theorem takeRequest {s : State} {k : RequestKind} {r : Request} {forUs : Bool} {rule : State → Answer}
    (h : ∀ u : State, (rule u).final.port = u.port) : PortKept s (s.takeRequest k r forUs rule) := by
  refine .receive fun u => .either ?_ (.offer u _)
  split
  next hroom => exact .either (.reply _ _ (h u) hroom) (.reply _ _ rfl hroom)
  next => exact id

theorem request {s : State} {k : RequestKind} {r : Request} {rule : State → Answer}
    (h : ∀ u : State, (rule u).final.port = u.port) : PortKept s (s.request k r rule) := .takeRequest h

/-! ## Frames and the other commands -/

theorem takeMark (s : State) (order : List (Fin 4)) (payload : List Byte) : PortKept s (s.takeMark order payload) :=
  .either (.timed (.takeTime s order _)) (.same rfl)

theorem takeReadingFrame (s : State) (f : Frame) : PortKept s (s.takeReadingFrame f) := by
  unfold State.takeReadingFrame
  split
  · unfold State.takeReadingAt
    split
    · exact PortKept.trans (t := { s with unusedReadings := bump s.unusedReadings }) (.same rfl) (.offer _ _)
    · exact .either (PortKept.trans (.meter (.setPoint s _ _)) (.offer _ _)) (.meter (.setPoint s _ _))
  · exact .offer s f

theorem answerUnknown (s : State) (payload : List Byte) (hroom : s.replyRoom = true) :
    PortKept s (s.answerUnknown payload) := by
  unfold State.answerUnknown
  split <;> exact .reply _ _ rfl hroom

theorem unknownRequest (a : Byte) (p : List Byte) (s : State) : PortKept s
    (s.receive { kind := kindRequest, address := a, payload := p } (fun s =>
      if s.isStation a then (if s.replyRoom then s.answerUnknown p else s.requestOverrun)
      else s.offer { kind := kindRequest, address := a, payload := p })) := by
  refine .receive fun u => .either ?_ (.offer u _)
  split
  next hroom => exact .answerUnknown u p hroom
  next => exact id

theorem searchStep (s : State) (job : ReadoutJob) : PortKept s (s.searchStep job) := by
  simp only [State.searchStep]
  split
  · exact .either (.same rfl) (.same (s.readoutMoveOn_port _))
  · exact .same rfl

end PortKept

/-- Every command keeps the limits of the port. -/
theorem exec_portKept {c : Instr} {s t : State} (h : exec c s = .next t) : PortKept s t := by
  cases c <;> cases h
  case mark order a p => exact .receive fun u => (PortKept.takeMark u order p).trans (.offer _ _)
  case selfAdvance order =>
    refine .either ?_ (.same rfl)
    split
    · exact .timed (.selfAdvance s order _)
    · exact .same rfl
  case reading a p => exact .receive fun u => .takeReadingFrame u _
  case passThroughFrame f => exact .receive fun u => .either (.offer u f) (.same rfl)
  case frameDiscard f => exact .either id (.same rfl)
  case truncatedFrame os =>
    refine .either ?_ (.same rfl)
    split
    · exact .same rfl
    · exact id
    · exact .same rfl
  case frameSent =>
    split
    · exact .same rfl
    · exact .either (.warmStart s) (.sendDone s)
  case unknownRequest a p => exact .either (.same rfl) (.unknownRequest a p s)
  case ident r => exact .request fun u => rfl
  case assignStation r => exact .takeRequest fun u => u.assignRule_port _
  case ackStart r => exact .request fun u => rfl
  case setPoint r => exact .request fun u => u.setPointRule_port _
  case removePoint r => exact .request fun u => u.removePointRule_port _
  case holdPoint r => exact .request fun u => u.holdRule_port _ _
  case releasePoint r => exact .request fun u => u.holdRule_port _ _
  case setClock r => exact .request fun u => u.setClockRule_port _
  case loadTable r => exact .request fun u => u.loadTableRule_port _
  case readTable r => exact .request fun u => u.readTableRule_port _
  case activateNow r => exact .request fun u => u.activateRule_port _
  case activateAtClose r => exact .request fun u => u.activateRule_port _
  case activateCancel r => exact .request fun u => u.activateRule_port _
  case closePeriod r => exact .request fun u => u.closePeriodRule_port
  case readout r => exact .request fun u => u.readoutRule_port _ _
  case readoutSearch =>
    refine .either ?_ (.same rfl)
    split
    · exact .searchStep s _
    · exact .same rfl
  case readoutEmit =>
    refine .either ?_ (.same rfl)
    split
    · exact .either (.same rfl) ((PortKept.emitStep s _ _).trans (.outputChoice _))
    · exact .same rfl
  case readoutEnd =>
    refine .either ?_ (.same rfl)
    split
    · split
      next hroom => exact (PortKept.queueReadoutEnd s _ _ (of_decide_eq_true hroom)).trans (.outputChoice _)
      next => exact .same rfl
    · exact .same rfl
  case abortReadout r => exact .request fun u => u.abortReadout_port
  case queryPoint r => exact .request fun u => u.queryPointRule_port _
  case queryDevice r => exact .request fun u => u.queryDeviceRule_port _
  case clearAttention r => exact .request fun u => u.clearAttentionRule_port _
  case lockClearable r => exact .request fun u => u.lockRule_port _
  case lockCommission r => exact .request fun u => u.lockRule_port _
  case unlock r => exact .request fun u => u.unlockRule_port
  case restart r => exact .request fun u => rfl
  case restartWarmStart b => exact .either (.takeWarmStart s b) (.same rfl)
  case supwarn high =>
    exact PortKept.trans (t := { s with supply := { s.supply with supwarn := high } }) (.same rfl)
      (.either (.takeWarning _) (.same rfl))
  case powerUp b =>
    exact .either (.same rfl) (PortKept.trans (t := { s with supply := { s.supply with vdd := true } }) (.same rfl)
      (.either (.takeWarmStart _ b) (.takeColdStart _ b)))
  case resetn b =>
    exact .either (.same rfl) (PortKept.trans (t := { s with supply := { s.supply with resetnLow := true } }) (.same rfl)
      (.either (.takeWarmStart _ b) (.same rfl)))
  case resetnRelease => exact .either id (.same rfl)
  case strayOctet o => exact .either id (.same rfl)
  case supplyLoss => exact .either (.started (p := s.port) rfl) (.same rfl)
  case vbakFailure => exact .either (.same rfl) (.coldDomain s false false)

/-- Taking an octet of the line moves the framer alone at the port. -/
theorem PortKept.takeOctet (s : State) : PortKept s s.takeOctet.1 := by
  unfold State.takeOctet
  split
  · exact .same rfl
  · dsimp only
    split
    · split <;> exact id
    · exact .same rfl

end Sys2Proof.Machine

namespace Sys2Proof.Proofs

open Sys2Proof.Machine

/-- Settles O53: the command in front keeps the limits, and so does an octet with the command it completes. -/
theorem stepKeepsPortWithinLimits : Obligations.StepKeepsPortWithinLimits := by
  intro s t hs h
  unfold step at h
  split at h
  next c rest _ => exact exec_portKept h hs
  next =>
    have hoctet := PortKept.takeOctet s hs
    split at h
    next u hu =>
      cases h
      rwa [hu] at hoctet
    next u c hu =>
      rw [hu] at hoctet
      exact exec_portKept h hoctet

end Sys2Proof.Proofs
end

section
/-! PROOF. The stamp of a MARK bit by bit (R166, R191; log 13). -/

namespace Sys2Proof.Machine

open Sys2Proof.Statements

/-! ## Bits and pairs of bits written -/

theorem writeBit_getLsbD {i : Nat} (hi : i < 8) (o : Byte) (b : Bool) (j : Nat) :
    (writeBit o i b).getLsbD j = if j = i then b else o.getLsbD j := by
  have hadd : (addFlag o i).getLsbD j = (o.getLsbD j || (decide (i < 8) && decide (i = j))) := hasFlag_addFlag o i j
  have hdrop : (dropFlag o i).getLsbD j = (o.getLsbD j && !decide (i = j)) := hasFlag_dropFlag o i j
  rw [decide_eq_true hi, Bool.true_and] at hadd
  have hwritten : (writeBit o i b).getLsbD j = if i = j then b else o.getLsbD j := by
    cases b with
    | false =>
      rw [writeBit, if_neg Bool.false_ne_true, hdrop]
      split <;> simp only [*, decide_true, decide_false, Bool.not_true, Bool.not_false, Bool.and_true, Bool.and_false]
    | true =>
      rw [writeBit, if_pos rfl, hadd]
      split <;> simp only [*, decide_true, decide_false, Bool.or_true, Bool.or_false]
  rw [hwritten, if_congr eq_comm rfl rfl]

theorem writePair_getLsbD {i : Nat} (hi : i + 1 < 8) (o : Byte) (v j : Nat) : (writePair o i v).getLsbD j =
    if j = i then v.testBit 0 else if j = i + 1 then v.testBit 1 else o.getLsbD j := by
  rw [writePair, writeBit_getLsbD hi, writeBit_getLsbD (Nat.lt_of_succ_lt hi)]
  by_cases hlow : j = i
  · rw [if_neg (by omega), if_pos hlow, if_pos hlow]
  · rw [if_neg hlow, if_neg hlow]

theorem TimeState.place_eq (t : TimeState) : t.place = timeCode t := by cases t <;> rfl

/-! ## The stamp -/

section
variable {s : State} (y mo d h mi at5 t6 t7 u8 : Byte)

/-- An assigned part whose time-state place lies in the low octet (R191). -/
theorem State.stampMark_low {n : Fin 8} (hn : s.decoder.station = some n) (hlow : n.val < 4) :
    s.stampMark [y, mo, d, h, mi, at5, t6, t7, u8] =
      [y, mo, d, h, mi, writeBit at5 n.val s.summary, t6, writePair t7 (2 * n.val) s.time.state.place, u8] := by
  have hplace : timePlaceOctet n = 7 := if_pos hlow
  simp only [State.stampMark, hn, hplace, Nat.mod_eq_of_lt hlow]
  rfl

/-- An assigned part whose time-state place lies in the high octet (R191). -/
theorem State.stampMark_high {n : Fin 8} (hn : s.decoder.station = some n) (hhigh : 4 ≤ n.val) :
    s.stampMark [y, mo, d, h, mi, at5, t6, t7, u8] =
      [y, mo, d, h, mi, writeBit at5 n.val s.summary, writePair t6 (2 * (n.val - 4)) s.time.state.place, t7, u8] := by
  have hplace : timePlaceOctet n = 6 := if_neg (Nat.not_lt.2 hhigh)
  have hmod : n.val % 4 = n.val - 4 := by omega
  simp only [State.stampMark, hn, hplace, hmod]
  rfl

theorem State.stampMark_unassigned (hn : s.decoder.station = none) :
    s.stampMark [y, mo, d, h, mi, at5, t6, t7, u8] = [y, mo, d, h, mi, at5, t6, t7,
      writePair (writeBit (writeBit u8 0 true) 1 (u8.getLsbD 1 || s.summary)) 2 s.time.state.place] := by
  simp only [State.stampMark, hn]
  rfl

/-- The octet of an unassigned part bit by bit (R191). -/
theorem unassignedOctet_getLsbD (summary : Bool) (v j : Nat) :
    (writePair (writeBit (writeBit u8 0 true) 1 summary) 2 v).getLsbD j =
      if j = 2 then v.testBit 0 else if j = 3 then v.testBit 1 else if j = 1 then summary
      else if j = 0 then true else u8.getLsbD j := by
  rw [writePair_getLsbD (by decide), writeBit_getLsbD (by decide), writeBit_getLsbD (by decide)]

/-- A pair written into the low octet of two is written there in the sixteen bits. -/
theorem append_writePair_low {n : Nat} (hn : n < 4) (v j : Nat) : (t6 ++ writePair t7 (2 * n) v).getLsbD j =
    if j = 2 * n then v.testBit 0 else if j = 2 * n + 1 then v.testBit 1 else (t6 ++ t7).getLsbD j := by
  rw [BitVec.getLsbD_append, BitVec.getLsbD_append, writePair_getLsbD (by omega)]
  by_cases hj : j < 8
  · rw [if_pos hj, if_pos hj]
  · rw [if_neg hj, if_neg hj, if_neg (by omega), if_neg (by omega)]

/-- A pair written into the high octet of two is written eight places up in the sixteen bits. -/
theorem append_writePair_high {n : Nat} (hn : 4 ≤ n) (hn' : n < 8) (v j : Nat) :
    (writePair t6 (2 * (n - 4)) v ++ t7).getLsbD j =
      if j = 2 * n then v.testBit 0 else if j = 2 * n + 1 then v.testBit 1 else (t6 ++ t7).getLsbD j := by
  rw [BitVec.getLsbD_append, BitVec.getLsbD_append, writePair_getLsbD (by omega)]
  by_cases hj : j < 8
  · rw [if_pos hj, if_pos hj, if_neg (by omega), if_neg (by omega)]
  · have hlower : j - 8 = 2 * (n - 4) ↔ j = 2 * n := by omega
    have hupper : j - 8 = 2 * (n - 4) + 1 ↔ j = 2 * n + 1 := by omega
    rw [if_neg hj, if_neg hj, if_congr hlower rfl (if_congr hupper rfl rfl)]

end

end Sys2Proof.Machine

namespace Sys2Proof.Proofs

open Sys2Proof.Machine Sys2Proof.Statements

/-- Settles O47, by the station: none, one whose time-state place is in the low octet, one whose place is in the high. -/
theorem markStampedInItsOwnPlaces : Obligations.MarkStampedInItsOwnPlaces := by
  intro s y mo d h mi at5 t6 t7 u8
  rw [← TimeState.place_eq]
  cases hs : s.decoder.station with
  | none =>
    refine ⟨_, _, _, _, State.stampMark_unassigned y mo d h mi at5 t6 t7 u8 hs, (fun n hn => nomatch hn),
      fun _ => ⟨rfl, rfl, rfl, ?_⟩⟩
    simp only [unassignedOctet_getLsbD]
    refine ⟨rfl, rfl, rfl, rfl, fun b hb => ?_⟩
    rw [if_neg (by omega), if_neg (by omega), if_neg (by omega), if_neg (by omega)]
  | some n =>
    have hattention (b : Nat) (_ : b < 8) := writeBit_getLsbD n.isLt at5 s.summary b
    by_cases hlow : n.val < 4
    · refine ⟨_, _, _, _, State.stampMark_low y mo d h mi at5 t6 t7 u8 hs hlow, fun m hm => ?_, fun hn => nomatch hn⟩
      cases hm
      exact ⟨rfl, hattention, fun b _ => append_writePair_low t6 t7 hlow _ b⟩
    · have hhigh := Nat.not_lt.1 hlow
      refine ⟨_, _, _, _, State.stampMark_high y mo d h mi at5 t6 t7 u8 hs hhigh, fun m hm => ?_, fun hn => nomatch hn⟩
      cases hm
      exact ⟨rfl, hattention, fun b _ => append_writePair_high t6 t7 hhigh n.isLt _ b⟩

end Sys2Proof.Proofs
end

section
/-! PROOF. The octets and frames the part takes one by one: a step on an empty queue, discards and strays, requests that
find the queue full or that name no kind, and the device's own requests IDENT, ACK START and ASSIGN STATION (R160 to R165,
R172 to R175, R185). -/

namespace Sys2Proof.Machine

open Sys2Proof.Statements

/-! ## Octets of the line (R160, R185) -/

section
variable {s : State} {o : Byte} {rest : List Byte}

theorem State.takeOctet_none (h : s.lineIn = []) : s.takeOctet = (s, none) := by
  rw [State.takeOctet, h]

theorem State.takeOctet_dropped (h : s.lineIn = o :: rest) (hs : s.live = false) :
    s.takeOctet = ({ s with lineIn := rest }, none) := by
  have hdead : State.live { s with lineIn := rest } = false := hs
  simp only [State.takeOctet, h, hdead, Bool.false_eq_true, if_false]

theorem State.takeOctet_framed {framer : Framer} (h : s.lineIn = o :: rest) (hs : s.live = true)
    (hstep : s.port.framer.step o = (framer, none)) :
    s.takeOctet = ({ s with lineIn := rest, port := { s.port with framer := framer } }, none) := by
  have hlive : State.live { s with lineIn := rest } = true := hs
  simp only [State.takeOctet, h, hlive, if_true, hstep]

theorem State.takeOctet_completes {framer : Framer} {event : FramerEvent} (h : s.lineIn = o :: rest)
    (hs : s.live = true) (hstep : s.port.framer.step o = (framer, some event)) : s.takeOctet =
      ({ s with lineIn := rest, port := { s.port with framer := framer }, freeIndex := s.freeIndex + 1 },
        some (event.command (Config.clockOrder s.freeIndex))) := by
  have hlive : State.live { s with lineIn := rest } = true := hs
  simp only [State.takeOctet, h, hlive, if_true, hstep]

theorem step_idle {t : State} (hp : s.pending = []) (h : s.takeOctet = (t, none)) : step s = .next t := by
  simp only [step, hp, h]

theorem step_completes {t : State} {c : Instr} (hp : s.pending = []) (h : s.takeOctet = (t, some c)) :
    step s = exec c t := by
  simp only [step, hp, h]

end

/-! ## Discards and strays (R162) -/

section
variable {s : State}

theorem exec_frameDiscard (hs : Live s) (fault : DiscardFault) :
    exec (.frameDiscard fault) s = .next (s.discardFrame fault) :=
  congrArg Host.Outcome.next (if_pos (live_iff.2 hs))

/-- The line falls quiet after octets that complete nothing: inside a frame it is truncated. -/
theorem exec_truncatedFrame (hs : Live s) {octets : List Byte} {framer : Framer}
    (h : s.port.framer.feed octets = some framer) :
    exec (.truncatedFrame octets) s = .next (if framer = .hunt then s else s.truncateFrame) := by
  simp only [exec, execTruncatedFrame, live_iff.2 hs, if_true, h]
  cases framer <;> rfl

theorem exec_strayOctet (hs : Live s) {o : Byte} (hhunt : s.port.framer = .hunt) (hsync : o ≠ syncOctet)
    (hfill : o ≠ 0) :
    exec (.strayOctet o) s = .next { s with port := { s.port with
      counters := { s.port.counters with stray := bump s.port.counters.stray } } } :=
  congrArg Host.Outcome.next (if_pos ⟨live_iff.2 hs, hhunt, hsync, hfill⟩)

/-! ## Requests that find the queue full (R165) -/

theorem State.replyRoom_full (h : s.port.queue.length = 8) : s.replyRoom = false :=
  decide_eq_false (by rw [h]; decide)

theorem State.takeRequest_full {k : RequestKind} {r : Request} {rule : State → Answer} (hs : Live s)
    (hr : r.args.length ≤ 248) (hfull : s.port.queue.length = 8) :
    s.takeRequest k r true rule = s.huntFramer.requestOverrun := by
  have hroom : s.huntFramer.replyRoom = false := State.replyRoom_full hfull
  rw [State.takeRequest, State.receive_good _ (live_iff.2 hs) (Request.frame_lengthOk k r (decide_eq_true hr)),
    if_pos rfl, hroom]
  exact if_neg Bool.false_ne_true

/-! ## Requests of no known kind (R165, R172) -/

/-- An UNKNOWN_REQUEST for the station is answered where a place is free, else dropped. -/
theorem exec_unknownRequest_station {a : Byte} {p : List Byte} (hs : Live s) (hp : p.length ≤ 250)
    (hu : unknownPayload p = true) (ha : AddressedTo s a) : exec (.unknownRequest a p) s =
      .next (if s.replyRoom then (hunting s).answerUnknown p else (hunting s).requestOverrun) := by
  have hstation : s.huntFramer.isStation a = true := isStation_addressed ha
  rw [exec_unknownRequest hu, State.receive_good _ (live_iff.2 hs) (request_lengthOk a hp), if_pos hstation]
  rfl

theorem State.answerUnknown_short (s : State) {p : List Byte} (h : p.length < 2) :
    s.answerUnknown p = s.queueInsert { frame := s.replyFrame 0 0 .length [], restartReply := false } := by
  match p, h with
  | [], _ => rfl
  | [_], _ => rfl

theorem State.answerUnknown_kind (s : State) (tag code : Byte) (rest : List Byte) :
    s.answerUnknown (tag :: code :: rest) =
      s.queueInsert { frame := s.replyFrame tag code .unknown [], restartReply := false } := rfl

theorem unknownPayload_short {p : List Byte} (h : p.length < 2) : unknownPayload p = true := by
  match p, h with
  | [], _ => rfl
  | [_], _ => rfl

theorem unknownPayload_kind {code : Byte} (h : RequestKind.ofCode code = none) (tag : Byte) (rest : List Byte) :
    unknownPayload (tag :: code :: rest) = true := by
  rw [unknownPayload, h]; rfl

/-! ## IDENT, ACK START and ASSIGN STATION (R163, R164, R174, R175) -/

theorem exec_ident {r : Request} (h : Ready s r) (ha : r.args = []) : exec (.ident r) s =
    .next (answered (hunting s) r .ident .ok (beBytes 2 Config.partCode ++
      [Config.revision, (hunting s).stationOctet, oct s.time.state.place] ++ beBytes 2 s.close.devicePeriod.toNat)) :=
  request_taken (k := .ident) (rule := fun u _ => Answer.taken u (beBytes 2 Config.partCode ++
    [Config.revision, u.stationOctet, oct u.time.state.place] ++ beBytes 2 u.close.devicePeriod.toNat)) h ha rfl rfl

theorem exec_ackStart {r : Request} (h : Ready s r) (ha : r.args = []) : exec (.ackStart r) s =
    .next (answered { hunting s with decoder := { s.decoder with startAck := true } } r .ackStart .ok []) :=
  request_taken (k := .ackStart) (rule := fun u _ =>
    Answer.taken { u with decoder := { u.decoder with startAck := true } } []) h ha rfl rfl

/-- ASSIGN STATION that is for this part, with a place free for its reply. -/
theorem exec_assignStation_rule {r : Request} {n : Byte} (hs : Live s) (hroom : s.port.queue.length < 8)
    (ha : r.args = [n]) (hus : AddressedTo s r.address ∨ r.address = 0xFF ∧ s.decoder.station = none) :
    exec (.assignStation r) s =
      .next (((hunting s).assignRule [n]).reply r.tag RequestKind.assignStation.code) := by
  have hforUs : (s.isStation r.address || s.isOpenAssign r.address) = true := by
    rwa [Bool.or_eq_true, isStation_iff, isOpenAssign_iff]
  have hfits : r.fits = true := by simp [Request.fits, ha]
  have htaken := State.takeRequest_rule (k := .assignStation) (fun s => s.assignRule r.args) (live_iff.2 hs)
    (Request.frame_lengthOk _ r hfits) hroom (fun m hm => by cases hm; rw [ha]; rfl)
  show Host.Outcome.next (s.takeRequest .assignStation r (s.isStation r.address || s.isOpenAssign r.address) _) = _
  rw [hforUs, htaken, ha]
  rfl

theorem State.assignRule_taken (h : s.decoder.station = none) (m : Fin 8) : s.assignRule [oct m.val] =
    Answer.taken { s with decoder := { s.decoder with station := some m } } [] := by
  rw [State.assignRule, octetAt_cons_zero, finOf_oct (by decide), h]

theorem State.assignRule_over {n : Byte} (h : 7 < n.toNat) : s.assignRule [n] = Answer.refusal s .range := by
  rw [State.assignRule, octetAt_cons_zero, finOf_eq_none.2 h]
  cases s.decoder.station <;> rfl

theorem State.assignRule_assigned {m : Fin 8} (h : s.decoder.station = some m) (os : List Byte) :
    s.assignRule os = Answer.refusal s .range := by
  rw [State.assignRule, h]

end

end Sys2Proof.Machine

namespace Sys2Proof.Proofs

open Sys2Proof.Machine Sys2Proof.Statements

/-- Settles O2, by what the framer does with the octet. -/
theorem emptyQueueTakesOneOctet : Obligations.EmptyQueueTakesOneOctet := by
  intro s hp
  refine ⟨fun hline => step_idle hp (State.takeOctet_none hline), fun o rest hline => ⟨fun hdead => ?_, fun hs fr =>
    ⟨fun hstep => step_idle hp (State.takeOctet_framed hline (live_iff.2 hs) hstep), fun e hstep => ?_⟩⟩⟩
  · exact step_idle hp (State.takeOctet_dropped hline (Bool.eq_false_iff.2 (mt live_iff.1 hdead)))
  · rw [step_completes hp (State.takeOctet_completes hline (live_iff.2 hs) hstep)]
    cases e <;> rfl

/-- Settles O7: each command by its own equation. -/
theorem discardsAndStraysCounted : Obligations.DiscardsAndStraysCounted := by
  intro s hs
  exact ⟨exec_frameDiscard hs .crcError, exec_frameDiscard hs .malformed, fun octets fr h => exec_truncatedFrame hs h,
    fun o hhunt hsync hfill => exec_strayOctet hs hhunt hsync hfill⟩

/-- Settles O12: every request that is for this part goes the common way, and finds no place. -/
theorem fullQueueDropsRequest : Obligations.FullQueueDropsRequest := by
  intro s hs hfull dropped
  refine ⟨fun k r hr ha => ?_, fun r hr haddress hnone => ?_, fun a p hp hu ha => ?_⟩
  · obtain ⟨forUs, rule, hus, e⟩ := exec_requestCommand k r s
    rw [e, hus (isStation_addressed ha), State.takeRequest_full hs hr hfull]
    rfl
  · obtain ⟨rule, e⟩ := exec_requestCommand_forUs .assignStation r s
    have hopen : s.isOpenAssign r.address = true := isOpenAssign_iff.2 ⟨haddress, hnone⟩
    rw [hopen, decide_eq_true rfl, Bool.and_self, Bool.or_true, State.takeRequest_full hs hr hfull] at e
    exact e
  · rw [exec_unknownRequest_station hs hp hu ha, State.replyRoom_full hfull]
    rfl

/-- Settles O13: the two payloads an UNKNOWN_REQUEST can have, and the codes that name a kind. -/
theorem unknownRequestAnswered : Obligations.UnknownRequestAnswered := by
  intro s a p hs ha hqueue hp
  have hroom : s.replyRoom = true := decide_eq_true hqueue
  refine ⟨fun hshort => ?_, fun tag code rest hpayload hcode => ?_, rfl, fun code k => ?_⟩
  · rw [exec_unknownRequest_station hs hp (unknownPayload_short hshort) ha, if_pos hroom,
      State.answerUnknown_short _ hshort]
  · subst hpayload
    rw [exec_unknownRequest_station hs hp (unknownPayload_kind hcode tag rest) ha, if_pos hroom,
      State.answerUnknown_kind]
  · rw [RequestKind.ofCode_iff, RequestKind.code_eq]

/-- Settles O18: IDENT and ACK START are taken; ASSIGN STATION by the station the part has and the argument. -/
theorem identAckAndStationAnswered : Obligations.IdentAckAndStationAnswered := by
  refine ⟨fun s r h ha => ⟨fun n hn => ?_, ?_⟩, fun s r n hs hroom ha => ⟨fun haddress hnone => ?_,
    fun ⟨m, hm, haddress⟩ => ?_⟩⟩
  · rw [exec_ident h ha, (hunting s).stationOctet_eq.1 n hn]
    cases s.time.state <;> rfl
  · exact exec_ackStart h ha
  · rw [exec_assignStation_rule hs hroom ha (.inr ⟨haddress, hnone⟩)]
    refine ⟨fun m hm => ?_, fun hover => ?_⟩
    · rw [hm, State.assignRule_taken (s := hunting s) hnone m, reply_taken]
    · rw [State.assignRule_over hover, reply_refusal]
      rfl
  · rw [exec_assignStation_rule hs hroom ha (.inl ⟨m, hm, haddress⟩), State.assignRule_assigned (s := hunting s) hm,
      reply_refusal]
    rfl

end Sys2Proof.Proofs
end

section
/-! PROOF. The requests that report, clear or restart: RESTART and its warm start, QUERY POINT, QUERY DEVICE and CLEAR
ATTENTION, each with its effect and the octets of its reply (R170, R176 to R181, R185, R190, R193). -/

namespace Sys2Proof.Machine

open Sys2Proof.Statements

/-! ## RESTART and the start it waits for (R176, R185) -/

section
variable {s : State} {r : Request}

theorem exec_restart (h : Ready s r) (ha : r.args = []) : exec (.restart r) s = .next (State.queueInsert
    { hunting s with decoder := { s.decoder with restartPending := true } }
    { frame := (hunting s).replyFrame r.tag 0x48 .ok [], restartReply := !s.decoder.restartPending }) :=
  congrArg Host.Outcome.next (request_reply (k := .restart) (rule := fun u _ =>
    { Answer.taken { u with decoder := { u.decoder with restartPending := true } } [] with
      restartReply := !u.decoder.restartPending }) h ha rfl)

section
variable {q : QueuedFrame} (hq : s.port.transmitter = .sending q) (hrestart : q.restartReply = true)
include hq hrestart

/-- The last octet of the marked reply is the event of the start (log 8). -/
theorem exec_frameSent_restart : exec .frameSent s = .next s.warmStart := by
  simp only [exec, execFrameSent, hq, hrestart, if_true]

theorem exec_restartWarmStart : exec (.restartWarmStart none) s = .next s.warmStart := by
  simp only [exec, execRestartWarmStart, State.sendingRestartReply, hq, hrestart, if_true, State.takeWarmStart]

end

/-! ## A query: the reply is built before the clear (R177, R178) -/

/-- The reply shows the state before what its request clears. -/
theorem reply_cleared {k : RequestKind} (u t : State) (data : List Byte) :
    ({ Answer.taken u data with final := t } : Answer).reply r.tag k.code =
      t.queueInsert { frame := u.replyFrame r.tag k.code .ok data, restartReply := false } := rfl

/-- QUERY POINT's answer, by the view and the clear its two options name. -/
theorem State.queryPointRule_view {u : State} {i : Fin 32} {p : Point} (hp : u.points[i] = some p)
    (clear period : Bool) :
    u.queryPointRule [oct i.val, oct ((if clear then 1 else 0) + (if period then 2 else 0))] =
      { Answer.taken u (if period then p.periodView i (u.optionOf p) else p.contextView i) with
        final := if clear then u.setPoint i (some { p with status := 0 }) else u } := by
  obtain ⟨hfour, hclear, hperiod⟩ := readoutFlags_bits clear period
  have hoptions (o o' : Byte) : octetAt [o, o'] 1 = o' := rfl
  simp only [State.queryPointRule, octetAt_cons_zero, hoptions, finOf_point, if_pos hfour, hp, hclear, hperiod]

theorem exec_queryPoint {i : Fin 32} {p : Point} (h : Ready s r) (hp : s.points[i] = some p) (clear period : Bool)
    (ha : r.args = [oct i.val, oct ((if clear then 1 else 0) + (if period then 2 else 0))]) :
    exec (.queryPoint r) s = .next (State.queueInsert
      { hunting s with points := if clear then s.points.set i (some { p with status := 0 }) else s.points }
      { frame := (hunting s).replyFrame r.tag 0x38 .ok
          (if period then p.periodView i (optionIn s p) else p.contextView i)
        restartReply := false }) := by
  have hrule := State.queryPointRule_view (u := hunting s) hp clear period
  refine congrArg Host.Outcome.next
    ((request_reply (k := .queryPoint) (rule := State.queryPointRule) h ha rfl).trans ?_)
  rw [hrule, reply_cleared]
  cases clear <;> rfl

theorem State.queryDeviceRule_data (u : State) (clear : Bool) : u.queryDeviceRule [octBool clear] =
    { Answer.taken u u.deviceData with
      final := if clear then { u with attention := { u.attention with flags := 0 } } else u } := by
  simp only [State.queryDeviceRule, octetAt_cons_zero, boolOf_octBool]

theorem exec_queryDevice (h : Ready s r) (clear : Bool) (ha : r.args = [octBool clear]) :
    exec (.queryDevice r) s = .next (State.queueInsert
      { hunting s with attention := { s.attention with flags := if clear then 0 else s.attention.flags } }
      { frame := (hunting s).replyFrame r.tag 0x39 .ok (hunting s).deviceData, restartReply := false }) := by
  refine congrArg Host.Outcome.next
    ((request_reply (k := .queryDevice) (rule := State.queryDeviceRule) h ha rfl).trans ?_)
  rw [State.queryDeviceRule_data, reply_cleared]
  cases clear <;> rfl

end

/-! ## The views of a point (R193) -/

section
variable (i : Fin 32) (p : Point)

theorem Point.stateOctet_eq : p.stateOctet = oct (stateCode p) := by
  have hstate : p.state.octet.toNat =
      if p.operator = true ∨ p.conflict = true then 3 else if p.config.lossLimit ≤ p.missingCount then 2 else 1 := by
    simp only [Point.state, Point.held, Point.inLoss, Bool.or_eq_true, decide_eq_true_eq]
    split_ifs <;> rfl
  have hbit (n : Nat) (b : Bool) : (if b then n else 0) = n * bit b := by cases b <;> simp [bit]
  rw [Point.stateOctet, hstate, hbit, hbit, stateCode]

/-- A presence octet has weight 2^n at its n-th bit. -/
theorem bitsOctet_six (a b c d e f : Bool) : bitsOctet [a, b, c, d, e, f] =
    oct (bit a + 2 * bit b + 4 * bit c + 8 * bit d + 16 * bit e + 32 * bit f) := by
  have hbit (x : Bool) : (if x then 1 else 0) = bit x := rfl
  simp only [bitsOctet, List.foldr_cons, List.foldr_nil, hbit]
  congr 1
  omega

/-- What is absent is sent as 0, as the value would be whose octets are all 0. -/
theorem orZeros_getD {α : Type} {n : Nat} {f : α → List Byte} {zero : α} (h : f zero = List.replicate n 0)
    (x : Option α) : orZeros n f x = f (x.getD zero) := by
  cases x with
  | none => exact h.symm
  | some a => rfl

theorem orZeros_present (x : Option PresentDemand) :
    orZeros 9 (fun d => beBytes 5 d.demand ++ stampOctets (some d.stamp)) x =
      beBytes 5 ((x.map (·.demand)).getD 0) ++ beBytes 4 ((x.map (·.stamp.minutes)).getD 0) := by
  cases x <;> rfl

/-- What the view shows where no sub-interval is open. -/
abbrev noSubInterval : SubInterval :=
  { energy := { ai := 0, ae := 0, rl := 0, rc := 0 }, ratePeriod := 0, quality := 0, accepted := false }

theorem contextView_octets : p.contextView i = (contextFields i p).flatMap fieldOctets := by
  have hbaselines := orZeros_getD (n := 16) (f := registerOctets) (zero := { ai := 0, ae := 0, rl := 0, rc := 0 }) rfl
    p.baselines
  have hsub := orZeros_getD (n := 18) (zero := noSubInterval)
    (f := fun b => energyOctets 4 b.energy ++ [oct b.ratePeriod.val, oct b.quality.toNat]) (by rfl) p.sub
  have haccepted : (p.sub.map (·.accepted)).getD false = (p.sub.getD noSubInterval).accepted :=
    Option.getD_map (·.accepted) noSubInterval p.sub
  simp only [Point.contextView, Point.viewHead, Point.stateOctet_eq, bitsOctet_six, hbaselines, registerOctets,
    haccepted, hsub, orZeros_present, residueOctet_code, octBool_bit, contextFields, configFields_octets,
    energyFields_octets, List.flatMap_append, List.flatMap_cons, List.flatMap_nil, fieldOctets, beBytes_one, oct_toNat,
    List.append_assoc, List.cons_append, List.nil_append, List.append_nil]

theorem contextFields_inRow : InRow 0 (contextFields i p) := by
  simp [contextFields, configFields, energyFields, InRow]

theorem contextFields_width : ((contextFields i p).map (·.2.1)).sum = 82 := by
  simp [contextFields, configFields, energyFields]

theorem periodView_octets (s : State) :
    p.periodView i (optionIn s p) = (periodFields i p (optionIn s p)).flatMap fieldOctets := by
  have hexcess : periodExcess (optionIn s p) p.totals p.unattributed p.excessSum = excessUnder (optionIn s p) p :=
    s.excessOf_eq p
  simp only [Point.periodView, Point.viewHead, Point.stateOctet_eq, hexcess, maxima_toList, List.map_cons,
    List.map_nil, List.flatten_cons, List.flatten_nil, periodFields, List.flatMap_append, maximumFields_octets,
    energyFields_octets, counterFields_octets, ratchetFields_octets, List.flatMap_cons, fieldOctets, beBytes_one,
    List.append_assoc, List.cons_append, List.nil_append, List.append_nil]

theorem ratchetFields_inRow (l : List Nat) (n : Nat) : InRow n (l.mapIdx (fun k v => (n + 5 * k, 5, v))) := by
  induction l generalizing n with
  | nil => trivial
  | cons v l ih =>
    have hnext : (fun k (w : Nat) => (n + 5 * (k + 1), 5, w)) = fun k w => (n + 5 + 5 * k, 5, w) := by
      funext k w
      rw [Nat.mul_succ, Nat.add_comm (5 * k) 5, Nat.add_assoc]
    rw [List.mapIdx_cons, hnext]
    exact ⟨rfl, ih (n + 5)⟩

theorem ratchetFields_width (l : List Nat) (n : Nat) :
    ((l.mapIdx (fun k v => (n + 5 * k, 5, v))).map (·.2.1)).sum = 5 * l.length := by
  have hwidths : (l.mapIdx (fun k v => (n + 5 * k, 5, v))).map (·.2.1) = List.replicate l.length 5 :=
    List.ext_getElem (by simp) fun k _ _ => by simp
  rw [hwidths, List.sum_replicate, smul_eq_mul, Nat.mul_comm]

theorem periodFields_inRow (option : Option PenaltyOption) : InRow 0 (periodFields i p option) := by
  rw [periodFields, inRow_append]
  constructor
  · simp [maximumFields, energyFields, counterFields, InRow]
  · convert ratchetFields_inRow p.ratchet 154 using 1
    simp [maximumFields, energyFields, counterFields]

theorem periodFields_width (option : Option PenaltyOption) (h : p.ratchet.length = 12) :
    ((periodFields i p option).map (·.2.1)).sum = 214 := by
  rw [periodFields, List.map_append, List.sum_append, ratchetFields_width, h]
  simp [maximumFields, energyFields, counterFields]

end

/-! ## QUERY DEVICE's data (R193) -/

theorem clocks_toList (v : Vector Clock 4) : v.toList = [v[0], v[1], v[2], v[3]] := by
  obtain ⟨⟨l⟩, hl⟩ := v
  match l, hl with
  | [_, _, _, _], _ => rfl

theorem monthOctets_code (m : Option YearMonth) :
    monthOctets m = [oct ((m.map (·.year - 2000)).getD 0xFF), oct ((m.map (·.month)).getD 0xFF)] := by
  cases m <;> rfl

theorem EndReason.octet_code (e : Option EndReason) :
    (e.map EndReason.octet).getD 0 = oct ((e.map endCode).getD 0) := by
  rcases e with _ | e
  · rfl
  · cases e <;> rfl

theorem readout_octets (s : State) : s.readout.octets =
    oct (phaseCode s.readout.phase) :: (beBytes 2 (((jobOf s).map (·.current.toNat)).getD 0) ++
      (beBytes 2 (((jobOf s).map (·.sent)).getD 0) ++ [oct ((s.readout.lastEnd.map endCode).getD 0)])) := by
  rw [ReadoutUnit.octets, EndReason.octet_code, jobOf]
  cases s.readout.phase <;> rfl

theorem locksOctet_code (s : State) :
    s.locksOctet = oct (bit s.decoder.clearable + 2 * bit s.decoder.commissioning) := by
  rw [State.locksOctet]
  cases s.decoder.clearable <;> cases s.decoder.commissioning <;> rfl

theorem periodAt_code (h : History) (slot : Fin 384) :
    (h.periodAt slot).toNat = ((slotPeriod h slot).map (·.toNat)).getD 0 := by
  rw [History.periodAt, slotPeriod]
  cases h.slots[slot] <;> rfl

theorem newestPeriod_code (h : History) : h.newestPeriod.toNat =
    if h.valid = 0 then 0 else ((slotPeriod h (h.slotBack 0)).map (·.toNat)).getD 0 := by
  rw [History.newestPeriod, ← periodAt_code]
  split <;> rfl

theorem oldestPeriod_code (h : History) : h.oldestPeriod.toNat =
    if h.valid = 0 then 0 else ((slotPeriod h (h.slotBack (h.valid - 1))).map (·.toNat)).getD 0 := by
  rw [History.oldestPeriod, ← periodAt_code]
  split <;> rfl

theorem deviceData_octets (s : State) : s.deviceData = (deviceFields s).flatMap fieldOctets := by
  simp only [State.deviceData, TimeBase.octets, CloseUnit.octets, History.octets, LinkCounters.octets,
    State.attentionOctets, State.markOctet, readout_octets, locksOctet_code, TimeState.place_eq, monthOctets_code,
    newestPeriod_code, oldestPeriod_code, clocks_toList, List.map_cons, List.map_nil, List.flatten_cons,
    List.flatten_nil, stampOctets_code, octBool_bit, deviceFields, List.flatMap_append, clockFields_octets,
    List.flatMap_cons, List.flatMap_nil, fieldOctets, beBytes_one, List.append_assoc, List.cons_append,
    List.nil_append, List.append_nil]

theorem deviceFields_inRow (s : State) : InRow 0 (deviceFields s) := by
  simp [deviceFields, clockFields, InRow]

theorem deviceFields_width (s : State) : ((deviceFields s).map (·.2.1)).sum = 122 := by
  simp [deviceFields, clockFields]

/-! ## Numbers in octets (R190) -/

/-- The k-th octet of a number has the weight of the octets that follow it. -/
theorem beBytes_getElem? {n k : Nat} (v : Nat) (h : k < n) :
    (beBytes n v)[k]? = some (oct (v / 256 ^ (n - 1 - k))) := by
  induction n generalizing k with
  | zero => exact absurd h (Nat.not_lt_zero k)
  | succ n ih =>
    cases k with
    | zero => rfl
    | succ k =>
      rw [beBytes, List.getElem?_cons_succ, ih (Nat.lt_of_succ_lt_succ h), Nat.add_sub_cancel, Nat.sub_sub,
        Nat.add_comm 1 k]

/-! ## The attention bits (R180, R181, R190) -/

/-- A set filled by a test over a list has a member that it had or that passes the test. -/
theorem foldl_addFlag {n : Nat} (test : Fin n → Bool) (l : List (Fin n)) (b : BitVec n) (j : Fin n) :
    hasFlag (l.foldl (fun b i => if test i then addFlag b i.val else b) b) j.val = true ↔
      hasFlag b j.val = true ∨ j ∈ l ∧ test j = true := by
  induction l generalizing b with
  | nil => simp
  | cons i l ih =>
    rw [List.foldl_cons, ih]
    by_cases hij : j = i
    · subst hij
      cases htest : test j <;> simp [hasFlag_addFlag]
    · have hne : i.val ≠ j.val := fun e => hij (Fin.ext e.symm)
      cases htest : test i <;> simp [hasFlag_addFlag, hne, hij]

theorem State.pointBits_iff (s : State) (i : Fin 32) :
    s.pointBits.getLsbD i.val = true ↔ ∃ p ∈ s.points[i], p.attention = true := by
  have hpoint : (s.points[i].map (·.attention)).getD false = true ↔ ∃ p ∈ s.points[i], p.attention = true := by
    cases s.points[i] <;> simp
  have hbits := foldl_addFlag (fun i => (s.points[i].map (·.attention)).getD false) allPoints 0 i
  rw [hpoint] at hbits
  refine hbits.trans (Iff.trans (or_iff_right ?_) (and_iff_right (List.mem_finRange i)))
  simp [hasFlag]

/-! ## CLEAR ATTENTION (R180) -/

section
variable (set : BitVec 32) (clear write : Bool) (mask : BitVec 11)

/-- CLEAR ATTENTION's seven octets are read as what they carry. -/
theorem parseClear_octets : parseClear (beBytes 4 set.toNat ++
      [oct ((if clear then 1 else 0) + (if write then 2 else 0))] ++ beBytes 2 mask.toNat) =
    some { points := set, deviceClear := clear, maskWrite := write, mask := mask } := by
  generalize hos : beBytes 4 set.toNat ++ [oct ((if clear then 1 else 0) + (if write then 2 else 0))] ++
    beBytes 2 mask.toNat = os
  have hpoints : field os 0 4 = set.toNat := by rw [← hos]; exact beNat_beBytes (n := 4) set.isLt
  have hflags : octetAt os 4 = oct ((if clear then 1 else 0) + (if write then 2 else 0)) := by rw [← hos]; rfl
  have hmask : field os 5 2 = mask.toNat := by
    rw [← hos]; exact beNat_beBytes (n := 2) (mask.isLt.trans (by decide))
  obtain ⟨hfour, hclear, hwrite⟩ := readoutFlags_bits clear write
  simp only [parseClear, hpoints, hflags, hmask, hclear, hwrite, if_pos (And.intro hfour mask.isLt),
    BitVec.ofNat_toNat, BitVec.setWidth_eq]

theorem State.applyClear_point (s : State) (a : ClearArgs) (i : Fin 32) : (s.applyClear a).points[i] =
    s.points[i].map (fun p => { p with attention := p.attention && !a.points.getLsbD i.val }) := by
  have hmapped : (s.applyClear a).points[i] = if hasFlag a.points i.val
      then s.points[i].map (fun p => { p with attention := false }) else s.points[i] := by
    simp [State.applyClear, State.clearPoints]
  rw [hmapped, hasFlag]
  cases a.points.getLsbD i.val <;> simp

theorem exec_clearAttention {s : State} {r : Request} (h : Ready s r) (ha : r.args = beBytes 4 set.toNat ++
      [oct ((if clear then 1 else 0) + (if write then 2 else 0))] ++ beBytes 2 mask.toNat) {u : State}
    (hu : u = (hunting s).applyClear
      { points := set, deviceClear := clear, maskWrite := write, mask := mask }) :
    exec (.clearAttention r) s = .next (answered u r .clearAttention .ok
      (beBytes 2 u.attention.mask.toNat ++ [octBool u.attention.bit] ++ beBytes 4 u.pointBits.toNat)) := by
  refine request_taken (k := .clearAttention) (rule := State.clearAttentionRule) h ha rfl ?_
  rw [State.clearAttentionRule, parseClear_octets, hu]

end

end Sys2Proof.Machine

namespace Sys2Proof.Proofs

open Sys2Proof.Machine Sys2Proof.Statements

/-- Settles O19: the request, and the two events of the marked reply's departure. -/
theorem restartWaitsForItsReply : Obligations.RestartWaitsForItsReply :=
  ⟨fun _ _ => exec_restart, fun _ _ hq hrestart =>
    ⟨exec_frameSent_restart hq hrestart, exec_restartWarmStart hq hrestart⟩⟩

/-- Settles O39: the request by its options, and each view field by field, one after the other. -/
theorem queryPointReportsThenClears : Obligations.QueryPointReportsThenClears := by
  intro s r i p clear period h hp ha
  refine ⟨exec_queryPoint h hp clear period ha, ⟨?_, ?_⟩, fun hratchet view hview => ?_⟩
  · rw [length_of_row (contextView_octets i p), contextFields_width]
  · exact holds_of_row (contextFields_inRow i p) (contextView_octets i p)
  · have hoctets := hview.trans (periodView_octets i p s)
    exact ⟨(length_of_row hoctets).trans (periodFields_width i p _ hratchet),
      holds_of_row (periodFields_inRow i p _) hoctets⟩

/-- Settles O41: the state after the clear is `State.applyClear`'s, read back item by item. -/
theorem clearAttentionClearsBits : Obligations.ClearAttentionClearsBits := by
  intro s r set clear write mask h ha
  refine ⟨_, exec_clearAttention set clear write mask h ha rfl, rfl, rfl, ?_, rfl, State.applyClear_point _ _,
    State.pointBits_iff _, fun v => ⟨v.summary_iff, fun hvdd => ?_, fun hvdd => ?_⟩⟩
  · cases clear
    · exact (Bool.and_true _).symm
    · exact (Bool.and_false _).symm
  · rw [State.alert, hvdd, Bool.true_and]
  · rw [State.alert, hvdd, Bool.false_and]

/-- Settles O40: the request, the data field by field, and how each kind of item is written. -/
theorem queryDeviceReportsThenClears : Obligations.QueryDeviceReportsThenClears := by
  intro s r clear h ha
  have hoctets : (hunting s).deviceData = (deviceFields s).flatMap fieldOctets := deviceData_octets (hunting s)
  refine ⟨exec_queryDevice h clear ha, ?_, holds_of_row (deviceFields_inRow s) hoctets, s.pointBits_iff,
    fun n v => ⟨beBytes_length n v, fun k => beBytes_getElem? v⟩, fun v => BitVec.toNat_ofNat v 8, octBool_bit,
    stampOctets_code⟩
  rw [length_of_row hoctets, deviceFields_width]

end Sys2Proof.Proofs
end

section
/-! PROOF. The queue of commands and the line through every command, what a part that is held or unsupplied takes, and
the state after reset (R183, R185, R188). -/

namespace Sys2Proof.Machine

open Sys2Proof.Statements

/-! ## The queue and the line -/

/-- The commands that wait and the octets on the line are as they were. -/
def QueuesKept (s t : State) : Prop := t.pending = s.pending ∧ t.lineIn = s.lineIn

section
variable {s t u : State}

theorem QueuesKept.refl (s : State) : QueuesKept s s := ⟨rfl, rfl⟩

theorem QueuesKept.trans (h : QueuesKept s t) (g : QueuesKept t u) : QueuesKept s u :=
  ⟨g.1.trans h.1, g.2.trans h.2⟩

theorem LoopFrame.queuesKept (h : LoopFrame s t) : QueuesKept s t := ⟨h.pending, h.lineIn⟩

theorem LinkFrame.queuesKept (h : LinkFrame s t) : QueuesKept s t := ⟨h.pending, h.lineIn⟩

theorem MeterFrame.queuesKept (h : MeterFrame s t) : QueuesKept s t := ⟨h.pending, h.lineIn⟩

theorem TimedFrame.queuesKept (h : TimedFrame s t) : QueuesKept s t := by
  rw [TimedFrame] at h
  rw [h]
  exact .refl s

theorem QueuesKept.warmStart (s : State) : QueuesKept s s.warmStart := by
  have hblocks : QueuesKept s s.warmBlocks := .refl s
  have hclosed := (MeterFrame.warmClose s.warmBlocks s.time.calendar).queuesKept
  have hended : QueuesKept s s.restartedBlocks :=
    (hblocks.trans hclosed).trans (LoopFrame.restartReadout _).queuesKept
  rw [State.warmStart_whole]
  exact hended

theorem QueuesKept.warmStartPart (s : State) (b : StartBreak) : QueuesKept s (s.warmStartPart b) :=
  (MeterFrame.partClosed s b).queuesKept.trans (LoopFrame.warmStartPart s b).queuesKept

/-- No turn of the part puts a command into the queue or an octet on the line, or takes one (log 3). -/
theorem Turn.queuesKept (h : Turn s t) : QueuesKept s t := by
  cases h
  case still | reading | invalidMark | configure | reconfigure | remove | hold | release | load | activate | clearStatus
      | clearBits | decoder | pins | loss | cold => exact ⟨rfl, rfl⟩
  case mark order c _ _ => exact (TimedFrame.takeTime s order c).queuesKept
  case advance order c _ _ _ => exact (TimedFrame.selfAdvance s order c).queuesKept
  case clock a _ _ _ _ => exact (MeterFrame.applyClock s a).queuesKept
  case close => exact (MeterFrame.startClose s).queuesKept
  case warm p _ => exact QueuesKept.trans (t := { s with supply := p }) ⟨rfl, rfl⟩ (.warmStart _)
  case broken p b => exact QueuesKept.trans (t := { s with supply := p }) ⟨rfl, rfl⟩ (.warmStartPart _ b)

theorem Moved.queuesKept (h : Moved s t) : QueuesKept s t := by
  obtain ⟨u, v, hbefore, hturn, hafter⟩ := h
  exact (hbefore.queuesKept.trans hturn.queuesKept).trans hafter.queuesKept

end

/-- No arm of `exec` faults or refuses. -/
theorem exec_answers (c : Instr) (s : State) : ∃ t : State, exec c s = .next t := by
  cases c <;> exact ⟨_, rfl⟩

theorem step_front {s : State} {c : Instr} {rest : List Instr} (h : s.pending = c :: rest) :
    step s = exec c { s with pending := rest } := by
  unfold step
  rw [h]

/-! ## A part that is held or unsupplied -/

section
variable {s : State} (hdead : s.live = false)
include hdead

theorem State.takeRequest_dead (k : RequestKind) (r : Request) (forUs : Bool) (rule : State → Answer) :
    s.takeRequest k r forUs rule = s := State.receive_dead _ _ hdead

/-- A frame that arrives at a part that is held or unsupplied is not seen, whatever row spells it (R183, R185). -/
theorem exec_frame_dead {c : Instr} {f : Frame} (hf : c.frame? = some f) : exec c s = .next s := by
  cases c
  case selfAdvance | frameDiscard | truncatedFrame | frameSent | readoutSearch | readoutEmit | readoutEnd
      | restartWarmStart | supwarn | powerUp | resetn | resetnRelease | strayOctet | supplyLoss | vbakFailure =>
    exact nomatch hf
  case mark | reading | passThroughFrame => exact congrArg Host.Outcome.next (State.receive_dead _ _ hdead)
  case unknownRequest a p => simp only [exec, execUnknownRequest, State.receive_dead _ _ hdead, ite_self]
  -- What is left is the rows of a REQUEST of a known kind.
  all_goals exact congrArg Host.Outcome.next (State.takeRequest_dead hdead _ _ _ _)

theorem exec_selfAdvance_dead (order : List (Fin 4)) : exec (.selfAdvance order) s = .next s := by
  simp only [exec, execSelfAdvance, hdead, Bool.false_eq_true, false_and, if_false]

theorem exec_strayOctet_dead (o : Byte) : exec (.strayOctet o) s = .next s := by
  simp only [exec, execStrayOctet, hdead, Bool.false_eq_true, false_and, if_false]

theorem exec_frameDiscard_dead (fault : DiscardFault) : exec (.frameDiscard fault) s = .next s := by
  simp only [exec, execFrameDiscard, hdead, Bool.false_eq_true, if_false]

theorem exec_truncatedFrame_dead (octets : List Byte) : exec (.truncatedFrame octets) s = .next s := by
  simp only [exec, execTruncatedFrame, hdead, Bool.false_eq_true, if_false]

/-- The readout unit makes no step in a part that is held or unsupplied. -/
theorem exec_readoutSteps_dead :
    exec .readoutSearch s = .next s ∧ exec .readoutEmit s = .next s ∧ exec .readoutEnd s = .next s := by
  simp only [exec, execReadoutSearch, execReadoutEmit, execReadoutEnd, hdead, Bool.false_eq_true, if_false, and_self]

end

/-! ## Supply, pins and the starts that come to their end -/

section
variable {s : State}

theorem exec_resetn_whole (hv : s.supply.vdd = true) (hr : s.supply.resetnLow = false) :
    exec (.resetn none) s = .next (State.warmStart { s with supply := { s.supply with resetnLow := true } }) := by
  simp only [exec, execResetn, hv, hr, Bool.false_eq_true, if_false, if_true, State.takeWarmStart]

theorem exec_resetnRelease (hr : s.supply.resetnLow = true) : exec .resetnRelease s = .next
    { s with supply := { s.supply with resetnLow := false }, port := { s.port with framer := .hunt } } := by
  simp only [exec, execResetnRelease, hr, if_true, State.huntFramer]

theorem exec_supplyLoss (hv : s.supply.vdd = true) : exec .supplyLoss s = .next s.loseSupply := by
  simp only [exec, execSupplyLoss, hv, if_true]

theorem exec_vbakFailure (hv : s.supply.vdd = false) : exec .vbakFailure s = .next (s.coldDomain false false) := by
  simp only [exec, execVbakFailure, hv, Bool.false_eq_true, if_false]

theorem exec_powerUp_warm (hv : s.supply.vdd = false) (hr : s.supply.retention = true) :
    exec (.powerUp none) s = .next (State.warmStart { s with supply := { s.supply with vdd := true } }) := by
  simp only [exec, execPowerUp, hv, hr, Bool.false_eq_true, if_false, if_true, State.takeWarmStart]

theorem exec_powerUp_cold (hv : s.supply.vdd = false) (hr : s.supply.retention = false) :
    exec (.powerUp none) s = .next (State.coldStart { s with supply := { s.supply with vdd := true } }) := by
  simp only [exec, execPowerUp, hv, hr, Bool.false_eq_true, if_false, State.takeColdStart]

/-- SUPPLY_WARN alone, raised after a reset, and no attention bit, the mask being empty (R179, R190). -/
theorem State.reset_warned : (State.reset.raiseDevice .supplyWarn).attention =
    { flags := 1024, mask := 0, bit := false } := by decide

/-- A cold start leaves every block at its reset value and the pins as they are; with SUPWARN high it ends with
SUPPLY_WARN raised (R184, R188). -/
theorem State.coldStart_whole (s : State) : s.coldStart = { s.coldDomain true true with
    attention := { flags := if s.supply.supwarn then 1024 else 0, mask := 0, bit := false } } := by
  have hattention : (if s.supply.supwarn then ((s.coldDomain true true).raiseDevice .supplyWarn).attention
      else (s.coldDomain true true).attention) =
      { flags := if s.supply.supwarn then 1024 else 0, mask := 0, bit := false } := by
    cases s.supply.supwarn
    · rfl
    · exact State.reset_warned
  rw [State.coldStart, State.completeStart_idle _ rfl, ← hattention]
  rfl

end

/-! ## The state after reset -/

theorem State.reset_unused (i : Fin 32) : State.reset.points[i] = none := by simp [State.reset]

/-- What is said of every configured point holds after reset, where none is configured. -/
theorem State.reset_allPoints (R : Point → Prop) : State.reset.AllPoints R := fun i _ hp =>
  absurd (State.reset_unused i ▸ hp) nofun

/-- The invariants of every block hold after reset. -/
theorem State.reset_safe : State.reset.Safe where
  port := ⟨Nat.zero_le _, Nat.zero_le _, Nat.zero_le _⟩
  lock := fun _ => rfl
  time := State.timeConsistent_unset rfl rfl rfl rfl
  clocks := (State.clocksValid_iff _).2 (by decide)
  tariff := ⟨TariffSet.neverLoaded_inRange, TariffSet.neverLoaded_inRange⟩
  points := State.reset_allPoints Point.InRange
  holds := (State.reset.coldDomain_metered true true).holds
  gaps := State.reset_allPoints Point.GapAccepted
  subs := (State.reset.coldDomain_metered true true).subs
  periods := (State.reset.coldDomain_metered true true).periods
  shares := State.reset.reset_sharesWithinPeak true true
  history := History.cold_ordered

end Sys2Proof.Machine

namespace Sys2Proof.Proofs

open Sys2Proof.Machine Sys2Proof.Statements

/-- Settles O1: the front of the queue is the first thing a step looks at. -/
theorem stepRunsFrontCommand : Obligations.StepRunsFrontCommand :=
  fun _ _ _ => step_front

/-- Settles O3: a command is at most one turn between two moves of the loop, none of which touches queue or line. -/
theorem execAnswersNextAndKeepsQueues : Obligations.ExecAnswersNextAndKeepsQueues := by
  intro c s
  obtain ⟨t, ht⟩ := exec_answers c s
  exact ⟨t, ht, (exec_moved ht).queuesKept⟩

/-- Settles O14: every such command looks first whether the part is live. -/
theorem heldPartTakesNothing : Obligations.HeldPartTakesNothing := by
  intro s hs
  have hdead : s.live = false := Bool.eq_false_iff.2 (mt live_iff.1 hs)
  exact ⟨fun _ _ => exec_frame_dead hdead, exec_selfAdvance_dead hdead, exec_frameDiscard_dead hdead,
    exec_truncatedFrame_dead hdead, exec_strayOctet_dead hdead, exec_readoutSteps_dead hdead⟩

/-- Settles O60: the invariants are `State.reset_safe`; the values are the definition of `State.reset`. -/
theorem resetMeetsEveryInvariant : Obligations.ResetMeetsEveryInvariant :=
  ⟨State.reset_safe, rfl, rfl, rfl, fun _ hset => by rw [hset]; rfl, rfl, rfl, rfl, rfl, rfl, rfl, rfl⟩

/-- Settles O43: each event by its own equation; the cold start by `State.coldStart_whole`. -/
theorem supplyAndResetnMakeStarts : Obligations.SupplyAndResetnMakeStarts := by
  intro s
  refine ⟨exec_resetn_whole, exec_resetnRelease, fun hv => ?loss, fun hv => ⟨exec_powerUp_warm hv, ?cold, ?failure⟩⟩
  case loss =>
    exact ⟨s.loseSupply, exec_supplyLoss hv, rfl, rfl, rfl, rfl, rfl, rfl, rfl, rfl, rfl, rfl, rfl, rfl, rfl, rfl, rfl⟩
  case cold => exact fun hr => ⟨_, exec_powerUp_cold hv hr, State.coldStart_whole _⟩
  case failure => exact ⟨_, exec_vbakFailure hv,
      congrArg (fun vdd => { s.supply with vdd := vdd, retention := false }) hv.symm, rfl, rfl, rfl, rfl⟩

end Sys2Proof.Proofs
end
